-- ==== Sys2Proof/Word.lean ====
section
/-! DEFINITION. The word types of the machine: 32-bit registers and addresses (R2), 8-bit bytes (R16). -/

namespace Sys2Proof

/-- A 32-bit register value or address (R2). -/
abbrev Word := BitVec 32

/-- A byte of memory (R16). -/
abbrev Byte := BitVec 8

/-- A 16-bit instruction unit (R570). -/
abbrev Half := BitVec 16

/-- The number of a general register, x[0] to x[31] (R41). -/
abbrev Reg := Fin 32

end Sys2Proof
end

