-- ==== Sys2Proof/Machine/Bits.lean ====
section
/-! DEFINITION. Bit fields, sign extension and byte order: the helpers every other file reads words with (R14, R15,
R21, R362). -/

namespace Sys2Proof.Machine

/-- `v[lo + n - 1 : lo]`, the field of `n` bits from bit `lo` (R14). -/
def field {w : Nat} (v : BitVec w) (lo n : Nat) : BitVec n := v.extractLsb' lo n

/-- `v[i]`, one bit (R14). -/
def bit {w : Nat} (v : BitVec w) (i : Nat) : Bool := v.getLsbD i

/-- Ones in the `n` bits from bit `lo`, zeros elsewhere. -/
def fieldMask (lo n : Nat) : Word := (BitVec.allOnes n).setWidth 32 <<< lo

/-- `v` with the `n` bits from bit `lo` replaced by `x`. -/
def setField (v : Word) (lo : Nat) {n : Nat} (x : BitVec n) : Word :=
  (v &&& ~~~(fieldMask lo n)) ||| (x.setWidth 32 <<< lo)

/-- `v` with bit `i` replaced by `b`. -/
def setBit (v : Word) (i : Nat) (b : Bool) : Word := setField v i (BitVec.ofBool b)

/-- The word whose only bit that can be 1 is bit `i`. -/
def bitAt (i : Nat) (b : Bool) : Word := if b then 1#32 <<< i else 0#32

/-- A field placed at bit `lo` of an otherwise zero word. -/
def fieldAt (lo : Nat) {n : Nat} (x : BitVec n) : Word := x.setWidth 32 <<< lo

/-- `sext_N(v)` of R21. -/
def sext {n : Nat} (v : BitVec n) : Word := v.signExtend 32

/-- `zext_N(v)` of R21. -/
def zext {n : Nat} (v : BitVec n) : Word := v.setWidth 32

/-- A number of a general register from its 5-bit encoding field (R580). -/
def regOf (v : BitVec 5) : Reg := v.toFin

/-- The 5-bit encoding field of a general register (R580). -/
def regBits (r : Reg) : BitVec 5 := BitVec.ofFin r

/-- The bytes of a halfword, most significant first: how an instruction lies in memory (R363, R570). -/
def halfBytes (h : Half) : List Byte := [field h 8 8, field h 0 8]

/-- The bytes of a word, most significant first. -/
def wordBytes (v : Word) : List Byte := [field v 24 8, field v 16 8, field v 8 8, field v 0 8]

/-- A value from its bytes, the first byte the most significant. -/
def fromBytesBE : List Byte → Word
  | [] => 0#32
  | bs => bs.foldl (fun acc b => (acc <<< 8) ||| b.setWidth 32) 0#32

/-- `MemRead`'s assembly of R362: the bytes from the lowest address up. -/
def assemble (big : Bool) (bs : List Byte) : Word := fromBytesBE (if big then bs else bs.reverse)

/-- `MemWrite`'s bytes of a 4-byte datum (R362), from the lowest address up. -/
def disassemble (big : Bool) (v : Word) : List Byte := if big then wordBytes v else (wordBytes v).reverse

end Sys2Proof.Machine
end

