-- ==== Sys2Proof/Syntax.lean ====
section
/-! DEFINITION. The instructions: one constructor per row of the opcode table (30_encoding.md R580 to R586,
40_tlbop.md R630). Operands keep the manual's names and the widths of their encoding fields. -/

namespace Sys2Proof

/-- The instructions of the opcode table. -/
inductive Instr where
  /-- MFSR Rt, SR (R641): `sr` is the 10-bit system register index of R560. -/
  | mfsr (rt : Reg) (sr : BitVec 10)
  /-- MTSR Ra, SR (R640). -/
  | mtsr (ra : Reg) (sr : BitVec 10)
  /-- SETEND.L (R652). -/
  | setendL
  /-- SETEND.B (R652). -/
  | setendB
  /-- DSB (R644). -/
  | dsb
  /-- ISB (R645). -/
  | isb
  /-- MSYNC with its 3-bit subtype (R646): 0 all, 1 store. -/
  | msync (sub : BitVec 3)
  /-- IRET (R647). -/
  | iret
  /-- CCTL Ra, L1D_VA_WB (R650). -/
  | cctlL1dVaWb (ra : Reg)
  /-- BREAK swid (R660). -/
  | brk (swid : BitVec 15)
  /-- BREAK16 swid (R661). -/
  | break16 (swid : BitVec 9)
  /-- SYSCALL swid (R662). -/
  | syscall (swid : BitVec 15)
  /-- TRAP swid (R663). -/
  | trap (swid : BitVec 15)
  /-- DIV Dt, Ra, Rb (R664): `dt` false names d0, true names d1. -/
  | div (dt : Bool) (ra rb : Reg)
  /-- DIVS Dt, Ra, Rb (R664). -/
  | divs (dt : Bool) (ra rb : Reg)
  /-- TLBOP Rx, TRD (R601, R488). -/
  | tlbopTrd (ra : Reg)
  /-- TLBOP Rx, TWR (R602, R489). -/
  | tlbopTwr (ra : Reg)
  /-- TLBOP Rx, RWR (R603). -/
  | tlbopRwr (ra : Reg)
  /-- TLBOP Rx, RWLK (R604). -/
  | tlbopRwlk (ra : Reg)
  /-- TLBOP Rx, UNLK (R606). -/
  | tlbopUnlk (ra : Reg)
  /-- TLBOP Rx, INV (R609). -/
  | tlbopInv (ra : Reg)
  /-- TLBOP Rt, Rx, PB (R607). -/
  | tlbopPb (rt ra : Reg)
  /-- TLBOP FLUA (R608). -/
  | tlbopFlua
  /-- LW_VLPT Rt, [Ra + (imm << 2)] (R630): the effective address is formed as for LWI; it has no encoding. -/
  | lwVlpt (rt ra : Reg) (imm : BitVec 15)
  /-- MOVI Rt, imm20s (R586). -/
  | movi (rt : Reg) (imm : BitVec 20)
  /-- SETHI Rt, imm20u (R586). -/
  | sethi (rt : Reg) (imm : BitVec 20)
  /-- ORI Rt, Ra, imm15u (R586). -/
  | ori (rt ra : Reg) (imm : BitVec 15)
  /-- ANDI Rt, Ra, imm15u (R586). -/
  | andi (rt ra : Reg) (imm : BitVec 15)
  /-- ADDI Rt, Ra, imm15s (R586). -/
  | addi (rt ra : Reg) (imm : BitVec 15)
  /-- LWI Rt, [Ra + (imm15s << 2)] (R586). -/
  | lwi (rt ra : Reg) (imm : BitVec 15)
  /-- SWI Rt, [Ra + (imm15s << 2)] (R586). -/
  | swi (rt ra : Reg) (imm : BitVec 15)
  /-- BEQZ Rt, imm16s (R586). -/
  | beqz (rt : Reg) (imm : BitVec 16)
  /-- BNEZ Rt, imm16s (R586). -/
  | bnez (rt : Reg) (imm : BitVec 16)
  /-- J imm24s (R586). -/
  | j (imm : BitVec 24)
  deriving DecidableEq, Repr

end Sys2Proof
end

