-- ==== Sys2Proof/WellFormed.lean ====
section
/-! DEFINITION. Well-formed instructions: those that have an encoding. Operand ranges are carried by the types
of `Instr`, so the only check left is that the instruction has binary words at all (R630: LW_VLPT has none). -/

namespace Sys2Proof

/-- Whether 30_encoding.md gives the instruction a bit pattern: every row but LW_VLPT (R630, "Encoding: not in
source, and none is supplied"). -/
def Instr.hasEncoding : Instr → Bool
  | .lwVlpt .. => false
  | .mfsr .. | .mtsr .. | .setendL | .setendB | .dsb | .isb | .msync .. | .iret | .cctlL1dVaWb .. | .brk ..
  | .break16 .. | .syscall .. | .trap .. | .div .. | .divs .. | .tlbopTrd .. | .tlbopTwr .. | .tlbopRwr ..
  | .tlbopRwlk .. | .tlbopUnlk .. | .tlbopInv .. | .tlbopPb .. | .tlbopFlua | .movi .. | .sethi .. | .ori ..
  | .andi .. | .addi .. | .lwi .. | .swi .. | .beqz .. | .bnez .. | .j .. => true

/-- A well-formed instruction is one that some word encodes. -/
def WellFormed (i : Instr) : Bool := i.hasEncoding

end Sys2Proof
end

