-- ==== Sys2Proof/Decode.lean ====
section
/-! DEFINITION. Decoding and encoding (30_encoding.md R570, R580 to R586). The patterns are the spec's general
knowledge, not the manual's (log 16). -/

namespace Sys2Proof

open Machine

/-- Why bytes are no instruction of the table. -/
inductive Reject where
  /-- Fewer bytes than the instruction is long. -/
  | truncated
  /-- A 16-bit pattern that R584 does not assign. -/
  | unassigned16 (h : Half)
  /-- A 32-bit pattern that R580 to R586 do not assign (R575). -/
  | unassigned32 (w : Word)
  deriving DecidableEq, Repr

/-- A 16-bit instruction (R584): `BREAK16 swid9 = 0xEA00 | swid9`. -/
def decode16 (h : Half) : Except Reject Instr :=
  if field h 9 7 = 0b1110101#7 then .ok (.break16 (field h 0 9)) else .error (.unassigned16 h)

/-- The TLBOPs with a register Ra and no Rt, by the subtype in bits 9:5 (R582). -/
def decodeTlbopRa (w : Word) : Option Instr :=
  let ra := regOf (field w 15 5)
  if field w 5 5 = 0#5 then some (.tlbopTrd ra)
  else if field w 5 5 = 1#5 then some (.tlbopTwr ra)
  else if field w 5 5 = 2#5 then some (.tlbopRwr ra)
  else if field w 5 5 = 3#5 then some (.tlbopRwlk ra)
  else if field w 5 5 = 4#5 then some (.tlbopUnlk ra)
  else if field w 5 5 = 6#5 then some (.tlbopInv ra)
  else none

/-- The TLBOP group (R582): bits 14:10 are 0. For every subtype but PB the Rt field is 0; for FLUA the Ra field
too. -/
def decodeTlbop (w : Word) : Option Instr :=
  if field w 10 5 ≠ 0#5 then none
  else if field w 5 5 = 5#5 then some (.tlbopPb (regOf (field w 20 5)) (regOf (field w 15 5)))
  else if field w 20 5 ≠ 0#5 then none
  else if field w 5 5 = 7#5 then (if field w 15 5 = 0#5 then some .tlbopFlua else none)
  else decodeTlbopRa w

/-- MTSR, and SETEND (R583), which is the MTSR pattern of PSW with bits 9:5 = 1 and BE in the Ra field. -/
def decodeMtsr (w : Word) : Option Instr :=
  let hi := field w 20 5
  let sr := field w 10 10
  if field w 5 5 = 0#5 then some (.mtsr (regOf hi) sr)
  else if field w 5 5 = 1#5 ∧ sr = 0x080#10 ∧ hi = 0#5 then some .setendL
  else if field w 5 5 = 1#5 ∧ sr = 0x080#10 ∧ hi = 1#5 then some .setendB
  else none

/-- The sub-opcodes of the MISC group with no Rt and an operand in bits 19:5 (R581). R581 lists Rt among the fields of
CCTL, R650 gives L1D_VA_WB only Ra, and what its word with another Rt than 0 does is not stated: DESIGN CHOICE (log 16):
it is no instruction of the table, as `decodeMisc` sees to, and raises Reserved instruction. -/
def decodeMiscOperand (w : Word) : Option Instr :=
  let sub := field w 0 5
  let swid := field w 5 15
  if sub = 0x0A#5 then some (.brk swid)
  else if sub = 0x0B#5 then some (.syscall swid)
  else if sub = 0x05#5 then some (.trap swid)
  else if sub = 0x01#5 ∧ field w 5 10 = 0b01001#10 then some (.cctlL1dVaWb (regOf (field w 15 5)))
  else if sub = 0x0C#5 ∧ field w 8 12 = 0#12 then some (.msync (field w 5 3))
  else none

/-- The sub-opcodes of the MISC group with no operand: bits 24:5 are 0 (R581). -/
def decodeMiscBare (w : Word) : Option Instr :=
  if field w 5 15 ≠ 0#15 then none
  else if field w 0 5 = 0x04#5 then some .iret
  else if field w 0 5 = 0x08#5 then some .dsb
  else if field w 0 5 = 0x09#5 then some .isb
  else none

/-- The MISC group (R581, R583): bits 31:25 are 0b0110010, the sub-opcode is bits 4:0. STANDBY, TEQZ, TNEZ, ISYNC
and the other CCTL sub-operations are outside the spec and are rejected (R575, R670). So is, by the choice of log 16, a
word with Rt other than 0 whose sub-opcode is not MFSR, MTSR or TLBOP: a CCTL L1D_VA_WB with an Rt among them. -/
def decodeMisc (w : Word) : Option Instr :=
  if field w 0 5 = 0x02#5 then
    (if field w 5 5 = 0#5 then some (.mfsr (regOf (field w 20 5)) (field w 10 10)) else none)
  else if field w 0 5 = 0x03#5 then decodeMtsr w
  else if field w 0 5 = 0x0E#5 then decodeTlbop w
  else if field w 20 5 ≠ 0#5 then none
  else
    match decodeMiscOperand w with
    | some i => some i
    | none => decodeMiscBare w

/-- DIV and DIVS (R585): ALU_2, Dt in bit 21, the bits not listed 0. -/
def decodeAlu2 (w : Word) : Option Instr :=
  let dt := bit w 21
  let ra := regOf (field w 15 5)
  let rb := regOf (field w 10 5)
  if field w 22 3 ≠ 0#3 ∨ bit w 20 ∨ field w 6 4 ≠ 0#4 then none
  else if field w 0 6 = 0x2F#6 then some (.div dt ra rb)
  else if field w 0 6 = 0x2E#6 then some (.divs dt ra rb)
  else none

/-- BEQZ and BNEZ by bits 19:16, and J (R586). -/
def decodeBranch (w : Word) : Option Instr :=
  let rt := regOf (field w 20 5)
  if field w 25 7 = 0x24#7 then (if bit w 24 then none else some (.j (field w 0 24)))
  else if field w 25 7 ≠ 0x27#7 then none
  else if field w 16 4 = 2#4 then some (.beqz rt (field w 0 16))
  else if field w 16 4 = 3#4 then some (.bnez rt (field w 0 16))
  else none

/-- The instructions with a 15-bit or a 20-bit immediate (R586). -/
def decodeImm (w : Word) : Option Instr :=
  let op := field w 25 7
  let rt := regOf (field w 20 5)
  let ra := regOf (field w 15 5)
  let imm15 := field w 0 15
  if op = 0x22#7 then some (.movi rt (field w 0 20))
  else if op = 0x23#7 then some (.sethi rt (field w 0 20))
  else if op = 0x2C#7 then some (.ori rt ra imm15)
  else if op = 0x2A#7 then some (.andi rt ra imm15)
  else if op = 0x28#7 then some (.addi rt ra imm15)
  else if op = 0x02#7 then some (.lwi rt ra imm15)
  else if op = 0x0A#7 then some (.swi rt ra imm15)
  else none

/-- A 32-bit instruction, by bits 31:25 (R580, R586). -/
def decode32? (w : Word) : Option Instr :=
  if field w 25 7 = 0x32#7 then decodeMisc w
  else if field w 25 7 = 0x21#7 then decodeAlu2 w
  else
    match decodeImm w with
    | some i => some i
    | none => decodeBranch w

/-- A 32-bit instruction, or its rejection by name. -/
def decode32 (w : Word) : Except Reject Instr :=
  match decode32? w with
  | some i => .ok i
  | none => .error (.unassigned32 w)

/-- Whether the first halfword of an instruction is the whole of it (R570): bit 15 is 1. -/
def isShort (h : Half) : Bool := bit h 15

/-- The instruction at the head of a list of bytes, the byte at the lowest address first, and the bytes after it.
Total: every list gives an instruction or a rejection. -/
def decode : List Byte → Except Reject (Instr × List Byte)
  | b0 :: b1 :: rest =>
    if isShort (b0 ++ b1) then
      match decode16 (b0 ++ b1) with
      | .ok i => .ok (i, rest)
      | .error r => .error r
    else
      match rest with
      | b2 :: b3 :: rest' =>
        match decode32 (b0 ++ b1 ++ b2 ++ b3) with
        | .ok i => .ok (i, rest')
        | .error r => .error r
      | _ => .error .truncated
  | _ => .error .truncated

/-- The pattern of a 32-bit instruction in the MISC group: Rt field, bits 19:5, sub-opcode (R581). -/
def miscWord (rt : BitVec 5) (mid : BitVec 15) (sub : BitVec 5) : Word := 0x32#7 ++ rt ++ mid ++ sub

/-- The pattern of a TLBOP (R582). -/
def tlbopWord (rt ra : BitVec 5) (sub : BitVec 5) : Word := miscWord rt (ra ++ 0#5 ++ sub) 0x0E#5

/-- The pattern of an instruction with Rt, Ra and a 15-bit immediate (R586). -/
def immWord (op : BitVec 7) (rt ra : Reg) (imm : BitVec 15) : Word := op ++ regBits rt ++ regBits ra ++ imm

/-- The bytes of an instruction, the byte at the lowest address first (R570, R580 to R586); no byte for the one
instruction without an encoding (R630). -/
def encode : Instr → List Byte
  | .mfsr rt sr => wordBytes (miscWord (regBits rt) (sr ++ 0#5) 0x02#5)
  | .mtsr ra sr => wordBytes (miscWord (regBits ra) (sr ++ 0#5) 0x03#5)
  | .setendL => wordBytes (miscWord 0#5 (0x080#10 ++ 1#5) 0x03#5)
  | .setendB => wordBytes (miscWord 1#5 (0x080#10 ++ 1#5) 0x03#5)
  | .dsb => wordBytes (miscWord 0#5 0#15 0x08#5)
  | .isb => wordBytes (miscWord 0#5 0#15 0x09#5)
  | .msync sub => wordBytes (miscWord 0#5 (0#12 ++ sub) 0x0C#5)
  | .iret => wordBytes (miscWord 0#5 0#15 0x04#5)
  | .cctlL1dVaWb ra => wordBytes (miscWord 0#5 (regBits ra ++ 0b01001#10) 0x01#5)
  | .brk swid => wordBytes (miscWord 0#5 swid 0x0A#5)
  | .break16 swid => halfBytes (0b1110101#7 ++ swid)
  | .syscall swid => wordBytes (miscWord 0#5 swid 0x0B#5)
  | .trap swid => wordBytes (miscWord 0#5 swid 0x05#5)
  | .div dt ra rb => wordBytes (0x21#7 ++ 0#3 ++ BitVec.ofBool dt ++ 0#1 ++ regBits ra ++ regBits rb ++ 0x02F#10)
  | .divs dt ra rb => wordBytes (0x21#7 ++ 0#3 ++ BitVec.ofBool dt ++ 0#1 ++ regBits ra ++ regBits rb ++ 0x02E#10)
  | .tlbopTrd ra => wordBytes (tlbopWord 0#5 (regBits ra) 0#5)
  | .tlbopTwr ra => wordBytes (tlbopWord 0#5 (regBits ra) 1#5)
  | .tlbopRwr ra => wordBytes (tlbopWord 0#5 (regBits ra) 2#5)
  | .tlbopRwlk ra => wordBytes (tlbopWord 0#5 (regBits ra) 3#5)
  | .tlbopUnlk ra => wordBytes (tlbopWord 0#5 (regBits ra) 4#5)
  | .tlbopInv ra => wordBytes (tlbopWord 0#5 (regBits ra) 6#5)
  | .tlbopPb rt ra => wordBytes (tlbopWord (regBits rt) (regBits ra) 5#5)
  | .tlbopFlua => wordBytes (tlbopWord 0#5 0#5 7#5)
  | .lwVlpt _ _ _ => []
  | .movi rt imm => wordBytes (0x22#7 ++ regBits rt ++ imm)
  | .sethi rt imm => wordBytes (0x23#7 ++ regBits rt ++ imm)
  | .ori rt ra imm => wordBytes (immWord 0x2C#7 rt ra imm)
  | .andi rt ra imm => wordBytes (immWord 0x2A#7 rt ra imm)
  | .addi rt ra imm => wordBytes (immWord 0x28#7 rt ra imm)
  | .lwi rt ra imm => wordBytes (immWord 0x02#7 rt ra imm)
  | .swi rt ra imm => wordBytes (immWord 0x0A#7 rt ra imm)
  | .beqz rt imm => wordBytes (0x27#7 ++ regBits rt ++ 2#4 ++ imm)
  | .bnez rt imm => wordBytes (0x27#7 ++ regBits rt ++ 3#4 ++ imm)
  | .j imm => wordBytes (0x24#7 ++ 0#1 ++ imm)

/-- The bytes of an instruction whose bits are `w` and whose table row has `nbits` bits, as they lie in memory: a
16-bit row is one halfword, followed by zeros; a 32-bit row is one word (R570). -/
def tableBytes (nbits w : Nat) : List Byte :=
  if nbits ≤ 16 then halfBytes (BitVec.ofNat 16 w) ++ [0#8, 0#8] else wordBytes (BitVec.ofNat 32 w)

/-- The instruction the decoder reads from an instruction word numbered as the opcode table numbers it. -/
def decodeTableWord (nbits w : Nat) : Option Instr :=
  match decode (tableBytes nbits w) with
  | .ok (i, _) => some i
  | .error _ => none

end Sys2Proof
end

