-- ==== Sys2Proof/Config.lean ====
section
/-! DEFINITION. What an implementation fixes (00_scope.md R8, 93_implementation_defined.md part 2), the default
instantiation CFG_EX (R11), and the free values: opaque constants for every value the spec leaves open (log 1). -/

namespace Sys2Proof

/-- What serves a region of physical addresses (PLATFORM_MEMORY_MAP, 92_eei_decisions.md). -/
inductive RegionKind where
  /-- Idempotent memory. ROM has no kind of its own: a store to it changes it (log 12). -/
  | ram
  /-- A device with an environment-defined behaviour: reads give free values, writes are only recorded (log 12). -/
  | device
  /-- Nothing: an access is a bus error (R835). -/
  | unserved
  deriving DecidableEq, Repr

/-- One region of PLATFORM_MEMORY_MAP: `size` bytes from physical address `base`. -/
structure MemRegion where
  base : Nat
  size : Nat
  kind : RegionKind
  deriving DecidableEq, Repr

/-- The groups of state a warm reset may keep (WARM_RESET_KEEPS, R923). -/
inductive WarmItem where
  | generalRegs | dxRegs | shadowRegs | tlbRegs | lmBases | hsmpRegs | pfmCounts | dmaRegs | mpuTable
  | localMemories | edmRegs
  deriving DecidableEq, Repr

/-- The parameters of one implementation (R8). The configuration registers are whole words, read through the
field accessors of Machine/Params.lean. -/
structure Config where
  /-- cr0 CPU_VER (R46). -/
  cpuVer : Word
  /-- cr1 ICM_CFG (R47). -/
  icmCfg : Word
  /-- cr2 DCM_CFG (R48). -/
  dcmCfg : Word
  /-- cr3 MMU_CFG (R49). -/
  mmuCfg : Word
  /-- cr4 MSC_CFG (R52). -/
  mscCfg : Word
  /-- cr5 CORE_ID.COREID (R53); `coreIdBits` is COREID_BITS. -/
  coreId : Word
  coreIdBits : Nat
  /-- cr6 FUCOP_EXIST (R54). -/
  fucopExist : Word
  /-- dmar0 DMA_CFG (R270). -/
  dmaCfg : Word
  /-- dr40 EDM_CFG, its VER (R789) and its BC (R250: number of breakpoint register sets). -/
  edmCfg : Word
  edmVer : BitVec 16
  edmBc : Nat
  /-- IVB_RESET_IVBASE, IVB_RESET_EVIC (R113), MMU_CTL_RESET_DREE (R189). -/
  ivbResetIvbase : BitVec 16
  ivbResetEvic : Bool
  mmuCtlResetDree : Bool
  /-- LARGE_PAGE_SIZE (R437): the page size code the walker uses for LP = 1. -/
  largePageSize : BitVec 4
  /-- HPTWK_TARGET = invisible, with INVISIBLE_TLB a separate set of entries (R401, R402; log 22). -/
  hptwkInvisible : Bool
  /-- DMA_TES8 (R279), DMA_WECNT_MINUS1 (R290). -/
  dmaTes8 : Bool
  dmaWecntMinus1 : Bool
  /-- With DMA_WECNT_MINUS1, a 2-D transfer that leaves Run writes `w - 1` to STWECNT, the value that R290, R291 and R730
  take to restart it, instead of the `w` that R722 prints. The spec settles it nowhere (log 42). -/
  dmaRestartMinus1 : Bool
  /-- ILMB.ILMSZ and DLMB.DLMSZ (R216, R220). -/
  ilmSz : BitVec 4
  dlmSz : BitVec 4
  /-- HSMP_VERSION is 2 (R228). -/
  hsmpVersion2 : Bool
  /-- MMUCTL_MMU_FIELDS_WHEN_NO_MMU is storage (R182). -/
  mmuCtlFieldsStored : Bool
  /-- Existence of MERR (R133) and of idr0, idr1 (R58, R300). -/
  merrExists : Bool
  idrExists : Bool
  /-- The core is an N1003, whose idr registers lack some fields (R303, R304). -/
  n1003 : Bool
  /-- The features whose idr fields exist only where they are configured (R303, R304, R306): branch target buffer,
  return target predictor, two-cycle multiplication (log 54). -/
  idrBtb : Bool
  idrRtp : Bool
  idrTcm : Bool
  /-- The 16 general registers that remain with MSC_CFG.RDREG = 1 (R41, R52; log 7). -/
  reducedRegs : Vector Reg 16
  /-- PM_INT_WIRE, DMA_INT_WIRE (R885): the hardware line each signal drives. -/
  pmIntWire : Option (Fin 6)
  dmaIntWire : Option (Fin 6)
  /-- PLATFORM_MEMORY_MAP (R379); an address in no region is not served. -/
  memMap : List MemRegion
  /-- WARM_RESET_KEEPS (R923). -/
  warmKeeps : List WarmItem
  /-- TLBOP INV may flush further unlocked entries (R609, U20). -/
  invFlushesMore : Bool
  deriving DecidableEq, Repr

/-- CFG_EX, the spec's default instantiation (R11; 95_test_vectors.md section 1). -/
def Config.ex : Config where
  cpuVer := 0x0C100003#32
  icmCfg := 0x000004C0#32
  dcmCfg := 0x000008C0#32
  mmuCfg := 0x4B081B06#32
  mscCfg := 0x0000206E#32
  coreId := 0#32
  coreIdBits := 4
  fucopExist := 0#32
  dmaCfg := 0x0011000D#32
  edmCfg := 0#32
  edmVer := 0#16
  edmBc := 0
  ivbResetIvbase := 0#16
  ivbResetEvic := false
  mmuCtlResetDree := false
  largePageSize := 5#4
  hptwkInvisible := false
  dmaTes8 := false
  dmaWecntMinus1 := false
  dmaRestartMinus1 := false
  ilmSz := 2#4
  dlmSz := 2#4
  hsmpVersion2 := true
  mmuCtlFieldsStored := false
  merrExists := true
  idrExists := false
  n1003 := false
  idrBtb := true
  idrRtp := true
  idrTcm := true
  reducedRegs := #v[0, 1, 2, 3, 4, 5, 6, 7, 8, 9, 10, 15, 28, 29, 30, 31]
  pmIntWire := some 5
  dmaIntWire := some 4
  memMap := [⟨0, 4294967296, .ram⟩]
  warmKeeps := []
  invFlushesMore := false

/-- A free 32-bit value: the first argument is the draw (State.draws), the second tells the values of one draw
apart. Nothing constrains it (log 1). -/
opaque Config.freeWord : Nat → Nat → Word

/-- A free byte (log 1). -/
opaque Config.freeByte : Nat → Nat → Byte

/-- A free bit (log 1). -/
opaque Config.freeBit : Nat → Nat → Bool

/-- A free count (log 1). -/
opaque Config.freeNat : Nat → Nat → Nat

/-- The 64 bits a DIV (`signed` false) or DIVS leaves in Dt when the divisor is zero and INT_MASK.IDIVZE is 0, as
a function of the draw, the instruction and the dividend (R664, U8; log 33). -/
opaque Config.divByZero : Nat → Bool → Word → BitVec 64

end Sys2Proof
end

