-- ==== Sys2Proof/Machine/ResetValues.lean ====
section
/-! DEFINITION. The words that registers hold after reset and that depend on the configuration (R921, R922),
and the bits of the idr registers. -/

namespace Sys2Proof.Machine

/-- PSW after reset: `0x0000000A | MMU_CFG.DE << 5 | MMU_CFG.DRDE << 12` (R921; DE is bit 26, DRDE bit 31, R49). -/
def resetPsw (c : Config) : Word :=
  0x0000000A#32 ||| bitAt 5 (bit c.mmuCfg 26) ||| bitAt 12 (bit c.mmuCfg 31)

/-- IVB after reset: `IVB_RESET_IVBASE << 16 | 0x4000 | IVB_RESET_EVIC << 13` (R921). -/
def resetIvb (c : Config) : Word := (c.ivbResetIvbase ++ 0x4000#16) ||| bitAt 13 c.ivbResetEvic

/-- MMU_CTL after reset: `0x00072000 | DREE << 19` when MMU_CFG.NTME (bit 30) is 1, else `DREE << 19` (R921). -/
def resetMmuCtl (c : Config) : Word :=
  (if bit c.mmuCfg 30 then 0x00072000#32 else 0#32) ||| bitAt 19 c.mmuCtlResetDree

/-- The core is an N10 other than the N1003, whose idr registers lack some fields (R303, R304). -/
def fullN10 (c : Config) : Bool := field c.cpuVer 24 8 == 0x0A#8 && !c.n1003

/-- The bits of SDZ_CTL that exist. On the N12 (R301) all of them; on the N10 and the N9 (R303, R305) those of a
configured feature: ICDZ an instruction cache, DCDZ a data cache, MTBDZ the MMU, BTBDZ the branch target buffer, the
last two on the N10 but for the N1003 (log 54). -/
def sdzMask (c : Config) : Word :=
  if field c.cpuVer 24 8 = 0x0C#8 then 0xFFF#32
  else
    (if field c.icmCfg 6 3 ≠ 0#3 then 0x7#32 else 0#32) ||| (if field c.dcmCfg 6 3 ≠ 0#3 then 0x38#32 else 0#32)
      ||| (if fullN10 c ∧ field c.mmuCfg 0 2 = 2#2 then 0x1C0#32 else 0#32)
      ||| (if fullN10 c ∧ c.idrBtb then 0xE00#32 else 0#32)

/-- The bits of MISC_CTL that exist. On the N12 (R302) BTB, RTP and PTEPF; on the N10 and the N9 (R304, R306) those of a
configured feature: RTP on both, BTB and TCM on the N10 but for the N1003 (log 54). -/
def miscMask (c : Config) : Word :=
  if field c.cpuVer 24 8 = 0x0C#8 then 7#32
  else bitAt 0 (fullN10 c && c.idrBtb) ||| bitAt 1 c.idrRtp ||| bitAt 3 (fullN10 c && c.idrTcm)

/-- idr1 after reset: BTB and RTP are 1 where they exist (R302, R304, R306). -/
def resetMiscCtl (c : Config) : Word := if c.idrExists then 3#32 &&& miscMask c else 0#32

/-- pc after reset: entry 0 of the vector table at its reset base (R922, D36). -/
def resetPc (c : Config) : Word := c.ivbResetIvbase ++ 0#16

end Sys2Proof.Machine
end

