-- ==== Sys2Proof/Machine/State.lean ====
section
/-! DEFINITION. The state of one AndesCore processor (R40), every piece of it plain data, the reasons a step can
stop, and the state after reset (R921). INVENTORY.md lists each item with its rule. -/

namespace Sys2Proof.Machine

/-- The kind of an access to memory (R357). -/
inductive Acc where
  | fetch | load | store
  deriving DecidableEq, Repr

/-- Every interruption the model raises (R811), with what its entry records. `fetch` is the I/D bit: true for an
instruction fetch. Cold and warm reset do not go through the entry procedure (R820). -/
inductive Cause where
  | nmi
  | tlbFill (fetch : Bool) (va : Word)
  | pteNonLeaf (fetch : Bool) (va : Word)
  | pteLeaf (fetch : Bool) (va : Word)
  | readProtection (va : Word)
  | writeProtection (va : Word)
  | nonExecutable (va : Word)
  | pageModified (va : Word)
  | accessBit (fetch : Bool) (va : Word)
  | reservedPte (fetch : Bool) (va : Word)
  | vlptMiss (va : Word)
  | tlbLocking (fetch : Bool) (eva : Word)
  | tlbMultipleHit (fetch : Bool) (eva : Option Word)
  | unimplementedPageSize
  | brk (swid : BitVec 15)
  | break16 (swid : BitVec 15)
  | singleStep
  | insnAlignment (previous : Word)
  | dataAlignment (insn : Word)
  | reservedInstruction
  | trap (swid : BitVec 15)
  | arithmetic (subType : BitVec 4)
  | preciseBusError (acc : Acc) (va : Word)
  | impreciseBusError (fetch : Bool)
  | privilegedInstruction
  | reservedValue
  | nonexistentLocalMemory (fetch : Bool)
  | mpziuControl (fetch : Bool)
  | systemCall (swid : BitVec 15)
  | hardwareInterrupt (line : Fin 6)
  | softwareInterrupt
  | vectoredInterrupt (vep : BitVec 6)
  deriving DecidableEq, Repr

/-- Reasons the machine stops with a fault: situations the spec calls UNPREDICTABLE and gives no effect. -/
inductive Fault where
  /-- Raised by the PTE check of a translated access that uses a reserved C or M value on the two N1213 hard
  cores (R436, U14). Safe: the model claims nothing about what those cores then do. -/
  | unpredictablePte
  /-- Raised by an MTSR to ILMB or DLMB that leaves both bases programmed to the same address (R525, U16).
  Safe: the spec gives no effect. -/
  | equalLocalMemoryBases
  /-- Raised by an access of the core, the walker or the DMA engine that reaches the bus while HSMP_SADDR.EN is 1 and
  RANGE holds a pattern outside the list of R230 (U29). Safe: the spec gives no effect. -/
  | hsmpRangePattern
  deriving DecidableEq, Repr

/-- Reasons an instruction is refused. -/
inductive Refusal where
  /-- Raised by an arm of `exec` whose instruction has no meaning yet. Safe. -/
  | notModelled (mnemonic : String)
  /-- Raised by a DMA Start command that would run a transfer to or from a local memory the implementation lacks
  or whose size is 0 (R710, U24). Safe: the spec does not describe the transfer. -/
  | dmaAbsentLocalMemory
  deriving DecidableEq, Repr

/-- ir0 to ir15 (R100 to R147). Of INT_PEND only SWI is stored: its bits 5:0 follow the inputs. -/
structure IntRegs where
  psw : Word
  ipsw : Word
  pIpsw : Word
  ivb : Word
  eva : Word
  pEva : Word
  itype : Word
  pItype : Word
  merr : Word
  ipc : Word
  pIpc : Word
  oipc : Word
  pP0 : Word
  pP1 : Word
  intMask : Word
  swi : Bool
  deriving DecidableEq, Repr

/-- mr0 to mr10 (R180 to R232). ILMSZ and DLMSZ are parameters, not stored. `ilmbSet` and `dlmbSet` are the model's own:
ILMB, DLMB has been written since reset, so that its base is programmed (R525, log 44). -/
structure MmuRegs where
  mmuCtl : Word
  l1Pptb : Word
  tlbVpn : Word
  tlbData : Word
  tlbMisc : Word
  vlptIdx : Word
  ilmb : Word
  dlmb : Word
  cacheCtl : Word
  hsmpSaddr : Word
  hsmpEaddr : Word
  ilmbSet : Bool
  dlmbSet : Bool
  deriving DecidableEq, Repr

/-- The performance monitoring registers (R255, R257). -/
structure PfmRegs where
  pfmc0 : Word
  pfmc1 : Word
  pfmc2 : Word
  pfmCtl : Word
  deriving DecidableEq, Repr

/-- Access control (R294, R296) and implementation-dependent registers (R301 to R306). -/
structure MiscRegs where
  prusrAccCtl : Word
  fucopCtl : Word
  sdzCtl : Word
  miscCtl : Word
  deriving DecidableEq, Repr

/-- The state a DMA channel is in (R286, R701). -/
inductive DmaStat where
  | idle | run | pended | stopError | complete
  deriving DecidableEq, Repr

/-- The seven error flags of DMA_STATUS (R286). -/
structure DmaErr where
  stuna : Bool
  derr : Bool
  euna : Bool
  iuna : Bool
  ioor : Bool
  ebus : Bool
  esup : Bool
  deriving DecidableEq, Repr

/-- One DMA channel (R700). `wIntOff`, `wExtAddr`, `wCount`, `wRow` are the hidden working values i, e, k, w of a
transfer in progress (R720, R730). -/
structure DmaChan where
  setup : Word
  isaddr : BitVec 20
  esaddr : Word
  tcnt : BitVec 18
  wecnt : BitVec 16
  htstr : BitVec 16
  stwecnt : BitVec 16
  stat : DmaStat
  err : DmaErr
  int : Bool
  seq : Nat
  wIntOff : Nat
  wExtAddr : Word
  wCount : Nat
  wRow : Nat
  deriving DecidableEq, Repr

/-- The DMA engine (R700): DMA_GCSW.EN, DMA_CHNSEL.CHAN, two channels, the next start sequence number. -/
structure DmaEngine where
  en : Bool
  chan : BitVec 2
  ch0 : DmaChan
  ch1 : DmaChan
  nextSeq : Nat
  deriving DecidableEq, Repr

/-- One TLB entry (R403), with its lock flag (R405). -/
structure TlbEntry where
  vpn : BitVec 20
  ppn : BitVec 20
  c : BitVec 3
  g : Bool
  a : Bool
  x : Bool
  d : Bool
  m : BitVec 3
  v : Bool
  cid : BitVec 9
  psz : BitVec 4
  l : Bool
  deriving DecidableEq, Repr

/-- What an entry of the software-visible TLB holds that `Tlb.cells` does not list. -/
inductive TlbFill where
  /-- V = 0, L = 0, every other field free (after reset, D58, and after FLUA, R608, U42): the number is the draw. -/
  | flushed (draw : Nat)
  /-- Every field free (after SDZ_CTL.MTBDZ was written non-zero, U12). -/
  | unknown (draw : Nat)
  deriving DecidableEq, Repr

/-- The software-visible TLB: entries by entry number way * N + set (R406), strictly rising, and what the others
hold. -/
structure Tlb where
  cells : List (Nat × TlbEntry)
  fill : TlbFill
  deriving DecidableEq, Repr

/-- One entry of the MPU table (R481). -/
structure MpuEntry where
  psb : BitVec 20
  hrange : BitVec 17
  c : BitVec 3
  x : BitVec 2
  m : BitVec 3
  v : Bool
  deriving DecidableEq, Repr

/-- Memory: the bytes that differ from what an unlisted address reads as (log 4), addresses strictly rising. -/
abbrev Memory := List Host.Cell

/-- A local memory (R520): bytes by offset, strictly rising. `lost = none`: an unlisted byte reads 0 and no listed
byte is 0; `lost = some d`: an unlisted byte is free, from draw d (R531, U17, U40). -/
structure LocalMem where
  cells : List Host.Cell
  lost : Option Nat
  deriving DecidableEq, Repr

/-- The two kinds of reset (R920). -/
inductive ResetKind where
  | cold | warm
  deriving DecidableEq, Repr

/-- The environment's inputs for one step (R898; log 5). `impBus` is an imprecise bus error reported from outside
(R835): true for the instruction side. -/
structure EnvInput where
  extIrq : BitVec 6
  evicReq : Option (BitVec 6 × BitVec 6)
  nmi : Bool
  reset : Option ResetKind
  impBus : Option Bool
  deriving DecidableEq, Repr

/-- The lines as they stand, the NMI event not yet taken (R821), and the inputs of the steps to come. -/
structure Env where
  extIrq : BitVec 6
  evicReq : Option (BitVec 6 × BitVec 6)
  nmi : Bool
  inputs : List EnvInput
  deriving DecidableEq, Repr

/-- An imprecise exception raised and not yet taken, with the level that generated it (R815, R816). -/
structure PendImp where
  cause : Cause
  level : BitVec 2
  deriving DecidableEq, Repr

/-- What the current step did: whether an instruction completed, how many exceptions and interrupts were taken and
local memory accesses made (for R837 and R882; log 53). -/
structure StepNote where
  completed : Bool
  exceptions : Nat
  interrupts : Nat
  ilm : Nat
  dlm : Nat
  deriving DecidableEq, Repr

/-- One access to a device region (log 12): physical address and bytes written, or the number of bytes read. -/
inductive DevAccess where
  | read (pa : Nat) (bytes : Nat)
  | write (pa : Nat) (data : List Byte)
  deriving DecidableEq, Repr

/-- The whole state of the machine. -/
structure State where
  /-- The implementation's parameters; no step changes them. -/
  cfg : Config
  /-- x[0] to x[31] (R41). With MSC_CFG.RDREG no instruction runs that names one of the 16 absent ones, and only the
  interruption mechanism's copies of P0 and P1 reach them (log 7). -/
  gpr : Vector Word 32
  /-- d0 and d1 (R42). -/
  d0 : BitVec 64
  d1 : BitVec 64
  /-- The program counter (R43). -/
  pc : Word
  /-- The address of the last completed instruction (R60, R832). -/
  prevPc : Word
  ir : IntRegs
  mr : MmuRegs
  pfm : PfmRegs
  misc : MiscRegs
  /-- dr0 to dr47 by number (R250, D17). -/
  edm : Vector Word 48
  tlb : Tlb
  /-- The software-invisible TLB (R401), last inserted first. -/
  itlb : List TlbEntry
  mpu : Vector MpuEntry 8
  dma : DmaEngine
  mem : Memory
  ilm : LocalMem
  dlm : LocalMem
  env : Env
  pendImp : List PendImp
  /-- The single-step event (R837). -/
  stepEvt : Bool
  note : StepNote
  devLog : List DevAccess
  /-- How many draws of free values have been made (log 1). -/
  draws : Nat
  deriving DecidableEq, Repr

/-- A step that has done nothing yet. -/
def StepNote.empty : StepNote := ⟨false, 0, 0, 0, 0⟩

/-- No error flag set. -/
def DmaErr.none : DmaErr := ⟨false, false, false, false, false, false, false⟩

/-- A DMA channel after reset (R921): Idle, set-up 0, the DC registers 0 (log 3). -/
def DmaChan.reset : DmaChan where
  setup := 0#32
  isaddr := 0#20
  esaddr := 0#32
  tcnt := 0#18
  wecnt := 0#16
  htstr := 0#16
  stwecnt := 0#16
  stat := .idle
  err := .none
  int := false
  seq := 0
  wIntOff := 0
  wExtAddr := 0#32
  wCount := 0
  wRow := 0

/-- The DMA engine after reset (R921): disabled, channel 0 selected. -/
def DmaEngine.reset : DmaEngine := ⟨false, 0#2, .reset, .reset, 0⟩

/-- The registers ir0 to ir15 after reset (R921); ITYPE.ETYPE tells a warm reset (R924). -/
def IntRegs.reset (c : Config) (kind : ResetKind) : IntRegs where
  psw := resetPsw c
  ipsw := 0#32
  pIpsw := 0#32
  ivb := resetIvb c
  eva := 0#32
  pEva := 0#32
  itype := match kind with
    | .cold => 0#32
    | .warm => 1#32
  pItype := 0#32
  merr := 0#32
  ipc := 0#32
  pIpc := 0#32
  oipc := 0#32
  pP0 := 0#32
  pP1 := 0#32
  intMask := 0xC0000000#32
  swi := false

/-- The registers mr0 to mr10 after reset (R921). -/
def MmuRegs.reset (c : Config) : MmuRegs where
  mmuCtl := resetMmuCtl c
  l1Pptb := 1#32
  tlbVpn := 0#32
  tlbData := 0#32
  tlbMisc := 0#32
  vlptIdx := 0#32
  ilmb := 0#32
  dlmb := 0#32
  cacheCtl := 0x30#32
  hsmpSaddr := 0#32
  hsmpEaddr := 0#32
  ilmbSet := false
  dlmbSet := false

/-- The machine of configuration `c` right after a reset of kind `kind` (R921 to R924), memory untouched by anything
before: nothing listed. -/
def State.resetOf (c : Config) (kind : ResetKind) : State where
  cfg := c
  gpr := Vector.replicate 32 0#32
  d0 := 0#64
  d1 := 0#64
  pc := resetPc c
  prevPc := resetPc c
  ir := .reset c kind
  mr := .reset c
  pfm := ⟨0#32, 0#32, 0#32, 0#32⟩
  misc := ⟨0#32, 0#32, 0#32, resetMiscCtl c⟩
  edm := Vector.replicate 48 0#32
  tlb := ⟨[], .flushed 0⟩
  itlb := []
  mpu := Vector.replicate 8 ⟨0#20, 0#17, 0#3, 0#2, 0#3, false⟩
  dma := .reset
  mem := []
  ilm := ⟨[], some 0⟩
  dlm := ⟨[], some 1⟩
  env := ⟨0#6, none, false, []⟩
  pendImp := []
  stepEvt := false
  note := .empty
  devLog := []
  draws := 2

/-- The machine right after a cold reset, in the spec's default instantiation CFG_EX (R11, R921, R922). -/
def State.reset : State := State.resetOf Config.ex .cold

end Sys2Proof.Machine
end

