-- ==== Sys2Proof/Machine/Params.lean ====
section
/-! DEFINITION. The fields of the configuration registers (10_state.md R46 to R54, R270), what follows from them, and
which memory serves a physical address (R379). -/

namespace Sys2Proof

open Machine

/-! ## CPU_VER (R46) -/

/-- CPU_VER.CPUID. -/
def Config.cpuid (c : Config) : BitVec 8 := field c.cpuVer 24 8

/-- CPU_VER.CFGID bit 1: the 16-bit extension exists. -/
def Config.ext16 (c : Config) : Bool := bit c.cpuVer 1

/-- CPU_VER[3]: the COP/FPU extension exists. -/
def Config.copExt (c : Config) : Bool := bit c.cpuVer 3

/-- `(CPU_VER.CPUID == 0xC) && (CPU_VER[23:18] == 0x0)`: the two N1213 hard cores (R58). -/
def Config.hardCore (c : Config) : Bool := c.cpuid == 0x0C#8 && field c.cpuVer 18 6 == 0#6

/-! ## ICM_CFG, DCM_CFG (R47, R48) -/

/-- The ILM exists: ICM_CFG.ILMB != 0 (R520). -/
def Config.ilmExists (c : Config) : Bool := field c.icmCfg 10 3 != 0#3

/-- The DLM exists: DCM_CFG.DLMB != 0 (R520). -/
def Config.dlmExists (c : Config) : Bool := field c.dcmCfg 10 3 != 0#3

/-- Double-buffer mode is supported: DCM_CFG.DLMB == 2 (R221). -/
def Config.doubleBuffer (c : Config) : Bool := field c.dcmCfg 10 3 == 2#3

/-- ICM_CFG.BSAV is 1 (R522). -/
def Config.ilmBsav1 (c : Config) : Bool := field c.icmCfg 13 2 == 1#2

/-- DCM_CFG.BSAV is 1 (R522). -/
def Config.dlmBsav1 (c : Config) : Bool := field c.dcmCfg 13 2 == 1#2

/-- CACHE_CTL exists: (ICM_CFG.ISZ != 0) & (DCM_CFG.DSZ != 0) (R58). -/
def Config.cacheCtlExists (c : Config) : Bool := field c.icmCfg 6 3 != 0#3 && field c.dcmCfg 6 3 != 0#3

/-- The size in bytes that an ILMSZ or DLMSZ code names (R216, R220); the reserved codes 11 to 14 and code 15 name
no byte. -/
def Machine.lmSizeOf (code : BitVec 4) : Nat :=
  if code.toNat ≤ 8 then 4096 <<< code.toNat
  else if code = 9#4 then 1024
  else if code = 10#4 then 2048
  else 0

/-- ILM_SIZE. -/
def Config.ilmSize (c : Config) : Nat := lmSizeOf c.ilmSz

/-- DLM_SIZE. -/
def Config.dlmSize (c : Config) : Nat := lmSizeOf c.dlmSz

/-! ## MMU_CFG (R49) -/

/-- MMU_CFG.MMPS: 0 none, 1 MPU, 2 MMU. -/
def Config.mmps (c : Config) : BitVec 2 := field c.mmuCfg 0 2

/-- The scheme is the TLB MMU. -/
def Config.hasMmu (c : Config) : Bool := c.mmps == 2#2

/-- The scheme is the MPU. -/
def Config.hasMpu (c : Config) : Bool := c.mmps == 1#2

/-- MMU_VERSION is 2: MMPV >= 2 (R420, D30). -/
def Config.mmuVersion2 (c : Config) : Bool := 2 ≤ (field c.mmuCfg 2 5).toNat

/-- MMU_CFG.FATB. -/
def Config.fatb (c : Config) : Bool := bit c.mmuCfg 7

/-- log2 of N, the number of sets (R50, R612). -/
def Config.log2Sets (c : Config) : Nat := if c.fatb then 0 else 2 + (field c.mmuCfg 11 3).toNat

/-- N, the number of sets: 4 << TBS, or 1 when fully associative (R50, R612). -/
def Config.tlbSets (c : Config) : Nat := 2 ^ c.log2Sets

/-- K, the number of ways: TBW + 1, or FATBSZ when fully associative (R50, R612). -/
def Config.tlbWays (c : Config) : Nat :=
  if c.fatb then (field c.mmuCfg 8 7).toNat else (field c.mmuCfg 8 3).toNat + 1

/-- The width of the way number in a TLB entry number: ceil(log2(K)) (R406). -/
def Config.wayBits (c : Config) : Nat := ((List.range 8).find? (fun b => c.tlbWays ≤ 2 ^ b)).getD 8

/-- MMU_CFG.EP8MIN4. -/
def Config.ep8min4 (c : Config) : Bool := bit c.mmuCfg 15

/-- MMU_CFG.EPSZ. -/
def Config.epsz (c : Config) : BitVec 8 := field c.mmuCfg 16 8

/-- MMU_CFG.TBLCK. -/
def Config.tblck (c : Config) : Bool := bit c.mmuCfg 24

/-- MMU_CFG.HPTWK. -/
def Config.hptwk (c : Config) : Bool := bit c.mmuCfg 25

/-- MMU_CFG.DE: the default byte order is big endian. -/
def Config.de (c : Config) : Bool := bit c.mmuCfg 26

/-- MMU_CFG.NTPT: four partitions. -/
def Config.ntpt (c : Config) : Bool := bit c.mmuCfg 27

/-- MMU_CFG.VLPT. -/
def Config.vlpt (c : Config) : Bool := bit c.mmuCfg 29

/-- MMU_CFG.NTME. -/
def Config.ntme (c : Config) : Bool := bit c.mmuCfg 30

/-- MMU_CFG.DRDE: the default device byte order is big endian. -/
def Config.drde (c : Config) : Bool := bit c.mmuCfg 31

/-- VLPT_IDX exists: MMU_CFG.MMPS == 2 and the feature is implemented (R58, R464; log 54). -/
def Config.vlptIdxExists (c : Config) : Bool := c.hasMmu && c.vlpt

/-! ## MSC_CFG (R52) -/

/-- MSC_CFG.EDM. -/
def Config.hasEdm (c : Config) : Bool := bit c.mscCfg 0

/-- MSC_CFG.LMDMA. -/
def Config.hasDma (c : Config) : Bool := bit c.mscCfg 1

/-- MSC_CFG.PFM. -/
def Config.hasPfm (c : Config) : Bool := bit c.mscCfg 2

/-- MSC_CFG.HSMP. -/
def Config.hasHsmp (c : Config) : Bool := bit c.mscCfg 3

/-- MSC_CFG.TRACE. -/
def Config.hasTrace (c : Config) : Bool := bit c.mscCfg 4

/-- MSC_CFG.DIV. -/
def Config.hasDiv (c : Config) : Bool := bit c.mscCfg 5

/-- MSC_CFG.AUDIO != 0. -/
def Config.hasAudio (c : Config) : Bool := field c.mscCfg 7 2 != 0#2

/-- MSC_CFG.RDREG: 16 general registers. -/
def Config.rdreg (c : Config) : Bool := bit c.mscCfg 10

/-- A general register exists: all 32, or 16 of them with RDREG (R41, R52; log 7). -/
def Config.gprExists (c : Config) (r : Reg) : Bool := !c.rdreg || c.reducedRegs.toList.contains r

/-- MSC_CFG.ADR24. -/
def Config.adr24 (c : Config) : Bool := bit c.mscCfg 11

/-- MSC_CFG.INTLC: levels 1 and 2 only. -/
def Config.intlc (c : Config) : Bool := bit c.mscCfg 12

/-- MSC_CFG.BASEV >= 1 (R142, U7). -/
def Config.baseV2 (c : Config) : Bool := field c.mscCfg 13 3 != 0#3

/-- MSC_CFG.NOD: the Dx registers do not exist. -/
def Config.nod (c : Config) : Bool := bit c.mscCfg 16

/-- MaxLevel (R780). -/
def Config.maxLevel (c : Config) : Nat := if c.intlc then 2 else 3

/-- PRUSR_ACC_CTL exists (R58, R294). -/
def Config.hasPrusr (c : Config) : Bool := (c.hasDma || c.hasPfm) && !c.hardCore

/-! ## DMA_CFG (R270) -/

/-- The number of DMA channels: NCHN + 1, at most 2 (R700). -/
def Config.dmaTwoChannels (c : Config) : Bool := field c.dmaCfg 0 2 != 0#2

/-- DMA_CFG.UNEA. -/
def Config.dmaUnea (c : Config) : Bool := bit c.dmaCfg 2

/-- DMA_CFG.2DET. -/
def Config.dma2det (c : Config) : Bool := bit c.dmaCfg 3

/-! ## EDM (R789, D48) -/

/-- `EDM_CFG.VER < 0x0030`, true when there is no EDM (D48). -/
def Config.edmVerOld (c : Config) : Bool := !c.hasEdm || c.edmVer.toNat < 0x30

/-- The HSMP_VERSION parameter is 1 (R228). -/
def Config.hsmpV1 (c : Config) : Bool := !c.hsmpVersion2

/-! ## PLATFORM_MEMORY_MAP (R379) -/

/-- Whether a region holds a physical address. -/
def MemRegion.holds (r : MemRegion) (pa : Nat) : Bool := r.base ≤ pa && pa < r.base + r.size

/-- What serves a physical address: the first region that holds it; nothing where no region does. -/
def Config.regionOf (c : Config) (pa : Nat) : RegionKind :=
  match c.memMap.find? (fun r => r.holds pa) with
  | some r => r.kind
  | none => .unserved

/-- An address of the physical or virtual address space: 24 significant bits when MSC_CFG.ADR24 is 1 (R352, D22). -/
def Config.addr (c : Config) (a : Word) : Word := if c.adr24 then a &&& 0x00FFFFFF#32 else a

/-- The next pc, modulo 2^32, or 2^24 when MSC_CFG.ADR24 is 1 (R43, D3). -/
def Config.advance (c : Config) (pc delta : Word) : Word := c.addr (pc + delta)

end Sys2Proof
end

