-- ==== Sys2Proof/Machine/Flags.lean ====
section
/-! DEFINITION. The status word and the control registers by field: PSW (R101), its effective values at the overflow
level (R790), the PSW that entry to an interruption level makes (R784, R789), MMU_CTL (R181), the vector base (R776),
the interrupt request inputs (R841, R885). The architecture has no arithmetic flag (R44). -/

namespace Sys2Proof.Machine

/-! ## PSW (R101) -/

/-- PSW.INTL, the interruption stack level. -/
def State.level (s : State) : BitVec 2 := field s.ir.psw 1 2

/-- PSW.POM, the privilege mode: 0 user, 1 superuser (R104). -/
def State.pom (s : State) : BitVec 2 := field s.ir.psw 3 2

/-- The processor is in superuser mode. -/
def State.superuser (s : State) : Bool := s.pom == 1#2

/-- AtOverflowLevel (R780). -/
def State.atOverflow (s : State) : Bool := s.cfg.maxLevel ≤ s.level.toNat

/-- EffGIE (R790). -/
def State.effGie (s : State) : Bool := !s.atOverflow && bit s.ir.psw 0

/-- EffIT (R790). -/
def State.effIt (s : State) : Bool := !s.atOverflow && bit s.ir.psw 6

/-- EffDT (R790). -/
def State.effDt (s : State) : Bool := !s.atOverflow && bit s.ir.psw 7

/-- EffBE (R790). -/
def State.effBe (s : State) : Bool := if s.atOverflow then s.cfg.de else bit s.ir.psw 5

/-- EffDRBE (R790). -/
def State.effDrbe (s : State) : Bool := if s.atOverflow then s.cfg.drde else bit s.ir.psw 12

/-- EffHSS (R790). -/
def State.effHss (s : State) : Bool := if s.atOverflow && !s.cfg.edmVerOld then false else bit s.ir.psw 11

/-- The bits of PSW, IPSW and P_IPSW that exist (R101): bits 14:0, AEN (bit 13) only with the audio extension. -/
def pswMask (c : Config) : Word := if c.hasAudio then 0x7FFF#32 else 0x5FFF#32

/-- EntryPSW (R784): the PSW after an entry to level 1 or 2. -/
def entryPsw (c : Config) (intMask old : Word) (newLevel : BitVec 2) (ime dme dbg : Bool) : Word :=
  fieldAt 1 newLevel ||| fieldAt 3 1#2 ||| bitAt 5 c.de
    ||| bitAt 8 (ime || bit old 8) ||| bitAt 9 (dme || bit old 9) ||| bitAt 10 (dbg || bit old 10)
    ||| bitAt 11 (bit old 11 && bit intMask 31) ||| bitAt 12 c.drde ||| bitAt 14 (bit old 14)

/-- The PSW after an entry to the overflow level (R789): INTL the maximum, IME, DME and DEX set where the interruption
sets them (DEX only when EDM_CFG.VER < 0x0030), nothing else. -/
def overflowPsw (c : Config) (old : Word) (ime dme dbg : Bool) : Word :=
  setField old 1 (BitVec.ofNat 2 c.maxLevel)
    ||| bitAt 8 ime ||| bitAt 9 dme ||| bitAt 10 (dbg && c.edmVerOld)

/-! ## MMU_CTL (R181, R182) -/

/-- MMU_CTL.D: the minimum page is 8KB. -/
def State.page8k (s : State) : Bool := bit s.mr.mmuCtl 0

/-- MMU_CTL.TBALCK. -/
def State.tbalck (s : State) : Bool := bit s.mr.mmuCtl 9

/-- MMU_CTL.MPZIU. -/
def State.mpziu (s : State) : Bool := bit s.mr.mmuCtl 10

/-- MMU_CTL.NTCp. -/
def State.ntc (s : State) (p : BitVec 2) : BitVec 2 := field s.mr.mmuCtl (1 + 2 * p.toNat) 2

/-- MMU_CTL.NTMp. -/
def State.ntm (s : State) (p : BitVec 2) : BitVec 2 := field s.mr.mmuCtl (11 + 2 * p.toNat) 2

/-- MMU_CTL.DREE. -/
def State.dree (s : State) : Bool := bit s.mr.mmuCtl 19

/-- L1_PPTB.NV is 0 and the walker is implemented (R433, D5). -/
def State.walkerEnabled (s : State) : Bool := s.cfg.hptwk && !bit s.mr.l1Pptb 0

/-- TLB_MISC.CID, the current context (R208). -/
def State.cid (s : State) : BitVec 9 := field s.mr.tlbMisc 4 9

/-- TLB_MISC.ACC_PSZ (R207). -/
def State.accPsz (s : State) : BitVec 4 := field s.mr.tlbMisc 0 4

/-- TLB_VPN.VPN (R198). -/
def State.accVpn (s : State) : BitVec 20 := field s.mr.tlbVpn 12 20

/-! ## Local memory and HSMP (R215, R219, R228) -/

/-- The ILM serves the pipeline: it exists and ILMB.IEN is 1. -/
def State.ilmOn (s : State) : Bool := s.cfg.ilmExists && bit s.mr.ilmb 0

/-- The DLM serves the pipeline: it exists and DLMB.DEN is 1. -/
def State.dlmOn (s : State) : Bool := s.cfg.dlmExists && bit s.mr.dlmb 0

/-- Double-buffer mode is on (R221, R530). -/
def State.dbm (s : State) : Bool := s.cfg.doubleBuffer && bit s.mr.dlmb 5

/-- DLMB.DBB (R221). -/
def State.dbb (s : State) : Bool := bit s.mr.dlmb 6

/-! ## The High Speed Memory Port (R545) -/

/-- HSMP_SADDR.RANGE holds one of the patterns of R230. -/
def hsmpRangeOk (saddr : Word) : Bool :=
  (List.range 13).any (fun k => field saddr 1 12 == BitVec.allOnes 12 <<< k)

/-- `HsmpHit(pa)` (R231, R232, R545). The port and the main bus are one flat memory (R545), so a hit changes nothing
else. -/
def hsmpHit (s : State) (pa : Word) : Bool :=
  s.cfg.hasHsmp && bit s.mr.hsmpSaddr 0 &&
    (if s.cfg.hsmpV1 then
      field s.mr.hsmpSaddr 20 12 ≤ field pa 20 12 && field pa 20 12 ≤ field s.mr.hsmpEaddr 20 12
    else
      field pa 20 12 &&& field s.mr.hsmpSaddr 1 12 == field s.mr.hsmpSaddr 20 12 &&& field s.mr.hsmpSaddr 1 12)

/-- The port is enabled with a RANGE pattern outside the list (R230, U29): every access that reaches the bus, of the
core, the walker or the DMA engine, stops the machine (log 45). -/
def State.hsmpBroken (s : State) : Bool :=
  s.cfg.hasHsmp && s.cfg.hsmpVersion2 && bit s.mr.hsmpSaddr 0 && !hsmpRangeOk s.mr.hsmpSaddr

/-! ## Vectors (R776) -/

/-- VectorAddress(k): `(IVB.IVBASE, 16 zeros) + k * (4 << (2 * IVB.ESZ))` (R776, D35). -/
def vectorAddress (ivb : Word) (k : Nat) : Word :=
  (ivb &&& 0xFFFF0000#32) + BitVec.ofNat 32 (k * (4 <<< (2 * (field ivb 14 2).toNat)))

/-- IVB.EVIC: external vector interrupt controller mode (R113). -/
def State.evic (s : State) : Bool := bit s.ir.ivb 13

/-! ## Interrupt request inputs (R841, R846, R885) -/

/-- PM_INT_PEND: some counter has overflowed with its interrupt enabled (R846 a). -/
def State.pmIntPend (s : State) : Bool := s.cfg.hasPfm && (field s.pfm.pfmCtl 6 3 &&& field s.pfm.pfmCtl 3 3) != 0#3

/-- DMA_INT_PEND: some channel's interrupt status (R846 b, R740). -/
def State.dmaIntPend (s : State) : Bool :=
  s.cfg.hasDma && (s.dma.ch0.int || (s.cfg.dmaTwoChannels && s.dma.ch1.int))

/-- The hardware interrupt line a wire names, as a 6-bit vector. -/
def wireBits (wire : Option (Fin 6)) (on : Bool) : BitVec 6 :=
  match wire with
  | some n => if on then 1#6 <<< n.val else 0#6
  | none => 0#6

/-- hw_irq (R885): the platform's lines, and the core's own signals on the lines they are wired to. -/
def State.hwIrq (s : State) : BitVec 6 :=
  s.env.extIrq ||| wireBits s.cfg.pmIntWire s.pmIntPend ||| wireBits s.cfg.dmaIntWire s.dmaIntPend

/-- INT_PEND[5:0] (R146, R841, R845): the lines in IVIC mode; the requested priority level in EVIC mode, 0 when
nothing is requested. -/
def State.intPendLow (s : State) : BitVec 6 :=
  if s.evic then
    match s.env.evicReq with
    | some (_, cipl) => cipl
    | none => 0#6
  else s.hwIrq

end Sys2Proof.Machine
end

