-- ==== Sys2Proof/Machine/Ops.lean ====
section
/-! DEFINITION. The named operations the meanings share: results of a piece of an instruction, general registers, cells
of memory, free draws, the bus, TAKING AN INTERRUPTION (R783) and RETURNING from one (R647, R801 to R803). -/

namespace Sys2Proof.Machine

/-! ## Results -/

/-- What a piece of an instruction answers: a value and the state after it; an exception raised in a state (which may
already hold a walked TLB entry); a stop of the machine. -/
inductive Res (α : Type) where
  | ok (a : α) (s : State)
  | raise (c : Cause) (s : State)
  | stop (f : Fault)
  | refuse (r : Refusal)

/-- One piece after another. -/
def Res.bind {α β : Type} (r : Res α) (f : α → State → Res β) : Res β :=
  match r with
  | .ok a s => f a s
  | .raise c s => .raise c s
  | .stop e => .stop e
  | .refuse e => .refuse e

/-! ## General registers (R41, R42) -/

/-- x[r]. No register is hard-wired. -/
def State.x (s : State) (r : Reg) : Word := s.gpr[r]

/-- x[r] <- v. -/
def State.setX (s : State) (r : Reg) (v : Word) : State := { s with gpr := s.gpr.set r v }

/-- P0 is x[26] (D2). -/
def p0 : Reg := 26

/-- P1 is x[27] (D2). -/
def p1 : Reg := 27

/-- Dt <- v, with Dt false d0 and true d1 (R585, R664). -/
def State.setD (s : State) (dt : Bool) (v : BitVec 64) : State :=
  if dt then { s with d1 := v } else { s with d0 := v }

/-! ## Free values (log 1) -/

/-- The state after one draw of free values. -/
def State.drawn (s : State) : State := { s with draws := s.draws + 1 }

/-! ## Cells of memory -/

/-- The value listed at a key. -/
def cellGet {β : Type} : List (Nat × β) → Nat → Option β
  | [], _ => none
  | (k, b) :: r, a => if k = a then some b else cellGet r a

/-- The list with key `a` holding `b`, keys rising. -/
def cellPut {β : Type} : List (Nat × β) → Nat → β → List (Nat × β)
  | [], a, b => [(a, b)]
  | (k, c) :: r, a, b =>
    if a < k then (a, b) :: (k, c) :: r
    else if a = k then (a, b) :: r
    else (k, c) :: cellPut r a b

/-- The list without key `a`. -/
def cellErase {β : Type} : List (Nat × β) → Nat → List (Nat × β)
  | [], _ => []
  | (k, c) :: r, a => if k = a then r else (k, c) :: cellErase r a

/-- Keys strictly rise. -/
def cellsRise {β : Type} : List (Nat × β) → Bool
  | [] => true
  | [_] => true
  | (k, _) :: (k', c) :: r => k < k' && cellsRise ((k', c) :: r)

/-- What a byte of memory that nothing has written reads as (log 4). -/
def Memory.unlisted : Byte := 0#8

/-- One byte of memory. -/
def Memory.read (m : Memory) (a : Nat) : Byte := (cellGet m a).getD Memory.unlisted

/-- One byte written to memory: writing what an unlisted address reads as removes the entry. -/
def Memory.write (m : Memory) (a : Nat) (b : Byte) : Memory :=
  if b = Memory.unlisted then cellErase m a else cellPut m a b

/-- The canonical form of memory. -/
def Memory.wf (m : Memory) : Bool := cellsRise m && m.all (fun c => c.2 != Memory.unlisted)

/-- One byte of a local memory. -/
def LocalMem.read (m : LocalMem) (off : Nat) : Byte :=
  match cellGet m.cells off with
  | some b => b
  | none =>
    match m.lost with
    | none => 0#8
    | some d => Config.freeByte d off

/-- One byte written to a local memory. -/
def LocalMem.write (m : LocalMem) (off : Nat) (b : Byte) : LocalMem :=
  if m.lost = none ∧ b = 0#8 then { m with cells := cellErase m.cells off }
  else { m with cells := cellPut m.cells off b }

/-- The canonical form of a local memory. -/
def LocalMem.wf (m : LocalMem) : Bool :=
  cellsRise m.cells && (m.lost.isSome || m.cells.all (fun c => c.2 != 0#8))

/-! ## The bus (R379, R380, R711) -/

/-- A physical address, modulo 2^32 (R21). -/
def busAddr (a : Nat) : Nat := a % 4294967296

/-- The physical addresses of `n` bytes from `pa`. -/
def span (pa n : Nat) : List Nat := (List.range n).map (fun i => busAddr (pa + i))

/-- One byte as the bus answers it: memory, or a free value of a device (log 12). -/
def State.busByte (s : State) (pa i : Nat) : Byte :=
  match s.cfg.regionOf (busAddr (pa + i)) with
  | .device => Config.freeByte s.draws i
  | _ => s.mem.read (busAddr (pa + i))

/-- The bytes of a bus read; `none` is a bus error: some byte is not served. A read of a device is recorded. -/
def State.busRead (s : State) (pa n : Nat) : Option (List Byte × State) :=
  if (span pa n).any (fun a => s.cfg.regionOf a == .unserved) then none
  else
    some ((List.range n).map (fun i => s.busByte pa i),
      if (span pa n).any (fun a => s.cfg.regionOf a == .device) then
        { s with draws := s.draws + 1, devLog := s.devLog ++ [.read (busAddr pa) n] }
      else s)

/-- Memory after `bytes` are written from address `pa`, bytes of devices left out. DESIGN CHOICE (log 12): memory that the
platform serves takes every store; R379 names ROM too, and what a store to it does is not stated. -/
def writeBytes (c : Config) (m : Memory) (pa : Nat) : List Byte → Memory
  | [] => m
  | b :: r =>
    match c.regionOf (busAddr pa) with
    | .device => writeBytes c m (pa + 1) r
    | _ => writeBytes c (m.write (busAddr pa) b) (pa + 1) r

/-- A bus write; `none` is a bus error, and then no byte is written. A write to a device is recorded. -/
def State.busWrite (s : State) (pa : Nat) (bytes : List Byte) : Option State :=
  if (span pa bytes.length).any (fun a => s.cfg.regionOf a == .unserved) then none
  else
    some { s with
      mem := writeBytes s.cfg s.mem pa bytes
      devLog :=
        if (span pa bytes.length).any (fun a => s.cfg.regionOf a == .device) then s.devLog ++ [.write (busAddr pa) bytes]
        else s.devLog }

/-! ## The interruptions (R811) -/

/-- The entry number of an interruption (R775, R811). -/
def Cause.entry : Cause → Nat
  | .nmi => 0
  | .tlbFill .. => 1
  | .pteNonLeaf .. | .pteLeaf .. => 2
  | .readProtection .. | .writeProtection .. | .nonExecutable .. | .pageModified .. | .accessBit ..
  | .reservedPte .. => 3
  | .vlptMiss .. => 4
  | .tlbLocking .. | .tlbMultipleHit .. | .unimplementedPageSize => 5
  | .brk .. | .break16 .. | .singleStep => 6
  | .insnAlignment .. | .dataAlignment .. | .reservedInstruction | .trap .. | .arithmetic .. | .preciseBusError ..
  | .impreciseBusError .. | .privilegedInstruction | .reservedValue | .nonexistentLocalMemory ..
  | .mpziuControl .. => 7
  | .systemCall .. => 8
  | .hardwareInterrupt n => 9 + n.val
  | .softwareInterrupt => 15
  | .vectoredInterrupt n => 9 + n.toNat

/-- ITYPE.ETYPE of an interruption (R124 to R130, R811); `none` where the hardware writes an unspecified value. -/
def Cause.etype : Cause → Option (BitVec 4)
  | .nmi => some 2#4
  | .tlbFill .. | .vlptMiss .. | .systemCall .. | .hardwareInterrupt .. | .softwareInterrupt
  | .vectoredInterrupt .. => none
  | .pteNonLeaf .. => some 0#4
  | .pteLeaf .. => some 1#4
  | .readProtection .. => some 0#4
  | .writeProtection .. => some 1#4
  | .nonExecutable .. => some 2#4
  | .pageModified .. => some 3#4
  | .accessBit .. => some 4#4
  | .reservedPte .. => some 5#4
  | .tlbLocking .. => some 1#4
  | .tlbMultipleHit .. => some 2#4
  | .unimplementedPageSize => some 4#4
  | .brk .. => some 0#4
  | .break16 .. => some 1#4
  | .singleStep => some 7#4
  | .insnAlignment .. | .dataAlignment .. => some 0#4
  | .reservedInstruction => some 1#4
  | .trap .. => some 2#4
  | .arithmetic .. => some 3#4
  | .preciseBusError .. => some 4#4
  | .impreciseBusError .. => some 5#4
  | .privilegedInstruction => some 7#4
  | .reservedValue => some 8#4
  | .nonexistentLocalMemory .. => some 9#4
  | .mpziuControl .. => some 10#4

/-- ITYPE.INST of an interruption (R121, R811). -/
def Cause.inst : Cause → Bool
  | .tlbFill f _ | .pteNonLeaf f _ | .pteLeaf f _ | .accessBit f _ | .reservedPte f _ | .tlbLocking f _
  | .tlbMultipleHit f _ | .impreciseBusError f | .nonexistentLocalMemory f | .mpziuControl f => f
  | .nonExecutable .. | .insnAlignment .. => true
  | .preciseBusError acc _ => acc == .fetch
  | .nmi | .readProtection .. | .writeProtection .. | .pageModified .. | .vlptMiss .. | .unimplementedPageSize
  | .brk .. | .break16 .. | .singleStep | .dataAlignment .. | .reservedInstruction | .trap .. | .arithmetic ..
  | .privilegedInstruction | .reservedValue | .systemCall .. | .hardwareInterrupt .. | .softwareInterrupt
  | .vectoredInterrupt .. => false

/-- The other bits of ITYPE: SWID in 30:16 (R122) or SUB_TYPE in 19:16 (R123). -/
def Cause.itypeHigh : Cause → Word
  | .brk swid | .break16 swid | .trap swid | .systemCall swid => fieldAt 16 swid
  | .arithmetic sub => fieldAt 16 sub
  | _ => 0#32

/-- An address with its lower 12 bits 0. -/
def pageOf (va : Word) : Word := va &&& 0xFFFFF000#32

/-- What an interruption writes to EVA (R118); `none` leaves EVA unchanged (R788, D47). -/
def Cause.eva : Cause → Option Word
  | .tlbFill f va | .pteNonLeaf f va | .pteLeaf f va | .accessBit f va | .reservedPte f va =>
    some (if f then pageOf va else va)
  | .nonExecutable va => some (pageOf va)
  | .readProtection va | .writeProtection va | .pageModified va | .vlptMiss va => some va
  | .tlbLocking _ eva => some eva
  | .tlbMultipleHit _ eva => eva
  | .insnAlignment prev => some prev
  | .dataAlignment insn => some insn
  | .preciseBusError acc va => if acc = .fetch then none else some va
  | .nmi | .unimplementedPageSize | .brk .. | .break16 .. | .singleStep | .reservedInstruction | .trap ..
  | .arithmetic .. | .impreciseBusError .. | .privilegedInstruction | .reservedValue | .nonexistentLocalMemory ..
  | .mpziuControl .. | .systemCall .. | .hardwareInterrupt .. | .softwareInterrupt | .vectoredInterrupt .. => none

/-- An Instruction Machine Error: sets PSW.IME (R107, R823). -/
def Cause.ime : Cause → Bool
  | .tlbLocking f _ | .tlbMultipleHit f _ => f
  | _ => false

/-- A Data Machine Error: sets PSW.DME (R107, R823); the unimplemented page size error sets neither (D50). -/
def Cause.dme : Cause → Bool
  | .tlbLocking f _ | .tlbMultipleHit f _ => !f
  | _ => false

/-- A Debug exception: sets PSW.DEX (R108). -/
def Cause.dbg : Cause → Bool
  | .brk .. | .break16 .. | .singleStep => true
  | _ => false

/-- An interrupt, as against an exception (R770). -/
def Cause.isInterrupt : Cause → Bool
  | .hardwareInterrupt .. | .softwareInterrupt | .vectoredInterrupt .. => true
  | _ => false

/-- The virtual address whose page an entry puts into TLB_VPN.VPN (R199, R464, R822). -/
def Cause.vpnUpdate : Cause → Option Word
  | .tlbFill _ va | .pteNonLeaf _ va | .pteLeaf _ va | .pageModified va | .readProtection va
  | .writeProtection va => some va
  | _ => none

/-- The virtual address whose page an entry puts into VLPT_IDX.EVPN (R211, R464). -/
def Cause.evpnUpdate : Cause → Option Word
  | .tlbFill _ va | .pteNonLeaf _ va | .pteLeaf _ va | .pageModified va => some va
  | _ => none

/-- A bus error caused by a load instruction: sets MERR.BUSERR (R133, R835). -/
def Cause.loadBusError : Cause → Bool
  | .preciseBusError acc _ => acc == .load
  | _ => false

/-- The row of Table 11 of an imprecise exception (R815, R850): the lower row is taken first. -/
def Cause.row : Cause → Nat
  | .impreciseBusError false => 47
  | .impreciseBusError true => 48
  | _ => 43

/-! ## Taking an interruption (R783 to R791) -/

/-- The value written to ITYPE (R787): ETYPE free where it is unspecified (U6, log 32). -/
def itypeOf (s : State) (c : Cause) : Word :=
  fieldAt 0 (c.etype.getD (field (Config.freeWord s.draws 0) 0 4)) ||| bitAt 4 c.inst ||| c.itypeHigh

/-- TLB_VPN and VLPT_IDX after an entry to level 1 or 2 (R788, R464): TLB_VPN under the MMU only (R486). -/
def entryMmu (s : State) (c : Cause) : MmuRegs :=
  { s.mr with
    tlbVpn :=
      match c.vpnUpdate with
      | some va => if s.cfg.hasMmu then pageOf va else s.mr.tlbVpn
      | none => s.mr.tlbVpn
    vlptIdx :=
      match c.evpnUpdate with
      | some va =>
        if s.cfg.vlptIdxExists then
          setField s.mr.vlptIdx 2 (if s.page8k then (0#1 ++ field va 13 19) else field va 12 20)
        else s.mr.vlptIdx
      | none => s.mr.vlptIdx }

/-- The interruption registers after an entry to level 1 or 2 (R784 to R788): at level 1 the registers of level 1 move
to their P_ copies first. -/
def entryRegs (s : State) (c : Cause) (savedPc : Word) : IntRegs :=
  let ir := s.ir
  let up := s.level == 1#2
  { ir with
    pIpsw := if up then ir.ipsw else ir.pIpsw
    pIpc := if up then ir.ipc else ir.pIpc
    pItype := if up then ir.itype else ir.pItype
    pEva := if up then ir.eva else ir.pEva
    pP0 := if up then s.x p0 else ir.pP0
    pP1 := if up then s.x p1 else ir.pP1
    ipsw := ir.psw
    ipc := savedPc
    psw := entryPsw s.cfg ir.intMask ir.psw (s.level + 1#2) c.ime c.dme c.dbg
    itype := itypeOf s c
    eva := c.eva.getD ir.eva }

/-- An entry to level 1 or 2 (R783, first branch), but for MERR, pc and the step's note. -/
def enterLevel (c : Cause) (savedPc : Word) (s : State) : State :=
  { s with
    ir := entryRegs s c savedPc
    mr := entryMmu s c
    draws := if c.etype.isNone then s.draws + 1 else s.draws }

/-- An entry to the overflow level (R789), or again at it (R791), but for MERR, pc and the step's note. -/
def enterOverflow (c : Cause) (savedPc : Word) (s : State) : State :=
  { s with ir := { s.ir with oipc := savedPc, psw := overflowPsw s.cfg s.ir.psw c.ime c.dme c.dbg } }

/-- MERR after an interruption (R133, R823, R835), at any level. -/
def merrAfter (s : State) (c : Cause) : Word :=
  if c.loadBusError && s.cfg.merrExists then s.ir.merr ||| 0x80000000#32 else s.ir.merr

/-- The step's note after an interruption was taken (R882). -/
def noteEntry (n : StepNote) (c : Cause) : StepNote :=
  if c.isInterrupt then { n with interrupts := n.interrupts + 1 } else { n with exceptions := n.exceptions + 1 }

/-- `Enter` (R783): taking an interruption, with the program counter value to save. -/
def enter (c : Cause) (savedPc : Word) (s : State) : State :=
  let t := if s.level.toNat + 1 < s.cfg.maxLevel then enterLevel c savedPc s else enterOverflow c savedPc s
  { t with
    ir := { t.ir with merr := merrAfter s c }
    pc := vectorAddress s.ir.ivb c.entry
    note := noteEntry s.note c }

/-! ## Returning from an interruption (R647, R801 to R803) -/

/-- The address IRET goes to (R647). -/
def returnTarget (s : State) : Word := if s.atOverflow then s.ir.oipc else s.ir.ipc

/-- The state after the return, but for the program counter (R647): at the overflow level only PSW.INTL falls by one;
at level 2 the P_ registers come back; else PSW <- IPSW. -/
def returnState (s : State) : State :=
  if s.atOverflow then { s with ir := { s.ir with psw := setField s.ir.psw 1 (s.level - 1#2) } }
  else if s.level = 2#2 then
    { s with
      ir := { s.ir with
        psw := s.ir.ipsw
        ipsw := s.ir.pIpsw
        ipc := s.ir.pIpc
        itype := s.ir.pItype
        eva := s.ir.pEva }
      gpr := (s.gpr.set p0 s.ir.pP0).set p1 s.ir.pP1 }
  else { s with ir := { s.ir with psw := s.ir.ipsw } }

/-! ## Ending an instruction -/

/-- The state after an instruction at `pc0` completed and control goes to `next`. -/
def State.retire (s : State) (pc0 next : Word) : State :=
  { s with pc := next, prevPc := pc0, note := { s.note with completed := true } }

/-- The end of an instruction that started in state `s`: it completes, or a precise exception is taken with the
instruction's own address saved (R772), or the machine stops. -/
def complete (s : State) (r : Res Word) : Host.Outcome State Fault Refusal :=
  match r with
  | .ok next t => .next (t.retire s.pc next)
  | .raise c t => .next (enter c s.pc t)
  | .stop f => .fault f
  | .refuse e => .refused e

/-- The address of the instruction after a 4-byte one (R43). -/
def State.next4 (s : State) : Word := s.cfg.advance s.pc 4#32

/-- An instruction whose only effect is to change the state to `t` and go on. -/
def completeAt (s t : State) : Host.Outcome State Fault Refusal := complete s (.ok s.next4 t)

/-- A piece that only superuser mode may run (R643, R827). -/
def privileged {α : Type} (s : State) (r : Res α) : Res α :=
  if s.superuser then r else .raise .privilegedInstruction s

end Sys2Proof.Machine
end

