-- ==== Sys2Proof/Machine/Interrupts.lean ====
section
/-! DEFINITION. The events of an instruction boundary (R850 rows 1 to 8, 43, 47, 48; R851 steps 1 to 6a): the
environment's inputs, the acceptance of an interrupt (R842, R845), pending imprecise exceptions (R815, R816). -/

namespace Sys2Proof.Machine

/-! ## The environment's inputs (R898) -/

/-- The imprecise bus error the environment reports joins the pending set (R815, R835). DESIGN CHOICE: the level it
counts as generated at (R816) is that of the step that reports it (log 36). -/
def withBusReport (s : State) (report : Option Bool) : State :=
  match report with
  | some fetch => { s with pendImp := s.pendImp ++ [⟨.impreciseBusError fetch, s.level⟩] }
  | none => s

/-- The beginning of a step: the step's note is empty, the next input is sampled; with no input left the lines hold
(log 5). The second component is the reset asserted, if any. -/
def sample (s : State) : State × Option ResetKind :=
  match s.env.inputs with
  | [] => ({ s with note := .empty }, none)
  | i :: rest =>
    (withBusReport
      { s with
        note := .empty
        env := ⟨i.extIrq, i.evicReq, s.env.nmi || i.nmi, rest⟩ } i.impBus, i.reset)

/-! ## Interrupts -/

/-- The interrupts requested and enabled in IVIC mode (R842): HW0 to HW5, then SW0. -/
def irqRequests (s : State) : BitVec 7 :=
  BitVec.ofBool (s.ir.swi && bit s.ir.intMask 16) ++ (s.hwIrq &&& field s.ir.intMask 0 6)

/-- The requested and enabled interrupt of highest priority (R843): the smallest number. -/
def pickIrq (req : BitVec 7) : Option Cause :=
  match (List.finRange 6).find? (fun n => req.getLsbD n.val) with
  | some n => some (.hardwareInterrupt n)
  | none => if bit req 6 then some .softwareInterrupt else none

/-- The interrupt to take at this boundary, if any (R842, R845): in EVIC mode the external controller's request,
INT_MASK ignored. -/
def interruptCause (s : State) : Option Cause :=
  if s.effGie = false then none
  else if s.evic then s.env.evicReq.map (fun r => .vectoredInterrupt r.1)
  else pickIrq (irqRequests s)

/-! ## Pending imprecise exceptions -/

/-- The position of the pending imprecise exception to take at level `l`: generated at a level not below `l` (R816,
D46), of the highest row of Table 11, the oldest among equals. -/
def pickImprecise (l : BitVec 2) (pending : List PendImp) : Option (Nat × PendImp) :=
  (List.zip (List.range pending.length) pending).foldl
    (fun best p =>
      if p.2.level < l then best
      else
        match best with
        | none => some p
        | some b => if p.2.cause.row < b.2.cause.row then some p else best)
    none

/-! ## The boundary -/

/-- The event taken at this boundary, if any, and the state with that event consumed (R850 rows 3 to 8, 43, 47, 48).
An interrupt consumes nothing (R844). -/
def boundary (s : State) : Option (Cause × State) :=
  if s.stepEvt then some (.singleStep, { s with stepEvt := false })
  else if s.env.nmi then some (.nmi, { s with env := { s.env with nmi := false } })
  else
    match interruptCause s with
    | some c => some (c, s)
    | none =>
      match pickImprecise s.level s.pendImp with
      | some (k, p) => some (p.cause, { s with pendImp := s.pendImp.eraseIdx k })
      | none => none

end Sys2Proof.Machine
end

