-- ==== Sys2Proof/Machine/Pfm.lean ====
section
/-! DEFINITION. The performance monitor (R255 to R263, R881, R882): what each counter's selected event counted in one
step, and the counters after it (log 40). -/

namespace Sys2Proof.Machine

/-- What a step worked on: an entry to an interruption at the boundary or a fetch without an instruction of the
table; an instruction; the all-zero word. -/
inductive Work where
  | none
  | insn (i : Instr)
  | zeroWord
  deriving DecidableEq, Repr

/-- A conditional branch. -/
def Work.condBranch : Work → Bool
  | .insn (.beqz _ _) | .insn (.bnez _ _) => true
  | _ => false

/-- A conditional branch that is taken in state `s`. -/
def Work.takenBranch (s : State) : Work → Bool
  | .insn (.beqz rt _) => s.x rt == 0#32
  | .insn (.bnez rt _) => s.x rt != 0#32
  | _ => false

/-- An immediate jump. -/
def Work.jump : Work → Bool
  | .insn (.j _) => true
  | _ => false

/-- ISB or DSB. -/
def Work.barrier : Work → Bool
  | .insn .isb | .insn .dsb => true
  | _ => false

/-- CCTL. -/
def Work.cctl : Work → Bool
  | .insn (.cctlL1dVaWb _) => true
  | _ => false

/-- A load. -/
def Work.load : Work → Bool
  | .insn (.lwi _ _ _) | .insn (.lwVlpt _ _ _) | .zeroWord => true
  | _ => false

/-- A store. -/
def Work.store : Work → Bool
  | .insn (.swi _ _ _) => true
  | _ => false

/-- A 16-bit instruction. -/
def Work.short : Work → Bool
  | .insn (.break16 _) => true
  | _ => false

/-- 1 for true. -/
def one (b : Bool) : Nat := if b then 1 else 0

/-- How often the event of counter 0 occurred in a step (R881); `none` is a free count (R882). -/
def count0 (ctl : Word) (n : StepNote) : Option Nat := if bit ctl 15 then some (one n.completed) else none

/-- How often the C1 event of Table 27 occurred in a step that started in `s` (R262, R882); `none` is a free count:
an event of timing, or an un-assigned selection. The events of instructions this machine does not have occur 0
times. An event of instructions counts those that completed, and ILM access the core's accesses only, not the DMA
engine's (R755; log 40). -/
def count1 (s : State) (w : Work) (n : StepNote) (sel : BitVec 6) : Option Nat :=
  match sel.toNat with
  | 1 => some (one n.completed)
  | 2 => some (one (n.completed && w.condBranch))
  | 3 => some (one (n.completed && w.takenBranch s))
  | 4 | 5 | 6 | 7 | 8 | 9 => some 0
  | 10 => some (one (n.completed && w.barrier))
  | 11 => some (one (n.completed && w.cctl))
  | 12 => some n.interrupts
  | 13 => some (one (n.completed && w.load))
  | 24 => some n.ilm
  | 29 => some 0
  | _ => none

/-- How often the C2 event of Table 27 occurred in a step (R262, R882). '16-bit instructions' counts completed ones, so
never a BREAK16, which always raises its exception, and DLM access counts the core's accesses only (log 40). -/
def count2 (w : Work) (n : StepNote) (sel : BitVec 6) : Option Nat :=
  match sel.toNat with
  | 6 => some (one (n.completed && w.jump))
  | 7 => some 0
  | 8 => some (one (n.completed && w.short))
  | 12 => some n.exceptions
  | 13 => some (one (n.completed && w.store))
  | 24 => some n.dlm
  | _ => none

/-- Counter `i` counts in mode `pom` (R881): EN, KS, KU. -/
def counting (ctl : Word) (pom : BitVec 2) (i : Nat) : Bool :=
  bit ctl i && !(pom == 1#2 && bit ctl (9 + i)) && !(pom == 0#2 && bit ctl (12 + i))

/-- A counter after `n` events: modulo 2^32, and whether it wrapped (R256, R881). -/
def advanceCounter (v : Word) (n : Nat) : Word × Bool := (v + BitVec.ofNat 32 n, 2 ^ 32 ≤ v.toNat + n)

/-- One counter of a step: its new value and whether it overflowed; counting nothing it keeps its value. -/
def countStep (ctl : Word) (pom : BitVec 2) (i draw : Nat) (v : Word) (n : Option Nat) : Word × Bool :=
  if counting ctl pom i then advanceCounter v (n.getD (Config.freeNat draw i)) else (v, false)

/-- The performance monitor's share of a step that started in `s` and worked on `w`, in the state `t` after it: the
filter tests the mode at the start (R881), the controls are those after the instruction. DESIGN CHOICE (log 40): the
events of a step are counted after its effect, so that an MTSR to PFMCi that counter i counts leaves the written value
plus 1; neither R881 nor R884 says which comes first. -/
def account (s : State) (w : Work) (t : State) : State :=
  let ctl := t.pfm.pfmCtl
  if s.cfg.hasPfm && (counting ctl s.pom 0 || counting ctl s.pom 1 || counting ctl s.pom 2) then
    let r0 := countStep ctl s.pom 0 t.draws t.pfm.pfmc0 (count0 ctl t.note)
    let r1 := countStep ctl s.pom 1 t.draws t.pfm.pfmc1 (count1 s w t.note (field ctl 16 6))
    let r2 := countStep ctl s.pom 2 t.draws t.pfm.pfmc2 (count2 w t.note (field ctl 22 6))
    { t with
      pfm :=
        { pfmc0 := r0.1
          pfmc1 := r1.1
          pfmc2 := r2.1
          pfmCtl := ctl ||| bitAt 6 r0.2 ||| bitAt 7 r1.2 ||| bitAt 8 r2.2 }
      draws := t.draws + 1 }
  else t

end Sys2Proof.Machine
end

