-- ==== Sys2Proof/Machine/Translate.lean ====
section
/-! DEFINITION. Address translation: `Translate` (R357), the non-translated mode (R356), the TLB and the page table
walker (R400 to R464), the MPU (R480 to R496). -/

namespace Sys2Proof.Machine

/-! ## Memory classes (R359) -/

/-- The five memory classes. -/
inductive MemClass where
  | device | bufferableDevice | uncacheable | writeThrough | writeBack
  deriving DecidableEq, Repr

/-- The class of an NTC value (R359). -/
def ntcClass (ntc : BitVec 2) : MemClass :=
  if ntc = 0#2 then .device else if ntc = 1#2 then .bufferableDevice else if ntc = 2#2 then .writeBack
  else .writeThrough

/-- The class of a C value (R359); 3 is reserved and never gets here. -/
def cClass (c : BitVec 3) : MemClass :=
  if c = 0#3 then .device else if c = 1#3 then .bufferableDevice else if c = 4#3 ∨ c = 6#3 then .writeBack
  else if c = 5#3 ∨ c = 7#3 then .writeThrough else .uncacheable

/-- Table 4 (R370): whether an access A (a write when `aw`) that precedes an access B in program order is also
performed before it. The model performs every access in program order (R371 c, log 11). -/
def mustOrder (a : MemClass) (aw : Bool) (b : MemClass) (bw : Bool) : Bool :=
  let dev := fun m => m == MemClass.device || m == MemClass.bufferableDevice
  dev a && dev b && !(a == .bufferableDevice && aw && b == .bufferableDevice && bw)

/-- A translated address: the physical address and the memory class; `device_reg` of R357 is class Device. -/
structure Xlat where
  pa : Word
  cls : MemClass
  deriving DecidableEq, Repr

/-! ## Non-translated access (R356) -/

/-- The partition of a virtual address (R185, R356): its top two bits, or its top bit. -/
def partition (c : Config) (va : Word) : BitVec 2 :=
  let top := if c.adr24 then 22 else 30
  if c.ntpt then field va top 2 else 0#1 ++ field va (top + 1) 1

/-- `NonTranslated(va)` (R356, D21, D22). -/
def nonTranslated (s : State) (va : Word) : Xlat :=
  let p := partition s.cfg va
  let top := if s.cfg.adr24 then 22 else 30
  { pa :=
      if s.cfg.ntme = false then va
      else if s.cfg.ntpt then setField va top (s.ntm p)
      else setField va (top + 1) (field (s.ntm p) 0 1)
    cls := ntcClass (s.ntc p) }

/-! ## TLB entries (R400 to R407, R431) -/

/-- log2 of the size a page size code names (R404). -/
def pageShift (psz : BitVec 4) : Nat :=
  match psz.toNat with
  | 1 => 13
  | 2 => 14
  | 3 => 16
  | 4 => 18
  | 5 => 20
  | 6 => 22
  | 7 => 24
  | 8 => 26
  | 9 => 28
  | _ => 12

/-- Whether the implementation has a page size (R51). -/
def State.sizeImplemented (s : State) (psz : BitVec 4) : Bool :=
  if psz = 0#4 then !s.page8k
  else if psz = 1#4 then s.page8k || s.cfg.ep8min4
  else if psz.toNat ≤ 9 then bit s.cfg.epsz (psz.toNat - 2)
  else false

/-- The page size code of the minimum page (R183, R404). -/
def State.minPsz (s : State) : BitVec 4 := if s.page8k then 1#4 else 0#4

/-- `SetIndex(va, s)` (R407, D29). -/
def setIndex (c : Config) (va : Word) (shift : Nat) : Nat := va.toNat / 2 ^ shift % c.tlbSets

/-- A TLB entry from a PTE word (R420; R202) and the rest. -/
def entryOfPte (vpn : BitVec 20) (cid : BitVec 9) (psz : BitVec 4) (pte : Word) (lock : Bool) : TlbEntry where
  vpn := vpn
  ppn := field pte 12 20
  c := field pte 8 3
  g := bit pte 7
  a := bit pte 6
  x := bit pte 5
  d := bit pte 4
  m := field pte 1 3
  v := bit pte 0
  cid := cid
  psz := psz
  l := lock

/-- The PTE word of an entry, in the layout of TLB_DATA (R202, R601). -/
def TlbEntry.pte (e : TlbEntry) : Word :=
  e.ppn ++ 0#1 ++ e.c ++ BitVec.ofBool e.g ++ BitVec.ofBool e.a ++ BitVec.ofBool e.x ++ BitVec.ofBool e.d ++ e.m
    ++ BitVec.ofBool e.v

/-- An entry all of whose fields are free, from draw `d` and entry number `k` (log 18). -/
def freeEntry (d k : Nat) : TlbEntry :=
  let w := Config.freeWord d (3 * k)
  entryOfPte (field w 12 20) (field w 0 9) (field (Config.freeWord d (3 * k + 1)) 0 4)
    (Config.freeWord d (3 * k + 2)) (bit w 10)

/-- An invalidated entry: V = 0, unlocked, the other fields free (D28, U42). -/
def flushedEntry (d k : Nat) : TlbEntry := { freeEntry d k with v := false, l := false }

/-- An entry that is not listed. -/
def TlbFill.entry (f : TlbFill) (k : Nat) : TlbEntry :=
  match f with
  | .flushed d => flushedEntry d k
  | .unknown d => freeEntry d k

/-- `tlb[set][way]` by entry number way * N + set (R406). -/
def Tlb.read (t : Tlb) (k : Nat) : TlbEntry := (cellGet t.cells k).getD (t.fill.entry k)

/-- `tlb[set][way] <- e`. -/
def Tlb.write (t : Tlb) (k : Nat) (e : TlbEntry) : Tlb := { t with cells := cellPut t.cells k e }

/-- M = N * K, the number of software-visible entries (R50). -/
def Config.tlbEntries (c : Config) : Nat := c.tlbSets * c.tlbWays

/-- The entries that can matter to a search, with their numbers: an entry that is not listed and is flushed cannot. -/
def State.tlbListed (s : State) : List (Nat × TlbEntry) :=
  match s.tlb.fill with
  | .flushed _ => s.tlb.cells
  | .unknown _ => (List.range (Config.tlbEntries s.cfg)).map (fun k => (k, s.tlb.read k))

/-- `Match(e, va)` (R431, D28). -/
def State.tlbMatches (s : State) (e : TlbEntry) (va : Word) : Bool :=
  e.v && ((e.vpn ++ 0#12 : Word) >>> pageShift e.psz == va >>> pageShift e.psz) && (e.g || e.cid == s.cid)

/-- Whether a lookup finds a matching entry for certain: the minimum page size, or MPZIU set (R432, U13); otherwise it
is free. -/
def State.sizeSearched (s : State) (e : TlbEntry) : Bool := e.psz == s.minPsz || s.mpziu

/-- Whether a lookup of `va` finds the software-visible entry of number `k`: a matching entry of a size that is
searched, in the set its page selects, is found; a matching entry otherwise is found or not, freely (R431, R432,
U13, U19). -/
def State.finds (s : State) (va : Word) (k : Nat) (e : TlbEntry) : Bool :=
  s.tlbMatches e va &&
    ((s.sizeSearched e && setIndex s.cfg (e.vpn ++ 0#12) (pageShift e.psz) == k % s.cfg.tlbSets)
      || Config.freeBit s.draws k)

/-- The software-visible entries a lookup finds (R430). -/
def State.visibleHits (s : State) (va : Word) : List (Nat × TlbEntry) :=
  s.tlbListed.filter (fun p => s.finds va p.1 p.2)

/-- Elements with their positions. -/
def indexed {α : Type} (l : List α) : List (Nat × α) := (List.range l.length).zip l

/-- The software-invisible entries a lookup finds (R401, R430; U13 as for the visible ones). -/
def State.invisibleHits (s : State) (va : Word) : List TlbEntry :=
  ((indexed s.itlb).filter (fun p => s.tlbMatches p.2 va &&
    (s.sizeSearched p.2 || Config.freeBit s.draws (Config.tlbEntries s.cfg + p.1)))).map Prod.snd

/-! ## Permissions (R435, R436) -/

/-- `Perm(e, mode)` (R435): `none` for a reserved M, else (may read, may write). -/
def permOf (v2 super : Bool) (m : BitVec 3) (x : Bool) : Option (Bool × Bool) :=
  match m.toNat with
  | 1 => some (true, false)
  | 2 => some (true, super)
  | 3 => some (true, true)
  | 5 => some (super, false)
  | 7 => some (super, super)
  | 0 => if v2 && x then some (super, super) else none
  | _ => none

/-- Whether a fetch may execute from the page (R436 step 2). -/
def mayExecute (v2 super : Bool) (e : TlbEntry) : Bool :=
  if v2 && !super && (e.m == 5#3 || e.m == 7#3) then false else e.x

/-- A reserved C or M value that the access must report (R436 step 1, R456). -/
def reservedAttribute (v2 super : Bool) (e : TlbEntry) (acc : Acc) : Bool :=
  e.c == 3#3 || ((permOf v2 super e.m e.x).isNone && (acc != .fetch || v2))

/-- `Check(e, acc, mode)` (R436) after its first step: the exception of the permission group, Page modified, Access
bit. -/
def permissionCause (v2 super : Bool) (e : TlbEntry) (va : Word) (acc : Acc) : Option Cause :=
  let perm := (permOf v2 super e.m e.x).getD (false, false)
  if acc = .fetch ∧ mayExecute v2 super e = false then some (.nonExecutable va)
  else if acc = .load ∧ perm.1 = false then some (.readProtection va)
  else if acc = .store ∧ perm.2 = false then some (.writeProtection va)
  else if acc = .store ∧ e.d = false then some (.pageModified va)
  else if e.a then some (.accessBit (acc == .fetch) va)
  else none

/-- The first step of `Check(e, acc, mode)` (R436, R456); on the two N1213 hard cores a reserved C or M value stops the
machine (U14). -/
def checkAttribute (s : State) (e : TlbEntry) (va : Word) (acc : Acc) : Res Unit :=
  if reservedAttribute s.cfg.mmuVersion2 s.superuser e acc then
    if s.cfg.hardCore then .stop .unpredictablePte else .raise (.reservedPte (acc == .fetch) va) s
  else .ok () s

/-- `Check(e, acc, mode)` (R436). -/
def checkEntry (s : State) (e : TlbEntry) (va : Word) (acc : Acc) : Res Unit :=
  (checkAttribute s e va acc).bind fun _ t =>
    match permissionCause s.cfg.mmuVersion2 s.superuser e va acc with
    | some c => .raise c t
    | none => .ok () t

/-! ## Inserting entries (R442, R603, R605) -/

/-- The entry numbers of one set (R406). -/
def setEntries (c : Config) (set : Nat) : List Nat := (List.range c.tlbWays).map (fun w => w * c.tlbSets + set)

/-- `ChooseWay` (R605): one of the allowed entry numbers, freely (U32). -/
def chooseOf (d : Nat) (allowed : List Nat) : Nat :=
  match allowed with
  | [k] => k
  | _ => allowed.getD (Config.freeNat d 0 % allowed.length) 0

/-- The entry numbers a random write may take in a set (R405, R605): the unlocked ones; when all are locked, all of
them with MMU_CTL.TBALCK, none without. -/
def State.insertable (s : State) (set : Nat) : List Nat :=
  let all := setEntries s.cfg set
  let unlocked := all.filter (fun k => !(s.tlb.read k).l)
  if unlocked.isEmpty then (if s.tbalck then all else []) else unlocked

/-- The random write of an entry into the set its page selects (R442, R603); `none` when every way is locked and
TBALCK is 0. -/
def State.randomWrite (s : State) (e : TlbEntry) : Option State :=
  let allowed := s.insertable (setIndex s.cfg (e.vpn ++ 0#12) (pageShift e.psz))
  if allowed.isEmpty then none
  else some { s with tlb := s.tlb.write (chooseOf s.draws allowed) e, draws := s.draws + 1 }

/-- The walker's insertion into the software-invisible TLB (R401, R442): the entry inserted last stays (R447), any of
the others may be replaced. -/
def State.insertInvisible (s : State) (e : TlbEntry) : State :=
  { s with
    itlb := e :: (match s.itlb with
      | [] => []
      | last :: rest =>
        last :: ((indexed rest).filter (fun p => Config.freeBit s.draws p.1)).map Prod.snd)
    draws := s.draws + 1 }

/-- `Insert(e)` by the walker (R442). The exceptions of the entry's check (rows 16, 18, 19 and 38, 40 to 42 of
Table 11) come before the TLB locking error (rows 20 and 43) of an entry that cannot be inserted (R850, R852; log 57);
where it is inserted, the caller checks it. -/
def walkerInsert (s : State) (e : TlbEntry) (va : Word) (acc : Acc) : Res Unit :=
  if s.cfg.hptwkInvisible then .ok () (s.insertInvisible e)
  else
    match s.randomWrite e with
    | some t => .ok () t
    | none => (checkEntry s e va acc).bind fun _ t => .raise (.tlbLocking (acc == .fetch) va) t

/-! ## The walker (R440, R441) -/

/-- The address of the L1 PTE (R440). -/
def l1Address (s : State) (va : Word) : Word :=
  if s.page8k then field s.mr.l1Pptb 12 20 ++ 0#2 ++ field va 24 8 ++ 0#2
  else field s.mr.l1Pptb 12 20 ++ field va 22 10 ++ 0#2

/-- The address of the L2 PTE (R440). -/
def l2Address (s : State) (l1 va : Word) : Word :=
  if s.page8k then field l1 13 19 ++ field va 13 11 ++ 0#2 else field l1 12 20 ++ field va 12 10 ++ 0#2

/-- One of the walker's loads: 4 bytes of physical memory in the byte order MMU_CFG.DE (R363, D23, D61); an undefined
HSMP range stops it (log 45). -/
def walkerLoad (s : State) (pa va : Word) (acc : Acc) : Res Word :=
  if s.hsmpBroken then .stop .hsmpRangePattern
  else
    match s.busRead pa.toNat 4 with
    | some (bytes, t) => .ok (assemble s.cfg.de bytes) t
    | none => .raise (.preciseBusError acc va) s

/-- The entry the walker makes of an L2 PTE (R441). -/
def walkedEntry (s : State) (va l2 : Word) : TlbEntry :=
  entryOfPte (field va 12 20) s.cid (if bit l2 11 then s.cfg.largePageSize else s.minPsz) l2 false

/-- `Walk(va, acc)` (R441). A large page without MPZIU is never inserted, and a reserved C or M value in its PTE is
reported before the MPZIU control exception: R430, R456, R460 and rows 16, 17, 38, 39 of Table 11 (R850) put it first,
where the pseudocode of R441 raises MPZIU control in the walk; the model follows Table 11 (log 57). -/
def walk (s : State) (va : Word) (acc : Acc) : Res TlbEntry :=
  (walkerLoad s (l1Address s va) va acc).bind fun l1 s1 =>
    if bit l1 0 then .raise (.pteNonLeaf (acc == .fetch) va) s1
    else
      (walkerLoad s1 (l2Address s1 l1 va) va acc).bind fun l2 s2 =>
        if bit l2 0 = false then .raise (.pteLeaf (acc == .fetch) va) s2
        else if bit l2 11 ∧ s2.mpziu = false then
          (checkAttribute s2 (walkedEntry s2 va l2) va acc).bind fun _ s3 => .raise (.mpziuControl (acc == .fetch)) s3
        else
          (walkerInsert s2 (walkedEntry s2 va l2) va acc).bind fun _ s3 => .ok (walkedEntry s2 va l2) s3

/-! ## The MMU (R430) -/

/-- The physical address an entry gives (R421): PPN above the page offset. -/
def entryPa (e : TlbEntry) (va : Word) : Word :=
  let mask : Word := BitVec.allOnes 32 <<< pageShift e.psz
  ((e.ppn ++ 0#12) &&& mask) ||| (va &&& ~~~mask)

/-- The entry that serves a translated access: the one hit, or the walker's (R430). -/
def findEntry (s : State) (va : Word) (acc : Acc) (vlpt : Bool) : Res TlbEntry :=
  match (s.visibleHits va).map Prod.snd ++ s.invisibleHits va with
  | [] =>
    if vlpt then .raise (.vlptMiss va) s.drawn
    else if s.walkerEnabled then walk s.drawn va acc
    else .raise (.tlbFill (acc == .fetch) va) s.drawn
  | [e] => .ok e s.drawn
  | _ => .raise (.tlbMultipleHit (acc == .fetch) (some va)) s.drawn

/-- `MmuTranslate` (R430). -/
def mmuTranslate (s : State) (va : Word) (acc : Acc) (vlpt : Bool) : Res Xlat :=
  (findEntry s va acc vlpt).bind fun e t =>
    (checkEntry t e va acc).bind fun _ u => .ok ⟨entryPa e va, cClass e.c⟩ u

/-! ## The MPU (R485) -/

/-- The exception of an MPU access, if any (R485), that of LW_VLPT too: on an entry with V = 0 it is TLB fill, where
R630 names the Double TLB miss of the MMU (DESIGN CHOICE, log 55). -/
def mpuCause (super : Bool) (e : MpuEntry) (va : Word) (acc : Acc) : Option Cause :=
  let beyond := e.hrange.toNat ≤ (field va 12 17).toNat
  let perm := (permOf false super e.m true).getD (false, false)
  let exec := if super then bit e.x 1 else bit e.x 0
  if e.v = false then some (.tlbFill (acc == .fetch) va)
  else if e.c = 3#3 ∨ (permOf false super e.m true).isNone then some (.reservedPte (acc == .fetch) va)
  else if acc = .fetch ∧ (beyond ∨ exec = false) then some (.nonExecutable va)
  else if acc = .load ∧ (beyond ∨ perm.1 = false) then some (.readProtection va)
  else if acc = .store ∧ (beyond ∨ perm.2 = false) then some (.writeProtection va)
  else none

/-- `mpu[va[31:29]]` (R481). -/
def State.mpuOf (s : State) (va : Word) : MpuEntry := s.mpu[(field va 29 3).toFin]

/-- `MpuTranslate` (R485): the page is PSB + VA(28,12), wrapping. -/
def mpuTranslate (s : State) (va : Word) (acc : Acc) : Res Xlat :=
  let e := s.mpuOf va
  match mpuCause s.superuser e va acc with
  | some c => .raise c s
  | none => .ok ⟨(e.psb + (field va 12 17).setWidth 20) ++ field va 0 12, cClass e.c⟩ s

/-! ## Translate (R355, R357) -/

/-- `TransEnabled` (R355). -/
def transEnabled (s : State) (acc : Acc) (vlpt : Bool) : Bool :=
  if s.cfg.mmps = 0#2 then false
  else if vlpt then true
  else if acc = .fetch then s.effIt
  else s.effDt

/-- `Translate(va, acc, mode)` (R357), mode being PSW.POM. Under the MPU LW_VLPT is translated as any other load (DESIGN
CHOICE, log 55). -/
def translate (s : State) (va : Word) (acc : Acc) (vlpt : Bool) : Res Xlat :=
  let va' := s.cfg.addr va
  if acc = .fetch ∧ bit va' 0 then .raise (.insnAlignment s.prevPc) s
  else if transEnabled s acc vlpt = false then .ok (nonTranslated s va') s
  else if s.cfg.hasMpu then mpuTranslate s va' acc
  else mmuTranslate s va' acc vlpt

end Sys2Proof.Machine
end

