-- ==== Sys2Proof/Machine/Access.lean ====
section
/-! DEFINITION. Memory accesses of the core: routing a physical address to the ILM, the DLM or the bus (R520 to R532,
R545), the byte order (R364), loads, stores and instruction fetch. -/

namespace Sys2Proof.Machine

/-! ## Local memory windows (R521, R522) -/

/-- The base address of a local memory: 1MB-aligned with BSAV = 0 (R521), aligned to the size with BSAV = 1 (R522,
D15); with BSAV = 1 and a size code that names no byte, the whole base field (log 48). -/
def lmBase (bsav1 : Bool) (size : Nat) (reg : Word) : Nat :=
  if bsav1 = false then reg.toNat / 1048576 * 1048576
  else if size = 0 then reg.toNat / 1024 * 1024
  else reg.toNat / size * size

/-- InLmWindow (R521, R522). -/
def lmWindow (bsav1 : Bool) (base view pa : Nat) : Bool :=
  if bsav1 then base ≤ pa && pa < base + view else pa / 1048576 == base / 1048576

/-- The base of the ILM. -/
def State.ilmBase (s : State) : Nat := lmBase s.cfg.ilmBsav1 s.cfg.ilmSize s.mr.ilmb

/-- The base of the DLM. -/
def State.dlmBase (s : State) : Nat := lmBase s.cfg.dlmBsav1 s.cfg.dlmSize s.mr.dlmb

/-- The bytes of the DLM the core sees: half of it in double-buffer mode (R521, R530). -/
def State.dlmView (s : State) : Nat := if s.dbm then s.cfg.dlmSize / 2 else s.cfg.dlmSize

/-- `BankOffset` for the core (R530). -/
def State.coreBank (s : State) (off : Nat) : Nat := if s.dbm && s.dbb then s.cfg.dlmSize / 2 + off else off

/-- `BankOffset` for the DMA engine (R530, R710). -/
def State.dmaBank (s : State) (off : Nat) : Nat := if s.dbm && !s.dbb then s.cfg.dlmSize / 2 + off else off

/-! ## Routing (R520) -/

/-- Where a physical address leads. -/
inductive Place where
  | ilm (off : Nat)
  | dlm (off : Nat)
  | bus (pa : Nat)
  deriving DecidableEq, Repr

/-- `Route(pa, acc)` (R520, D32). -/
def route (s : State) (pa : Word) (acc : Acc) : Res Place :=
  let a := pa.toNat
  if s.ilmOn && lmWindow s.cfg.ilmBsav1 s.ilmBase s.cfg.ilmSize a then
    if a - s.ilmBase < s.cfg.ilmSize then .ok (.ilm (a - s.ilmBase)) s
    else .raise (.nonexistentLocalMemory (acc == .fetch)) s
  else if s.dlmOn && acc != .fetch && lmWindow s.cfg.dlmBsav1 s.dlmBase s.dlmView a then
    if a - s.dlmBase < s.dlmView then .ok (.dlm (s.coreBank (a - s.dlmBase))) s
    else .raise (.nonexistentLocalMemory false) s
  else if s.hsmpBroken then .stop .hsmpRangePattern
  else .ok (.bus a) s

/-- The bytes of a local memory from an offset. -/
def LocalMem.bytes (m : LocalMem) (off n : Nat) : List Byte := (List.range n).map (fun i => m.read (off + i))

/-- A local memory with bytes written from an offset. -/
def LocalMem.writeAll (m : LocalMem) (off : Nat) : List Byte → LocalMem
  | [] => m
  | b :: r => (m.write off b).writeAll (off + 1) r

/-- The step's note after an access of the core to the ILM. The DMA engine's accesses leave the note alone: whether the
events ILM access and DLM access count them is not stated (R755), and the model counts the core's only (log 40). -/
def State.noteIlm (s : State) : State := { s with note := { s.note with ilm := s.note.ilm + 1 } }

/-- The step's note after an access of the core to the DLM (not of the DMA engine, log 40). -/
def State.noteDlm (s : State) : State := { s with note := { s.note with dlm := s.note.dlm + 1 } }

/-- The bytes at a place; `va` is what a bus error reports (R835). -/
def readPlace (s : State) (p : Place) (n : Nat) (va : Word) (acc : Acc) : Res (List Byte) :=
  match p with
  | .ilm off => .ok (s.ilm.bytes off n) s.noteIlm
  | .dlm off => .ok (s.dlm.bytes off n) s.noteDlm
  | .bus pa =>
    match s.busRead pa n with
    | some (bytes, t) => .ok bytes t
    | none => .raise (.preciseBusError acc va) s

/-- Bytes stored at a place. -/
def writePlace (s : State) (p : Place) (bytes : List Byte) (va : Word) : Res Unit :=
  match p with
  | .ilm off => .ok () { s.noteIlm with ilm := s.ilm.writeAll off bytes }
  | .dlm off => .ok () { s.noteDlm with dlm := s.dlm.writeAll off bytes }
  | .bus pa =>
    match s.busWrite pa bytes with
    | some t => .ok () t
    | none => .raise (.preciseBusError .store va) s

/-! ## Data accesses -/

/-- `DataBigEndian` (R364). -/
def dataBigEndian (s : State) (cls : MemClass) : Bool :=
  if s.dree && cls == .device then s.effDrbe else s.effBe

/-- A 4-byte load from a virtual address: alignment (R368), translation (R357), routing (R520), byte order (R362);
`vlpt` marks the load of LW_VLPT (R630). -/
def loadWord (s : State) (va : Word) (vlpt : Bool) : Res Word :=
  if field va 0 2 ≠ 0#2 then .raise (.dataAlignment s.pc) s
  else
    (translate s va .load vlpt).bind fun x t =>
      (route t x.pa .load).bind fun p u =>
        (readPlace u p 4 (s.cfg.addr va) .load).bind fun bytes v =>
          .ok (assemble (dataBigEndian t x.cls) bytes) v

/-- A 1-byte load, zero-extended (the load of the all-zero word, R142; log 17). -/
def loadByte (s : State) (va : Word) : Res Word :=
  (translate s va .load false).bind fun x t =>
    (route t x.pa .load).bind fun p u =>
      (readPlace u p 1 (s.cfg.addr va) .load).bind fun bytes v => .ok (fromBytesBE bytes) v

/-- A 4-byte store to a virtual address. -/
def storeWord (s : State) (va data : Word) : Res Unit :=
  if field va 0 2 ≠ 0#2 then .raise (.dataAlignment s.pc) s
  else
    (translate s va .store false).bind fun x t =>
      (route t x.pa .store).bind fun p u =>
        writePlace u p (disassemble (dataBigEndian t x.cls) data) (s.cfg.addr va)

/-! ## Instruction fetch (R570, R447) -/

/-- A halfword from its two bytes, most significant first (R363). -/
def halfOf (bytes : List Byte) : Half := (fromBytesBE bytes).setWidth 16

/-- One halfword of an instruction at a physical address. -/
def fetchHalf (s : State) (pa va : Word) : Res Half :=
  (route s pa .fetch).bind fun p t =>
    (readPlace t p 2 va .fetch).bind fun bytes u => .ok (halfOf bytes) u

/-- The second halfword lies on another 4KB page than the first (R447). -/
def crossesPage (pc : Word) : Bool := field pc 0 12 == 0xFFE#12

/-- The halfwords of the instruction at pc: one, or two of which the second is translated separately when it lies on
another page (R447, R570). -/
def fetchInsn (s : State) : Res (Half × Option Half) :=
  (translate s s.pc .fetch false).bind fun x t =>
    (fetchHalf t x.pa s.pc).bind fun h0 u =>
      if bit h0 15 then .ok (h0, none) u
      else
        (if crossesPage s.pc then translate u (s.pc + 2#32) .fetch false
          else .ok { x with pa := x.pa + 2#32 } u).bind fun y v =>
          (fetchHalf v y.pa (s.pc + 2#32)).bind fun h1 w => .ok (h0, some h1) w

end Sys2Proof.Machine
end

