-- ==== Sys2Proof/Machine/Dma.lean ====
section
/-! DEFINITION. The local memory DMA engine (42_lmdma.md R700 to R740): channel states, the three commands, element
transfers, errors. -/

namespace Sys2Proof.Machine

/-! ## Channels -/

/-- Channel 1 (`i` true) or channel 0. -/
def DmaEngine.get (e : DmaEngine) (i : Bool) : DmaChan := if i then e.ch1 else e.ch0

/-- The engine with a channel replaced. -/
def DmaEngine.put (e : DmaEngine) (i : Bool) (c : DmaChan) : DmaEngine :=
  if i then { e with ch1 := c } else { e with ch0 := c }

/-- Channel `i` of the machine. -/
def State.chan (s : State) (i : Bool) : DmaChan := s.dma.get i

/-- The machine with channel `i` replaced. -/
def State.setChan (s : State) (i : Bool) (c : DmaChan) : State := { s with dma := s.dma.put i c }

/-- The selected channel: DMA_CHNSEL.CHAN (R274). -/
def State.selected (s : State) : Bool := s.dma.chan == 1#2

/-- The code of a channel state in DMA_STATUS.STAT (R286). -/
def DmaStat.code : DmaStat → BitVec 3
  | .idle => 0#3
  | .run => 1#3
  | .pended => 2#3
  | .stopError => 3#3
  | .complete => 4#3

/-- No error flag other than DERR (R705). -/
def DmaErr.onlyDerr (e : DmaErr) : Bool := !(e.stuna || e.euna || e.iuna || e.ioor || e.ebus || e.esup)

/-- Some error flag. -/
def DmaErr.any (e : DmaErr) : Bool := !e.onlyDerr || e.derr

/-! ## Fields of DMA_SETUP (R278) -/

/-- DMA_SETUP.LM: the DLM. -/
def DmaChan.toDlm (c : DmaChan) : Bool := bit c.setup 0

/-- DMA_SETUP.TDIR: from local memory to external memory. -/
def DmaChan.outward (c : DmaChan) : Bool := bit c.setup 1

/-- The element size in bytes, `1 << TES`. -/
def DmaChan.elemSize (c : DmaChan) : Nat := 1 <<< (field c.setup 2 2).toNat

/-- DMA_SETUP.ESTR. -/
def DmaChan.stride (c : DmaChan) : Nat := (field c.setup 4 12).toNat

/-- DMA_SETUP.CIE. -/
def DmaChan.cie (c : DmaChan) : Bool := bit c.setup 16

/-- DMA_SETUP.SIE. -/
def DmaChan.sie (c : DmaChan) : Bool := bit c.setup 17

/-- DMA_SETUP.EIE. -/
def DmaChan.eie (c : DmaChan) : Bool := bit c.setup 18

/-- The unaligned external address feature is on: `uea` of R708. -/
def uea (s : State) (c : DmaChan) : Bool := s.cfg.dmaUnea && bit c.setup 19

/-- A 2-D element transfer (R730). -/
def twoD (s : State) (c : DmaChan) : Bool := s.cfg.dma2det && bit c.setup 20

/-! ## The local memory side (R710) -/

/-- SIZE of R710. -/
def dmaLmSize (s : State) (c : DmaChan) : Nat := if c.toDlm then s.cfg.dlmSize else s.cfg.ilmSize

/-- The local memory the channel names exists and has a byte (R710, U24). -/
def dmaLmPresent (s : State) (c : DmaChan) : Bool :=
  (if c.toDlm then s.cfg.dlmExists else s.cfg.ilmExists) && dmaLmSize s c != 0

/-- LIM of R710: half the DLM in double-buffer mode. -/
def dmaLimit (s : State) (c : DmaChan) : Nat :=
  if c.toDlm && s.dbm then dmaLmSize s c / 2 else dmaLmSize s c

/-- `LmByte(c, off)`, read (R710). -/
def lmByte (s : State) (c : DmaChan) (off : Nat) : Byte :=
  let o := off % dmaLimit s c
  if c.toDlm then s.dlm.read (s.dmaBank o) else s.ilm.read o

/-- `LmByte(c, off) <- b` (R710). -/
def setLmByte (s : State) (c : DmaChan) (off : Nat) (b : Byte) : State :=
  let o := off % dmaLimit s c
  if c.toDlm then { s with dlm := s.dlm.write (s.dmaBank o) b } else { s with ilm := s.ilm.write o b }

/-- Bytes written to the local memory from an offset. -/
def setLmBytes (c : DmaChan) (off : Nat) : List Byte → State → State
  | [], s => s
  | b :: r, s => setLmBytes c (off + 1) r (setLmByte s c off b)

/-! ## Leaving and entering Run (R720, R722) -/

/-- The elements left in a row of a 2-D transfer that a WECNT or STWECNT value names (R730, R290). -/
def rowCount (s : State) (v : BitVec 16) : Nat := if s.cfg.dmaWecntMinus1 then v.toNat + 1 else v.toNat

/-- `w` on entry to Run: STWECNT (R720), or the row it names of a 2-D transfer (R730). -/
def startRow (s : State) (c : DmaChan) : Nat := if twoD s c then rowCount s c.stwecnt else c.stwecnt.toNat

/-- What STWECNT takes when a channel leaves Run: `w` (R722); for a 2-D transfer with DMA_WECNT_MINUS1, `w` or `w - 1`,
from which a restart goes on in the same row (R290, R291, R730), as `dmaRestartMinus1` says (log 42). -/
def restartRow (s : State) (c : DmaChan) : Nat :=
  if twoD s c && s.cfg.dmaWecntMinus1 && s.cfg.dmaRestartMinus1 then c.wRow - 1 else c.wRow

/-- A channel as it stands when it has just entered Run: the working values start from its registers (R720, R730). -/
def enteredRun (s : State) (c : DmaChan) : DmaChan :=
  { c with
    stat := .run
    wIntOff := c.isaddr.toNat % dmaLimit s c
    wExtAddr := c.esaddr
    wCount := c.tcnt.toNat
    wRow := startRow s c }

/-- A channel enters Run (R701, R720). -/
def enterRun (s : State) (i : Bool) : State := s.setChan i (enteredRun s (s.chan i))

/-- A pended channel enters Run when the other one has left it (R701). -/
def startPended (s : State) (left : Bool) : State :=
  if (s.chan !left).stat = .pended then enterRun s !left else s

/-- `Finish(c, newstate)` (R722): the registers take the working values (`restartRow` for STWECNT, which is free on
Complete, U25); the interrupt status is set if `irq`; a pended channel starts. -/
def finish (s : State) (i : Bool) (new : DmaStat) (err : DmaErr) (irq : Bool) : State :=
  let c := s.chan i
  let free := new = .complete ∧ s.cfg.dma2det = true
  let t := s.setChan i { c with
    isaddr := BitVec.ofNat 20 c.wIntOff
    esaddr := c.wExtAddr
    tcnt := BitVec.ofNat 18 c.wCount
    stwecnt := if free then field (Config.freeWord s.draws 0) 0 16 else BitVec.ofNat 16 (restartRow s c)
    stat := new
    err := err
    int := c.int || irq }
  startPended (if free then t.drawn else t) i

/-! ## Element transfers (R720, R723, R730) -/

/-- One bus access of an element: `n` bytes between the local memory at `off` and the bus at `pa`; `none` is a bus
error (D25). -/
def copyChunk (s : State) (c : DmaChan) (off pa n : Nat) : Option State :=
  if c.outward then s.busWrite pa ((List.range n).map (fun j => lmByte s c (off + j)))
  else
    match s.busRead pa n with
    | some (bytes, t) => some (setLmBytes c off bytes t)
    | none => none

/-- One element: one bus access, or two of 4 bytes for an 8-byte element (D25). The second component tells a bus
error; what was moved before it stays. -/
def copyElement (s : State) (c : DmaChan) : State × Bool :=
  let off := c.wIntOff
  let pa := c.wExtAddr.toNat
  match copyChunk s c off pa (min c.elemSize 4) with
  | none => (s, true)
  | some t =>
    if c.elemSize ≤ 4 then (t, false)
    else
      match copyChunk t c (off + 4) (pa + 4) 4 with
      | none => (t, true)
      | some u => (u, false)

/-- `NextStride(c)` (R730) and the elements then left in the row. -/
def nextStride (s : State) (c : DmaChan) : Nat × Nat :=
  if twoD s c then
    if c.wRow - 1 = 0 then (c.htstr.toNat, rowCount s c.wecnt) else (c.stride, c.wRow - 1)
  else (c.stride, c.wRow)

/-- The bytes near offset 0 that an Out-Of-Range error may corrupt: free, in a free number of elements (R723, U26). -/
def corruptLm (s : State) (c : DmaChan) : State :=
  let n := min (Config.freeNat s.draws 0 * c.elemSize) (dmaLimit s c)
  setLmBytes c 0 ((List.range n).map (fun j => Config.freeByte s.draws j)) s.drawn

/-- `Element(c)` (R720): one element of the channel in Run is moved. -/
def element (s : State) (i : Bool) : State :=
  let c := s.chan i
  match copyElement s c with
  | (t, true) => finish t i .stopError { c.err with ebus := true } c.eie
  | (t, false) =>
    let c' := { c with
      wIntOff := c.wIntOff + c.elemSize
      wExtAddr := c.wExtAddr + BitVec.ofNat 32 (nextStride s c).1
      wCount := c.wCount - 1
      wRow := (nextStride s c).2 }
    let t' := t.setChan i c'
    if c'.wCount = 0 then finish t' i .complete c.err c.cie
    else if dmaLimit s c ≤ c'.wIntOff then
      finish (if c.outward then t' else corruptLm t' c) i .stopError { c.err with ioor := true } c.eie
    else t'

/-- The channel in Run, if the engine is enabled (R272, R701). -/
def State.running (s : State) : Option Bool :=
  if s.dma.en = false then none
  else if (s.chan false).stat = .run then some false
  else if (s.chan true).stat = .run then some true
  else none

/-- Up to `n` elements of whatever channel is in Run (R720). -/
def dmaRun : Nat → State → State
  | 0, s => s
  | n + 1, s =>
    match s.running with
    | none => s
    | some i => dmaRun n (element s i)

/-- How many elements the engine may move between two instructions: a free number (R720, log 41). -/
def burstCount (s : State) : Nat := Config.freeNat s.draws 0

/-- The engine would move an element over a bus whose HSMP range is undefined: the machine stops (U29, log 45). -/
def dmaBlocked (s : State) : Bool := s.running.isSome && s.hsmpBroken && burstCount s != 0

/-- The engine between two instructions of the core: a free number of elements (R720, log 41). -/
def dmaBurst (s : State) : State :=
  match s.running with
  | none => s
  | some _ => dmaRun (burstCount s) s.drawn

/-! ## Commands (R704 to R708) -/

/-- `StartChecks(c)` (R708). -/
def startChecks (s : State) (c : DmaChan) : DmaErr where
  stuna := (c.stride % c.elemSize != 0 || (twoD s c && c.htstr.toNat % c.elemSize != 0)) && !uea s c
  derr := false
  euna := c.esaddr.toNat % c.elemSize != 0 && !uea s c
  iuna := c.isaddr.toNat % c.elemSize != 0
  ioor := false
  ebus := false
  esup := twoD s c && (c.wecnt == 0#16 || c.stwecnt == 0#16)

/-- Start (R705) of channel `i`; naming a local memory that is absent, it is refused (U24). -/
def dmaStart (s : State) (i : Bool) : Res Unit :=
  let c := s.chan i
  if c.stat = .idle ∨ (c.stat = .stopError ∧ c.err.onlyDerr = true) then
    let e := startChecks s c
    let c0 := { c with err := { c.err with derr := false }, int := false }
    if e.any then .ok () (s.setChan i { c0 with err := e, stat := .stopError, int := c.eie })
    else if c.tcnt = 0#18 then .ok () (s.setChan i { c0 with stat := .complete, int := c.cie })
    else if dmaLmPresent s c = false then .refuse .dmaAbsentLocalMemory
    else if (s.chan !i).stat = .run then
      .ok () { s with
        dma := { s.dma.put i { c0 with stat := .pended, seq := s.dma.nextSeq } with nextSeq := s.dma.nextSeq + 1 } }
    else .ok () (enterRun (s.setChan i c0) i)
  else .ok () s

/-- Up to `n` further elements of channel `i` while it stays in Run (R706). -/
def drain (i : Bool) : Nat → State → State
  | 0, s => s
  | n + 1, s => if (s.chan i).stat = .run then drain i n (element s i) else s

/-- The further elements of a Stop: a free number, at most those that remain (R706, U22). -/
def stopCount (s : State) (i : Bool) : Nat := Config.freeNat s.draws 0 % ((s.chan i).wCount + 1)

/-- A Stop whose further elements would go over a bus with an undefined HSMP range (U29, log 45). -/
def stopBlocked (s : State) (i : Bool) : Bool :=
  (s.chan i).stat == .run && s.hsmpBroken && stopCount s i != 0

/-- Stop (R706): a free number of further elements, at most those that remain (U22), then Stop/Error. -/
def dmaStop (s : State) (i : Bool) : State :=
  let c := s.chan i
  if c.stat = .run then
    let t := drain i (stopCount s i) s.drawn
    if (t.chan i).stat = .run then finish t i .stopError (t.chan i).err (t.chan i).sie else t
  else if c.stat = .pended then s.setChan i { c with stat := .stopError, int := c.int || c.sie }
  else s

/-- A channel put in Idle with its flags and interrupt status cleared (R707). -/
def DmaChan.cleared (c : DmaChan) : DmaChan := { c with stat := .idle, err := .none, int := false }

/-- Reset (R707). -/
def dmaReset (s : State) (i : Bool) : State :=
  let t := s.setChan i (s.chan i).cleared
  if (s.chan i).stat = .run then startPended t i else t

/-- A write to DMA_ACT (R704): ACMD is a command to the selected channel; ignored while the engine is disabled. -/
def dmaCommand (s : State) (acmd : BitVec 2) : Res Unit :=
  if s.dma.en = false then .ok () s
  else if acmd = 1#2 then dmaStart s s.selected
  else if acmd = 2#2 then
    if stopBlocked s s.selected then .stop .hsmpRangePattern else .ok () (dmaStop s s.selected)
  else if acmd = 3#2 then .ok () (dmaReset s s.selected)
  else .ok () s

/-- A write to DMA_GCSW.EN (R272, R701): 0 puts both channels in Idle. -/
def dmaEnable (s : State) (en : Bool) : State :=
  if en then { s with dma := { s.dma with en := true } }
  else { s with dma := { s.dma with en := false, ch0 := s.dma.ch0.cleared, ch1 := s.dma.ch1.cleared } }

/-- The disruption error of a channel in Run or Pended (R701, R723 d). -/
def disrupt (s : State) (i : Bool) : State :=
  let c := s.chan i
  let err := { c.err with derr := true }
  if c.stat = .run then finish s i .stopError err c.eie
  else s.setChan i { c with stat := .stopError, err := err, int := c.int || c.eie }

/-- A write to a set-up register of the selected channel: discarded with a disruption error while the channel is in Run
or Pended (R278, R701). -/
def dmaSetupWrite (s : State) (f : DmaChan → DmaChan) : State :=
  let c := s.chan s.selected
  if c.stat = .run ∨ c.stat = .pended then disrupt s s.selected else s.setChan s.selected (f c)

/-! ## What the registers read (R272, R286) -/

/-- DMA_STATUS of a channel (R286). -/
def DmaChan.status (c : DmaChan) : Word :=
  fieldAt 0 c.stat.code ||| bitAt 3 c.err.stuna ||| bitAt 4 c.err.derr ||| bitAt 5 c.err.euna ||| bitAt 6 c.err.iuna
    ||| bitAt 7 c.err.ioor ||| bitAt 8 c.err.ebus ||| bitAt 9 c.err.esup

/-- DMA_GCSW (R272, R273). -/
def dmaGcsw (s : State) : Word :=
  fieldAt 0 s.dma.ch0.stat.code ||| bitAt 12 s.dma.ch0.int ||| bitAt 31 s.dma.en
    ||| (if s.cfg.dmaTwoChannels then fieldAt 3 s.dma.ch1.stat.code ||| bitAt 13 s.dma.ch1.int else 0#32)

/-- The bits of DMA_SETUP that exist (R278). -/
def dmaSetupMask (c : Config) : Word :=
  0x00E7FFFF#32 ||| bitAt 19 c.dmaUnea ||| bitAt 20 c.dma2det

end Sys2Proof.Machine
end

