-- ==== Sys2Proof/Machine/SysRegs.lean ====
section
/-! DEFINITION. The system register space (R55, R56): which index names which register, which registers exist (R58),
who may access them (R643), what a read gives (R641) and what a write does (R640), field by field. -/

namespace Sys2Proof.Machine

/-- The system registers of R56. `edm n` is dr0 to dr47 by number. -/
inductive Sr where
  | cpuVer | icmCfg | dcmCfg | mmuCfg | mscCfg | coreId | fucopExist
  | psw | ipsw | pIpsw | ivb | eva | pEva | itype | pItype | merr | ipc | pIpc | oipc | pP0 | pP1 | intMask | intPend
  | mmuCtl | l1Pptb | tlbVpn | tlbData | tlbMisc | vlptIdx | ilmb | dlmb | cacheCtl | hsmpSaddr | hsmpEaddr
  | sdzCtl | miscCtl
  | edm (n : Fin 48)
  | pfmc0 | pfmc1 | pfmc2 | pfmCtl | prusrAccCtl | fucopCtl
  | dmaCfg | dmaGcsw | dmaChnsel | dmaAct | dmaSetup | dmaIsaddr | dmaEsaddr | dmaTcnt | dmaStatus | dma2dset
  | dma2dsctl
  deriving DecidableEq, Repr

/-- The EDM register of an index of major 3 (R56): BPCn, BPAn, BPAMn, BPVn, BPCIDn are dr(5n + minor). -/
def edmOf (minor : BitVec 4) (ext : BitVec 3) : Option Sr :=
  if h : minor.toNat ≤ 4 then some (.edm ⟨5 * ext.toNat + minor.toNat, by omega⟩)
  else if ext = 0#3 ∧ minor = 5#4 then some (.edm 40)
  else if ext = 0#3 ∧ minor = 6#4 then some (.edm 41)
  else if ext = 0#3 ∧ minor = 7#4 then some (.edm 42)
  else if ext = 0#3 ∧ minor = 8#4 then some (.edm 43)
  else if ext = 0#3 ∧ minor = 9#4 then some (.edm 44)
  else if ext = 0#3 ∧ minor = 10#4 then some (.edm 45)
  else if ext = 0#3 ∧ minor = 14#4 then some (.edm 46)
  else if ext = 1#3 ∧ minor = 14#4 then some (.edm 47)
  else none

/-- The register an index names (R56, R560); `none` for an index that is not in the list. -/
def srOf (idx : BitVec 10) : Option Sr :=
  match idx.toNat with
  | 0x000 => some .cpuVer
  | 0x008 => some .icmCfg
  | 0x010 => some .dcmCfg
  | 0x018 => some .mmuCfg
  | 0x020 => some .mscCfg
  | 0x001 => some .coreId
  | 0x028 => some .fucopExist
  | 0x080 => some .psw
  | 0x081 => some .ipsw
  | 0x082 => some .pIpsw
  | 0x089 => some .ivb
  | 0x091 => some .eva
  | 0x092 => some .pEva
  | 0x099 => some .itype
  | 0x09A => some .pItype
  | 0x0A1 => some .merr
  | 0x0A9 => some .ipc
  | 0x0AA => some .pIpc
  | 0x0AB => some .oipc
  | 0x0B2 => some .pP0
  | 0x0BA => some .pP1
  | 0x0C0 => some .intMask
  | 0x0C8 => some .intPend
  | 0x100 => some .mmuCtl
  | 0x108 => some .l1Pptb
  | 0x110 => some .tlbVpn
  | 0x118 => some .tlbData
  | 0x120 => some .tlbMisc
  | 0x128 => some .vlptIdx
  | 0x130 => some .ilmb
  | 0x138 => some .dlmb
  | 0x140 => some .cacheCtl
  | 0x148 => some .hsmpSaddr
  | 0x149 => some .hsmpEaddr
  | 0x178 => some .sdzCtl
  | 0x179 => some .miscCtl
  | 0x200 => some .pfmc0
  | 0x201 => some .pfmc1
  | 0x202 => some .pfmc2
  | 0x208 => some .pfmCtl
  | 0x220 => some .prusrAccCtl
  | 0x228 => some .fucopCtl
  | 0x280 => some .dmaCfg
  | 0x288 => some .dmaGcsw
  | 0x290 => some .dmaChnsel
  | 0x298 => some .dmaAct
  | 0x2A0 => some .dmaSetup
  | 0x2A8 => some .dmaIsaddr
  | 0x2B0 => some .dmaEsaddr
  | 0x2B8 => some .dmaTcnt
  | 0x2C0 => some .dmaStatus
  | 0x2C8 => some .dma2dset
  | 0x2C9 => some .dma2dsctl
  | _ => if field idx 7 3 = 3#3 then edmOf (field idx 3 4) (field idx 0 3) else none

/-- The core family is one whose idr registers the manual defines (R300). -/
def Config.idrFamily (c : Config) : Bool := c.cpuid == 0x0C#8 || c.cpuid == 0x0A#8 || c.cpuid == 0x09#8

/-- SrExists (R58, R59, R250). TECR0 and TECR1 exist like every EDM register, iff MSC_CFG.EDM is 1 (R250, R888, D17),
where the summary of R58 prints MSC_CFG.TRACE (log 39). -/
def srExists (c : Config) : Sr → Bool
  | .cpuVer | .icmCfg | .dcmCfg | .mmuCfg | .mscCfg => true
  | .coreId => !c.hardCore
  | .fucopExist => c.copExt
  | .psw | .ipsw | .ivb | .eva | .itype | .ipc | .oipc | .intMask | .intPend => true
  | .pIpsw | .pEva | .pItype | .pIpc | .pP0 | .pP1 => !c.intlc
  | .merr => c.merrExists
  | .mmuCtl => true
  | .l1Pptb | .tlbMisc => c.hasMmu
  | .tlbVpn | .tlbData => c.mmps != 0#2
  | .vlptIdx => c.vlptIdxExists
  | .ilmb => c.ilmExists
  | .dlmb => c.dlmExists
  | .cacheCtl => c.cacheCtlExists
  | .hsmpSaddr => c.hasHsmp
  | .hsmpEaddr => c.hardCore
  | .sdzCtl | .miscCtl => c.idrExists && Config.idrFamily c
  | .edm n => c.hasEdm && (40 ≤ n.val || n.val / 5 < c.edmBc)
  | .pfmc0 | .pfmc1 | .pfmc2 | .pfmCtl => c.hasPfm
  | .prusrAccCtl => c.hasPrusr
  | .fucopCtl => c.copExt || c.hasAudio
  | .dmaCfg | .dmaGcsw | .dmaChnsel | .dmaAct | .dmaSetup | .dmaIsaddr | .dmaEsaddr | .dmaTcnt | .dmaStatus =>
    c.hasDma
  | .dma2dset | .dma2dsctl => c.hasDma && c.dma2det

/-- A register index of the local memory DMA: major 5 (R295, R643), whether or not a register has the index, so that
with DMA_USR_EN user mode takes Reserved instruction, not Privileged instruction, at an index of major 5 that names no
register (log 28). -/
def isDmaIndex (idx : BitVec 10) : Bool := field idx 7 3 == 5#3

/-- A performance monitoring register: PFMC0 to PFMC2, PFM_CTL (R643). -/
def isPfmIndex (idx : BitVec 10) : Bool := idx == 0x200#10 || idx == 0x201#10 || idx == 0x202#10 || idx == 0x208#10

/-- SrAccessAllowed (R643). -/
def srAccessAllowed (s : State) (idx : BitVec 10) : Bool :=
  s.superuser
    || (isDmaIndex idx && s.cfg.hasPrusr && bit s.misc.prusrAccCtl 0)
    || (isPfmIndex idx && s.cfg.hasPrusr && bit s.misc.prusrAccCtl 1)

/-! ## The bits of each register that exist -/

/-- INT_MASK (R140): H5IM to H0IM, SIM, ALZ (with baseline version 2, U7), IDIVZE, DSSIM. -/
def intMaskMask (c : Config) : Word := 0xC001003F#32 ||| bitAt 29 c.baseV2

/-- MMU_CTL (R181, R182): the NTM fields with MMU_CFG.NTME; D, TBALCK and MPZIU under the MMU, elsewhere by the
parameter (U9). -/
def mmuCtlMask (c : Config) : Word :=
  0x000801FE#32 ||| (if c.ntme then 0x0007F800#32 else 0#32)
    ||| (if c.hasMmu || c.mmuCtlFieldsStored then 0x00000601#32 else 0#32)

/-- TLB_VPN: VPN under the MMU (R198), Hrange under the MPU (R200). -/
def tlbVpnMask (c : Config) : Word := if c.hasMpu then 0x1FFFF000#32 else 0xFFFFF000#32

/-- TLB_DATA: bit 11 is Reserved under the MMU (R202), bits 11:9 under the MPU (R205). -/
def tlbDataMask (c : Config) : Word := if c.hasMpu then 0xFFFFF1FF#32 else 0xFFFFF7FF#32

/-- The RW bits of ILMB (R215). -/
def ilmbMask (c : Config) : Word := if c.ilmBsav1 then 0xFFFFFC01#32 else 0xFFF00001#32

/-- The RW bits of DLMB (R219): DBM and DBB with double-buffer support only (R221). -/
def dlmbMask (c : Config) : Word :=
  (if c.dlmBsav1 then 0xFFFFFC01#32 else 0xFFF00001#32) ||| (if c.doubleBuffer then 0x60#32 else 0#32)

/-- HSMP_SADDR: version 1 (R229) has no RANGE, version 2 (R230) has. -/
def hsmpSaddrMask (c : Config) : Word := if c.hsmpV1 then 0xFFF00001#32 else 0xFFF01FFF#32

/-- CORE_ID.COREID has COREID_BITS bits (R53). -/
def coreIdMask (c : Config) : Word := (1#32 <<< c.coreIdBits) - 1#32

/-- ITYPE and P_ITYPE: bits 15:5 Reserved, bit 31 zero (R120). -/
def itypeMask : Word := 0x7FFF001F#32

/-- The RW bits of PFM_CTL: all but OVF2-0 (R257). -/
def pfmCtlRw : Word := 0x0FFFFE3F#32

/-- The W1C bits of PFM_CTL: OVF2-0 (R257). -/
def pfmCtlW1c : Word := 0x1C0#32

/-! ## Reading (R641) -/

/-- `ReadSR(idx)` (R641). -/
def readSr (s : State) : Sr → Word
  | .cpuVer => s.cfg.cpuVer
  | .icmCfg => s.cfg.icmCfg &&& 0x7FFF#32
  | .dcmCfg => s.cfg.dcmCfg &&& 0x7FFF#32
  | .mmuCfg => s.cfg.mmuCfg
  | .mscCfg => s.cfg.mscCfg &&& 0x1FFFF#32
  | .coreId => s.cfg.coreId &&& coreIdMask s.cfg
  | .fucopExist => s.cfg.fucopExist &&& 0x8000000F#32
  | .psw => s.ir.psw &&& pswMask s.cfg
  | .ipsw => s.ir.ipsw &&& pswMask s.cfg
  | .pIpsw => s.ir.pIpsw &&& pswMask s.cfg
  | .ivb => s.ir.ivb &&& 0xFFFFE000#32
  | .eva => s.ir.eva
  | .pEva => s.ir.pEva
  | .itype => s.ir.itype &&& itypeMask
  | .pItype => s.ir.pItype &&& itypeMask
  | .merr => s.ir.merr &&& 0x80000000#32
  | .ipc => s.ir.ipc
  | .pIpc => s.ir.pIpc
  | .oipc => s.ir.oipc
  | .pP0 => s.ir.pP0
  | .pP1 => s.ir.pP1
  | .intMask => s.ir.intMask &&& intMaskMask s.cfg
  | .intPend => bitAt 16 s.ir.swi ||| zext s.intPendLow
  | .mmuCtl => s.mr.mmuCtl &&& mmuCtlMask s.cfg
  | .l1Pptb => s.mr.l1Pptb &&& 0xFFFFF001#32
  | .tlbVpn => s.mr.tlbVpn &&& tlbVpnMask s.cfg
  | .tlbData => s.mr.tlbData &&& tlbDataMask s.cfg
  | .tlbMisc => s.mr.tlbMisc &&& 0x1FFF#32
  | .vlptIdx => s.mr.vlptIdx &&& 0xFFFFFFFC#32
  | .ilmb => (s.mr.ilmb &&& ilmbMask s.cfg) ||| fieldAt 1 s.cfg.ilmSz
  | .dlmb => (s.mr.dlmb &&& dlmbMask s.cfg) ||| fieldAt 1 s.cfg.dlmSz
  | .cacheCtl => s.mr.cacheCtl &&& 0x3F#32
  | .hsmpSaddr => s.mr.hsmpSaddr &&& hsmpSaddrMask s.cfg
  | .hsmpEaddr => s.mr.hsmpEaddr &&& 0xFFF00000#32
  | .sdzCtl => s.misc.sdzCtl &&& sdzMask s.cfg
  | .miscCtl => s.misc.miscCtl &&& miscMask s.cfg
  | .edm n => if n = 40 then s.cfg.edmCfg else s.edm[n]
  | .pfmc0 => s.pfm.pfmc0
  | .pfmc1 => s.pfm.pfmc1
  | .pfmc2 => s.pfm.pfmc2
  | .pfmCtl => s.pfm.pfmCtl &&& (pfmCtlRw ||| pfmCtlW1c)
  | .prusrAccCtl => s.misc.prusrAccCtl &&& 3#32
  | .fucopCtl => s.misc.fucopCtl &&& 0x8000000F#32
  | .dmaCfg => s.cfg.dmaCfg &&& 0xFFFF000F#32
  | .dmaGcsw => dmaGcsw s
  | .dmaChnsel => zext s.dma.chan
  | .dmaAct => 0#32
  | .dmaSetup => (s.chan s.selected).setup &&& dmaSetupMask s.cfg
  | .dmaIsaddr => zext (s.chan s.selected).isaddr
  | .dmaEsaddr => (s.chan s.selected).esaddr
  | .dmaTcnt => zext (s.chan s.selected).tcnt
  | .dmaStatus => (s.chan s.selected).status
  | .dma2dset => (s.chan s.selected).htstr ++ (s.chan s.selected).wecnt
  | .dma2dsctl => zext (s.chan s.selected).stwecnt

/-! ## Writing (R640) -/

/-- A reserved value of a PSW-format register (R104, R829): POM 2 or 3; INTL 3 when only two levels exist (U5). -/
def pswReserved (c : Config) (v : Word) : Bool := bit v 4 || (c.intlc && field v 1 2 == 3#2)

/-- A reserved value of DMA_SETUP (R278, R279, R725): TES 3 without 8-byte elements, CA 3. -/
def dmaSetupReserved (c : Config) (v : Word) : Bool :=
  (field v 2 2 == 3#2 && !c.dmaTes8) || field v 21 3 == 3#3

/-- A channel number the implementation lacks (R275). -/
def chanReserved (c : Config) (v : Word) : Bool :=
  bit v 1 || (bit v 0 && !c.dmaTwoChannels)

/-- Both bases have been programmed, and to one address, whatever the enables (R525, U16; log 44). -/
def State.equalBases (s : State) : Bool := s.mr.ilmbSet && s.mr.dlmbSet && s.ilmBase == s.dlmBase

/-- The result of a write to ILMB or DLMB: a stop if the two bases are now programmed equal. -/
def lmWritten (t : State) : Res Unit := if t.equalBases then .stop .equalLocalMemoryBases else .ok () t

/-- The interruption registers replaced. -/
def State.setIr (s : State) (r : IntRegs) : State := { s with ir := r }

/-- The registers of major 2 replaced. -/
def State.setMr (s : State) (r : MmuRegs) : State := { s with mr := r }

/-- DLMB written, and so programmed: a change of DBM loses the content of the DLM (R531, U17). -/
def writeDlmb (s : State) (v : Word) : State :=
  let t := s.setMr { s.mr with dlmb := v &&& dlmbMask s.cfg, dlmbSet := true }
  if t.dbm = s.dbm then t else { t.drawn with dlm := ⟨[], some s.draws⟩ }

/-- SDZ_CTL written: MTBDZ other than 0 leaves the TLB content unknown until FLUA (R307, U12), and so does a change of
MTBDZ back to 0, after which R301 requires every entry to be invalidated (log 46). -/
def writeSdz (s : State) (v : Word) : State :=
  let w := v &&& sdzMask s.cfg
  let t := { s with misc := { s.misc with sdzCtl := w } }
  if field w 6 3 = 0#3 ∧ field s.misc.sdzCtl 6 3 = 0#3 then t else { t.drawn with tlb := ⟨[], .unknown s.draws⟩ }

/-- MTSR's write (R640): the reserved values first, then every field by its type, then the side effect. -/
def writeSr (s : State) (sr : Sr) (v : Word) : Res Unit :=
  match sr with
  | .cpuVer | .icmCfg | .dcmCfg | .mmuCfg | .mscCfg | .coreId | .fucopExist | .eva | .itype | .dmaCfg | .dmaStatus =>
    .ok () s
  | .psw =>
    if pswReserved s.cfg v then .raise .reservedValue s
    else .ok () (s.setIr { s.ir with psw := v &&& pswMask s.cfg })
  | .ipsw =>
    if pswReserved s.cfg v then .raise .reservedValue s
    else .ok () (s.setIr { s.ir with ipsw := v &&& pswMask s.cfg })
  | .pIpsw =>
    if pswReserved s.cfg v then .raise .reservedValue s
    else .ok () (s.setIr { s.ir with pIpsw := v &&& pswMask s.cfg })
  | .ivb => .ok () (s.setIr { s.ir with ivb := v &&& 0xFFFFE000#32 })
  | .pEva => .ok () (s.setIr { s.ir with pEva := v })
  | .pItype => .ok () (s.setIr { s.ir with pItype := v &&& itypeMask })
  | .merr => .ok () (s.setIr { s.ir with merr := s.ir.merr &&& ~~~(v &&& 0x80000000#32) })
  | .ipc => .ok () (s.setIr { s.ir with ipc := v })
  | .pIpc => .ok () (s.setIr { s.ir with pIpc := v })
  | .oipc => .ok () (s.setIr { s.ir with oipc := v })
  | .pP0 => .ok () (s.setIr { s.ir with pP0 := v })
  | .pP1 => .ok () (s.setIr { s.ir with pP1 := v })
  | .intMask => .ok () (s.setIr { s.ir with intMask := v &&& intMaskMask s.cfg })
  | .intPend => .ok () (s.setIr { s.ir with swi := bit v 16 })
  | .mmuCtl => .ok () (s.setMr { s.mr with mmuCtl := v &&& mmuCtlMask s.cfg })
  | .l1Pptb => .ok () (s.setMr { s.mr with l1Pptb := v &&& 0xFFFFF001#32 })
  | .tlbVpn => .ok () (s.setMr { s.mr with tlbVpn := v &&& tlbVpnMask s.cfg })
  | .tlbData => .ok () (s.setMr { s.mr with tlbData := v &&& tlbDataMask s.cfg })
  | .tlbMisc =>
    if s.sizeImplemented (field v 0 4) then .ok () (s.setMr { s.mr with tlbMisc := v &&& 0x1FFF#32 })
    else .raise .unimplementedPageSize s
  | .vlptIdx =>
    .ok () (s.setMr { s.mr with vlptIdx := (s.mr.vlptIdx &&& 0x003FFFFC#32) ||| (v &&& 0xFFC00000#32) })
  | .ilmb => lmWritten (s.setMr { s.mr with ilmb := v &&& ilmbMask s.cfg, ilmbSet := true })
  | .dlmb => lmWritten (writeDlmb s v)
  | .cacheCtl => .ok () (s.setMr { s.mr with cacheCtl := v &&& 0x3F#32 })
  | .hsmpSaddr => .ok () (s.setMr { s.mr with hsmpSaddr := v &&& hsmpSaddrMask s.cfg })
  | .hsmpEaddr => .ok () (s.setMr { s.mr with hsmpEaddr := v &&& 0xFFF00000#32 })
  | .sdzCtl => .ok () (writeSdz s v)
  | .miscCtl => .ok () { s with misc := { s.misc with miscCtl := v &&& miscMask s.cfg } }
  | .edm n => if n = 40 then .ok () s else .ok () { s with edm := s.edm.set n v }
  | .pfmc0 => .ok () { s with pfm := { s.pfm with pfmc0 := v } }
  | .pfmc1 => .ok () { s with pfm := { s.pfm with pfmc1 := v } }
  | .pfmc2 => .ok () { s with pfm := { s.pfm with pfmc2 := v } }
  | .pfmCtl =>
    .ok () { s with
      pfm := { s.pfm with pfmCtl := (v &&& pfmCtlRw) ||| (s.pfm.pfmCtl &&& pfmCtlW1c &&& ~~~v) } }
  | .prusrAccCtl => .ok () { s with misc := { s.misc with prusrAccCtl := v &&& 3#32 } }
  | .fucopCtl => .ok () { s with misc := { s.misc with fucopCtl := v &&& 0x8000000F#32 } }
  | .dmaGcsw => .ok () (dmaEnable s (bit v 31))
  | .dmaChnsel =>
    if chanReserved s.cfg v then .raise .reservedValue s
    else .ok () { s with dma := { s.dma with chan := field v 0 2 } }
  | .dmaAct => dmaCommand s (field v 0 2)
  | .dmaSetup =>
    if dmaSetupReserved s.cfg v then .raise .reservedValue s
    else .ok () (dmaSetupWrite s fun c => { c with setup := v &&& dmaSetupMask s.cfg })
  | .dmaIsaddr => .ok () (dmaSetupWrite s fun c => { c with isaddr := field v 0 20 })
  | .dmaEsaddr => .ok () (dmaSetupWrite s fun c => { c with esaddr := v })
  | .dmaTcnt => .ok () (dmaSetupWrite s fun c => { c with tcnt := field v 0 18 })
  | .dma2dset =>
    .ok () (dmaSetupWrite s fun c =>
      { c with wecnt := field v 0 16, htstr := field v 16 16, stwecnt := field v 0 16 })
  | .dma2dsctl => .ok () (dmaSetupWrite s fun c => { c with stwecnt := field v 0 16 })

/-- The register an MFSR or MTSR reaches, after the privilege check (R643) and the existence check (R642, D12). -/
def accessSr (s : State) (idx : BitVec 10) : Res Sr :=
  if srAccessAllowed s idx then
    match srOf idx with
    | some sr => if srExists s.cfg sr then .ok sr s else .raise .reservedInstruction s
    | none => .raise .reservedInstruction s
  else .raise .privilegedInstruction s

end Sys2Proof.Machine
end

