-- ==== Sys2Proof/Machine/Operands.lean ====
section
/-! DEFINITION. The operand forms of the instructions (R586): immediates, effective addresses, branch targets. -/

namespace Sys2Proof

/-- The general registers an instruction names. -/
def Instr.regs : Instr → List Reg
  | .mfsr rt _ => [rt]
  | .mtsr ra _ => [ra]
  | .setendL => []
  | .setendB => []
  | .dsb => []
  | .isb => []
  | .msync _ => []
  | .iret => []
  | .cctlL1dVaWb ra => [ra]
  | .brk _ => []
  | .break16 _ => []
  | .syscall _ => []
  | .trap _ => []
  | .div _ ra rb => [ra, rb]
  | .divs _ ra rb => [ra, rb]
  | .tlbopTrd ra => [ra]
  | .tlbopTwr ra => [ra]
  | .tlbopRwr ra => [ra]
  | .tlbopRwlk ra => [ra]
  | .tlbopUnlk ra => [ra]
  | .tlbopInv ra => [ra]
  | .tlbopPb rt ra => [rt, ra]
  | .tlbopFlua => []
  | .lwVlpt rt ra _ => [rt, ra]
  | .movi rt _ => [rt]
  | .sethi rt _ => [rt]
  | .ori rt ra _ => [rt, ra]
  | .andi rt ra _ => [rt, ra]
  | .addi rt ra _ => [rt, ra]
  | .lwi rt ra _ => [rt, ra]
  | .swi rt ra _ => [rt, ra]
  | .beqz rt _ => [rt]
  | .bnez rt _ => [rt]
  | .j _ => []

end Sys2Proof

namespace Sys2Proof.Machine

/-- `sext_20(imm20)` of MOVI. -/
def movImm (imm : BitVec 20) : Word := sext imm

/-- The 20-bit immediate above 12 zeros, of SETHI (R564, R586). -/
def highImm (imm : BitVec 20) : Word := imm ++ 0#12

/-- `zext_15(imm15)` of ORI and ANDI. -/
def unsignedImm (imm : BitVec 15) : Word := zext imm

/-- `sext_15(imm15)` of ADDI. -/
def signedImm (imm : BitVec 15) : Word := sext imm

/-- `x[Ra] + (sext(imm15) << 2)`: the effective address of LWI, SWI and LW_VLPT (R586, R630). -/
def wordEa (s : State) (ra : Reg) (imm : BitVec 15) : Word := s.x ra + (sext imm <<< 2)

/-- `pc + sext(imm) * 2`: the target of BEQZ, BNEZ and J (R586). -/
def branchTarget {n : Nat} (s : State) (imm : BitVec n) : Word := s.cfg.advance s.pc (sext imm <<< 1)

end Sys2Proof.Machine
end

