-- ==== Sys2Proof/Machine/User.lean ====
section
/-! DEFINITION. The user-level instructions of R586, LW_VLPT (R630), and the all-zero word (R142). -/

namespace Sys2Proof.Machine

/-- An instruction that writes `v` to Rt and goes on. -/
def writeReg (s : State) (rt : Reg) (v : Word) : Host.Outcome State Fault Refusal := completeAt s (s.setX rt v)

/-- A load that writes Rt and goes on. -/
def finishLoad (s : State) (rt : Reg) (r : Res Word) : Res Word := r.bind fun v t => .ok s.next4 (t.setX rt v)

/-- MOVI Rt, imm20s (R586). -/
def execMovi (rt : Reg) (imm : BitVec 20) (s : State) : Host.Outcome State Fault Refusal :=
  writeReg s rt (movImm imm)

/-- SETHI Rt, imm20u (R586). -/
def execSethi (rt : Reg) (imm : BitVec 20) (s : State) : Host.Outcome State Fault Refusal :=
  writeReg s rt (highImm imm)

/-- ORI Rt, Ra, imm15u (R586). -/
def execOri (rt ra : Reg) (imm : BitVec 15) (s : State) : Host.Outcome State Fault Refusal :=
  writeReg s rt (s.x ra ||| unsignedImm imm)

/-- ANDI Rt, Ra, imm15u (R586). -/
def execAndi (rt ra : Reg) (imm : BitVec 15) (s : State) : Host.Outcome State Fault Refusal :=
  writeReg s rt (s.x ra &&& unsignedImm imm)

/-- ADDI Rt, Ra, imm15s (R586). -/
def execAddi (rt ra : Reg) (imm : BitVec 15) (s : State) : Host.Outcome State Fault Refusal :=
  writeReg s rt (s.x ra + signedImm imm)

/-- LWI Rt, [Ra + (imm15s << 2)] (R586). -/
def execLwi (rt ra : Reg) (imm : BitVec 15) (s : State) : Host.Outcome State Fault Refusal :=
  complete s (finishLoad s rt (loadWord s (wordEa s ra imm) false))

/-- SWI Rt, [Ra + (imm15s << 2)] (R586). -/
def execSwi (rt ra : Reg) (imm : BitVec 15) (s : State) : Host.Outcome State Fault Refusal :=
  complete s ((storeWord s (wordEa s ra imm) (s.x rt)).bind fun _ t => .ok s.next4 t)

/-- A branch, taken or not. -/
def branchIf (s : State) (taken : Bool) (target : Word) : Host.Outcome State Fault Refusal :=
  complete s (.ok (if taken then target else s.next4) s)

/-- BEQZ Rt, imm16s (R586). -/
def execBeqz (rt : Reg) (imm : BitVec 16) (s : State) : Host.Outcome State Fault Refusal :=
  branchIf s (s.x rt == 0#32) (branchTarget s imm)

/-- BNEZ Rt, imm16s (R586). -/
def execBnez (rt : Reg) (imm : BitVec 16) (s : State) : Host.Outcome State Fault Refusal :=
  branchIf s (s.x rt != 0#32) (branchTarget s imm)

/-- J imm24s (R586). -/
def execJ (imm : BitVec 24) (s : State) : Host.Outcome State Fault Refusal := branchIf s true (branchTarget s imm)

/-- LW_VLPT Rt, [Ra + (imm << 2)] (R630, D33): Reserved instruction when MMU_CFG.VLPT is 0, then the privilege check,
then a load that is always translated. MMU_CFG.VLPT decides under the MPU too, where R495 calls it not meaningful, and
the load then goes through the MPU table, with TLB fill on an entry with V = 0 (DESIGN CHOICE, log 55). -/
def execLwVlpt (rt ra : Reg) (imm : BitVec 15) (s : State) : Host.Outcome State Fault Refusal :=
  complete s
    (if s.cfg.vlpt then privileged s (finishLoad s rt (loadWord s (wordEa s ra imm) true))
      else .raise .reservedInstruction s)

/-- INT_MASK.ALZ is in force (R142, U7). -/
def State.alz (s : State) : Bool := s.cfg.baseV2 && bit s.ir.intMask 29

/-- The all-zero instruction word (R142): LBI R0, [R0 + 0], or the Reserved instruction exception when ALZ is 1. -/
def execZeroWord (s : State) : Host.Outcome State Fault Refusal :=
  complete s (if s.alz then .raise .reservedInstruction s else finishLoad s 0 (loadByte s (s.x 0)))

end Sys2Proof.Machine
end

