-- ==== Sys2Proof/Machine/Cycle.lean ====
section
/-! DEFINITION. One step of the machine (R851): a reset; or the DMA engine's share, then either one event of the
boundary or one instruction. `ex` is the meaning of instructions. The placing of an instruction where the next fetch
reads it. -/

namespace Sys2Proof.Machine

/-! ## Reset (R920 to R924) -/

/-- A reset leaves an item as it was: a warm reset of an implementation that keeps it (R923, log 49). -/
def keeps (s : State) (kind : ResetKind) (item : WarmItem) : Bool := kind == .warm && s.cfg.warmKeeps.contains item

/-- One DMA channel after a reset: its address and count registers may be kept (R923). -/
def resetChan (keep : Bool) (c : DmaChan) : DmaChan :=
  if keep then
    { DmaChan.reset with
      isaddr := c.isaddr
      esaddr := c.esaddr
      tcnt := c.tcnt
      wecnt := c.wecnt
      htstr := c.htstr
      stwecnt := c.stwecnt }
  else .reset

/-- ir0 to ir15 after a reset: the shadow registers may be kept (R923). -/
def resetIr (s : State) (kind : ResetKind) : IntRegs :=
  if keeps s kind .shadowRegs then
    { IntRegs.reset s.cfg kind with
      ipsw := s.ir.ipsw
      pIpsw := s.ir.pIpsw
      eva := s.ir.eva
      pEva := s.ir.pEva
      pItype := s.ir.pItype
      ipc := s.ir.ipc
      pIpc := s.ir.pIpc
      oipc := s.ir.oipc
      pP0 := s.ir.pP0
      pP1 := s.ir.pP1 }
  else .reset s.cfg kind

/-- mr0 to mr10 after a reset: fields without a stated reset value may be kept (R923). -/
def resetMr (s : State) (kind : ResetKind) : MmuRegs :=
  let r := MmuRegs.reset s.cfg
  let tlb := keeps s kind .tlbRegs
  let lm := keeps s kind .lmBases
  let hsmp := keeps s kind .hsmpRegs
  { r with
    tlbVpn := if tlb then s.mr.tlbVpn else r.tlbVpn
    tlbData := if tlb then s.mr.tlbData else r.tlbData
    tlbMisc := if tlb then s.mr.tlbMisc else r.tlbMisc
    ilmb := if lm then s.mr.ilmb &&& 0xFFFFFC00#32 else r.ilmb
    dlmb := if lm then s.mr.dlmb &&& 0xFFFFFC00#32 else r.dlmb
    hsmpSaddr := if hsmp then s.mr.hsmpSaddr &&& 0xFFFFFFFE#32 else r.hsmpSaddr
    hsmpEaddr := if hsmp then s.mr.hsmpEaddr else r.hsmpEaddr
    ilmbSet := lm && s.mr.ilmbSet
    dlmbSet := lm && s.mr.dlmbSet }

/-- The state after a reset event (R920 to R924): memory, the environment's lines and the model's bookkeeping stay;
nothing is pending; the content of the local memories is free unless kept. -/
def resetState (s : State) (kind : ResetKind) : State :=
  let r := State.resetOf s.cfg kind
  let kept := keeps s kind
  { r with
    gpr := if kept .generalRegs then s.gpr else r.gpr
    d0 := if kept .dxRegs then s.d0 else r.d0
    d1 := if kept .dxRegs then s.d1 else r.d1
    ir := resetIr s kind
    mr := resetMr s kind
    pfm := if kept .pfmCounts then { s.pfm with pfmCtl := 0#32 } else r.pfm
    edm := if kept .edmRegs then s.edm else r.edm
    tlb := ⟨[], .flushed s.draws⟩
    mpu := if kept .mpuTable then s.mpu else r.mpu
    dma := { DmaEngine.reset with
      ch0 := resetChan (kept .dmaRegs) s.dma.ch0
      ch1 := resetChan (kept .dmaRegs) s.dma.ch1 }
    mem := s.mem
    ilm := if kept .localMemories then s.ilm else ⟨[], some s.draws⟩
    dlm := if kept .localMemories then s.dlm else ⟨[], some (s.draws + 1)⟩
    env := { s.env with nmi := false }
    devLog := s.devLog
    draws := s.draws + 2 }

/-! ## One instruction -/

/-- What the fetched halfwords are (R570, R575): an instruction, the all-zero word (R142), or a Reserved
instruction. -/
inductive Fetched where
  | insn (i : Instr)
  | zeroWord
  | reserved
  deriving DecidableEq, Repr

/-- The bytes of the fetched halfwords, as they lie in memory. -/
def fetchedBytes (h : Half × Option Half) : List Byte :=
  halfBytes h.1 ++
    (match h.2 with
    | some h1 => halfBytes h1
    | none => [])

/-- The fetched halfwords, decoded; an instruction that names a general register the implementation lacks is Reserved
(R41, R52; log 7). -/
def classify (c : Config) (h : Half × Option Half) : Fetched :=
  match decode (fetchedBytes h) with
  | .ok (i, _) => if i.regs.all c.gprExists then .insn i else .reserved
  | .error _ => if h = (0#16, some 0#16) ∧ c.gprExists 0 then .zeroWord else .reserved

/-- What the performance monitor sees of a fetched instruction. -/
def Fetched.work : Fetched → Work
  | .insn i => .insn i
  | .zeroWord => .zeroWord
  | .reserved => .none

/-- The fetched instruction executed (R851 steps 9, 10). -/
def execFetched (ex : Instr → State → Host.Outcome State Fault Refusal) (f : Fetched) (s : State) :
    Host.Outcome State Fault Refusal :=
  match f with
  | .insn i => ex i s
  | .zeroWord => execZeroWord s
  | .reserved => complete s (.raise .reservedInstruction s)

/-- The single-step event is recorded if the instruction completed and stepping was enabled when it started (R837,
R851 step 11). -/
def recordStep (h : Bool) (t : State) : State := if h && t.note.completed then { t with stepEvt := true } else t

/-- The end of a step that started in `s` and worked on `w`. -/
def afterInsn (s : State) (w : Work) (o : Host.Outcome State Fault Refusal) : Host.Outcome State Fault Refusal :=
  match o with
  | .next t => .next (account s w (recordStep s.effHss t))
  | .fault f => .fault f
  | .refused r => .refused r

/-- Fetch, decode and execute one instruction (R851 steps 7 to 11). -/
def runInsn (ex : Instr → State → Host.Outcome State Fault Refusal) (s : State) : Host.Outcome State Fault Refusal :=
  match fetchInsn s with
  | .ok h t => afterInsn s (classify s.cfg h).work (execFetched ex (classify s.cfg h) t)
  | .raise c t => afterInsn s .none (complete s (.raise c t))
  | .stop f => .fault f
  | .refuse r => .refused r

/-! ## One step (R851) -/

/-- A step whose inputs are sampled and that is no reset. -/
def runSampled (ex : Instr → State → Host.Outcome State Fault Refusal) (s : State) :
    Host.Outcome State Fault Refusal :=
  match boundary s with
  | some (c, t) => .next (account s .none (enter c s.pc t))
  | none => runInsn ex s

/-- One step (R851). -/
def runStep (ex : Instr → State → Host.Outcome State Fault Refusal) (s : State) : Host.Outcome State Fault Refusal :=
  match sample s with
  | (t, some kind) => .next (resetState t kind)
  | (t, none) => if dmaBlocked t then .fault .hsmpRangePattern else runSampled ex (dmaBurst t)

/-! ## Placing an instruction (log 6) -/

/-- Nothing that would take the next step away from the instruction at pc: no pending event, no input, no running
DMA transfer, no acceptable interrupt. -/
def quiet (s : State) : State :=
  let t := { s with
    stepEvt := false
    pendImp := []
    env := { s.env with nmi := false, inputs := [] }
    dma := if s.running.isSome then { s.dma with en := false } else s.dma }
  if (interruptCause t).isSome then { t with ir := { t.ir with psw := setBit t.ir.psw 0 false } } else t

/-- Bytes placed where a fetch at physical address `pa` reads them. -/
def placeAt (s : State) (pa : Word) (bytes : List Byte) : State :=
  match route s pa .fetch with
  | .ok (.ilm off) _ => { s with ilm := s.ilm.writeAll off bytes }
  | .ok (.dlm off) _ => { s with dlm := s.dlm.writeAll off bytes }
  | .ok (.bus a) _ => { s with mem := writeBytes s.cfg s.mem a bytes }
  | _ => s

/-- The physical address of the second halfword at pc, the first being at `pa`. -/
def secondPa (s : State) (pa : Word) : Word :=
  if crossesPage s.pc then
    match translate s (s.pc + 2#32) .fetch false with
    | .ok y _ => y.pa
    | _ => pa + 2#32
  else pa + 2#32

/-- Four bytes of an instruction placed where the fetch at pc reads them. -/
def placeInsn (s : State) (bytes : List Byte) : State :=
  match translate s s.pc .fetch false with
  | .ok x _ => placeAt (placeAt s x.pa (bytes.take 2)) (secondPa s x.pa) (bytes.drop 2)
  | _ => s

end Sys2Proof.Machine
end

