-- ==== Sys2Proof/Machine/Divide.lean ====
section
/-! DEFINITION. DIV and DIVS (R664). -/

namespace Sys2Proof.Machine

/-- The quotient and the remainder as {HI, LO} = {remainder, quotient}, rounding toward 0 when `signed` (R664). -/
def quotRem (signed : Bool) (a b : Word) : BitVec 64 :=
  if signed then a.srem b ++ a.sdiv b else a.umod b ++ a.udiv b

/-- A divide instruction (R664). With the divisor zero and INT_MASK.IDIVZE = 0, Dt is free (U8). -/
def divide (s : State) (signed dt : Bool) (a b : Word) : Res Word :=
  if s.cfg.hasDiv = false ∨ s.cfg.nod then .raise .reservedInstruction s
  else if b = 0#32 then
    if bit s.ir.intMask 30 then .raise (.arithmetic 1#4) s
    else .ok s.next4 (s.drawn.setD dt (Config.divByZero s.draws signed a))
  else if signed ∧ a = 0x80000000#32 ∧ b = 0xFFFFFFFF#32 then .raise (.arithmetic 2#4) s
  else .ok s.next4 (s.setD dt (quotRem signed a b))

/-- DIV Dt, Ra, Rb (R664). -/
def execDiv (dt : Bool) (ra rb : Reg) (s : State) : Host.Outcome State Fault Refusal :=
  complete s (divide s false dt (s.x ra) (s.x rb))

/-- DIVS Dt, Ra, Rb (R664). -/
def execDivs (dt : Bool) (ra rb : Reg) (s : State) : Host.Outcome State Fault Refusal :=
  complete s (divide s true dt (s.x ra) (s.x rb))

end Sys2Proof.Machine
end

