-- ==== Sys2Proof/Machine/System.lean ====
section
/-! DEFINITION. The system instructions (41_system_instructions.md): system register moves, SETEND, barriers, CCTL,
IRET, and the instructions that raise an exception by design. -/

namespace Sys2Proof.Machine

/-! ## System register moves -/

/-- MFSR Rt, SR (R641). -/
def execMfsr (rt : Reg) (sr : BitVec 10) (s : State) : Host.Outcome State Fault Refusal :=
  complete s ((accessSr s sr).bind fun r t => .ok s.next4 (t.setX rt (readSr t r)))

/-- MTSR Ra, SR (R640). -/
def execMtsr (ra : Reg) (sr : BitVec 10) (s : State) : Host.Outcome State Fault Refusal :=
  complete s ((accessSr s sr).bind fun r t => (writeSr t r (s.x ra)).bind fun _ u => .ok s.next4 u)

/-! ## Byte order (R652) -/

/-- The state with PSW.BE replaced. -/
def State.setBe (s : State) (be : Bool) : State := { s with ir := { s.ir with psw := setBit s.ir.psw 5 be } }

/-- SETEND.L (R652): PSW.BE <- 0. -/
def execSetendL (s : State) : Host.Outcome State Fault Refusal := completeAt s (s.setBe false)

/-- SETEND.B (R652): PSW.BE <- 1. -/
def execSetendB (s : State) : Host.Outcome State Fault Refusal := completeAt s (s.setBe true)

/-! ## Barriers and cache maintenance: every effect is in force at once, so they only advance pc (R371, R378) -/

/-- DSB (R644). -/
def execDsb (s : State) : Host.Outcome State Fault Refusal := completeAt s s

/-- ISB (R645). -/
def execIsb (s : State) : Host.Outcome State Fault Refusal := completeAt s s

/-- MSYNC of any sub-type (R646, D38). -/
def execMsync (_sub : BitVec 3) (s : State) : Host.Outcome State Fault Refusal := completeAt s s

/-- CCTL Ra, L1D_VA_WB (R650, D27): no cache is modelled, so no state changes. -/
def execCctlL1dVaWb (_ra : Reg) (s : State) : Host.Outcome State Fault Refusal := completeAt s s

/-! ## Return from interruption -/

/-- IRET (R647). -/
def execIret (s : State) : Host.Outcome State Fault Refusal :=
  complete s (privileged s (.ok (returnTarget s) (returnState s)))

/-! ## Exceptions by design -/

/-- BREAK swid (R660). -/
def execBrk (swid : BitVec 15) (s : State) : Host.Outcome State Fault Refusal := complete s (.raise (.brk swid) s)

/-- BREAK16 swid (R661); Reserved instruction without the 16-bit extension (R575). -/
def execBreak16 (swid : BitVec 9) (s : State) : Host.Outcome State Fault Refusal :=
  complete s (.raise (if s.cfg.ext16 then .break16 (swid.setWidth 15) else .reservedInstruction) s)

/-- SYSCALL swid (R662). -/
def execSyscall (swid : BitVec 15) (s : State) : Host.Outcome State Fault Refusal :=
  complete s (.raise (.systemCall swid) s)

/-- TRAP swid (R663). -/
def execTrap (swid : BitVec 15) (s : State) : Host.Outcome State Fault Refusal := complete s (.raise (.trap swid) s)

end Sys2Proof.Machine
end

