-- ==== Sys2Proof/Machine/Tlbop.lean ====
section
/-! DEFINITION. The TLB management instructions (40_tlbop.md R600 to R621) and their two MPU forms (R488, R489). -/

namespace Sys2Proof.Machine

/-! ## Availability (R600, R621) -/

/-- A TLBOP that only the MMU has: Reserved instruction elsewhere, then the privilege check (D33, D34). -/
def mmuOnly (s : State) (r : Res Word) : Res Word :=
  if s.cfg.hasMmu then privileged s r else .raise .reservedInstruction s

/-- A TLBOP with a form for the MMU and one for the MPU. -/
def mmuOrMpu (s : State) (mmu mpu : Res Word) : Res Word :=
  if s.cfg.hasMmu then privileged s mmu
  else if s.cfg.hasMpu then privileged s mpu
  else .raise .reservedInstruction s

/-! ## Entry numbers (R406, R601) -/

/-- The set a TLB entry number names. -/
def entrySet (c : Config) (x : Word) : Nat := x.toNat % c.tlbSets

/-- The way a TLB entry number names; the bits above are ignored. -/
def entryWay (c : Config) (x : Word) : Nat := x.toNat / c.tlbSets % 2 ^ c.wayBits

/-- The key of the entry that a TLB entry number names. -/
def entryNumber (c : Config) (x : Word) : Nat := entryWay c x * c.tlbSets + entrySet c x

/-! ## Target read and write -/

/-- TRD under the MMU (R601); a way number that names no way leaves the three registers free (U18). -/
def tlbTargetRead (s : State) (x : Word) : State :=
  if entryWay s.cfg x < s.cfg.tlbWays then
    let e := s.tlb.read (entryNumber s.cfg x)
    { s with mr := { s.mr with
      tlbVpn := e.vpn ++ 0#12
      tlbData := e.pte
      tlbMisc := zext (e.cid ++ e.psz) } }
  else
    { s.drawn with mr := { s.mr with
      tlbVpn := Config.freeWord s.draws 0 &&& 0xFFFFF000#32
      tlbData := Config.freeWord s.draws 1 &&& 0xFFFFF7FF#32
      tlbMisc := Config.freeWord s.draws 2 &&& 0x1FFF#32 } }

/-- TRD under the MPU (R488). -/
def mpuTargetRead (s : State) (x : Word) : State :=
  let e := s.mpuOf x
  { s with mr := { s.mr with
    tlbVpn := 0#3 ++ e.hrange ++ 0#12
    tlbData := e.psb ++ 0#3 ++ e.c ++ e.x ++ e.m ++ BitVec.ofBool e.v } }

/-- TWR under the MMU (R602): the entry of TLB_VPN, TLB_DATA and TLB_MISC, unlocked; a way number that names no way
writes nothing (U18). -/
def tlbTargetWrite (s : State) (x : Word) : State :=
  if entryWay s.cfg x < s.cfg.tlbWays then
    { s with tlb := s.tlb.write (entryNumber s.cfg x) (entryOfPte s.accVpn s.cid s.accPsz s.mr.tlbData false) }
  else s

/-- The MPU entry of TLB_VPN and TLB_DATA (R489). -/
def mpuEntryOf (s : State) : MpuEntry where
  psb := field s.mr.tlbData 12 20
  hrange := field s.mr.tlbVpn 12 17
  c := field s.mr.tlbData 6 3
  x := field s.mr.tlbData 4 2
  m := field s.mr.tlbData 1 3
  v := bit s.mr.tlbData 0

/-- TWR under the MPU (R489). -/
def mpuTargetWrite (s : State) (x : Word) : State :=
  { s with mpu := s.mpu.set (field x 29 3).toFin (mpuEntryOf s) }

/-- TLBOP Rx, TRD (R601, R488). -/
def execTlbopTrd (ra : Reg) (s : State) : Host.Outcome State Fault Refusal :=
  complete s (mmuOrMpu s (.ok s.next4 (tlbTargetRead s (s.x ra))) (.ok s.next4 (mpuTargetRead s (s.x ra))))

/-- TLBOP Rx, TWR (R602, R489). -/
def execTlbopTwr (ra : Reg) (s : State) : Host.Outcome State Fault Refusal :=
  complete s (mmuOrMpu s (.ok s.next4 (tlbTargetWrite s (s.x ra))) (.ok s.next4 (mpuTargetWrite s (s.x ra))))

/-! ## Random write -/

/-- `raise imprecise` (R815): the exception is pending, with the level that generated it. -/
def State.pend (s : State) (c : Cause) : State := { s with pendImp := s.pendImp ++ [⟨c, s.level⟩] }

/-- RandomWrite(lock) of PTE word `pte` (R603): the TLB locking error is imprecise and writes no entry. -/
def randomWriteOp (s : State) (pte : Word) (lock : Bool) : State :=
  match s.randomWrite (entryOfPte s.accVpn s.cid s.accPsz pte lock) with
  | some t => t
  | none => s.pend (.tlbLocking false (pageOf s.mr.tlbVpn))

/-- TLBOP Rx, RWR (R603). -/
def execTlbopRwr (ra : Reg) (s : State) : Host.Outcome State Fault Refusal :=
  complete s (mmuOnly s (.ok s.next4 (randomWriteOp s (s.x ra) false)))

/-- TLBOP Rx, RWLK (R604); Reserved instruction when MMU_CFG.TBLCK is 0. -/
def execTlbopRwlk (ra : Reg) (s : State) : Host.Outcome State Fault Refusal :=
  complete s
    (if s.cfg.tblck then mmuOnly s (.ok s.next4 (randomWriteOp s (s.x ra) true))
      else .raise .reservedInstruction s)

/-! ## Unlock -/

/-- One way of UNLK. -/
def unlockWay (s : State) (va : Word) (t : Tlb) (k : Nat) : Tlb :=
  if s.tlbMatches (t.read k) va && (t.read k).psz == s.accPsz then t.write k { t.read k with l := false } else t

/-- UNLK (R606). -/
def unlock (s : State) (va : Word) : State :=
  { s with tlb := (setEntries s.cfg (setIndex s.cfg va (pageShift s.accPsz))).foldl (unlockWay s va) s.tlb }

/-- TLBOP Rx, UNLK (R606). -/
def execTlbopUnlk (ra : Reg) (s : State) : Host.Outcome State Fault Refusal :=
  complete s (mmuOnly s (.ok s.next4 (unlock s (s.x ra))))

/-! ## Invalidate -/

/-- An entry INV must invalidate: unlocked, matching, of the page size in TLB_MISC (R609). -/
def mustInvalidate (s : State) (va : Word) (e : TlbEntry) : Bool :=
  !e.l && s.tlbMatches e va && e.psz == s.accPsz

/-- A further unlocked entry INV may invalidate, freely, where the implementation does (R609, U20); `n` tells the
entries apart. -/
def mayInvalidate (s : State) (n : Nat) (e : TlbEntry) : Bool :=
  !e.l && s.cfg.invFlushesMore && Config.freeBit s.draws n

/-- One software-visible entry of INV. -/
def invalidateWay (s : State) (va : Word) (t : Tlb) (p : Nat × TlbEntry) : Tlb :=
  if mustInvalidate s va p.2 || mayInvalidate s p.1 p.2 then t.write p.1 (flushedEntry s.draws p.1) else t

/-- INV (R609): several matches raise nothing. -/
def invalidate (s : State) (va : Word) : State :=
  { s with
    tlb := s.tlbListed.foldl (invalidateWay s va) s.tlb
    itlb := ((indexed s.itlb).filter (fun p =>
      !(mustInvalidate s va p.2 || mayInvalidate s (Config.tlbEntries s.cfg + p.1) p.2))).map Prod.snd
    draws := s.draws + 1 }

/-- TLBOP Rx, INV (R609). -/
def execTlbopInv (ra : Reg) (s : State) : Host.Outcome State Fault Refusal :=
  complete s (mmuOnly s (.ok s.next4 (invalidate s (s.x ra))))

/-! ## Probe -/

/-- The software-visible entries PB finds (R607): every page size is searched; a matching entry outside the set its
page selects is found or not, freely (U19). -/
def probeVisible (s : State) (va : Word) : List (Nat × TlbEntry) :=
  s.tlbListed.filter (fun p => s.tlbMatches p.2 va &&
    (setIndex s.cfg (p.2.vpn ++ 0#12) (pageShift p.2.psz) == p.1 % s.cfg.tlbSets || Config.freeBit s.draws p.1))

/-- The software-invisible entries PB finds (R607). -/
def probeInvisible (s : State) (va : Word) : List TlbEntry := s.itlb.filter (fun e => s.tlbMatches e va)

/-- The result word of PB (R607): NF, HW, SW and the entry number. -/
def probeWord (nf hw sw : Bool) (k : Nat) : Word := bitAt 31 nf ||| bitAt 30 hw ||| bitAt 29 sw ||| BitVec.ofNat 32 k

/-- PB (R607): on a multiple match the Machine Error is imprecise and Rt is free. -/
def probe (s : State) (rt : Reg) (va : Word) : State :=
  match probeVisible s va, probeInvisible s va with
  | [], [] => s.drawn.setX rt (probeWord true false false 0)
  | [p], [] => s.drawn.setX rt (probeWord false false true p.1)
  | [], [_] => s.drawn.setX rt (probeWord false true false 0)
  | _, _ => (s.drawn.setX rt (Config.freeWord s.draws 0)).pend (.tlbMultipleHit false none)

/-- TLBOP Rt, Rx, PB (R607). -/
def execTlbopPb (rt ra : Reg) (s : State) : Host.Outcome State Fault Refusal :=
  complete s (mmuOnly s (.ok s.next4 (probe s rt (s.x ra))))

/-! ## Flush -/

/-- FLUA (R608): the locked entries stay; every other entry has V = 0. After MTBDZ made the TLB unknown, an entry that
nothing has written since has no lock that counts, and is flushed: the content is unknown until FLUA (R307, log 46). -/
def flushAll (s : State) : State :=
  { s with
    tlb := ⟨s.tlb.cells.filter (fun p => p.2.l), .flushed s.draws⟩
    itlb := []
    draws := s.draws + 1 }

/-- TLBOP FLUA (R608). -/
def execTlbopFlua (s : State) : Host.Outcome State Fault Refusal :=
  complete s (mmuOnly s (.ok s.next4 (flushAll s)))

end Sys2Proof.Machine
end

