-- ==== Sys2Proof/Machine/Dispatch.lean ====
section
/-! DEFINITION. The meaning of every instruction of the opcode table. -/

namespace Sys2Proof.Machine

/-- What an instruction does in a state. -/
def exec (i : Instr) (s : State) : Host.Outcome State Fault Refusal :=
  match i with
  | .mfsr rt sr => Sys2Proof.Machine.execMfsr rt sr s
  | .mtsr ra sr => Sys2Proof.Machine.execMtsr ra sr s
  | .setendL => Sys2Proof.Machine.execSetendL s
  | .setendB => Sys2Proof.Machine.execSetendB s
  | .dsb => Sys2Proof.Machine.execDsb s
  | .isb => Sys2Proof.Machine.execIsb s
  | .msync sub => Sys2Proof.Machine.execMsync sub s
  | .iret => Sys2Proof.Machine.execIret s
  | .cctlL1dVaWb ra => Sys2Proof.Machine.execCctlL1dVaWb ra s
  | .brk swid => Sys2Proof.Machine.execBrk swid s
  | .break16 swid => Sys2Proof.Machine.execBreak16 swid s
  | .syscall swid => Sys2Proof.Machine.execSyscall swid s
  | .trap swid => Sys2Proof.Machine.execTrap swid s
  | .div dt ra rb => Sys2Proof.Machine.execDiv dt ra rb s
  | .divs dt ra rb => Sys2Proof.Machine.execDivs dt ra rb s
  | .tlbopTrd ra => Sys2Proof.Machine.execTlbopTrd ra s
  | .tlbopTwr ra => Sys2Proof.Machine.execTlbopTwr ra s
  | .tlbopRwr ra => Sys2Proof.Machine.execTlbopRwr ra s
  | .tlbopRwlk ra => Sys2Proof.Machine.execTlbopRwlk ra s
  | .tlbopUnlk ra => Sys2Proof.Machine.execTlbopUnlk ra s
  | .tlbopInv ra => Sys2Proof.Machine.execTlbopInv ra s
  | .tlbopPb rt ra => Sys2Proof.Machine.execTlbopPb rt ra s
  | .tlbopFlua => Sys2Proof.Machine.execTlbopFlua s
  | .lwVlpt rt ra imm => Sys2Proof.Machine.execLwVlpt rt ra imm s
  | .movi rt imm => Sys2Proof.Machine.execMovi rt imm s
  | .sethi rt imm => Sys2Proof.Machine.execSethi rt imm s
  | .ori rt ra imm => Sys2Proof.Machine.execOri rt ra imm s
  | .andi rt ra imm => Sys2Proof.Machine.execAndi rt ra imm s
  | .addi rt ra imm => Sys2Proof.Machine.execAddi rt ra imm s
  | .lwi rt ra imm => Sys2Proof.Machine.execLwi rt ra imm s
  | .swi rt ra imm => Sys2Proof.Machine.execSwi rt ra imm s
  | .beqz rt imm => Sys2Proof.Machine.execBeqz rt imm s
  | .bnez rt imm => Sys2Proof.Machine.execBnez rt imm s
  | .j imm => Sys2Proof.Machine.execJ imm s

end Sys2Proof.Machine
end

