-- ==== Sys2Proof/Machine/Step.lean ====
section
/-! DEFINITION. The step of the machine, and the state in which a given instruction word is the next to run. -/

namespace Sys2Proof.Machine

/-- One step (R851). -/
def step (s : State) : Host.Outcome State Fault Refusal := runStep exec s

/-- The state in which the next step fetches and runs the instruction whose opcode table bits are `w` (log 6). -/
def State.withFetchWord (s : State) (nbits w : Nat) : State := placeInsn (quiet s) (tableBytes nbits w)

end Sys2Proof.Machine
end

