-- ==== Sys2Proof/Safety.lean ====
section
/-! DEFINITION. The terms claims are stated in: a run that goes on, and the invariants of the machine. -/

namespace Sys2Proof.Machine

/-! ## Runs -/

/-- The state after an outcome, if the machine goes on. -/
def nextOf (o : Host.Outcome State Fault Refusal) : Option State :=
  match o with
  | .next t => some t
  | .fault _ => none
  | .refused _ => none

/-- The machine makes `n` steps without a fault or a refusal. -/
def runsFor : Nat → State → Prop
  | 0, _ => True
  | n + 1, s => ∃ t, step s = .next t ∧ runsFor n t

/-! ## Circumstances -/

/-- The next step runs the instruction at pc: no input, no running DMA transfer, no event of the boundary. -/
abbrev State.calm (s : State) : Prop :=
  s.env.inputs = [] ∧ s.running = none ∧ s.stepEvt = false ∧ s.env.nmi = false ∧ interruptCause s = none
    ∧ s.pendImp = []

/-- The state a step works on when it is calm: the step's note is empty. -/
def State.started (s : State) : State := { s with note := .empty }

/-- The state at the boundary of a step: its inputs are sampled and the DMA engine has moved its elements (R851, log 5,
log 41). -/
def State.atBoundary (s : State) : State := dmaBurst (sample s).1

/-- The step comes to its boundary: no reset replaces it, and the DMA engine moves nothing over a bus with an undefined
HSMP range (log 45). -/
abbrev State.goesOn (s : State) : Prop := (sample s).2 = none ∧ dmaBlocked (sample s).1 = false

/-- `n` bytes from a physical address are served by memory. -/
abbrev State.ramAt (s : State) (pa n : Nat) : Prop := ∀ i, i < n → s.cfg.regionOf (busAddr (pa + i)) = .ram

/-- No local memory serves the core, and the High Speed Memory Port has no undefined range. -/
abbrev State.busOnly (s : State) : Prop := s.ilmOn = false ∧ s.dlmOn = false ∧ s.hsmpBroken = false

/-- The word of four bytes in a byte order, the first byte at the lowest address (R362). -/
def wordOf (big : Bool) (b0 b1 b2 b3 : Byte) : Word := if big then b0 ++ b1 ++ b2 ++ b3 else b3 ++ b2 ++ b1 ++ b0

/-- Byte `i` (from the lowest address) of a word stored in a byte order (R362). -/
def byteOf (big : Bool) (v : Word) (i : Nat) : Byte := v.extractLsb' (if big then 24 - 8 * i else 8 * i) 8

/-- The effective address of LWI, SWI and LW_VLPT (R586, R630). -/
def effectiveAddress (s : State) (ra : Reg) (imm : BitVec 15) : Word := s.x ra + (imm.signExtend 32 <<< 2)

/-! ## Invariants -/

/-- Memory and the local memories hold their canonical form. -/
abbrev State.memoryOk (s : State) : Prop := s.mem.wf = true ∧ s.ilm.wf = true ∧ s.dlm.wf = true

/-- PSW, IPSW and P_IPSW hold no reserved value: POM is 0 or 1 (R104), and INTL is not 3 where only two levels exist
(R794, U5). -/
abbrev State.modesOk (s : State) : Prop :=
  pswReserved s.cfg s.ir.psw = false ∧ pswReserved s.cfg s.ir.ipsw = false ∧ pswReserved s.cfg s.ir.pIpsw = false

/-- A register holds 1 only in bits that exist (R22). -/
abbrev within (mask v : Word) : Prop := v &&& ~~~mask = 0#32

/-- Every register of major 1 with reserved fields holds 0 in them (R22). -/
abbrev State.interruptionReservedOk (s : State) : Prop :=
  within (pswMask s.cfg) s.ir.psw ∧ within (pswMask s.cfg) s.ir.ipsw ∧ within (pswMask s.cfg) s.ir.pIpsw
    ∧ within 0xFFFFE000#32 s.ir.ivb ∧ within itypeMask s.ir.itype ∧ within itypeMask s.ir.pItype
    ∧ within 0x80000000#32 s.ir.merr ∧ within (intMaskMask s.cfg) s.ir.intMask

/-- Every register of major 2 with reserved fields holds 0 in them (R22). -/
abbrev State.mmuReservedOk (s : State) : Prop :=
  within (mmuCtlMask s.cfg) s.mr.mmuCtl ∧ within 0xFFFFF001#32 s.mr.l1Pptb
    ∧ within (tlbVpnMask s.cfg) s.mr.tlbVpn ∧ within (tlbDataMask s.cfg) s.mr.tlbData
    ∧ within 0x1FFF#32 s.mr.tlbMisc ∧ within 0xFFFFFFFC#32 s.mr.vlptIdx ∧ within (ilmbMask s.cfg) s.mr.ilmb
    ∧ within (dlmbMask s.cfg) s.mr.dlmb ∧ within 0x3F#32 s.mr.cacheCtl
    ∧ within (hsmpSaddrMask s.cfg) s.mr.hsmpSaddr ∧ within 0xFFF00000#32 s.mr.hsmpEaddr

/-- The TLB lists entries by rising numbers, all of them numbers of entries that exist (R50, R406). -/
abbrev State.tlbOk (s : State) : Prop :=
  cellsRise s.tlb.cells = true ∧ ∀ p ∈ s.tlb.cells, p.1 < Config.tlbEntries s.cfg

/-- One DMA channel at most is in Run, a pended channel waits for the other one, which is in Run, and a disabled
engine has both channels Idle (R272, R701). -/
abbrev State.dmaOk (s : State) : Prop :=
  ¬(s.dma.ch0.stat = .run ∧ s.dma.ch1.stat = .run)
    ∧ (s.dma.ch0.stat = .pended → s.dma.ch1.stat = .run)
    ∧ (s.dma.ch1.stat = .pended → s.dma.ch0.stat = .run)
    ∧ (s.dma.en = false → s.dma.ch0.stat = .idle ∧ s.dma.ch1.stat = .idle)

end Sys2Proof.Machine
end

