-- ==== Sys2Proof/Certificates/Slice0/Obligations.lean ====
section
/-! DEFINITION. The statements about the machine. -/

section

open Sys2Proof Sys2Proof.Machine

/-! ## Plain instructions -/

/-- R41, R586: what MOVI, SETHI, ORI, ANDI and ADDI write to Rt; they complete in every state and change nothing
else but pc; a written general register reads back, whichever it is, and the others keep their values. The spec
marks these semantics (R586), the 32 registers (D2) and the wrapping of pc + 4 (D3) as its own: they are the
model's choice in log 7, 8 and 16. -/
def Obligations.ImmediateInstructions : Prop :=
  ∀ (s : State) (rt ra : Reg) (i20 : BitVec 20) (i15 : BitVec 15),
    let done := fun v : Word => Host.Outcome.next ((s.setX rt v).retire s.pc (s.cfg.addr (s.pc + 4#32)))
    exec (.movi rt i20) s = done (i20.signExtend 32)
      ∧ exec (.sethi rt i20) s = done (i20 ++ 0#12)
      ∧ exec (.ori rt ra i15) s = done (s.x ra ||| i15.zeroExtend 32)
      ∧ exec (.andi rt ra i15) s = done (s.x ra &&& i15.zeroExtend 32)
      ∧ exec (.addi rt ra i15) s = done (s.x ra + i15.signExtend 32)
      ∧ ∀ (k : Reg) (v : Word), (s.setX rt v).x k = if k = rt then v else s.x k

/-- R586, R644, R645, R646, R650: where BEQZ, BNEZ and J go; DSB, ISB, MSYNC of every sub-type and CCTL go on; they
complete in every state and change nothing but pc. Where BEQZ, BNEZ and J go is general knowledge in the spec
(R586, log 16); that barriers and CCTL only advance pc, and where pc wraps, is the model's choice in log 8, 9,
10 and 52; that DSB, ISB, MSYNC and CCTL complete in user mode too is the choice of D33 (log 28). -/
def Obligations.BranchesAndBarriersChangeOnlyPc : Prop :=
  ∀ (s : State) (rt ra : Reg) (i16 : BitVec 16) (i24 : BitVec 24) (sub : BitVec 3),
    let next := s.cfg.addr (s.pc + 4#32)
    let target16 := s.cfg.addr (s.pc + i16.signExtend 32 * 2#32)
    let target24 := s.cfg.addr (s.pc + i24.signExtend 32 * 2#32)
    exec (.beqz rt i16) s = .next (s.retire s.pc (if s.x rt = 0#32 then target16 else next))
      ∧ exec (.bnez rt i16) s = .next (s.retire s.pc (if s.x rt = 0#32 then next else target16))
      ∧ exec (.j i24) s = .next (s.retire s.pc target24)
      ∧ ∀ i : Instr, i = .dsb ∨ i = .isb ∨ i = .msync sub ∨ i = .cctlL1dVaWb ra →
          exec i s = .next (s.retire s.pc next)

/-- R652: SETEND.B and SETEND.L complete in every state and mode, and change PSW.BE (bit 5) and no other bit of any
register. The wrapping of pc + 4 is the choice of D3 (log 8). -/
def Obligations.SetendChangesOnlyBe : Prop :=
  ∀ (s : State) (big : Bool),
    ∃ t, exec (if big then .setendB else .setendL) s = .next t
      ∧ (∀ i < 32, t.ir.psw.getLsbD i = if i = 5 then big else s.ir.psw.getLsbD i)
      ∧ t = { s with
          ir := { s.ir with psw := t.ir.psw }
          pc := s.cfg.addr (s.pc + 4#32)
          prevPc := s.pc
          note := { s.note with completed := true } }

/-! ## Loads and stores -/

/-- R356, R362, R364, R520, R586, R835: the data byte order is PSW.BE and, for a device access with MMU_CTL.DREE,
PSW.DRBE, at the overflow level MMU_CFG.DE and DRDE (R790). An aligned LWI, whatever its translation: what the
translation or the routing raises it takes; where the routing gives the bus it writes Rt with the four bytes in
the data byte order, memory's where memory serves them and free ones of a device (the access recorded), and
changes nothing else but pc and what the translation changed (TLB, record of devices, draws); at an address the
platform does not serve it takes the precise bus error with MERR.BUSERR set where MERR exists. The semantics of
LWI (R586), which byte lies where (R362) and the alignment (D24) are the spec's own inferences (log 14, 15, 16);
devices are log 12, the precise bus error is D51 (log 13). -/
def Obligations.LwiLoadsFromMemory : Prop :=
  ∀ (s : State) (rt ra : Reg) (imm : BitVec 15),
    let ea := effectiveAddress s ra imm
    let run := exec (.lwi rt ra imm) s
    let atTop := decide ((if s.cfg.intlc then 2 else 3) ≤ (s.ir.psw.extractLsb' 1 2).toNat)
    s.effBe = (if atTop then s.cfg.mmuCfg.getLsbD 26 else s.ir.psw.getLsbD 5)
      ∧ s.effDrbe = (if atTop then s.cfg.mmuCfg.getLsbD 31 else s.ir.psw.getLsbD 12)
      ∧ s.dree = s.mr.mmuCtl.getLsbD 19
      ∧ (ea.toNat % 4 = 0 →
      (transEnabled s .load false = false →
        translate s ea .load false = .ok (nonTranslated s (s.cfg.addr ea)) s)
      ∧ (∀ c t, translate s ea .load false = .raise c t → run = .next (enter c s.pc t))
      ∧ (∀ f, translate s ea .load false = .stop f → run = .fault f)
      ∧ (∀ x t, translate s ea .load false = .ok x t →
        let a := x.pa.toNat
        let big := if s.dree && x.cls == .device then s.effDrbe else s.effBe
        let atDevice := ∃ i < 4, s.cfg.regionOf (a + i) = .device
        let onBus := route t x.pa .load = .ok (.bus a) t
        t = { s with tlb := t.tlb, itlb := t.itlb, devLog := t.devLog, draws := t.draws }
          ∧ (∀ c u, route t x.pa .load = .raise c u → run = .next (enter c s.pc u))
          ∧ (∀ f, route t x.pa .load = .stop f → run = .fault f)
          ∧ (onBus → (∀ i < 4, s.cfg.regionOf (a + i) ≠ .unserved) →
            ∃ (b : Nat → Byte) (u : State),
              (∀ i < 4, s.cfg.regionOf (a + i) = .ram → b i = s.mem.read (a + i))
                ∧ (¬atDevice → u = t)
                ∧ (atDevice → u = { t with draws := t.draws + 1, devLog := t.devLog ++ [.read a 4] })
                ∧ run = .next ((u.setX rt (wordOf big (b 0) (b 1) (b 2) (b 3))).retire s.pc
                    (s.cfg.addr (s.pc + 4#32))))
          ∧ (onBus → (∃ i < 4, s.cfg.regionOf (a + i) = .unserved) →
            let u := enter (.preciseBusError .load (s.cfg.addr ea)) s.pc t
            run = .next u
              ∧ u.ir.merr = if s.cfg.merrExists then s.ir.merr ||| 0x80000000#32 else s.ir.merr)))

/-- R520, R530, R586: an aligned LWI, translated or not, whose physical address lies in the window of an enabled
local memory reads that memory: the ILM first, else the bank of the DLM that the core sees. The bank of the DLM,
the window test and the semantics of LWI are the spec's own inferences (log 16, 47, 48). -/
def Obligations.LwiLoadsFromLocalMemory : Prop :=
  ∀ (s : State) (rt ra : Reg) (imm : BitVec 15),
    let ea := effectiveAddress s ra imm
    ea.toNat % 4 = 0 →
      (transEnabled s .load false = false →
        translate s ea .load false = .ok (nonTranslated s (s.cfg.addr ea)) s)
      ∧ (∀ x t, translate s ea .load false = .ok x t →
        let a := x.pa.toNat
        let big := if s.dree && x.cls == .device then s.effDrbe else s.effBe
        let inIlm := s.ilmOn = true ∧ lmWindow s.cfg.ilmBsav1 s.ilmBase s.cfg.ilmSize a = true
        let inDlm := s.dlmOn = true ∧ lmWindow s.cfg.dlmBsav1 s.dlmBase s.dlmView a = true
        (inIlm → a - s.ilmBase < s.cfg.ilmSize →
          exec (.lwi rt ra imm) s =
            .next ((t.noteIlm.setX rt (wordOf big (s.ilm.read (a - s.ilmBase)) (s.ilm.read (a - s.ilmBase + 1))
              (s.ilm.read (a - s.ilmBase + 2)) (s.ilm.read (a - s.ilmBase + 3)))).retire s.pc
                (s.cfg.addr (s.pc + 4#32))))
        ∧ (¬inIlm → inDlm → a - s.dlmBase < s.dlmView →
          let off := (if s.dbm && s.dbb then s.cfg.dlmSize / 2 else 0) + (a - s.dlmBase)
          exec (.lwi rt ra imm) s =
            .next ((t.noteDlm.setX rt (wordOf big (s.dlm.read off) (s.dlm.read (off + 1)) (s.dlm.read (off + 2))
              (s.dlm.read (off + 3)))).retire s.pc (s.cfg.addr (s.pc + 4#32)))))

/-- R356, R362, R364, R520, R586, R835: the data byte order is PSW.BE and, for a device access with MMU_CTL.DREE,
PSW.DRBE, at the overflow level MMU_CFG.DE and DRDE (R790). An aligned SWI, whatever its translation: what the
translation or the routing raises it takes; where the routing gives the bus it stores x[Rt] at the four bytes
from the translated address, in the data byte order; a byte of a device is recorded and changes no memory; every
other byte of memory and everything else but pc and what the translation changed (TLB, record of devices, draws)
is unchanged; at an address the platform does not serve it takes the precise bus error and no byte is stored.
The semantics of SWI (R586), which byte lies where (R362) and the alignment (D24) are the spec's own inferences
(log 14, 15, 16); devices, and that ROM takes a store, are log 12, the precise bus error is D51 (log 13). -/
def Obligations.SwiStoresToMemory : Prop :=
  ∀ (s : State) (rt ra : Reg) (imm : BitVec 15),
    let ea := effectiveAddress s ra imm
    let run := exec (.swi rt ra imm) s
    let atTop := decide ((if s.cfg.intlc then 2 else 3) ≤ (s.ir.psw.extractLsb' 1 2).toNat)
    s.effBe = (if atTop then s.cfg.mmuCfg.getLsbD 26 else s.ir.psw.getLsbD 5)
      ∧ s.effDrbe = (if atTop then s.cfg.mmuCfg.getLsbD 31 else s.ir.psw.getLsbD 12)
      ∧ s.dree = s.mr.mmuCtl.getLsbD 19
      ∧ (s.memoryOk → ea.toNat % 4 = 0 →
      (transEnabled s .store false = false →
        translate s ea .store false = .ok (nonTranslated s (s.cfg.addr ea)) s)
      ∧ (∀ c t, translate s ea .store false = .raise c t → run = .next (enter c s.pc t))
      ∧ (∀ f, translate s ea .store false = .stop f → run = .fault f)
      ∧ (∀ x t, translate s ea .store false = .ok x t →
        let a := x.pa.toNat
        let big := if s.dree && x.cls == .device then s.effDrbe else s.effBe
        let byte := byteOf big (s.x rt)
        let atDevice := ∃ i < 4, s.cfg.regionOf (a + i) = .device
        let onBus := route t x.pa .store = .ok (.bus a) t
        t = { s with tlb := t.tlb, itlb := t.itlb, devLog := t.devLog, draws := t.draws }
          ∧ (∀ c u, route t x.pa .store = .raise c u → run = .next (enter c s.pc u))
          ∧ (∀ f, route t x.pa .store = .stop f → run = .fault f)
          ∧ (onBus → (∀ i < 4, s.cfg.regionOf (a + i) ≠ .unserved) →
            ∃ u, run = .next u
              ∧ (∀ k, u.mem.read k =
                  if a ≤ k ∧ k < a + 4 ∧ s.cfg.regionOf k = .ram then byte (k - a) else s.mem.read k)
              ∧ (¬atDevice → u.devLog = t.devLog)
              ∧ (atDevice → u.devLog = t.devLog ++ [.write a [byte 0, byte 1, byte 2, byte 3]])
              ∧ u = { t with
                  mem := u.mem
                  devLog := u.devLog
                  pc := s.cfg.addr (s.pc + 4#32)
                  prevPc := s.pc
                  note := { s.note with completed := true } })
          ∧ (onBus → (∃ i < 4, s.cfg.regionOf (a + i) = .unserved) →
            let u := enter (.preciseBusError .store (s.cfg.addr ea)) s.pc t
            run = .next u ∧ u.mem = s.mem ∧ u.ilm = s.ilm ∧ u.dlm = s.dlm)))

/-- R520, R530, R586: an aligned SWI, translated or not, into the window of an enabled local memory, the ILM first
(data stores reach it too), else the bank of the DLM that the core sees, stores at its four bytes; every other
byte, memory and everything else but pc and what the translation changed is unchanged. The bank of the DLM, the
window test and the semantics of SWI are the spec's own inferences (log 16, 47, 48). -/
def Obligations.SwiStoresToDlm : Prop :=
  ∀ (s : State) (rt ra : Reg) (imm : BitVec 15),
    let ea := effectiveAddress s ra imm
    s.memoryOk → ea.toNat % 4 = 0 →
      (transEnabled s .store false = false →
        translate s ea .store false = .ok (nonTranslated s (s.cfg.addr ea)) s)
      ∧ (∀ x t, translate s ea .store false = .ok x t →
        let a := x.pa.toNat
        let big := if s.dree && x.cls == .device then s.effDrbe else s.effBe
        let inIlm := s.ilmOn = true ∧ lmWindow s.cfg.ilmBsav1 s.ilmBase s.cfg.ilmSize a = true
        let inDlm := s.dlmOn = true ∧ lmWindow s.cfg.dlmBsav1 s.dlmBase s.dlmView a = true
        let off := (if s.dbm && s.dbb then s.cfg.dlmSize / 2 else 0) + (a - s.dlmBase)
        (inIlm → a - s.ilmBase < s.cfg.ilmSize →
          ∃ u, exec (.swi rt ra imm) s = .next u
            ∧ (∀ k, u.ilm.read k = if a - s.ilmBase ≤ k ∧ k < a - s.ilmBase + 4
                then byteOf big (s.x rt) (k - (a - s.ilmBase)) else s.ilm.read k)
            ∧ u = { t with
                ilm := u.ilm
                pc := s.cfg.addr (s.pc + 4#32)
                prevPc := s.pc
                note := { s.note with ilm := s.note.ilm + 1, completed := true } })
        ∧ (¬inIlm → inDlm → a - s.dlmBase < s.dlmView →
          ∃ u, exec (.swi rt ra imm) s = .next u
            ∧ (∀ k, u.dlm.read k = if off ≤ k ∧ k < off + 4 then byteOf big (s.x rt) (k - off) else s.dlm.read k)
            ∧ u = { t with
                dlm := u.dlm
                pc := s.cfg.addr (s.pc + 4#32)
                prevPc := s.pc
                note := { s.note with dlm := s.note.dlm + 1, completed := true } }))

/-- R368, R833: LWI and SWI at an address that is no multiple of 4 take the Data alignment check before anything
else, and so does LW_VLPT where it may run. The needed alignment and its place before translation are the choice
of D24 (log 15). -/
def Obligations.MisalignedDataAccessTraps : Prop :=
  ∀ (s : State) (rt ra : Reg) (imm : BitVec 15), (effectiveAddress s ra imm).toNat % 4 ≠ 0 →
    exec (.lwi rt ra imm) s = .next (enter (.dataAlignment s.pc) s.pc s)
      ∧ exec (.swi rt ra imm) s = .next (enter (.dataAlignment s.pc) s.pc s)
      ∧ (s.cfg.vlpt = true → s.superuser = true →
          exec (.lwVlpt rt ra imm) s = .next (enter (.dataAlignment s.pc) s.pc s))

/-- R436, R520, R630, R835: LW_VLPT, with PSW.DT taking no part, is served by the one TLB entry that its address
hits: Reserved PTE attribute (on the N1213 hard cores a stop, U14), else the exception of the entry's
permissions, else it loads from where the entry's address is routed: an offset of a local memory, memory or a
device (the access recorded) on the bus, the precise bus error where nothing serves it. It raises the TLB VLPT
miss where nothing is hit, whatever the walker, and TLB multiple hit where several entries are. The addressing
form of LW_VLPT is the model's choice (log 16); a lookup takes one draw (log 1); devices are log 12, the precise
bus error is D51 (log 13). -/
def Obligations.LwVlptLoadsOrMisses : Prop :=
  ∀ (s : State) (rt ra : Reg) (imm : BitVec 15),
    let ea := effectiveAddress s ra imm
    let va := s.cfg.addr ea
    let run := exec (.lwVlpt rt ra imm) s
    ea.toNat % 4 = 0 → s.cfg.vlpt = true → s.superuser = true → s.cfg.hasMmu = true →
      (∀ e, (s.visibleHits va).map Prod.snd ++ s.invisibleHits va = [e] →
        let reserved := reservedAttribute s.cfg.mmuVersion2 true e .load
        let refusal := permissionCause s.cfg.mmuVersion2 true e va .load
        let d := s.drawn
        let pa := entryPa e va
        let a := pa.toNat
        let load := fun (t : State) (b : Nat → Byte) =>
          let big := if s.dree && cClass e.c == .device then s.effDrbe else s.effBe
          run = .next ((t.setX rt (wordOf big (b 0) (b 1) (b 2) (b 3))).retire s.pc (s.cfg.addr (s.pc + 4#32)))
        let atDevice := ∃ i < 4, s.cfg.regionOf (a + i) = .device
        (reserved = true → run =
          if s.cfg.hardCore then .fault .unpredictablePte else .next (enter (.reservedPte false va) s.pc d))
        ∧ (reserved = false → ∀ c, refusal = some c → run = .next (enter c s.pc d))
        ∧ (reserved = false → refusal = none →
          (∀ off, route d pa .load = .ok (.ilm off) d → load d.noteIlm (fun i => s.ilm.read (off + i)))
          ∧ (∀ off, route d pa .load = .ok (.dlm off) d → load d.noteDlm (fun i => s.dlm.read (off + i)))
          ∧ (∀ c t, route d pa .load = .raise c t → run = .next (enter c s.pc t))
          ∧ (∀ f, route d pa .load = .stop f → run = .fault f)
          ∧ (route d pa .load = .ok (.bus a) d →
            ((∃ i < 4, s.cfg.regionOf (a + i) = .unserved) →
              run = .next (enter (.preciseBusError .load va) s.pc d))
            ∧ ((∀ i < 4, s.cfg.regionOf (a + i) ≠ .unserved) →
              ∃ (b : Nat → Byte) (t : State),
                (∀ i < 4, s.cfg.regionOf (a + i) = .ram → b i = s.mem.read (a + i))
                  ∧ (¬atDevice → t = d)
                  ∧ (atDevice → t = { d with draws := d.draws + 1, devLog := s.devLog ++ [.read a 4] })
                  ∧ load t b))))
      ∧ (s.visibleHits va = [] → s.invisibleHits va = [] → run = .next (enter (.vlptMiss va) s.pc s.drawn))
      ∧ (2 ≤ (s.visibleHits va).length + (s.invisibleHits va).length →
        run = .next (enter (.tlbMultipleHit false (some va)) s.pc s.drawn))

/-! ## Translation -/

/-- R355, R356, R359, R790: an access is translated when MMPS is not 0 and it is that of LW_VLPT or, below the
overflow level, PSW.IT (a fetch) or PSW.DT (a load or store) is 1. With MMU_CFG.NTME an untranslated access
replaces the partition's address bits by its NTM field and keeps every other bit; without it the address is the
virtual address; its class is in both cases that of the partition's NTC field. The classes of the NTC values and
of the C values. 32-bit addresses. That MMPS 0 never translates is the choice of D11 (log 26); the mapping with
two partitions (NTPT 0) is the choice of D21 (log 25). -/
def Obligations.UntranslatedAddress : Prop :=
  (∀ (s : State) (va : Word) (acc : Acc), s.cfg.adr24 = false → transEnabled s acc false = false →
    (acc = .fetch → va.getLsbD 0 = false) →
      let p : BitVec 2 := if s.cfg.ntpt then va.extractLsb' 30 2 else 0#1 ++ va.extractLsb' 31 1
      ∃ x, translate s va acc false = .ok x s
        ∧ x.cls = ntcClass (s.ntc p) ∧ s.ntc p = s.mr.mmuCtl.extractLsb' (1 + 2 * p.toNat) 2
        ∧ s.ntm p = s.mr.mmuCtl.extractLsb' (11 + 2 * p.toNat) 2
        ∧ (s.cfg.ntme = false → x.pa = va)
        ∧ (s.cfg.ntme = true → s.cfg.ntpt = true → x.pa = s.ntm p ++ va.extractLsb' 0 30)
        ∧ (s.cfg.ntme = true → s.cfg.ntpt = false →
            x.pa = (s.ntm p).extractLsb' 0 1 ++ va.extractLsb' 0 31))
  ∧ (ntcClass 0#2 = .device ∧ ntcClass 1#2 = .bufferableDevice ∧ ntcClass 2#2 = .writeBack
    ∧ ntcClass 3#2 = .writeThrough)
  ∧ (cClass 0#3 = .device ∧ cClass 1#3 = .bufferableDevice ∧ cClass 2#3 = .uncacheable ∧ cClass 4#3 = .writeBack
    ∧ cClass 5#3 = .writeThrough ∧ cClass 6#3 = .writeBack ∧ cClass 7#3 = .writeThrough)
  ∧ ∀ (s : State) (acc : Acc) (vlpt : Bool),
    let atTop := decide ((if s.cfg.intlc then 2 else 3) ≤ (s.ir.psw.extractLsb' 1 2).toNat)
    transEnabled s acc vlpt = true ↔ s.cfg.mmuCfg.extractLsb' 0 2 ≠ 0#2
      ∧ (vlpt = true ∨ (atTop = false ∧ s.ir.psw.getLsbD (if acc = .fetch then 6 else 7) = true))

/-- R421, R430, R431, R432, R433, R436, R451, R461: an access that hits one TLB entry is served by it, the state
changing by one draw only: Reserved PTE attribute (on the N1213 hard cores a stop, U14), else the exception of
the entry's permissions, else the entry's page number above the page offset and the address below it; one that
hits none is served by the entry the walker gives, or with the walker off raises TLB fill; one that hits several
raises TLB multiple hit. A visible entry in its own set and an invisible one, of the minimum page size or, with
MMU_CTL.MPZIU, of any implemented size, is hit when V is 1, its page number equals the address's above the page
size, and it is global or of the current context, and not otherwise; no other entry is hit unless these hold.
Which other entries a lookup sees (V = 0, wrong sets, large pages without MPZIU, unimplemented sizes) is in log
18 and 20; the stop is that of U14. -/
def Obligations.TlbLookup : Prop :=
  ∀ (s : State) (a : Word) (acc : Acc), s.cfg.hasMmu = true → transEnabled s acc false = true →
    let va := s.cfg.addr a
    let served := fun (e : TlbEntry) (t : State) =>
      if reservedAttribute s.cfg.mmuVersion2 s.superuser e acc then
        (if s.cfg.hardCore then Res.stop .unpredictablePte else Res.raise (.reservedPte (acc == .fetch) va) t)
      else
        match permissionCause s.cfg.mmuVersion2 s.superuser e va acc with
        | some c => Res.raise c t
        | none => Res.ok (Xlat.mk (entryPa e va) (cClass e.c)) t
    (acc = .fetch → va.getLsbD 0 = false) →
      (∀ e, (s.visibleHits va).map Prod.snd ++ s.invisibleHits va = [e] →
        translate s a acc false = served e s.drawn)
      ∧ (s.visibleHits va = [] → s.invisibleHits va = [] → s.walkerEnabled = true →
        translate s a acc false = (walk s.drawn va acc).bind served)
      ∧ (s.visibleHits va = [] → s.invisibleHits va = [] → s.walkerEnabled = false →
        translate s a acc false = .raise (.tlbFill (acc == .fetch) va) s.drawn)
      ∧ (2 ≤ (s.visibleHits va).length + (s.invisibleHits va).length →
        translate s a acc false = .raise (.tlbMultipleHit (acc == .fetch) (some va)) s.drawn)
      ∧ (∀ e : TlbEntry, ∀ i < 32, (entryPa e va).getLsbD i =
          if i < pageShift e.psz then va.getLsbD i else (e.ppn ++ 0#12).getLsbD i)
      ∧ (let page8k := s.mr.mmuCtl.getLsbD 0
        let found := fun e : TlbEntry =>
          e.v = true ∧ (∀ i, pageShift e.psz ≤ i → i < 32 → (e.vpn ++ 0#12 : Word).getLsbD i = va.getLsbD i)
            ∧ (e.g = true ∨ e.cid = s.mr.tlbMisc.extractLsb' 4 9)
        let implemented := fun z : BitVec 4 =>
          (z = 0#4 ∧ page8k = false) ∨ (z = 1#4 ∧ (page8k = true ∨ s.cfg.mmuCfg.getLsbD 15 = true))
            ∨ (2 ≤ z.toNat ∧ z.toNat ≤ 9 ∧ s.cfg.mmuCfg.getLsbD (14 + z.toNat) = true)
        let searched := fun e : TlbEntry =>
          e.psz = (if page8k then 1#4 else 0#4) ∨ (s.mr.mmuCtl.getLsbD 10 = true ∧ implemented e.psz)
        let ownSet := fun (k : Nat) (e : TlbEntry) =>
          (e.vpn ++ 0#12 : Word).toNat / 2 ^ pageShift e.psz % s.cfg.tlbSets = k % s.cfg.tlbSets
        (∀ (k : Nat) (e : TlbEntry), (k, e) ∈ s.tlbListed → searched e → ownSet k e →
          ((k, e) ∈ s.visibleHits va ↔ found e))
        ∧ (s.walkerEnabled = true ↔ s.cfg.mmuCfg.getLsbD 25 = true ∧ s.mr.l1Pptb.getLsbD 0 = false)
        ∧ (∀ z : BitVec 4, s.sizeImplemented z = true ↔ implemented z)
        ∧ (∀ e ∈ s.itlb, searched e → (e ∈ s.invisibleHits va ↔ found e))
        ∧ (∀ (k : Nat) (e : TlbEntry), (k, e) ∈ s.visibleHits va → (k, e) ∈ s.tlbListed ∧ found e)
        ∧ (∀ e ∈ s.invisibleHits va, e ∈ s.itlb ∧ found e)
        ∧ (∀ k < Config.tlbEntries s.cfg, (s.tlb.read k).v = true → (k, s.tlb.read k) ∈ s.tlbListed)
        ∧ (s.tlbOk → ∀ (k : Nat) (e : TlbEntry), (k, e) ∈ s.tlbListed →
          k < Config.tlbEntries s.cfg ∧ e = s.tlb.read k)
        ∧ (List.range 10).map (fun n => pageShift (BitVec.ofNat 4 n)) = [12, 13, 14, 16, 18, 20, 22, 24, 26, 28])

/-- R435, R436, R456, R457, R463: which C and M values are reported as reserved; what a valid, unreserved TLB entry
lets a load, a store and a fetch do, and which exception it raises otherwise: permission or Non-executable page
first, then Page modified, then Access bit. -/
def Obligations.TlbPermissionOrder : Prop :=
  ∀ (v2 super : Bool) (e : TlbEntry) (va : Word) (acc : Acc),
    let open0 := v2 = true ∧ e.x = true ∧ e.m = 0#3
    let readable := e.m = 1#3 ∨ e.m = 2#3 ∨ e.m = 3#3 ∨ (super = true ∧ (e.m = 5#3 ∨ e.m = 7#3 ∨ open0))
    let writable := e.m = 3#3 ∨ (super = true ∧ (e.m = 2#3 ∨ e.m = 7#3 ∨ open0))
    let executable := e.x = true ∧ ¬(v2 = true ∧ super = false ∧ (e.m = 5#3 ∨ e.m = 7#3))
    let reservedM := e.m = 4#3 ∨ e.m = 6#3 ∨ (e.m = 0#3 ∧ ¬open0)
    (reservedAttribute v2 super e acc = true ↔ e.c = 3#3 ∨ (reservedM ∧ (acc = .fetch → v2 = true)))
      ∧ (permissionCause v2 super e va .load =
        if ¬readable then some (.readProtection va) else if e.a then some (.accessBit false va) else none)
      ∧ (permissionCause v2 super e va .store =
        if ¬writable then some (.writeProtection va)
        else if e.d = false then some (.pageModified va)
        else if e.a then some (.accessBit false va)
        else none)
      ∧ (permissionCause v2 super e va .fetch =
        if ¬executable then some (.nonExecutable va) else if e.a then some (.accessBit true va) else none)

/-- R407, R440 to R442, R460, R462: with an undefined HSMP range the walk stops; else the walk of an address loads
the L1 and the L2 page table entry from memory; an L1 entry with NP = 1 and an L2 entry without V raise PTE not
present; a load from an address the platform does not serve raises the precise bus error of the access and
inserts nothing (D61); a large page without MPZIU raises MPZIU control, after the reserved-attribute test;
otherwise the entry made of the L2 PTE, unlocked, goes into one way of its set that is unlocked (or, all being
locked, into any with TBALCK), or into the invisible TLB, nothing else changing; a set all locked without TBALCK
raises TLB locking error, after the exceptions of the entry. The byte order of the loads is the choice of D23
(log 14), their being served by the bus that of log 13, the stop on an undefined HSMP range that of log 45, the
stop on a reserved attribute on the N1213 hard cores that of log 24 (U14), the set of a page that of D29 (log
18), the free way that of log 19, the order of the exceptions that of log 57. -/
def Obligations.WalkerInsertsThePage : Prop :=
  ∀ (s : State) (va : Word) (acc : Acc),
    let m := fun a : Word => wordOf s.cfg.de (s.mem.read a.toNat) (s.mem.read (a.toNat + 1)) (s.mem.read (a.toNat + 2))
      (s.mem.read (a.toNat + 3))
    let page8k := s.mr.mmuCtl.getLsbD 0
    let l1a : Word :=
      if page8k then s.mr.l1Pptb.extractLsb' 12 20 ++ 0#2 ++ va.extractLsb' 24 8 ++ 0#2
      else s.mr.l1Pptb.extractLsb' 12 20 ++ va.extractLsb' 22 10 ++ 0#2
    let l1 := m l1a
    let l2a : Word :=
      if page8k then l1.extractLsb' 13 19 ++ va.extractLsb' 13 11 ++ 0#2
      else l1.extractLsb' 12 20 ++ va.extractLsb' 12 10 ++ 0#2
    let l2 := m l2a
    let e : TlbEntry :=
      { vpn := va.extractLsb' 12 20, ppn := l2.extractLsb' 12 20, c := l2.extractLsb' 8 3, g := l2.getLsbD 7,
        a := l2.getLsbD 6, x := l2.getLsbD 5, d := l2.getLsbD 4, m := l2.extractLsb' 1 3, v := true,
        cid := s.mr.tlbMisc.extractLsb' 4 9,
        psz := if l2.getLsbD 11 then s.cfg.largePageSize else if page8k then 1#4 else 0#4, l := false }
    let inSet := fun k : Nat => k < s.cfg.tlbSets * s.cfg.tlbWays
      ∧ k % s.cfg.tlbSets = (e.vpn ++ 0#12 : Word).toNat / 2 ^ pageShift e.psz % s.cfg.tlbSets
    let allLocked := ∀ k, inSet k → (s.tlb.read k).l = true
    let tbalck := s.mr.mmuCtl.getLsbD 9
    let mpziu := s.mr.mmuCtl.getLsbD 10
    let reserved := reservedAttribute s.cfg.mmuVersion2 s.superuser e acc
    let orReserved := fun c : Cause =>
      if reserved then
        (if s.cfg.hardCore then Res.stop .unpredictablePte else Res.raise (.reservedPte (acc == .fetch) va) s)
      else Res.raise c s
    let unserved := fun a : Word => ∃ i < 4, s.cfg.regionOf (a.toNat + i) = .unserved
    (s.hsmpBroken = true → walk s va acc = .stop .hsmpRangePattern)
    ∧ (s.hsmpBroken = false → unserved l1a → walk s va acc = .raise (.preciseBusError acc va) s)
    ∧ (s.hsmpBroken = false → s.ramAt l1a.toNat 4 →
      (l1.getLsbD 0 = true → walk s va acc = .raise (.pteNonLeaf (acc == .fetch) va) s)
      ∧ (l1.getLsbD 0 = false → unserved l2a → walk s va acc = .raise (.preciseBusError acc va) s)
      ∧ (l1.getLsbD 0 = false → s.ramAt l2a.toNat 4 →
        (l2.getLsbD 0 = false → walk s va acc = .raise (.pteLeaf (acc == .fetch) va) s)
        ∧ (l2.getLsbD 0 = true → l2.getLsbD 11 = true → mpziu = false →
          walk s va acc = orReserved (.mpziuControl (acc == .fetch)))
        ∧ (l2.getLsbD 0 = true → (l2.getLsbD 11 = true → mpziu = true) →
          (s.cfg.hptwkInvisible = false → 0 < s.cfg.tlbWays → ¬(allLocked ∧ tbalck = false) →
            ∃ k, inSet k ∧ (allLocked ∨ (s.tlb.read k).l = false)
              ∧ walk s va acc = .ok e { s with tlb := s.tlb.write k e, draws := s.draws + 1 })
          ∧ (s.cfg.hptwkInvisible = false → allLocked → tbalck = false →
            walk s va acc =
              orReserved ((permissionCause s.cfg.mmuVersion2 s.superuser e va acc).getD
                (.tlbLocking (acc == .fetch) va)))
          ∧ (s.cfg.hptwkInvisible = true →
            ∃ t, walk s va acc = .ok e t
              ∧ t.itlb.head? = some e ∧ (∀ f ∈ t.itlb, f = e ∨ f ∈ s.itlb) ∧ (∀ f, s.itlb.head? = some f → f ∈ t.itlb)
              ∧ t = { s with itlb := t.itlb, draws := s.draws + 1 }))))

/-- R485: the MPU's translation of an access, that of LW_VLPT among them: the first exception of its list that
applies, or the physical address with the page PSB + VA[28:12] and the state unchanged. The 32-bit sum and the
order of the checks are the spec's own inferences, and that LW_VLPT exists under the MPU where MMU_CFG.VLPT is 1
and is translated so is the model's choice (log 55). -/
def Obligations.MpuTranslates : Prop :=
  ∀ (s : State) (va : Word) (acc : Acc) (vlpt : Bool), s.cfg.hasMpu = true → s.cfg.adr24 = false →
    transEnabled s acc vlpt = true → (acc = .fetch → va.getLsbD 0 = false) →
      let e := s.mpu[(va.extractLsb' 29 3).toFin]
      let beyond := e.hrange.toNat ≤ (va.extractLsb' 12 17).toNat
      let super := s.superuser
      let readable := e.m = 1#3 ∨ e.m = 2#3 ∨ e.m = 3#3 ∨ (super = true ∧ (e.m = 5#3 ∨ e.m = 7#3))
      let writable := e.m = 3#3 ∨ (super = true ∧ (e.m = 2#3 ∨ e.m = 7#3))
      let executable := e.x.getLsbD (if super then 1 else 0) = true
      translate s va acc vlpt =
        if e.v = false then .raise (.tlbFill (acc == .fetch) va) s
        else if e.c = 3#3 ∨ e.m = 0#3 ∨ e.m = 4#3 ∨ e.m = 6#3 then .raise (.reservedPte (acc == .fetch) va) s
        else if acc = .fetch ∧ (beyond ∨ ¬executable) then .raise (.nonExecutable va) s
        else if acc = .load ∧ (beyond ∨ ¬readable) then .raise (.readProtection va) s
        else if acc = .store ∧ (beyond ∨ ¬writable) then .raise (.writeProtection va) s
        else .ok ⟨(e.psb + (0#3 ++ va.extractLsb' 12 17)) ++ va.extractLsb' 0 12, cClass e.c⟩ s

/-- R216, R220, R230, R520, R521, R522, R527, R530 and the named stops: where a physical address leads: an offset of
the ILM, of the bank of the DLM that the core sees (never for a fetch), the Nonexistent local memory exception
inside a window and beyond the memory, the stop for an undefined HSMP range, or the bus. With BSAV 0 a base is
aligned to 1MB and the window is that megabyte, with BSAV 1 the base is aligned to the size and the window is
what is seen of the memory, which is half the DLM in double-buffer mode; the size is that of the ILMSZ or DLMSZ
code; the HSMP range is undefined when the port is enabled, of version 2, and RANGE is none of the patterns of
R230. That a fetch skips the DLM is the choice of D32 (log 48), as are the base bits that BSAV 1 ignores (D15,
log 48); which half of the DLM the core sees is an inference that R530 marks as derived (log 47); the named stop
on an undefined HSMP range is that of log 45. -/
def Obligations.RoutingOrder : Prop :=
  (∀ (s : State) (pa : Word) (acc : Acc),
    let a := pa.toNat
    let inIlm := s.ilmOn = true ∧ lmWindow s.cfg.ilmBsav1 s.ilmBase s.cfg.ilmSize a = true
    let inDlm := s.dlmOn = true ∧ acc ≠ .fetch ∧ lmWindow s.cfg.dlmBsav1 s.dlmBase s.dlmView a = true
    (inIlm → a - s.ilmBase < s.cfg.ilmSize → route s pa acc = .ok (.ilm (a - s.ilmBase)) s)
      ∧ (inIlm → s.cfg.ilmSize ≤ a - s.ilmBase →
          route s pa acc = .raise (.nonexistentLocalMemory (acc == .fetch)) s)
      ∧ (¬inIlm → inDlm → a - s.dlmBase < s.dlmView →
          route s pa acc =
            .ok (.dlm ((if s.dbm && s.dbb then s.cfg.dlmSize / 2 else 0) + (a - s.dlmBase))) s)
      ∧ (¬inIlm → inDlm → s.dlmView ≤ a - s.dlmBase → route s pa acc = .raise (.nonexistentLocalMemory false) s)
      ∧ (¬inIlm → ¬inDlm → s.hsmpBroken = true → route s pa acc = .stop .hsmpRangePattern)
      ∧ (¬inIlm → ¬inDlm → s.hsmpBroken = false → route s pa acc = .ok (.bus a) s))
  ∧ (∀ s : State,
    let based := fun (bsav1 : Bool) (size : Nat) (reg : Word) (base : Nat) =>
      (bsav1 = false → base = (reg.extractLsb' 20 12).toNat * 2 ^ 20)
        ∧ (bsav1 = true → 0 < size → base = reg.toNat / size * size)
    let doubled := s.cfg.dcmCfg.extractLsb' 10 3 = 2#3 ∧ s.mr.dlmb.getLsbD 5 = true
    based s.cfg.ilmBsav1 s.cfg.ilmSize s.mr.ilmb s.ilmBase ∧ based s.cfg.dlmBsav1 s.cfg.dlmSize s.mr.dlmb s.dlmBase
      ∧ (s.cfg.ilmBsav1 = true ↔ s.cfg.icmCfg.extractLsb' 13 2 = 1#2)
      ∧ (s.cfg.dlmBsav1 = true ↔ s.cfg.dcmCfg.extractLsb' 13 2 = 1#2)
      ∧ (doubled → s.dlmView = s.cfg.dlmSize / 2) ∧ (¬doubled → s.dlmView = s.cfg.dlmSize)
      ∧ (s.dbm = true ↔ doubled) ∧ s.dbb = s.mr.dlmb.getLsbD 6
      ∧ (s.ilmOn = true ↔ s.cfg.icmCfg.extractLsb' 10 3 ≠ 0#3 ∧ s.mr.ilmb.getLsbD 0 = true)
      ∧ (s.dlmOn = true ↔ s.cfg.dcmCfg.extractLsb' 10 3 ≠ 0#3 ∧ s.mr.dlmb.getLsbD 0 = true)
      ∧ (s.hsmpBroken = true ↔ s.cfg.hasHsmp = true ∧ s.cfg.hsmpVersion2 = true ∧ s.mr.hsmpSaddr.getLsbD 0 = true
        ∧ ∀ k ≤ 12, (s.mr.hsmpSaddr.extractLsb' 1 12).toNat ≠ 4096 - 2 ^ k))
  ∧ (∀ base view a : Nat,
    (lmWindow false base view a = true ↔ a / 2 ^ 20 = base / 2 ^ 20)
      ∧ (lmWindow true base view a = true ↔ base ≤ a ∧ a < base + view))
  ∧ ∀ c : Config,
    let size := fun z : BitVec 4 =>
      if z.toNat ≤ 8 then 4096 * 2 ^ z.toNat else if z = 9#4 then 1024 else if z = 10#4 then 2048 else 0
    c.ilmSize = size c.ilmSz ∧ c.dlmSize = size c.dlmSz

/-! ## System registers -/

/-- R55, R56, R58, R59, R560, R641: MFSR of a register that exists, where the access is allowed, completes: Rt gets
what the register reads, and nothing else changes but pc. R46 to R54, R146, R215, R219, R270, R272, R273, R276,
R286, R841, R845, R846, R885: what every register reads: the stored value in the bits that exist and 0 in the
others (of the selected channel, for the banked DMA registers), and what those read that hold no plain storage:
the configuration registers, INT_PEND (the lines, the platform's and the core's own, or in EVIC mode the
requested level), ILMB, DLMB, DMA_GCSW, DMA_ACT and DMA_STATUS. The index of every register, every other index
naming none, when each exists, and which bits of the configuration registers say so and give the model's other
parameters. The privilege condition is the choice of D33 (log 28), the order of the checks that of D12 (log 27),
INT_PEND is D52, D53 and D55 (log 38), reserved bits are log 29, EDM_CFG and the existence of TECR0 and TECR1
with the EDM (D17) are log 39, what exists by a parameter, and VLPT_IDX, log 54; the joined conditions are read
by D4. -/
def Obligations.MfsrReadsTheRegister : Prop :=
  (∀ (s : State) (rt : Reg) (idx : BitVec 10) (r : Sr), srAccessAllowed s idx = true → srOf idx = some r →
    srExists s.cfg r = true →
      exec (.mfsr rt idx) s = .next ((s.setX rt (readSr s r)).retire s.pc (s.cfg.addr (s.pc + 4#32))))
  ∧ (∀ s : State,
    let psw := fun v : Word => v &&& (if s.cfg.hasAudio then 0x7FFF#32 else 0x5FFF#32)
    readSr s .psw = psw s.ir.psw ∧ readSr s .ipsw = psw s.ir.ipsw ∧ readSr s .pIpsw = psw s.ir.pIpsw
      ∧ readSr s .ivb = s.ir.ivb &&& 0xFFFFE000#32 ∧ readSr s .eva = s.ir.eva ∧ readSr s .pEva = s.ir.pEva
      ∧ readSr s .itype = s.ir.itype &&& 0x7FFF001F#32 ∧ readSr s .pItype = s.ir.pItype &&& 0x7FFF001F#32
      ∧ readSr s .merr = s.ir.merr &&& 0x80000000#32 ∧ readSr s .ipc = s.ir.ipc ∧ readSr s .pIpc = s.ir.pIpc
      ∧ readSr s .oipc = s.ir.oipc ∧ readSr s .pP0 = s.ir.pP0 ∧ readSr s .pP1 = s.ir.pP1
      ∧ readSr s .intMask = s.ir.intMask &&& (0xC001003F#32 ||| if s.cfg.baseV2 then 0x20000000#32 else 0#32))
  ∧ (∀ s : State,
    let c := s.chan s.selected
    let cpuid := s.cfg.cpuVer.extractLsb' 24 8
    let n10 := cpuid = 0x0A#8 ∧ s.cfg.n1003 = false
    let sdzBits : Word :=
      if cpuid = 0x0C#8 then 0xFFF#32
      else (if s.cfg.icmCfg.extractLsb' 6 3 ≠ 0#3 then 0x7#32 else 0#32)
        ||| (if s.cfg.dcmCfg.extractLsb' 6 3 ≠ 0#3 then 0x38#32 else 0#32)
        ||| (if n10 ∧ s.cfg.mmuCfg.extractLsb' 0 2 = 2#2 then 0x1C0#32 else 0#32)
        ||| (if n10 ∧ s.cfg.idrBtb = true then 0xE00#32 else 0#32)
    let miscBits : Word :=
      if cpuid = 0x0C#8 then 0x7#32
      else (if n10 ∧ s.cfg.idrBtb = true then 1#32 else 0#32) ||| (if s.cfg.idrRtp = true then 2#32 else 0#32)
        ||| (if n10 ∧ s.cfg.idrTcm = true then 8#32 else 0#32)
    readSr s .mmuCtl = s.mr.mmuCtl &&& (0x000801FE#32 ||| (if s.cfg.ntme then 0x0007F800#32 else 0#32)
          ||| (if s.cfg.hasMmu || s.cfg.mmuCtlFieldsStored then 0x00000601#32 else 0#32))
      ∧ readSr s .l1Pptb = s.mr.l1Pptb &&& 0xFFFFF001#32
      ∧ readSr s .tlbVpn = s.mr.tlbVpn &&& (if s.cfg.hasMpu then 0x1FFFF000#32 else 0xFFFFF000#32)
      ∧ readSr s .tlbData = s.mr.tlbData &&& (if s.cfg.hasMpu then 0xFFFFF1FF#32 else 0xFFFFF7FF#32)
      ∧ readSr s .tlbMisc = s.mr.tlbMisc &&& 0x1FFF#32 ∧ readSr s .vlptIdx = s.mr.vlptIdx &&& 0xFFFFFFFC#32
      ∧ readSr s .cacheCtl = s.mr.cacheCtl &&& 0x3F#32
      ∧ readSr s .hsmpSaddr = s.mr.hsmpSaddr &&& (if s.cfg.hsmpV1 then 0xFFF00001#32 else 0xFFF01FFF#32)
      ∧ readSr s .hsmpEaddr = s.mr.hsmpEaddr &&& 0xFFF00000#32
      ∧ readSr s .sdzCtl = s.misc.sdzCtl &&& sdzBits ∧ readSr s .miscCtl = s.misc.miscCtl &&& miscBits
      ∧ readSr s .prusrAccCtl = s.misc.prusrAccCtl &&& 3#32
      ∧ readSr s .fucopCtl = s.misc.fucopCtl &&& 0x8000000F#32
      ∧ (∀ n : Fin 48, n ≠ 40 → readSr s (.edm n) = s.edm[n])
      ∧ readSr s .pfmc0 = s.pfm.pfmc0 ∧ readSr s .pfmc1 = s.pfm.pfmc1 ∧ readSr s .pfmc2 = s.pfm.pfmc2
      ∧ readSr s .pfmCtl = s.pfm.pfmCtl &&& 0x0FFFFFFF#32 ∧ readSr s .dmaChnsel = 0#30 ++ s.dma.chan
      ∧ (s.selected = true ↔ s.dma.chan = 1#2) ∧ c = (if s.selected then s.dma.ch1 else s.dma.ch0)
      ∧ readSr s .dmaSetup = c.setup &&& (0x00E7FFFF#32 ||| (if s.cfg.dmaUnea then 0x00080000#32 else 0#32)
          ||| (if s.cfg.dma2det then 0x00100000#32 else 0#32))
      ∧ readSr s .dmaIsaddr = 0#12 ++ c.isaddr
      ∧ readSr s .dmaEsaddr = c.esaddr ∧ readSr s .dmaTcnt = 0#14 ++ c.tcnt
      ∧ readSr s .dma2dset = c.htstr ++ c.wecnt ∧ readSr s .dma2dsctl = 0#16 ++ c.stwecnt)
  ∧ (∀ s : State,
    let pend := readSr s .intPend
    let overflowed := ∃ k < 3, s.pfm.pfmCtl.getLsbD (6 + k) = true ∧ s.pfm.pfmCtl.getLsbD (3 + k) = true
    let dmaInt := s.dma.ch0.int = true ∨ (s.cfg.dmaTwoChannels = true ∧ s.dma.ch1.int = true)
    pend.getLsbD 16 = s.ir.swi
      ∧ (∀ n : Fin 6, s.ir.ivb.getLsbD 13 = false →
        (pend.getLsbD n = true ↔ s.env.extIrq.getLsbD n = true
          ∨ (s.cfg.pmIntWire = some n ∧ s.cfg.hasPfm = true ∧ overflowed)
          ∨ (s.cfg.dmaIntWire = some n ∧ s.cfg.hasDma = true ∧ dmaInt)))
      ∧ (s.ir.ivb.getLsbD 13 = true →
        pend.extractLsb' 0 6 = (match s.env.evicReq with | some r => r.2 | none => 0#6))
      ∧ (∀ i, 6 ≤ i → i ≠ 16 → pend.getLsbD i = false))
  ∧ (∀ s : State,
    let code := fun d : DmaStat =>
      (match d with | .idle => 0#3 | .run => 1#3 | .pended => 2#3 | .stopError => 3#3 | .complete => 4#3 : BitVec 3)
    let two := s.cfg.dmaTwoChannels
    let c := s.chan s.selected
    let b := BitVec.ofBool
    readSr s .dmaGcsw = b s.dma.en ++ 0#17 ++ b (two && s.dma.ch1.int) ++ b s.dma.ch0.int ++ 0#6
        ++ (if two then code s.dma.ch1.stat else 0#3) ++ code s.dma.ch0.stat
      ∧ readSr s .dmaStatus = 0#22 ++ b c.err.esup ++ b c.err.ebus ++ b c.err.ioor ++ b c.err.iuna ++ b c.err.euna
        ++ b c.err.derr ++ b c.err.stuna ++ code c.stat
      ∧ readSr s .dmaAct = 0#32)
  ∧ (∀ s : State,
    let ilmb := readSr s .ilmb
    let dlmb := readSr s .dlmb
    readSr s .cpuVer = s.cfg.cpuVer ∧ readSr s .icmCfg = s.cfg.icmCfg &&& 0x7FFF#32
      ∧ readSr s .dcmCfg = s.cfg.dcmCfg &&& 0x7FFF#32 ∧ readSr s .mmuCfg = s.cfg.mmuCfg
      ∧ readSr s .mscCfg = s.cfg.mscCfg &&& 0x1FFFF#32 ∧ readSr s .dmaCfg = s.cfg.dmaCfg &&& 0xFFFF000F#32
      ∧ (∀ i, (readSr s .coreId).getLsbD i = (s.cfg.coreId.getLsbD i && decide (i < s.cfg.coreIdBits)))
      ∧ readSr s .fucopExist = s.cfg.fucopExist &&& 0x8000000F#32 ∧ readSr s (.edm 40) = s.cfg.edmCfg
      ∧ ilmb.getLsbD 0 = s.mr.ilmb.getLsbD 0 ∧ ilmb.extractLsb' 1 4 = s.cfg.ilmSz ∧ ilmb.extractLsb' 5 5 = 0#5
      ∧ ilmb.extractLsb' 10 10 = (if s.cfg.ilmBsav1 then s.mr.ilmb.extractLsb' 10 10 else 0#10)
      ∧ ilmb.extractLsb' 20 12 = s.mr.ilmb.extractLsb' 20 12
      ∧ dlmb.getLsbD 0 = s.mr.dlmb.getLsbD 0 ∧ dlmb.extractLsb' 1 4 = s.cfg.dlmSz
      ∧ dlmb.extractLsb' 5 2 = (if s.cfg.doubleBuffer then s.mr.dlmb.extractLsb' 5 2 else 0#2)
      ∧ dlmb.extractLsb' 7 3 = 0#3
      ∧ dlmb.extractLsb' 10 10 = (if s.cfg.dlmBsav1 then s.mr.dlmb.extractLsb' 10 10 else 0#10)
      ∧ dlmb.extractLsb' 20 12 = s.mr.dlmb.extractLsb' 20 12)
  ∧ (let breakpoints := (List.range 8).flatMap fun n => (List.range 5).map fun m =>
      (0x180 + 8 * m + n, Sr.edm (Fin.ofNat 48 (5 * n + m)))
    let table : List (Nat × Sr) :=
      [(0x000, .cpuVer), (0x008, .icmCfg), (0x010, .dcmCfg), (0x018, .mmuCfg), (0x020, .mscCfg), (0x001, .coreId),
        (0x028, .fucopExist), (0x080, .psw), (0x081, .ipsw), (0x082, .pIpsw), (0x089, .ivb), (0x091, .eva),
        (0x092, .pEva), (0x099, .itype), (0x09A, .pItype), (0x0A1, .merr), (0x0A9, .ipc), (0x0AA, .pIpc),
        (0x0AB, .oipc), (0x0B2, .pP0), (0x0BA, .pP1), (0x0C0, .intMask), (0x0C8, .intPend)]
      ++ [(0x100, .mmuCtl), (0x108, .l1Pptb), (0x110, .tlbVpn), (0x118, .tlbData), (0x120, .tlbMisc),
        (0x128, .vlptIdx), (0x130, .ilmb), (0x138, .dlmb), (0x140, .cacheCtl), (0x148, .hsmpSaddr),
        (0x149, .hsmpEaddr), (0x178, .sdzCtl), (0x179, .miscCtl)]
      ++ breakpoints
      ++ [(0x1A8, .edm 40), (0x1B0, .edm 41), (0x1B8, .edm 42), (0x1C0, .edm 43), (0x1C8, .edm 44), (0x1D0, .edm 45),
        (0x1F0, .edm 46), (0x1F1, .edm 47), (0x200, .pfmc0), (0x201, .pfmc1), (0x202, .pfmc2), (0x208, .pfmCtl),
        (0x220, .prusrAccCtl), (0x228, .fucopCtl)]
      ++ [(0x280, .dmaCfg), (0x288, .dmaGcsw), (0x290, .dmaChnsel), (0x298, .dmaAct), (0x2A0, .dmaSetup),
        (0x2A8, .dmaIsaddr), (0x2B0, .dmaEsaddr), (0x2B8, .dmaTcnt), (0x2C0, .dmaStatus), (0x2C8, .dma2dset),
        (0x2C9, .dma2dsctl)]
    ∀ idx : BitVec 10, srOf idx = table.lookup idx.toNat)
  ∧ (∀ c : Config,
    let present := fun r : Sr => srExists c r = true
    let msc := fun k : Nat => c.mscCfg.getLsbD k = true
    let mmps := c.mmuCfg.extractLsb' 0 2
    let cpuid := c.cpuVer.extractLsb' 24 8
    let hard := cpuid = 0x0C#8 ∧ c.cpuVer.extractLsb' 18 6 = 0#6
    let coprocessor := c.cpuVer.getLsbD 3 = true
    (∀ r ∈ [Sr.cpuVer, .icmCfg, .dcmCfg, .mmuCfg, .mscCfg, .psw, .ipsw, .ivb, .eva, .itype, .ipc, .oipc, .intMask,
        .intPend, .mmuCtl], present r)
      ∧ (present .coreId ↔ ¬hard) ∧ (present .fucopExist ↔ coprocessor)
      ∧ (∀ r ∈ [Sr.pIpsw, .pEva, .pItype, .pIpc, .pP0, .pP1], present r ↔ ¬msc 12)
      ∧ (present .merr ↔ c.merrExists = true)
      ∧ (∀ r ∈ [Sr.l1Pptb, .tlbMisc], present r ↔ mmps = 2#2) ∧ (∀ r ∈ [Sr.tlbVpn, .tlbData], present r ↔ mmps ≠ 0#2)
      ∧ (present .vlptIdx ↔ mmps = 2#2 ∧ c.mmuCfg.getLsbD 29 = true)
      ∧ (present .ilmb ↔ c.icmCfg.extractLsb' 10 3 ≠ 0#3) ∧ (present .dlmb ↔ c.dcmCfg.extractLsb' 10 3 ≠ 0#3)
      ∧ (present .cacheCtl ↔ c.icmCfg.extractLsb' 6 3 ≠ 0#3 ∧ c.dcmCfg.extractLsb' 6 3 ≠ 0#3)
      ∧ (present .hsmpSaddr ↔ msc 3) ∧ (present .hsmpEaddr ↔ hard)
      ∧ (∀ r ∈ [Sr.sdzCtl, .miscCtl], present r ↔
        c.idrExists = true ∧ (cpuid = 0x0C#8 ∨ cpuid = 0x0A#8 ∨ cpuid = 0x09#8))
      ∧ (∀ n : Fin 48, present (.edm n) ↔ msc 0 ∧ (40 ≤ n.val ∨ n.val / 5 < c.edmBc))
      ∧ (∀ r ∈ [Sr.pfmc0, .pfmc1, .pfmc2, .pfmCtl], present r ↔ msc 2)
      ∧ (present .prusrAccCtl ↔ (msc 1 ∨ msc 2) ∧ ¬hard)
      ∧ (present .fucopCtl ↔ coprocessor ∨ c.mscCfg.extractLsb' 7 2 ≠ 0#2)
      ∧ (∀ r ∈ [Sr.dmaCfg, .dmaGcsw, .dmaChnsel, .dmaAct, .dmaSetup, .dmaIsaddr, .dmaEsaddr, .dmaTcnt, .dmaStatus],
        present r ↔ msc 1)
      ∧ (∀ r ∈ [Sr.dma2dset, .dma2dsctl], present r ↔ msc 1 ∧ c.dmaCfg.getLsbD 3 = true))
  ∧ (∀ c : Config,
    let msc := fun k : Nat => c.mscCfg.getLsbD k
    let mmu := fun k : Nat => c.mmuCfg.getLsbD k
    let lmb := fun w : Word => w.extractLsb' 10 3
    let bsav := fun w : Word => w.extractLsb' 13 2
    c.hasEdm = msc 0 ∧ c.hasDma = msc 1 ∧ c.hasPfm = msc 2 ∧ c.hasHsmp = msc 3 ∧ c.hasDiv = msc 5 ∧ c.rdreg = msc 10
      ∧ c.adr24 = msc 11 ∧ (∀ a, c.addr a = if msc 11 then a &&& 0x00FFFFFF#32 else a)
      ∧ c.maxLevel = (if msc 12 then 2 else 3) ∧ c.ext16 = c.cpuVer.getLsbD 1
      ∧ c.intlc = msc 12 ∧ c.nod = msc 16
      ∧ (c.hasAudio = true ↔ c.mscCfg.extractLsb' 7 2 ≠ 0#2) ∧ (c.baseV2 = true ↔ c.mscCfg.extractLsb' 13 3 ≠ 0#3)
      ∧ (c.hasMmu = true ↔ c.mmuCfg.extractLsb' 0 2 = 2#2) ∧ (c.hasMpu = true ↔ c.mmuCfg.extractLsb' 0 2 = 1#2)
      ∧ (c.hardCore = true ↔ c.cpuVer.extractLsb' 24 8 = 0x0C#8 ∧ c.cpuVer.extractLsb' 18 6 = 0#6)
      ∧ (c.mmuVersion2 = true ↔ 2 ≤ (c.mmuCfg.extractLsb' 2 5).toNat)
      ∧ c.tblck = mmu 24 ∧ c.hptwk = mmu 25 ∧ c.de = mmu 26 ∧ c.ntpt = mmu 27 ∧ c.vlpt = mmu 29 ∧ c.ntme = mmu 30
      ∧ c.drde = mmu 31
      ∧ (c.ilmBsav1 = true ↔ bsav c.icmCfg = 1#2) ∧ (c.dlmBsav1 = true ↔ bsav c.dcmCfg = 1#2)
      ∧ (c.ilmExists = true ↔ lmb c.icmCfg ≠ 0#3) ∧ (c.dlmExists = true ↔ lmb c.dcmCfg ≠ 0#3)
      ∧ (c.doubleBuffer = true ↔ lmb c.dcmCfg = 2#3) ∧ c.hsmpV1 = !c.hsmpVersion2
      ∧ (c.dmaTwoChannels = true ↔ c.dmaCfg.extractLsb' 0 2 ≠ 0#2) ∧ c.dmaUnea = c.dmaCfg.getLsbD 2
      ∧ c.dma2det = c.dmaCfg.getLsbD 3)

/-- R302, R304, R306, R640, R641: MTSR to a register all of whose fields are plain (RW, or reserved) completes where
the access is allowed; the register then reads the written value with its reserved bits 0, every other register
reads as before, and nothing but the register files of system registers and pc has changed. The fields that an
N10 or N9 has in MISC_CTL are log 54. That reserved bits read 0 whatever is written to them, and the effect at
once, are the model's choices (log 9, 29). -/
def Obligations.MtsrWritesPlainRegisters : Prop :=
  ∀ (s : State) (ra : Reg) (idx : BitVec 10) (r : Sr) (mask : Word), srAccessAllowed s idx = true →
    srOf idx = some r → srExists s.cfg r = true →
    let cpuid := s.cfg.cpuVer.extractLsb' 24 8
    let n10 := cpuid = 0x0A#8 ∧ s.cfg.n1003 = false
    let miscBits : Word :=
      if cpuid = 0x0C#8 then 0x7#32
      else (if n10 ∧ s.cfg.idrBtb = true then 1#32 else 0#32) ||| (if s.cfg.idrRtp = true then 2#32 else 0#32)
        ||| (if n10 ∧ s.cfg.idrTcm = true then 8#32 else 0#32)
    ((r = .pEva ∨ r = .ipc ∨ r = .pIpc ∨ r = .oipc ∨ r = .pP0 ∨ r = .pP1 ∨ r = .pfmc0 ∨ r = .pfmc1 ∨ r = .pfmc2)
        ∧ mask = 0xFFFFFFFF#32
      ∨ r = .pItype ∧ mask = 0x7FFF001F#32
      ∨ r = .intMask ∧ mask = (0xC001003F#32 ||| if s.cfg.baseV2 then 0x20000000#32 else 0#32)
      ∨ r = .mmuCtl ∧ mask = (0x000801FE#32 ||| (if s.cfg.ntme then 0x0007F800#32 else 0#32)
          ||| (if s.cfg.hasMmu || s.cfg.mmuCtlFieldsStored then 0x00000601#32 else 0#32))
      ∨ r = .l1Pptb ∧ mask = 0xFFFFF001#32
      ∨ r = .tlbVpn ∧ mask = (if s.cfg.hasMpu then 0x1FFFF000#32 else 0xFFFFF000#32)
      ∨ r = .tlbData ∧ mask = (if s.cfg.hasMpu then 0xFFFFF1FF#32 else 0xFFFFF7FF#32)
      ∨ r = .cacheCtl ∧ mask = 0x3F#32
      ∨ r = .hsmpSaddr ∧ mask = (if s.cfg.hsmpV1 then 0xFFF00001#32 else 0xFFF01FFF#32)
      ∨ r = .hsmpEaddr ∧ mask = 0xFFF00000#32
      ∨ r = .miscCtl ∧ mask = miscBits
      ∨ r = .prusrAccCtl ∧ mask = 3#32
      ∨ r = .fucopCtl ∧ mask = 0x8000000F#32) →
      ∃ t, exec (.mtsr ra idx) s = .next t
        ∧ readSr t r = s.x ra &&& mask
        ∧ (∀ r', r' ≠ r → readSr t r' = readSr s r')
        ∧ t = { s with
            ir := t.ir
            mr := t.mr
            pfm := t.pfm
            misc := t.misc
            pc := s.cfg.addr (s.pc + 4#32)
            prevPc := s.pc
            note := { s.note with completed := true } }

/-- R101, R116, R120, R133, R257, R301, R303, R305, R640 and the field types of the other registers: MTSR, where the
access is allowed and the value not reserved, completes with the field types' effect and no other but pc. PSW,
IPSW, P_IPSW, IVB, SWI, TLB_MISC (an implemented size), VLPT_IDX.VLPTB, ILMB, DLMB (a change of DBM losing the
DLM's content), SDZ_CTL (MTBDZ other than 0, now or before, losing the TLB's), the EDM registers but EDM_CFG,
DMA_GCSW.EN = 1, DMA_CHNSEL and the set-up registers of a channel that is neither in Run nor Pended take the
value; the read-only registers ignore it; OVF2-0 and BUSERR are cleared by 1. The bit places of PFM_CTL and the
effect at once are inferences (log 9, 40); reserved bits read 0 (log 29); EDM_CFG is log 39, the lost content of
the DLM is log 47 (R531, U17), that of the TLB log 46, the fields that an N10 or N9 has in SDZ_CTL log 54, equal
bases log 44. DMA_ACT, and DMA_GCSW with EN = 0, are other statements (DmaStart, DmaDisabled). -/
def Obligations.MtsrByFieldType : Prop :=
  ∀ (s : State) (ra : Reg) (idx : BitVec 10) (r : Sr), srAccessAllowed s idx = true → srOf idx = some r →
    srExists s.cfg r = true →
      let v := s.x ra
      let goes := fun t : State => exec (.mtsr ra idx) s = .next (t.retire s.pc (s.cfg.addr (s.pc + 4#32)))
      let done := fun ir : IntRegs => goes { s with ir := ir }
      let doneMr := fun mr : MmuRegs => goes { s with mr := mr }
      let legal := v.getLsbD 4 = false ∧ (s.cfg.intlc = true → v.extractLsb' 1 2 ≠ 3#2)
      let c := s.chan s.selected
      let setUp := fun c' : DmaChan => c.stat ≠ .run → c.stat ≠ .pended → goes (s.setChan s.selected c')
      let cpuid := s.cfg.cpuVer.extractLsb' 24 8
      let n10 := cpuid = 0x0A#8 ∧ s.cfg.n1003 = false
      let sdzBits : Word :=
        if cpuid = 0x0C#8 then 0xFFF#32
        else (if s.cfg.icmCfg.extractLsb' 6 3 ≠ 0#3 then 0x7#32 else 0#32)
          ||| (if s.cfg.dcmCfg.extractLsb' 6 3 ≠ 0#3 then 0x38#32 else 0#32)
          ||| (if n10 ∧ s.cfg.mmuCfg.extractLsb' 0 2 = 2#2 then 0x1C0#32 else 0#32)
          ||| (if n10 ∧ s.cfg.idrBtb = true then 0xE00#32 else 0#32)
      let pswBits : Word := if s.cfg.hasAudio then 0x7FFF#32 else 0x5FFF#32
      let baseBits := fun bsav1 : Bool => if bsav1 then 0xFFFFFC01#32 else 0xFFF00001#32
      let dlmbBits := baseBits s.cfg.dlmBsav1 ||| (if s.cfg.doubleBuffer then 0x60#32 else 0#32)
      let setupBits : Word := 0x00E7FFFF#32 ||| (if s.cfg.dmaUnea then 0x00080000#32 else 0#32)
        ||| (if s.cfg.dma2det then 0x00100000#32 else 0#32)
      let tIlm := { s with mr := { s.mr with ilmb := v &&& baseBits s.cfg.ilmBsav1, ilmbSet := true } }
      let tDlm := { s with mr := { s.mr with dlmb := v &&& dlmbBits, dlmbSet := true } }
      let sdz := { s with misc := { s.misc with sdzCtl := v &&& sdzBits } }
      let mtbdz0 := (v &&& sdzBits).extractLsb' 6 3 = 0#3 ∧ s.misc.sdzCtl.extractLsb' 6 3 = 0#3
      (r = .psw → legal → done { s.ir with psw := v &&& pswBits })
        ∧ (r = .ipsw → legal → done { s.ir with ipsw := v &&& pswBits })
        ∧ (r = .pIpsw → legal → done { s.ir with pIpsw := v &&& pswBits })
        ∧ (r = .eva ∨ r = .itype ∨ r = .cpuVer ∨ r = .icmCfg ∨ r = .dcmCfg ∨ r = .mmuCfg ∨ r = .mscCfg
            ∨ r = .coreId ∨ r = .fucopExist ∨ r = .dmaCfg ∨ r = .dmaStatus ∨ r = .edm 40 → done s.ir)
        ∧ (r = .merr → s.interruptionReservedOk →
            done { s.ir with merr := if v.getLsbD 31 then 0#32 else s.ir.merr })
        ∧ (r = .pfmCtl → ∃ t, exec (.mtsr ra idx) s = .next t
            ∧ (∀ i < 28, t.pfm.pfmCtl.getLsbD i =
                if 6 ≤ i ∧ i ≤ 8 then s.pfm.pfmCtl.getLsbD i && !v.getLsbD i else v.getLsbD i)
            ∧ t = { s with pfm := { s.pfm with pfmCtl := t.pfm.pfmCtl } }.retire s.pc (s.cfg.addr (s.pc + 4#32)))
        ∧ (r = .ivb → done { s.ir with ivb := v &&& 0xFFFFE000#32 })
        ∧ (r = .intPend → done { s.ir with swi := v.getLsbD 16 })
        ∧ (r = .tlbMisc → s.sizeImplemented (v.extractLsb' 0 4) = true →
            doneMr { s.mr with tlbMisc := v &&& 0x1FFF#32 })
        ∧ (r = .vlptIdx →
            doneMr { s.mr with vlptIdx := v.extractLsb' 22 10 ++ s.mr.vlptIdx.extractLsb' 2 20 ++ 0#2 })
        ∧ (r = .ilmb → s.mr.dlmbSet = false ∨ tIlm.ilmBase ≠ s.dlmBase → goes tIlm)
        ∧ (r = .dlmb → s.mr.ilmbSet = false ∨ tDlm.dlmBase ≠ s.ilmBase →
            (tDlm.dbm = s.dbm → goes tDlm)
            ∧ (tDlm.dbm ≠ s.dbm → goes { tDlm with dlm := ⟨[], some s.draws⟩, draws := s.draws + 1 }))
        ∧ (r = .sdzCtl → (mtbdz0 → goes sdz)
            ∧ (¬mtbdz0 → goes { sdz with tlb := ⟨[], .unknown s.draws⟩, draws := s.draws + 1 }))
        ∧ (∀ n : Fin 48, n ≠ 40 → r = .edm n → goes { s with edm := s.edm.set n v })
        ∧ (r = .dmaGcsw → v.getLsbD 31 = true → goes { s with dma := { s.dma with en := true } })
        ∧ (r = .dmaChnsel → v.getLsbD 1 = false → (v.getLsbD 0 = true → s.cfg.dmaTwoChannels = true) →
            goes { s with dma := { s.dma with chan := v.extractLsb' 0 2 } })
        ∧ (r = .dmaSetup → (v.extractLsb' 2 2 = 3#2 → s.cfg.dmaTes8 = true) → v.extractLsb' 21 3 ≠ 3#3 →
            setUp { c with setup := v &&& setupBits })
        ∧ (r = .dmaIsaddr → setUp { c with isaddr := v.extractLsb' 0 20 })
        ∧ (r = .dmaEsaddr → setUp { c with esaddr := v })
        ∧ (r = .dmaTcnt → setUp { c with tcnt := v.extractLsb' 0 18 })
        ∧ (r = .dma2dset →
            setUp { c with
              wecnt := v.extractLsb' 0 16
              htstr := v.extractLsb' 16 16
              stwecnt := v.extractLsb' 0 16 })
        ∧ (r = .dma2dsctl → setUp { c with stwecnt := v.extractLsb' 0 16 })

/-- R104, R207, R275, R278, R279, R725, R829: MTSR of a reserved value takes the Reserved value exception, and an
unimplemented page size the Unimplemented page size error; no register is written but by the entry. CA 3 of
DMA_SETUP is a reserved value by R725 and R23 (log 29); TES 3 (D19), the sizes 10 to 15 (D14), CHAN 2 and 3, and
POM above 1 in PSW itself are the model's choices (log 29, 30). -/
def Obligations.MtsrOfReservedValueTraps : Prop :=
  ∀ (s : State) (ra : Reg) (idx : BitVec 10) (r : Sr), srAccessAllowed s idx = true → srOf idx = some r →
    srExists s.cfg r = true →
      let v := s.x ra
      ((r = .psw ∨ r = .ipsw ∨ r = .pIpsw)
          ∧ (v.getLsbD 4 = true ∨ (s.cfg.intlc = true ∧ v.extractLsb' 1 2 = 3#2))
        ∨ r = .dmaChnsel ∧ (v.getLsbD 1 = true ∨ (v.getLsbD 0 = true ∧ s.cfg.dmaTwoChannels = false))
        ∨ r = .dmaSetup ∧ (v.extractLsb' 2 2 = 3#2 ∧ s.cfg.dmaTes8 = false ∨ v.extractLsb' 21 3 = 3#3) →
          exec (.mtsr ra idx) s = .next (enter .reservedValue s.pc s))
      ∧ (r = .tlbMisc → s.sizeImplemented (v.extractLsb' 0 4) = false →
          exec (.mtsr ra idx) s = .next (enter .unimplementedPageSize s.pc s))

/-- R295, R643, R827: the instructions user mode may not run take the Privileged instruction exception there: MFSR
and MTSR without an access grant, IRET, every TLBOP the configuration has, LW_VLPT. An access is granted in
superuser mode (POM 1) and, where PRUSR_ACC_CTL exists, to the registers of major group 5 with DMA_USR_EN and to
PFMC0 to PFMC2 and PFM_CTL with PFM_USR_EN. The list of privileged instructions is the choice of D33 (log 28),
as is that an index of major group 5 without a register is granted with it. -/
def Obligations.PrivilegedInstructionsTrapInUserMode : Prop :=
  (∀ (s : State) (rt ra : Reg) (idx : BitVec 10) (imm : BitVec 15) (i : Instr), s.superuser = false →
    (srAccessAllowed s idx = false ∧ (i = .mfsr rt idx ∨ i = .mtsr ra idx)
      ∨ i = .iret
      ∨ s.cfg.hasMmu = true ∧ (i = .tlbopTrd ra ∨ i = .tlbopTwr ra ∨ i = .tlbopRwr ra
          ∨ (i = .tlbopRwlk ra ∧ s.cfg.tblck = true) ∨ i = .tlbopUnlk ra ∨ i = .tlbopInv ra ∨ i = .tlbopPb rt ra
          ∨ i = .tlbopFlua)
      ∨ s.cfg.hasMpu = true ∧ (i = .tlbopTrd ra ∨ i = .tlbopTwr ra)
      ∨ i = .lwVlpt rt ra imm ∧ s.cfg.vlpt = true) →
      exec i s = .next (enter .privilegedInstruction s.pc s))
  ∧ ∀ (s : State) (idx : BitVec 10),
    let present := (s.cfg.mscCfg.getLsbD 1 = true ∨ s.cfg.mscCfg.getLsbD 2 = true)
      ∧ ¬(s.cfg.cpuVer.extractLsb' 24 8 = 0x0C#8 ∧ s.cfg.cpuVer.extractLsb' 18 6 = 0#6)
    (s.superuser = true ↔ s.ir.psw.extractLsb' 3 2 = 1#2) ∧ s.level = s.ir.psw.extractLsb' 1 2
      ∧ (srAccessAllowed s idx = true ↔ s.superuser = true
        ∨ (idx.extractLsb' 7 3 = 5#3 ∧ present ∧ s.misc.prusrAccCtl.getLsbD 0 = true)
        ∨ ((idx = 0x200#10 ∨ idx = 0x201#10 ∨ idx = 0x202#10 ∨ idx = 0x208#10) ∧ present
          ∧ s.misc.prusrAccCtl.getLsbD 1 = true))

/-- R642, R621, R604, R630, R661, R664 with R826: the instructions of absent features, and accesses to absent system
registers, take the Reserved instruction exception. D12 and D34 choose this (log 27). -/
def Obligations.AbsentFeaturesAreReserved : Prop :=
  ∀ (s : State) (rt ra rb : Reg) (idx : BitVec 10) (imm : BitVec 15) (n : BitVec 9) (dt : Bool) (i : Instr),
    ((i = .mfsr rt idx ∨ i = .mtsr ra idx) ∧ srAccessAllowed s idx = true
          ∧ (srOf idx = none ∨ ∃ r, srOf idx = some r ∧ srExists s.cfg r = false)
      ∨ s.cfg.hasMmu = false ∧ (i = .tlbopRwr ra ∨ i = .tlbopRwlk ra ∨ i = .tlbopUnlk ra ∨ i = .tlbopInv ra
          ∨ i = .tlbopPb rt ra ∨ i = .tlbopFlua)
      ∨ s.cfg.hasMmu = false ∧ s.cfg.hasMpu = false ∧ (i = .tlbopTrd ra ∨ i = .tlbopTwr ra)
      ∨ s.cfg.tblck = false ∧ i = .tlbopRwlk ra
      ∨ s.cfg.vlpt = false ∧ i = .lwVlpt rt ra imm
      ∨ s.cfg.ext16 = false ∧ i = .break16 n
      ∨ (s.cfg.hasDiv = false ∨ s.cfg.nod = true) ∧ (i = .div dt ra rb ∨ i = .divs dt ra rb)) →
      exec i s = .next (enter .reservedInstruction s.pc s)

/-! ## Taking an interruption and returning -/

/-- R660 to R663: BREAK, BREAK16, SYSCALL and TRAP take their exception in every state and mode, with the address of
the instruction saved. The saved address is derived in the spec from R772; TRAP is general knowledge there (log
16, 50). -/
def Obligations.TrapInstructionsEnter : Prop :=
  ∀ (s : State) (n : BitVec 15) (m : BitVec 9),
    exec (.brk n) s = .next (enter (.brk n) s.pc s)
      ∧ exec (.syscall n) s = .next (enter (.systemCall n) s.pc s)
      ∧ exec (.trap n) s = .next (enter (.trap n) s.pc s)
      ∧ (s.cfg.ext16 = true → exec (.break16 m) s = .next (enter (.break16 (m.zeroExtend 15)) s.pc s))

/-- R775, R776 (D35): an interruption goes to IVBASE with 16 zeros plus the entry number times the entry size, an
address with no carry out of its 64KB block. The formula is the choice of D35 (log 50). -/
def Obligations.VectorAddresses : Prop :=
  ∀ (c : Cause) (pc : Word) (s : State),
    (enter c pc s).pc.toNat =
        (s.ir.ivb.extractLsb' 16 16).toNat * 65536 + c.entry * (4 * 4 ^ (s.ir.ivb.extractLsb' 14 2).toNat)
      ∧ c.entry * (4 * 4 ^ (s.ir.ivb.extractLsb' 14 2).toNat) < 65536

/-- R785: the transition 0 to 1 saves PSW and PC, and nothing else: the shadow registers of level 2, OIPC and every
general register keep their values. -/
def Obligations.EntryFromLevel0 : Prop :=
  ∀ (c : Cause) (pc : Word) (s : State), s.level = 0#2 →
    let t := enter c pc s
    t.ir.ipsw = s.ir.psw ∧ t.ir.ipc = pc ∧ t.ir.pIpsw = s.ir.pIpsw ∧ t.ir.pIpc = s.ir.pIpc
      ∧ t.ir.pItype = s.ir.pItype ∧ t.ir.pEva = s.ir.pEva ∧ t.ir.pP0 = s.ir.pP0 ∧ t.ir.pP1 = s.ir.pP1
      ∧ t.ir.oipc = s.ir.oipc ∧ t.gpr = s.gpr

/-- R786: the transition 1 to 2, where it exists, moves the registers of level 1 to their P_ copies, copies P0
(x[26]) and P1 (x[27]), and saves PSW and PC. That P0 and P1 are x[26] and x[27] is the choice of log 7. -/
def Obligations.EntryFromLevel1 : Prop :=
  ∀ (c : Cause) (pc : Word) (s : State), s.cfg.intlc = false → s.level = 1#2 →
    let t := enter c pc s
    t.ir.pIpsw = s.ir.ipsw ∧ t.ir.ipsw = s.ir.psw ∧ t.ir.pIpc = s.ir.ipc ∧ t.ir.ipc = pc
      ∧ t.ir.pItype = s.ir.itype ∧ t.ir.pEva = s.ir.eva ∧ t.ir.pP0 = s.x 26 ∧ t.ir.pP1 = s.x 27
      ∧ t.ir.oipc = s.ir.oipc ∧ t.gpr = s.gpr

/-- R784: every bit of the PSW after an entry to level 1 or 2. That INTL rises by exactly one and that bits 31 to 15
stay 0 are read with R101 and R22 (log 29). -/
def Obligations.EntryPswBits : Prop :=
  ∀ (c : Cause) (pc : Word) (s : State), s.level = 0#2 ∨ (s.level = 1#2 ∧ s.cfg.intlc = false) →
    let old := s.ir.psw
    let new := (enter c pc s).ir.psw
    new.getLsbD 0 = false ∧ new.extractLsb' 1 2 = s.level + 1#2 ∧ new.extractLsb' 3 2 = 1#2
      ∧ new.getLsbD 5 = s.cfg.de ∧ new.getLsbD 6 = false ∧ new.getLsbD 7 = false
      ∧ new.getLsbD 8 = (c.ime || old.getLsbD 8) ∧ new.getLsbD 9 = (c.dme || old.getLsbD 9)
      ∧ new.getLsbD 10 = (c.dbg || old.getLsbD 10)
      ∧ new.getLsbD 11 = (old.getLsbD 11 && s.ir.intMask.getLsbD 31) ∧ new.getLsbD 12 = s.cfg.drde
      ∧ new.getLsbD 13 = false ∧ new.getLsbD 14 = old.getLsbD 14
      ∧ ∀ i, 15 ≤ i → i < 32 → new.getLsbD i = false

/-- R789, R791, R133: an entry to the overflow level, from the level below it or from itself, saves the PC in OIPC,
sets INTL to the maximum and IME, DME, DEX and MERR where the interruption sets them, goes to the vector, and
changes nothing else but the step's note. The repeated entry is the choice of D43 and the missing EDM that of
D48 (log 34). -/
def Obligations.EntryToOverflowLevel : Prop :=
  ∀ (c : Cause) (pc : Word) (s : State), s.cfg.maxLevel ≤ s.level.toNat + 1 →
    let t := enter c pc s
    (∀ i < 32, t.ir.psw.getLsbD i =
        if i = 1 then !s.cfg.intlc
        else if i = 2 then true
        else if i = 8 then c.ime || s.ir.psw.getLsbD 8
        else if i = 9 then c.dme || s.ir.psw.getLsbD 9
        else if i = 10 then (c.dbg && s.cfg.edmVerOld) || s.ir.psw.getLsbD 10
        else s.ir.psw.getLsbD i)
      ∧ t.ir.oipc = pc
      ∧ t.pc.toNat = (s.ir.ivb.extractLsb' 16 16).toNat * 65536
          + c.entry * (4 * 4 ^ (s.ir.ivb.extractLsb' 14 2).toNat)
      ∧ t.ir.merr = (if c.loadBusError && s.cfg.merrExists then s.ir.merr ||| 0x80000000#32 else s.ir.merr)
      ∧ t = { s with
          ir := { s.ir with psw := t.ir.psw, oipc := t.ir.oipc, merr := t.ir.merr }
          pc := t.pc
          note := t.note }

/-- R107, R108, R121 to R130, R775, R787, R811: the table of the interruptions, row by row: the entry point, the
ETYPE code, INST, and which of them are an Instruction or Data Machine Error (IME, DME) or a Debug exception
(DEX); and what an entry to level 1 or 2 leaves in ITYPE: the code of the table where it gives one, INST, SWID
or SUB_TYPE, and 0 elsewhere. ETYPE where the table gives no code is free (log 32); the INST and SUB_TYPE
choices are in log 33 and 50, and the row of unimplementedPageSize, with INST, IME and DME all 0, is the choice
of D50 (log 30). -/
def Obligations.EntryWritesItype : Prop :=
  (∀ (c : Cause) (pc : Word) (s : State), s.level.toNat + 1 < s.cfg.maxLevel →
    let y := (enter c pc s).ir.itype
    (∀ k, c.etype = some k → y.extractLsb' 0 4 = k)
      ∧ y.getLsbD 4 = c.inst
      ∧ (∀ i, 5 ≤ i → i < 16 → y.getLsbD i = false)
      ∧ y.getLsbD 31 = false
      ∧ (∀ n, c = .brk n ∨ c = .break16 n ∨ c = .trap n ∨ c = .systemCall n → y.extractLsb' 16 15 = n)
      ∧ (∀ k, c = .arithmetic k → y.extractLsb' 16 15 = 0#11 ++ k)
      ∧ ((∀ n, c ≠ .brk n ∧ c ≠ .break16 n ∧ c ≠ .trap n ∧ c ≠ .systemCall n) → (∀ k, c ≠ .arithmetic k) →
          y.extractLsb' 16 15 = 0#15))
  ∧ ∀ (f : Bool) (va : Word) (eva : Option Word) (n : BitVec 15) (k : BitVec 4) (acc : Acc) (line : Fin 6)
      (vep : BitVec 6),
    let row := fun (c : Cause) (entry : Nat) (etype : Option (BitVec 4)) (inst ime dme dbg : Bool) =>
      c.entry = entry ∧ c.etype = etype ∧ c.inst = inst ∧ c.ime = ime ∧ c.dme = dme ∧ c.dbg = dbg
    row .nmi 0 (some 2#4) false false false false
      ∧ row (.tlbFill f va) 1 none f false false false
      ∧ row (.pteNonLeaf f va) 2 (some 0#4) f false false false
      ∧ row (.pteLeaf f va) 2 (some 1#4) f false false false
      ∧ row (.readProtection va) 3 (some 0#4) false false false false
      ∧ row (.writeProtection va) 3 (some 1#4) false false false false
      ∧ row (.nonExecutable va) 3 (some 2#4) true false false false
      ∧ row (.pageModified va) 3 (some 3#4) false false false false
      ∧ row (.accessBit f va) 3 (some 4#4) f false false false
      ∧ row (.reservedPte f va) 3 (some 5#4) f false false false
      ∧ row (.vlptMiss va) 4 none false false false false
      ∧ row (.tlbLocking f va) 5 (some 1#4) f f (!f) false
      ∧ row (.tlbMultipleHit f eva) 5 (some 2#4) f f (!f) false
      ∧ row .unimplementedPageSize 5 (some 4#4) false false false false
      ∧ row (.brk n) 6 (some 0#4) false false false true
      ∧ row (.break16 n) 6 (some 1#4) false false false true
      ∧ row .singleStep 6 (some 7#4) false false false true
      ∧ row (.insnAlignment va) 7 (some 0#4) true false false false
      ∧ row (.dataAlignment va) 7 (some 0#4) false false false false
      ∧ row .reservedInstruction 7 (some 1#4) false false false false
      ∧ row (.trap n) 7 (some 2#4) false false false false
      ∧ row (.arithmetic k) 7 (some 3#4) false false false false
      ∧ row (.preciseBusError acc va) 7 (some 4#4) (acc == .fetch) false false false
      ∧ row (.impreciseBusError f) 7 (some 5#4) f false false false
      ∧ row .privilegedInstruction 7 (some 7#4) false false false false
      ∧ row .reservedValue 7 (some 8#4) false false false false
      ∧ row (.nonexistentLocalMemory f) 7 (some 9#4) f false false false
      ∧ row (.mpziuControl f) 7 (some 10#4) f false false false
      ∧ row (.systemCall n) 8 none false false false false
      ∧ row (.hardwareInterrupt line) (9 + line.val) none false false false false
      ∧ row .softwareInterrupt 15 none false false false false
      ∧ row (.vectoredInterrupt vep) (9 + vep.toNat) none false false false false

/-- R118, R199, R211, R464, R788, R811: what EVA, TLB_VPN.VPN and VLPT_IDX.EVPN hold after an entry to level 1 or 2,
by every exception and interrupt, with either minimum page; the other fields of the registers of major 2 are
unchanged. The causes of the last clause have no EVA row: EVA unchanged after them is the choice of D47 (log
31), as is TLB_VPN after a Non-executable page that of D45 (log 31); a multiple hit of a probe has no address
(log 20). -/
def Obligations.EntryWritesFaultAddress : Prop :=
  ∀ (c : Cause) (pc va : Word) (s : State) (f : Bool) (n : BitVec 15) (k : BitVec 4) (line : Fin 6) (vep : BitVec 6),
    s.level.toNat + 1 < s.cfg.maxLevel →
    let t := enter c pc s
    let page := va.extractLsb' 12 20 ++ 0#12
    let address := if f then page else va
    let evpn := if s.page8k then 0#1 ++ va.extractLsb' 13 19 else va.extractLsb' 12 20
    let vpnWritten := if s.cfg.hasMmu then { s.mr with tlbVpn := page } else s.mr
    let bothWritten :=
      if s.cfg.hasMmu && s.cfg.vlpt then
        { vpnWritten with vlptIdx := s.mr.vlptIdx.extractLsb' 22 10 ++ evpn ++ s.mr.vlptIdx.extractLsb' 0 2 }
      else vpnWritten
    (c = .tlbFill f va ∨ c = .pteNonLeaf f va ∨ c = .pteLeaf f va → t.ir.eva = address ∧ t.mr = bothWritten)
      ∧ (c = .pageModified va → t.ir.eva = va ∧ t.mr = bothWritten)
      ∧ (c = .readProtection va ∨ c = .writeProtection va → t.ir.eva = va ∧ t.mr = vpnWritten)
      ∧ (c = .nonExecutable va → t.ir.eva = page ∧ t.mr = s.mr)
      ∧ (c = .accessBit f va ∨ c = .reservedPte f va → t.ir.eva = address ∧ t.mr = s.mr)
      ∧ (c = .vlptMiss va ∨ c = .tlbLocking f va ∨ c = .tlbMultipleHit f (some va) → t.ir.eva = va ∧ t.mr = s.mr)
      ∧ (c = .insnAlignment va ∨ c = .dataAlignment va ∨ c = .preciseBusError .load va
          ∨ c = .preciseBusError .store va → t.ir.eva = va ∧ t.mr = s.mr)
      ∧ (c = .nmi ∨ c = .tlbMultipleHit f none ∨ c = .unimplementedPageSize ∨ c = .brk n ∨ c = .break16 n
          ∨ c = .singleStep ∨ c = .reservedInstruction ∨ c = .trap n ∨ c = .arithmetic k
          ∨ c = .preciseBusError .fetch va ∨ c = .impreciseBusError f ∨ c = .privilegedInstruction
          ∨ c = .reservedValue ∨ c = .nonexistentLocalMemory f ∨ c = .mpziuControl f ∨ c = .systemCall n
          ∨ c = .hardwareInterrupt line ∨ c = .softwareInterrupt ∨ c = .vectoredInterrupt vep →
        t.ir.eva = s.ir.eva ∧ t.mr = s.mr)

/-- R801: IRET at level 1 restores PSW and PC, and leaves every other register, ITYPE, EVA, P0 and P1 among them. -/
def Obligations.IretFromLevel1 : Prop :=
  ∀ s : State, s.superuser = true → s.level = 1#2 →
    exec .iret s = .next ({ s with ir := { s.ir with psw := s.ir.ipsw } }.retire s.pc s.ir.ipc)

/-- R802: IRET at level 2, where it is no overflow level, restores the level-1 registers from their P_ copies and P0
and P1 from P_P0 and P_P1, and leaves everything else. At level 0, for which the rules describe no return, it
restores PSW and PC as at level 1, by the choice of D39 (log 35). That P0 and P1 are x[26] and x[27] is the
choice of log 7. -/
def Obligations.IretFromLevel2 : Prop :=
  ∀ s : State, s.superuser = true →
    (s.level = 2#2 → s.cfg.intlc = false →
      exec .iret s =
        .next ({ s with
          ir := { s.ir with
            psw := s.ir.ipsw
            ipsw := s.ir.pIpsw
            ipc := s.ir.pIpc
            itype := s.ir.pItype
            eva := s.ir.pEva }
          gpr := (s.gpr.set 26 s.ir.pP0).set 27 s.ir.pP1 }.retire s.pc s.ir.ipc))
    ∧ (s.level = 0#2 →
      exec .iret s = .next ({ s with ir := { s.ir with psw := s.ir.ipsw } }.retire s.pc s.ir.ipc))

/-- R803: IRET at the overflow level goes to OIPC, lowers PSW.INTL by one, and leaves everything else. -/
def Obligations.IretFromOverflowLevel : Prop :=
  ∀ s : State, s.superuser = true → s.level.toNat = s.cfg.maxLevel →
    ∃ t, exec .iret s = .next t
      ∧ t.pc = s.ir.oipc
      ∧ t.level.toNat = s.level.toNat - 1
      ∧ (∀ i, i ≠ 1 → i ≠ 2 → i < 32 → t.ir.psw.getLsbD i = s.ir.psw.getLsbD i)
      ∧ t = { s with
          ir := { s.ir with psw := t.ir.psw }
          pc := t.pc
          prevPc := s.pc
          note := { s.note with completed := true } }

/-- R786, R802: a handler at level 1 that has saved nothing can take one further interruption and lose nothing: IRET
from level 2 gives back every register of level 1, P0 and P1, and the interrupted pc. That P0 and P1 are x[26]
and x[27] is the choice of log 7. -/
def Obligations.NestedInterruptionLosesNothing : Prop :=
  ∀ (c : Cause) (pc : Word) (s : State), s.cfg.intlc = false → s.level = 1#2 →
    ∃ t, exec .iret (enter c pc s) = .next t
      ∧ t.pc = pc ∧ t.gpr = s.gpr
      ∧ t.ir.psw = s.ir.psw ∧ t.ir.ipsw = s.ir.ipsw ∧ t.ir.ipc = s.ir.ipc ∧ t.ir.itype = s.ir.itype
      ∧ t.ir.eva = s.ir.eva

/-! ## The divide instructions -/

/-- R664: DIV and DIVS by a divisor that is not zero, DIVS without overflow, complete: LO is the quotient (unsigned;
signed) and HI the remainder, smaller than the divisor and, signed, zero or of the dividend's sign; nothing else
changes but pc. The results are general knowledge in the spec (R664): a choice of log 33. -/
def Obligations.DivideResults : Prop :=
  ∀ (s : State) (dt : Bool) (ra rb : Reg), s.cfg.hasDiv = true → s.cfg.nod = false → s.x rb ≠ 0#32 →
    let a := s.x ra
    let b := s.x rb
    (∃ hi lo : Word,
      exec (.div dt ra rb) s = .next ((s.setD dt (hi ++ lo)).retire s.pc (s.cfg.addr (s.pc + 4#32)))
        ∧ a.toNat = lo.toNat * b.toNat + hi.toNat ∧ hi.toNat < b.toNat)
      ∧ (¬(a = 0x80000000#32 ∧ b = 0xFFFFFFFF#32) →
        ∃ hi lo : Word,
          exec (.divs dt ra rb) s = .next ((s.setD dt (hi ++ lo)).retire s.pc (s.cfg.addr (s.pc + 4#32)))
            ∧ a.toInt = lo.toInt * b.toInt + hi.toInt
            ∧ hi.toInt.natAbs < b.toInt.natAbs
            ∧ (hi.toInt = 0 ∨ (0 < hi.toInt ↔ 0 < a.toInt)))

/-- R143, R664, R831: division by zero takes the Arithmetic exception with INT_MASK.IDIVZE, and without it completes
with only Dt changed; the quotient +2^31 takes the Arithmetic exception with sub-type 2. The overflow exception
without an enable is the choice of D40; Dt after a divide by zero without IDIVZE is free (log 33). -/
def Obligations.DivideByZeroAndOverflow : Prop :=
  ∀ (s : State) (dt : Bool) (ra rb : Reg) (i : Instr), s.cfg.hasDiv = true → s.cfg.nod = false →
    i = .div dt ra rb ∨ i = .divs dt ra rb →
      (s.x rb = 0#32 → s.ir.intMask.getLsbD 30 = true → exec i s = .next (enter (.arithmetic 1#4) s.pc s))
      ∧ (s.x rb = 0#32 → s.ir.intMask.getLsbD 30 = false →
          ∃ v, exec i s = .next ((s.drawn.setD dt v).retire s.pc (s.cfg.addr (s.pc + 4#32))))
      ∧ (s.x ra = 0x80000000#32 → s.x rb = 0xFFFFFFFF#32 → i = .divs dt ra rb →
          exec i s = .next (enter (.arithmetic 2#4) s.pc s))

/-! ## The TLB instructions -/

/-- R50, R406, R601, R602, R612: TLBOP TRD of a way that exists completes: TLB_VPN, TLB_DATA and TLB_MISC hold the
entry, and nothing else changes but pc. TLBOP TWR of it completes: the entry holds the three registers' fields,
unlocked, whether it was locked or not, and no other entry and nothing else changes but pc. Of a way that does
not exist, TRD leaves the three registers unknown and TWR writes nothing, by U18 (log 18). The set of an entry
number is its low log2(N) bits, the way the ceil(log2(K)) bits above, the bits above those being ignored, and N
and K are those of MMU_CFG: 4 << TBS sets of TBW + 1 ways, or one set of FATBSZ ways with FATB. That TRD reads
the lock nowhere and where an entry number points with such an N and K are inferences of the spec (log 18). -/
def Obligations.TlbTargetReadAndWrite : Prop :=
  (∀ (s : State) (ra : Reg), s.cfg.hasMmu = true → s.superuser = true →
    (s.cfg.tlbWays ≤ entryWay s.cfg (s.x ra) →
      (∃ vpn data misc : Word,
        exec (.tlbopTrd ra) s =
          .next ({ s.drawn with mr := { s.mr with tlbVpn := vpn, tlbData := data, tlbMisc := misc } }.retire s.pc
            (s.cfg.addr (s.pc + 4#32)))
          ∧ within 0xFFFFF000#32 vpn ∧ within 0xFFFFF7FF#32 data ∧ within 0x1FFF#32 misc)
      ∧ exec (.tlbopTwr ra) s = .next (s.retire s.pc (s.cfg.addr (s.pc + 4#32))))
    ∧ (entryWay s.cfg (s.x ra) < s.cfg.tlbWays →
      let k := entryNumber s.cfg (s.x ra)
      let e := s.tlb.read k
      exec (.tlbopTrd ra) s =
        .next ({ s with mr := { s.mr with
          tlbVpn := e.vpn ++ 0#12
          tlbData := e.ppn ++ 0#1 ++ e.c ++ BitVec.ofBool e.g ++ BitVec.ofBool e.a ++ BitVec.ofBool e.x
            ++ BitVec.ofBool e.d ++ e.m ++ BitVec.ofBool e.v
          tlbMisc := 0#19 ++ e.cid ++ e.psz } }.retire s.pc (s.cfg.addr (s.pc + 4#32)))
      ∧ ∃ t, exec (.tlbopTwr ra) s = .next t
        ∧ (s.mmuReservedOk → (t.tlb.read k).pte = s.mr.tlbData)
        ∧ (t.tlb.read k).vpn = s.mr.tlbVpn.extractLsb' 12 20
        ∧ (t.tlb.read k).cid = s.mr.tlbMisc.extractLsb' 4 9 ∧ (t.tlb.read k).psz = s.mr.tlbMisc.extractLsb' 0 4
        ∧ (t.tlb.read k).l = false
        ∧ (∀ j, j ≠ k → t.tlb.read j = s.tlb.read j)
        ∧ t = { s with
            tlb := t.tlb
            pc := s.cfg.addr (s.pc + 4#32)
            prevPc := s.pc
            note := { s.note with completed := true } }))
  ∧ ∀ c : Config,
    (c.mmuCfg.getLsbD 7 = false → c.tlbSets = 4 * 2 ^ (c.mmuCfg.extractLsb' 11 3).toNat
        ∧ c.tlbWays = (c.mmuCfg.extractLsb' 8 3).toNat + 1)
      ∧ (c.mmuCfg.getLsbD 7 = true → c.tlbSets = 1 ∧ c.tlbWays = (c.mmuCfg.extractLsb' 8 7).toNat)
      ∧ Config.tlbEntries c = c.tlbSets * c.tlbWays
      ∧ ∃ b, c.tlbWays ≤ 2 ^ b ∧ (∀ b' < b, 2 ^ b' < c.tlbWays)
        ∧ ∀ x : Word, entryWay c x = x.toNat / c.tlbSets % 2 ^ b
          ∧ entryNumber c x = entryWay c x * c.tlbSets + x.toNat % c.tlbSets

/-- R407, R603, R604, R605: TLBOP RWR, and RWLK where it exists, complete: the entry of TLB_VPN, x[Rx] and TLB_MISC,
locked by RWLK only, goes to one way of its set that is unlocked (or, all being locked, to any with
MMU_CTL.TBALCK); all being locked without TBALCK, no entry is written and the TLB locking error is pending. Its
set is the log2(N) bits of the address in TLB_VPN above the page offset, the choice of D29 (log 18). The way is
a free choice and the entry without lock is derived in the spec (log 19). -/
def Obligations.TlbRandomWrite : Prop :=
  ∀ (s : State) (ra : Reg) (lock : Bool), s.cfg.hasMmu = true → s.superuser = true → 0 < s.cfg.tlbWays →
    (lock = true → s.cfg.tblck = true) →
      let i : Instr := if lock then .tlbopRwlk ra else .tlbopRwr ra
      let psz := s.mr.tlbMisc.extractLsb' 0 4
      let vpn := s.mr.tlbVpn.extractLsb' 12 20
      let pte := s.x ra
      let e : TlbEntry :=
        { vpn := vpn, ppn := pte.extractLsb' 12 20, c := pte.extractLsb' 8 3, g := pte.getLsbD 7, a := pte.getLsbD 6,
          x := pte.getLsbD 5, d := pte.getLsbD 4, m := pte.extractLsb' 1 3, v := pte.getLsbD 0,
          cid := s.mr.tlbMisc.extractLsb' 4 9, psz := psz, l := lock }
      let inSet := fun k : Nat => k < s.cfg.tlbSets * s.cfg.tlbWays
        ∧ k % s.cfg.tlbSets = (vpn ++ 0#12 : Word).toNat / 2 ^ pageShift psz % s.cfg.tlbSets
      let allLocked := ∀ k, inSet k → (s.tlb.read k).l = true
      let tbalck := s.mr.mmuCtl.getLsbD 9
      let next := s.cfg.addr (s.pc + 4#32)
      (¬(allLocked ∧ tbalck = false) →
        ∃ k, inSet k ∧ (allLocked ∨ (s.tlb.read k).l = false)
          ∧ exec i s =
            .next ({ s with tlb := s.tlb.write k e, draws := s.draws + 1 }.retire s.pc next))
      ∧ (allLocked → tbalck = false →
        exec i s =
          .next ({ s with
            pendImp := s.pendImp ++ [PendImp.mk (.tlbLocking false (vpn ++ 0#12)) s.level] }.retire s.pc next))

/-- R407, R431, R606: TLBOP UNLK completes: it clears the lock of the matching entries of the page size in TLB_MISC
in the set of the address, and changes no other entry and nothing else but pc. An entry matches when V is 1, its
page number equals the address's above its page size, and it is global or of the current context. Which entries
the set holds is the choice of log 18 (D29), as is V = 0 matching nothing (D28). -/
def Obligations.TlbUnlock : Prop :=
  ∀ (s : State) (ra : Reg), s.cfg.hasMmu = true → s.superuser = true →
    let va := s.x ra
    let psz := s.mr.tlbMisc.extractLsb' 0 4
    let inSet := fun k : Nat => k < s.cfg.tlbSets * s.cfg.tlbWays
      ∧ k % s.cfg.tlbSets = va.toNat / 2 ^ pageShift psz % s.cfg.tlbSets
    let found := fun e : TlbEntry =>
      e.v = true ∧ (∀ i, pageShift e.psz ≤ i → i < 32 → (e.vpn ++ 0#12 : Word).getLsbD i = va.getLsbD i)
        ∧ (e.g = true ∨ e.cid = s.mr.tlbMisc.extractLsb' 4 9)
    ∃ t, exec (.tlbopUnlk ra) s = .next t
      ∧ (∀ k, let e := s.tlb.read k
          (inSet k → found e → e.psz = psz → t.tlb.read k = { e with l := false })
            ∧ (¬(inSet k ∧ found e ∧ e.psz = psz) → t.tlb.read k = e))
      ∧ t = { s with
          tlb := t.tlb
          pc := s.cfg.addr (s.pc + 4#32)
          prevPc := s.pc
          note := { s.note with completed := true } }

/-- R431, R609, R610: TLBOP INV completes: every unlocked matching entry of the page size in TLB_MISC has V = 0
afterwards, every locked entry is as before, and so is every other entry unless the implementation flushes more;
nothing else changes but the invisible TLB, the draws and pc. An entry matches when V is 1, its page number
equals the address's above its page size, and it is global or of the current context. V = 0 as the mark of a
flushed entry is the choice of D28 (log 18); further flushed entries are log 21. -/
def Obligations.TlbInvalidate : Prop :=
  ∀ (s : State) (ra : Reg), s.cfg.hasMmu = true → s.superuser = true → s.tlbOk →
    let va := s.x ra
    let found := fun e : TlbEntry =>
      e.v = true ∧ (∀ i, pageShift e.psz ≤ i → i < 32 → (e.vpn ++ 0#12 : Word).getLsbD i = va.getLsbD i)
        ∧ (e.g = true ∨ e.cid = s.mr.tlbMisc.extractLsb' 4 9)
    let must := fun e : TlbEntry => e.l = false ∧ found e ∧ e.psz = s.mr.tlbMisc.extractLsb' 0 4
    ∃ t, exec (.tlbopInv ra) s = .next t
      ∧ (∀ k < Config.tlbEntries s.cfg, let e := s.tlb.read k
          (must e → (t.tlb.read k).v = false)
            ∧ (e.l = true → t.tlb.read k = e)
            ∧ (¬must e → s.cfg.invFlushesMore = false → t.tlb.read k = e))
      ∧ (∀ e ∈ t.itlb, e ∈ s.itlb ∧ ¬must e)
      ∧ t = { s with
          tlb := t.tlb
          itlb := t.itlb
          draws := s.draws + 1
          pc := s.cfg.addr (s.pc + 4#32)
          prevPc := s.pc
          note := { s.note with completed := true } }

/-- R307, R608, R610: TLBOP FLUA completes: locked entries are as before, every other entry has V = 0 and no lock,
the invisible TLB is empty, and nothing else changes but the draws and pc. An entry that MTBDZ left unknown and
nothing has written since is no locked entry (log 46). V = 0 as the mark of a flushed entry is the choice of D28
(log 18). -/
def Obligations.TlbFlushAll : Prop :=
  ∀ s : State, s.cfg.hasMmu = true → s.superuser = true → s.tlbOk →
    ∃ t, exec .tlbopFlua s = .next t
      ∧ (∀ k < Config.tlbEntries s.cfg,
          let known := (∃ d, s.tlb.fill = .flushed d) ∨ (cellGet s.tlb.cells k).isSome = true
          (known → (s.tlb.read k).l = true → t.tlb.read k = s.tlb.read k)
            ∧ (¬(known ∧ (s.tlb.read k).l = true) → (t.tlb.read k).v = false ∧ (t.tlb.read k).l = false))
      ∧ t = { s with
          tlb := t.tlb
          itlb := []
          draws := s.draws + 1
          pc := s.cfg.addr (s.pc + 4#32)
          prevPc := s.pc
          note := { s.note with completed := true } }

/-- R431, R607: TLBOP PB completes: the result word for no match, one visible match (with its entry number) and one
invisible match, nothing else changing but the draws and pc; on a multiple match the machine error is pending.
The visible entries in their own sets, and the invisible ones, of every page size, match as in a lookup. An
entry in a wrong set matches or not (log 20); V = 0 matching nothing is D28 (log 18). Rt after a multiple match
is free, and the bits around the fields read 0 (log 20). -/
def Obligations.TlbProbe : Prop :=
  ∀ (s : State) (rt ra : Reg), s.cfg.hasMmu = true → s.superuser = true →
    let va := s.x ra
    let done := fun v : Word => Host.Outcome.next ((s.drawn.setX rt v).retire s.pc (s.cfg.addr (s.pc + 4#32)))
    (probeVisible s va = [] → probeInvisible s va = [] → exec (.tlbopPb rt ra) s = done 0x80000000#32)
      ∧ (∀ k e, probeVisible s va = [(k, e)] → probeInvisible s va = [] →
          exec (.tlbopPb rt ra) s = done (0x20000000#32 ||| BitVec.ofNat 32 k))
      ∧ (∀ e, probeVisible s va = [] → probeInvisible s va = [e] →
          exec (.tlbopPb rt ra) s = done 0x40000000#32)
      ∧ (2 ≤ (probeVisible s va).length + (probeInvisible s va).length →
          ∃ v, exec (.tlbopPb rt ra) s =
            .next (((s.drawn.setX rt v).pend (.tlbMultipleHit false none)).retire s.pc
              (s.cfg.addr (s.pc + 4#32))))
      ∧ (let found := fun e : TlbEntry =>
          e.v = true ∧ (∀ i, pageShift e.psz ≤ i → i < 32 → (e.vpn ++ 0#12 : Word).getLsbD i = va.getLsbD i)
            ∧ (e.g = true ∨ e.cid = s.mr.tlbMisc.extractLsb' 4 9)
        let ownSet := fun (k : Nat) (e : TlbEntry) =>
          (e.vpn ++ 0#12 : Word).toNat / 2 ^ pageShift e.psz % s.cfg.tlbSets = k % s.cfg.tlbSets
        (∀ (k : Nat) (e : TlbEntry), (k, e) ∈ s.tlbListed → ownSet k e → ((k, e) ∈ probeVisible s va ↔ found e))
        ∧ (∀ (k : Nat) (e : TlbEntry), (k, e) ∈ probeVisible s va → (k, e) ∈ s.tlbListed ∧ found e)
        ∧ ∀ e, e ∈ probeInvisible s va ↔ e ∈ s.itlb ∧ found e)

/-- R487, R488, R489: under the MPU, TLBOP TRD of the entry that x[Rx][31:29] names puts its Hrange into TLB_VPN and
its PSB, C, X, M and V into TLB_DATA, and TWR writes those fields of TLB_VPN and TLB_DATA to that entry and no
other; both complete and change nothing else but pc; after a TWR a TRD gives TLB_VPN and TLB_DATA back. One
merged table is the choice of D31 (log 55). -/
def Obligations.MpuTargetWriteThenRead : Prop :=
  ∀ (s : State) (ra : Reg), s.cfg.hasMpu = true → s.superuser = true →
    let k : Fin 8 := ((s.x ra).extractLsb' 29 3).toFin
    let e := s.mpu[k]
    let next := s.cfg.addr (s.pc + 4#32)
    exec (.tlbopTrd ra) s =
        .next ({ s with mr := { s.mr with
          tlbVpn := 0#3 ++ e.hrange ++ 0#12
          tlbData := e.psb ++ 0#3 ++ e.c ++ e.x ++ e.m ++ BitVec.ofBool e.v } }.retire s.pc next)
    ∧ ∃ t, exec (.tlbopTwr ra) s = .next t
      ∧ t.mpu[k] =
        { psb := s.mr.tlbData.extractLsb' 12 20
          hrange := s.mr.tlbVpn.extractLsb' 12 17
          c := s.mr.tlbData.extractLsb' 6 3
          x := s.mr.tlbData.extractLsb' 4 2
          m := s.mr.tlbData.extractLsb' 1 3
          v := s.mr.tlbData.getLsbD 0 }
      ∧ (∀ j : Fin 8, j ≠ k → t.mpu[j] = s.mpu[j])
      ∧ t = { s with
          mpu := t.mpu
          pc := next
          prevPc := s.pc
          note := { s.note with completed := true } }
      ∧ (s.mmuReservedOk → exec (.tlbopTrd ra) t = .next (t.retire t.pc (t.cfg.addr (t.pc + 4#32))))

/-! ## Steps, interrupts, reset -/

/-- R447, R520, R570, R790, R832, R835, R837, R851: a step with no reset whose boundary takes nothing fetches at pc:
an exception of the fetch is taken, pc being saved; where the bytes decode to an instruction whose registers the
implementation has, the step is that instruction's meaning in the state the fetch left, with the single-step
event recorded exactly when the instruction completed and EffHSS was 1 as it started, and the performance
counters advanced. EffHSS is PSW.HSS, and 0 at the overflow level unless EDM_CFG.VER is below 0x0030. The fetch:
at an odd pc the Instruction alignment check; a first halfword from where pc is translated and, unless it is a
whole instruction, a second one behind it, translated on its own when it lies on another page; each read from
the ILM or on the bus, memory's bytes where memory serves them, a device's free ones, the precise bus error
where nothing serves them. A state with no input, no running DMA transfer and no event is such a boundary. Which
bytes make an instruction is general knowledge in the spec (log 16); the registers that exist with MSC_CFG.RDREG
are log 7; that HSS is sampled at the start is D44 (log 37), the EDM of a core without one D48 (log 34); the
note and the counters are log 40 and 53; devices are log 12, the precise bus error is D51 (log 13). -/
def Obligations.StepRunsTheDecodedInstruction : Prop :=
  (∀ s : State, s.calm → s.goesOn ∧ s.atBoundary = s.started ∧ boundary s.started = none)
  ∧ (∀ s : State, s.goesOn → boundary s.atBoundary = none →
    let b := s.atBoundary
    let ran := fun (i : Instr) (t : State) =>
      match exec i t with
      | .next v => Host.Outcome.next (account b (.insn i) (recordStep b.effHss v))
      | .fault f => .fault f
      | .refused r => .refused r
    (∀ h t i rest, fetchInsn b = .ok h t → decode (fetchedBytes h) = .ok (i, rest) →
      (∀ r ∈ i.regs, s.cfg.rdreg = true → r ∈ s.cfg.reducedRegs.toList) → step s = ran i t)
    ∧ (∀ h t, fetchInsn b = .ok h t →
      step s = afterInsn b (classify s.cfg h).work (execFetched exec (classify s.cfg h) t))
    ∧ (∀ c t, fetchInsn b = .raise c t → step s = .next (account b .none (enter c b.pc t)))
    ∧ (∀ f, fetchInsn b = .stop f → step s = .fault f))
  ∧ (∀ b : State,
    let onward := fun (h0 : Half) (second : Res Half) =>
      (∀ h1 w, second = .ok h1 w → fetchInsn b = .ok (h0, some h1) w)
      ∧ (∀ c w, second = .raise c w → fetchInsn b = .raise c w)
      ∧ (∀ f, second = .stop f → fetchInsn b = .stop f)
    (b.pc.getLsbD 0 = true → fetchInsn b = .raise (.insnAlignment b.prevPc) b)
    ∧ (b.pc.getLsbD 0 = false → transEnabled b .fetch false = false →
      translate b b.pc .fetch false = .ok (nonTranslated b (b.cfg.addr b.pc)) b)
    ∧ (∀ c t, translate b b.pc .fetch false = .raise c t → fetchInsn b = .raise c t)
    ∧ (∀ f, translate b b.pc .fetch false = .stop f → fetchInsn b = .stop f)
    ∧ (∀ x t, translate b b.pc .fetch false = .ok x t →
      (∀ c u, fetchHalf t x.pa b.pc = .raise c u → fetchInsn b = .raise c u)
      ∧ (∀ f, fetchHalf t x.pa b.pc = .stop f → fetchInsn b = .stop f)
      ∧ (∀ h0 u, fetchHalf t x.pa b.pc = .ok h0 u →
        (h0.getLsbD 15 = true → fetchInsn b = .ok (h0, none) u)
        ∧ (h0.getLsbD 15 = false → b.pc.extractLsb' 0 12 ≠ 0xFFE#12 →
          onward h0 (fetchHalf u (x.pa + 2#32) (b.pc + 2#32)))
        ∧ (h0.getLsbD 15 = false → b.pc.extractLsb' 0 12 = 0xFFE#12 →
          (∀ c v, translate u (b.pc + 2#32) .fetch false = .raise c v → fetchInsn b = .raise c v)
          ∧ (∀ f, translate u (b.pc + 2#32) .fetch false = .stop f → fetchInsn b = .stop f)
          ∧ (∀ y v, translate u (b.pc + 2#32) .fetch false = .ok y v →
            onward h0 (fetchHalf v y.pa (b.pc + 2#32)))))))
  ∧ (∀ (t : State) (pa va : Word), pa.getLsbD 0 = false →
    let a := pa.toNat
    let at2 := fun k : RegionKind => ∃ i < 2, t.cfg.regionOf (a + i) = k
    let memByte := fun (i : Nat) (b : Byte) => t.cfg.regionOf (a + i) = .ram → b = t.mem.read (a + i)
    (∀ off, route t pa .fetch = .ok (.ilm off) t →
      fetchHalf t pa va = .ok (t.ilm.read off ++ t.ilm.read (off + 1)) t.noteIlm)
    ∧ (∀ c u, route t pa .fetch = .raise c u → fetchHalf t pa va = .raise c u)
    ∧ (∀ f, route t pa .fetch = .stop f → fetchHalf t pa va = .stop f)
    ∧ (route t pa .fetch = .ok (.bus a) t →
      (at2 .unserved → fetchHalf t pa va = .raise (.preciseBusError .fetch va) t)
      ∧ (¬at2 .unserved → ∃ (b0 b1 : Byte) (u : State), fetchHalf t pa va = .ok (b0 ++ b1) u
        ∧ memByte 0 b0 ∧ memByte 1 b1 ∧ (¬at2 .device → u = t)
        ∧ (at2 .device → u = { t with draws := t.draws + 1, devLog := t.devLog ++ [.read a 2] }))))
  ∧ (∀ s : State,
    let atTop := decide ((if s.cfg.intlc then 2 else 3) ≤ (s.ir.psw.extractLsb' 1 2).toNat)
    s.effHss = (if atTop && !s.cfg.edmVerOld then false else s.ir.psw.getLsbD 11)
      ∧ s.cfg.edmVerOld = (!s.cfg.mscCfg.getLsbD 0 || decide (s.cfg.edmVer.toNat < 0x30)))
  ∧ (∀ (h : Bool) (v : State),
    recordStep h v = { v with stepEvt := v.stepEvt || (h && v.note.completed) })
  ∧ (∀ s : State, s.atBoundary.note.completed = false)
  ∧ (∀ (b t : State) (h : Half × Option Half), fetchInsn b = .ok h t → t.note.completed = b.note.completed)
  ∧ (∀ (s : State) (c : Cause) (pc next : Word),
    (enter c pc s).note.completed = s.note.completed ∧ (s.retire pc next).note.completed = true)
  ∧ ∀ b0 b1 b2 b3 : Byte,
    fetchedBytes (b0 ++ b1, none) = [b0, b1] ∧ fetchedBytes (b0 ++ b1, some (b2 ++ b3)) = [b0, b1, b2, b3]

/-- R575, R826, R142: a word that is no instruction of the table takes the Reserved instruction exception, and so
does an instruction that names a general register the implementation lacks; the all-zero word does with
INT_MASK.ALZ, and without it loads the byte at x[0] into x[0]. R575 infers that such words are reserved (log
16); what the all-zero word does is in log 17; the registers that exist with MSC_CFG.RDREG are log 7. -/
def Obligations.UndecodedWordsAreReserved : Prop :=
  ∀ (s : State) (h : Half × Option Half),
    let run := execFetched exec (classify s.cfg h) s
    let reserved := Host.Outcome.next (enter .reservedInstruction s.pc s)
    (∀ i rest, decode (fetchedBytes h) = .ok (i, rest) →
      (∃ r ∈ i.regs, s.cfg.rdreg = true ∧ r ∉ s.cfg.reducedRegs.toList) → run = reserved)
    ∧ ∀ r : Reject, decode (fetchedBytes h) = .error r →
      (h ≠ (0#16, some 0#16) → run = reserved)
      ∧ (h = (0#16, some 0#16) → s.cfg.rdreg = true → (0 : Reg) ∉ s.cfg.reducedRegs.toList → run = reserved)
      ∧ (h = (0#16, some 0#16) → s.cfg.baseV2 = true → s.ir.intMask.getLsbD 29 = true → run = reserved)
      ∧ (h = (0#16, some 0#16) → s.ir.intMask.getLsbD 29 = false →
        (s.cfg.rdreg = true → (0 : Reg) ∈ s.cfg.reducedRegs.toList) →
        let x := nonTranslated s (s.cfg.addr (s.x 0))
        transEnabled s .load false = false → s.busOnly → s.ramAt x.pa.toNat 1 →
          run =
            .next ((s.setX 0 ((s.mem.read x.pa.toNat).zeroExtend 32)).retire s.pc (s.cfg.addr (s.pc + 4#32))))

/-- R790, R842, R843, R844, R845, R885: EffGIE is PSW.GIE below the overflow level and 0 at it; a hardware line is
the platform's, or a signal of the core's own that is wired to it. In every step with no reset, at a boundary
with no event of higher priority and interrupts enabled: in IVIC mode the requested and unmasked interrupt of
the smallest number is taken, in EVIC mode the controller's request, at entry 9 + VEP and whatever INT_MASK, the
next instruction's address being saved; with EffGIE 0, or nothing requested, none is. The condition is put
together by D37, and the controller's request is D53 (log 38). -/
def Obligations.InterruptsAreTakenByPriority : Prop :=
  (∀ s : State, s.effGie = true ↔ s.ir.psw.getLsbD 0 = true
    ∧ (s.ir.psw.extractLsb' 1 2).toNat < if s.cfg.intlc then 2 else 3)
  ∧ (∀ (s : State) (n : Fin 6), s.hwIrq.getLsbD n = true ↔ s.env.extIrq.getLsbD n = true
    ∨ (s.cfg.pmIntWire = some n ∧ s.cfg.hasPfm = true
      ∧ ∃ k < 3, s.pfm.pfmCtl.getLsbD (6 + k) = true ∧ s.pfm.pfmCtl.getLsbD (3 + k) = true)
    ∨ (s.cfg.dmaIntWire = some n ∧ s.cfg.hasDma = true
      ∧ (s.dma.ch0.int = true ∨ (s.cfg.dmaTwoChannels = true ∧ s.dma.ch1.int = true))))
  ∧ ∀ s : State, s.goesOn →
    let b := s.atBoundary
    b.stepEvt = false → b.env.nmi = false →
    let takes := fun c : Cause => step s = .next (account b .none (enter c b.pc b))
    let req := fun n : Nat =>
      if n < 6 then b.hwIrq.getLsbD n && b.ir.intMask.getLsbD n else b.ir.swi && b.ir.intMask.getLsbD 16
    (b.ir.ivb.getLsbD 13 = false →
      (∀ n : Fin 6, b.effGie = true → req n = true → (∀ m < n.val, req m = false) → takes (.hardwareInterrupt n))
      ∧ (b.effGie = true → req 6 = true → (∀ m < 6, req m = false) → takes .softwareInterrupt)
      ∧ (b.effGie = false ∨ (∀ m < 7, req m = false) → interruptCause b = none))
    ∧ (b.ir.ivb.getLsbD 13 = true →
      (∀ vep cipl, b.effGie = true → b.env.evicReq = some (vep, cipl) →
        takes (.vectoredInterrupt vep) ∧ (Cause.vectoredInterrupt vep).entry = 9 + vep.toNat)
      ∧ (b.effGie = false ∨ b.env.evicReq = none → interruptCause b = none))

/-- R815, R820, R821, R835, R837, R841, R845, R850: the inputs of a step put the interrupt lines, the controller's
request, the NMI and the imprecise bus report into the state at the boundary, the report pending at the current
level, and change nothing else but the step's note; with no input left the lines hold. In every step with no
reset a pending single-step event is taken first, then NMI, whatever GIE, INT_MASK and the level; each is
consumed. That inputs stand in State as a list is log 5, that an NMI stays until it is taken log 5 and 38; the
sampling of HSS is the choice of D44 (log 37) and the NMI input that of D49 (log 38); the imprecise report is
log 13, and the level it counts as generated at the choice of log 36. -/
def Obligations.SingleStepAndNmiComeFirst : Prop :=
  (∀ s : State,
    (s.env.inputs = [] → sample s = (s.started, none))
    ∧ ∀ i rest, s.env.inputs = i :: rest →
      sample s = ({ s.started with
        env := { extIrq := i.extIrq, evicReq := i.evicReq, nmi := s.env.nmi || i.nmi, inputs := rest }
        pendImp := s.pendImp ++ (match i.impBus with
          | some fetch => [⟨.impreciseBusError fetch, s.level⟩]
          | none => []) }, i.reset))
  ∧ ∀ s : State, s.goesOn →
    let b := s.atBoundary
    (b.stepEvt = true → step s = .next (account b .none (enter .singleStep b.pc { b with stepEvt := false })))
    ∧ (b.stepEvt = false → b.env.nmi = true →
      step s = .next (account b .none (enter .nmi b.pc { b with env := { b.env with nmi := false } })))

/-- R815, R816: the pending imprecise exception taken is one whose generating level is not below the current level;
of those it is the first row of Table 11 (the Data Machine Error before the data bus error, that before the
instruction bus error), the oldest among equals; it alone is removed from the pending ones and nothing else
changes; and one is taken when there is such and no other event of the boundary is there. A step with no reset
enters what its boundary takes. That it is taken at the first boundary is the choice of D46, and which of
several is taken that of log 36. -/
def Obligations.ImpreciseExceptionsRespectTheLevel : Prop :=
  (∀ (s : State), s.stepEvt = false → s.env.nmi = false → interruptCause s = none →
    let row := fun c : Cause =>
      if c = .impreciseBusError true then 48 else if c = .impreciseBusError false then 47 else 43
    (∀ c t, boundary s = some (c, t) →
      ∃ k p, s.pendImp[k]? = some p ∧ p.cause = c ∧ s.level ≤ p.level
        ∧ t = { s with pendImp := s.pendImp.eraseIdx k }
        ∧ ∀ j q, s.pendImp[j]? = some q → s.level ≤ q.level →
            row c ≤ row q.cause ∧ (j < k → row c < row q.cause))
    ∧ (boundary s = none ↔ ∀ p ∈ s.pendImp, p.level < s.level))
  ∧ ∀ (s t : State) (c : Cause), s.goesOn → boundary s.atBoundary = some (c, t) →
    step s = .next (account s.atBoundary .none (enter c s.atBoundary.pc t))

/-- R920 to R924: a reset input replaces the step; whatever state it finds, the machine is then at the reset vector,
at level 1, in superuser mode, with the stated register values and the kind in ITYPE, the local memories, the
High Speed Memory Port, the counters and the DMA engine off and both channels idle, and memory is untouched. The
pc is the choice of D36, HSMP_SADDR.EN = 0 under version 1 too that of D16 (log 54), the flushed TLB that of
D58, ITYPE that of D60, the untouched memory that of log 49. -/
def Obligations.ResetEvent : Prop :=
  ∀ (s : State) (i : EnvInput) (rest : List EnvInput) (kind : ResetKind), s.env.inputs = i :: rest →
    i.reset = some kind →
      ∃ t, step s = .next t
        ∧ t.pc = s.cfg.ivbResetIvbase ++ 0#16
        ∧ t.ir.psw = 0xA#32 ||| (if s.cfg.de then 0x20#32 else 0#32) ||| (if s.cfg.drde then 0x1000#32 else 0#32)
        ∧ t.ir.ivb = s.cfg.ivbResetIvbase ++ 1#2 ++ BitVec.ofBool s.cfg.ivbResetEvic ++ 0#13
        ∧ t.ir.itype = (match kind with | .cold => 0#32 | .warm => 1#32)
        ∧ t.ir.intMask = 0xC0000000#32 ∧ t.ir.swi = false ∧ t.ir.merr = 0#32
        ∧ (∀ p, t.ntm p = if s.cfg.ntme then p else 0#2) ∧ t.mr.mmuCtl.extractLsb' 0 11 = 0#11
        ∧ t.mr.mmuCtl.extractLsb' 19 13 = 0#12 ++ BitVec.ofBool s.cfg.mmuCtlResetDree
        ∧ t.mr.l1Pptb = 1#32 ∧ t.mr.vlptIdx = 0#32 ∧ t.mr.cacheCtl = 0x30#32 ∧ t.ilmOn = false ∧ t.dlmOn = false
        ∧ t.dbm = false ∧ t.dbb = false
        ∧ (readSr t .ilmb).extractLsb' 1 4 = s.cfg.ilmSz ∧ (readSr t .dlmb).extractLsb' 1 4 = s.cfg.dlmSz
        ∧ t.mr.hsmpSaddr.getLsbD 0 = false
        ∧ t.pfm.pfmCtl = 0#32 ∧ t.misc.prusrAccCtl = 0#32 ∧ t.misc.fucopCtl = 0#32 ∧ t.misc.sdzCtl = 0#32
        ∧ t.misc.miscCtl = (if s.cfg.idrExists then
            (let cpuid := s.cfg.cpuVer.extractLsb' 24 8
            if cpuid = 0x0C#8 then 3#32
            else (if cpuid = 0x0A#8 ∧ s.cfg.n1003 = false ∧ s.cfg.idrBtb = true then 1#32 else 0#32)
              ||| (if s.cfg.idrRtp = true then 2#32 else 0#32))
          else 0#32)
        ∧ t.dma.en = false ∧ t.dma.chan = 0#2
        ∧ (∀ n, (t.chan n).stat = .idle ∧ (t.chan n).err = .none ∧ (t.chan n).int = false ∧ (t.chan n).setup = 0#32)
        ∧ (∀ k, (t.tlb.read k).v = false ∧ (t.tlb.read k).l = false) ∧ t.itlb = []
        ∧ t.pendImp = [] ∧ t.stepEvt = false ∧ t.env.nmi = false
        ∧ t.mem = s.mem ∧ t.cfg = s.cfg

/-- R922's worked example: the values after a cold reset in the default instantiation. The default instantiation is
the choice of D1 (log 2), the pc that of D36 (log 50). -/
def Obligations.ResetValues : Prop :=
  let s := State.reset
  s.pc = 0#32 ∧ s.ir.psw = 0xA#32 ∧ s.ir.ivb = 0x4000#32 ∧ s.ir.intMask = 0xC0000000#32 ∧ s.ir.swi = false
    ∧ s.ir.itype = 0#32 ∧ s.mr.mmuCtl = 0x72000#32 ∧ s.mr.l1Pptb = 1#32 ∧ s.mr.cacheCtl = 0x30#32
    ∧ s.mr.vlptIdx = 0#32 ∧ s.pfm.pfmCtl = 0#32 ∧ s.misc.fucopCtl = 0#32 ∧ s.misc.prusrAccCtl = 0#32
    ∧ s.dma.en = false ∧ s.level = 1#2 ∧ s.superuser = true

/-! ## The DMA engine and the performance monitor -/

/-- R704 to R708, R710, R720, R722: MTSR to DMA_ACT while the engine is enabled is a command to the selected
channel, and completes in each mode that may access the register; DMA_GCSW.EN and DMA_CHNSEL keep their values.
Start of an idle channel (or one in Stop/Error with DERR alone) enters Run, or Pended while the other is in Run,
when every check passes and elements are to be moved, its registers kept and its working values taken from them
(the elements left in the row are STWECNT, R720, or of a 2-D transfer STWECNT + 1 by DMA_WECNT_MINUS1, R730); a
failed check leaves it in Stop/Error with the flags and its interrupt by EIE; a count of 0 completes at once; in
any other state Start has no effect. Stop of a pended channel leaves it in Stop/Error, with its interrupt by
SIE, and another one that is not in Run as it is. Stop of a running one moves some further elements, at most
those that remain, and nothing else in memory; if the channel is then still in Run it goes to Stop/Error with
the restart values in its registers (R722) and its interrupt by SIE, and a pended other channel enters Run with
its working values. Reset puts it in Idle, and a pended other channel enters Run where it was in Run. Offsets go
round at the size of the local memory, half the DLM in double-buffer mode (R710). A count of 0 completes by the
choice of D10 (log 41); the number of further elements is free (U22) and STWECNT of a 2-D transfer under
DMA_WECNT_MINUS1 a parameter (log 42); the refusal for an absent local memory is log 43, the stop on an
undefined HSMP range log 45. -/
def Obligations.DmaStart : Prop :=
  (∀ (s : State) (ra : Reg), srAccessAllowed s 0x298#10 = true → s.cfg.hasDma = true → s.dma.en = true →
    let i := s.selected
    let c := s.chan i
    let acmd := (s.x ra).extractLsb' 0 2
    let run := exec (.mtsr ra 0x298#10) s
    let goes := fun t : State => run = .next (t.retire s.pc (s.cfg.addr (s.pc + 4#32)))
    let size := 2 ^ (c.setup.extractLsb' 2 2).toNat
    let two := s.cfg.dma2det = true ∧ c.setup.getLsbD 20 = true
    let twoOf := fun d : DmaChan => s.cfg.dma2det && d.setup.getLsbD 20
    let uea := s.cfg.dmaUnea = true ∧ c.setup.getLsbD 19 = true
    let stuna := ¬uea ∧ ((c.setup.extractLsb' 4 12).toNat % size ≠ 0 ∨ (two ∧ c.htstr.toNat % size ≠ 0))
    let euna := ¬uea ∧ c.esaddr.toNat % size ≠ 0
    let iuna := c.isaddr.toNat % size ≠ 0
    let esup := two ∧ (c.wecnt = 0#16 ∨ c.stwecnt = 0#16)
    let bad := stuna ∨ euna ∨ iuna ∨ esup
    let startable := c.stat = .idle ∨ (c.stat = .stopError ∧ c.err.stuna = false ∧ c.err.euna = false
      ∧ c.err.iuna = false ∧ c.err.ioor = false ∧ c.err.ebus = false ∧ c.err.esup = false)
    (acmd = 0#2 → goes s)
      ∧ (acmd = 1#2 → startable → bad →
        ∃ e : DmaErr, goes (s.setChan i { c with err := e, stat := .stopError, int := c.setup.getLsbD 18 })
          ∧ (e.stuna = true ↔ stuna) ∧ (e.euna = true ↔ euna) ∧ (e.iuna = true ↔ iuna) ∧ (e.esup = true ↔ esup)
          ∧ e.derr = false ∧ e.ioor = false ∧ e.ebus = false)
      ∧ (acmd = 1#2 → startable → ¬bad → c.tcnt = 0#18 →
        goes (s.setChan i { c with
          err := { c.err with derr := false }, stat := .complete, int := c.setup.getLsbD 16 }))
      ∧ (acmd = 1#2 → startable → ¬bad → c.tcnt ≠ 0#18 → dmaLmPresent s c = true →
        ∃ t : State, goes t
          ∧ (t.chan i).stat = (if (s.chan !i).stat = .run then .pended else .run)
          ∧ (t.chan i).int = false ∧ (t.chan i).err = { c.err with derr := false }
          ∧ (t.chan i).setup = c.setup ∧ (t.chan i).isaddr = c.isaddr ∧ (t.chan i).esaddr = c.esaddr
          ∧ (t.chan i).tcnt = c.tcnt ∧ (t.chan i).wecnt = c.wecnt ∧ (t.chan i).htstr = c.htstr
          ∧ (t.chan i).stwecnt = c.stwecnt
          ∧ ((s.chan !i).stat ≠ .run → (t.chan i).wExtAddr = c.esaddr ∧ (t.chan i).wCount = c.tcnt.toNat
            ∧ (t.chan i).wIntOff = c.isaddr.toNat % dmaLimit s c
            ∧ (t.chan i).wRow = if twoOf c && s.cfg.dmaWecntMinus1 then c.stwecnt.toNat + 1 else c.stwecnt.toNat)
          ∧ t.dma.en = true ∧ t.dma.chan = s.dma.chan
          ∧ t.chan (!i) = s.chan (!i) ∧ t = { s with dma := t.dma })
      ∧ (acmd = 1#2 → startable → ¬bad → c.tcnt ≠ 0#18 → dmaLmPresent s c = false →
        run = .refused .dmaAbsentLocalMemory)
      ∧ (acmd = 1#2 → ¬startable → goes s)
      ∧ (acmd = 2#2 → c.stat = .pended →
        goes (s.setChan i { c with stat := .stopError, int := c.int || c.setup.getLsbD 17 }))
      ∧ (acmd = 2#2 → c.stat = .run →
        (s.hsmpBroken = true ∧ run = .fault .hsmpRangePattern) ∨ ∃ (n : Nat) (f : Nat → State) (t : State), goes t
          ∧ f 0 = s.drawn ∧ n ≤ c.wCount
          ∧ (∀ k < n, ((f k).chan i).stat = .run ∧ f (k + 1) = element (f k) i)
          ∧ (let u := f n
            let d := u.chan i
            let o := u.chan !i
            let w := if twoOf d && s.cfg.dmaWecntMinus1 && s.cfg.dmaRestartMinus1 then d.wRow - 1 else d.wRow
            (d.stat ≠ .run → t = u)
            ∧ (d.stat = .run →
              t.chan i = { d with
                isaddr := BitVec.ofNat 20 d.wIntOff
                esaddr := d.wExtAddr
                tcnt := BitVec.ofNat 18 d.wCount
                stwecnt := BitVec.ofNat 16 w
                stat := .stopError
                int := d.int || d.setup.getLsbD 17 }
              ∧ (o.stat = .pended → t.chan (!i) = { o with
                  stat := .run
                  wIntOff := o.isaddr.toNat % dmaLimit u o
                  wExtAddr := o.esaddr
                  wCount := o.tcnt.toNat
                  wRow := if twoOf o && s.cfg.dmaWecntMinus1 then o.stwecnt.toNat + 1 else o.stwecnt.toNat })
              ∧ (o.stat ≠ .pended → t.chan (!i) = o)
              ∧ t = { u with dma := t.dma }))
          ∧ ((t.chan i).stat = .stopError ∨ (t.chan i).stat = .complete)
          ∧ t.dma.en = true ∧ t.dma.chan = s.dma.chan
          ∧ t = { s with
              dma := t.dma
              mem := t.mem
              ilm := t.ilm
              dlm := t.dlm
              devLog := t.devLog
              draws := t.draws })
      ∧ (acmd = 2#2 → c.stat ≠ .run → c.stat ≠ .pended → goes s)
      ∧ (acmd = 3#2 →
        ∃ t : State, goes t ∧ t.chan i = { c with stat := .idle, err := .none, int := false }
          ∧ (let o := s.chan !i
            c.stat = .run → o.stat = .pended → t.chan (!i) = { o with
              stat := .run
              wIntOff := o.isaddr.toNat % dmaLimit s o
              wExtAddr := o.esaddr
              wCount := o.tcnt.toNat
              wRow := if twoOf o && s.cfg.dmaWecntMinus1 then o.stwecnt.toNat + 1 else o.stwecnt.toNat })
          ∧ (¬(c.stat = .run ∧ (s.chan !i).stat = .pended) → t.chan (!i) = s.chan (!i))
          ∧ t.dma.en = true ∧ t.dma.chan = s.dma.chan
          ∧ t = { s with dma := t.dma }))
  ∧ ∀ (s : State) (c : DmaChan),
    let dlm := c.setup.getLsbD 0
    let size := if dlm then s.cfg.dlmSize else s.cfg.ilmSize
    dmaLimit s c = (if dlm && s.dbm then size / 2 else size)
      ∧ (dmaLmPresent s c = true ↔ (if dlm then s.cfg.dlmExists else s.cfg.ilmExists) = true ∧ size ≠ 0)

/-- R278, R701, R710, R720, R722, R723, R730: one element that memory serves. Outward its bytes are stored at the
external address, going round at 2^32, inward at the offset of the local memory (in the engine's bank of the
DLM); every other byte is as before. With more to come and the next offset inside the local memory the channel's
working values advance by one element; past the end of the local memory it is in Stop/Error with IOOR, and its
interrupt by EIE; an element with a byte that the platform does not serve is refused: Stop/Error with EBUS, and
its interrupt by EIE; the last element makes it Complete, with its interrupt by CIE. A channel that leaves Run
has its restart values, of R722, in its registers: STWECNT at Complete under DMA_2DET is free (U25), and after a
2-D transfer under DMA_WECNT_MINUS1 what is written back to it is w, as R722 prints it, or w - 1 by the
parameter dmaRestartMinus1 (log 42). The other channel then enters Run, with its working values, if it is
Pended, and else is unchanged; DMA_GCSW.EN and DMA_CHNSEL keep their values throughout. A write to a set-up
register of a channel in Run or Pended is discarded: Stop/Error with DERR, and its interrupt by EIE. Between the
inputs of a step and its boundary the engine moves a finite number of elements, each of the channel then in Run,
and changes nothing else; over a bus with an undefined HSMP range it moves none or the step stops. How many is
free (R720, log 41), the stop is that of log 45. The engine's half of the DLM is an inference that R530 marks as
derived (log 47). The unsigned stride is the choice of D20, the transition of DERR that of D41, and the rule of
the range error that of D42 (log 41). -/
def Obligations.DmaElementOutward : Prop :=
  (∀ (s : State) (i : Bool), let c := s.chan i
    let size := 2 ^ (c.setup.extractLsb' 2 2).toNat
    let two := s.cfg.dma2det = true ∧ c.setup.getLsbD 20 = true
    let row := fun v : BitVec 16 => if s.cfg.dmaWecntMinus1 then v.toNat + 1 else v.toNat
    let stride := if two ∧ c.wRow ≤ 1 then c.htstr.toNat else (c.setup.extractLsb' 4 12).toNat
    let back := fun w : Nat =>
      BitVec.ofNat 16 (if two ∧ s.cfg.dmaWecntMinus1 = true ∧ s.cfg.dmaRestartMinus1 = true then w - 1 else w)
    let c' : DmaChan := { c with
      wIntOff := c.wIntOff + size
      wExtAddr := c.wExtAddr + BitVec.ofNat 32 stride
      wCount := c.wCount - 1
      wRow := if two then (if c.wRow ≤ 1 then row c.wecnt else c.wRow - 1) else c.wRow }
    let toDlm := c.setup.getLsbD 0
    let outward := c.setup.getLsbD 1
    let bank := if s.dbm && !s.dbb then s.cfg.dlmSize / 2 else 0
    let off := (if toDlm then bank else 0) + c.wIntOff
    let lm := fun k : Nat => if toDlm then s.dlm.read k else s.ilm.read k
    let ext := fun k : Nat => (k + (4294967296 - c.wExtAddr.toNat)) % 4294967296
    let byte := fun j : Nat => s.mem.read ((c.wExtAddr.toNat + j) % 4294967296)
    let t := element s i
    let o := s.chan !i
    let left := (o.stat = .pended → t.chan (!i) = { o with
        stat := .run
        wIntOff := o.isaddr.toNat % dmaLimit s o
        wExtAddr := o.esaddr
        wCount := o.tcnt.toNat
        wRow := if s.cfg.dma2det && o.setup.getLsbD 20 then row o.stwecnt else o.stwecnt.toNat })
      ∧ (o.stat ≠ .pended → t.chan (!i) = o)
    t = { s with mem := t.mem, ilm := t.ilm, dlm := t.dlm, dma := t.dma, devLog := t.devLog, draws := t.draws }
    ∧ t.dma.en = s.dma.en ∧ t.dma.chan = s.dma.chan ∧ t.dma.nextSeq = s.dma.nextSeq
    ∧ ((∃ j < size, s.cfg.regionOf ((c.wExtAddr.toNat + j) % 4294967296) = .unserved) →
      (t.chan i).stat = .stopError ∧ (t.chan i).err = { c.err with ebus := true }
        ∧ (t.chan i).int = (c.int || c.setup.getLsbD 18) ∧ (t.chan i).esaddr = c.wExtAddr
        ∧ (t.chan i).isaddr = BitVec.ofNat 20 c.wIntOff ∧ (t.chan i).tcnt = BitVec.ofNat 18 c.wCount
        ∧ (t.chan i).stwecnt = back c.wRow ∧ (t.chan i).setup = c.setup ∧ (t.chan i).wecnt = c.wecnt
        ∧ (t.chan i).htstr = c.htstr ∧ left)
    ∧ (s.memoryOk → s.ramAt c.wExtAddr.toNat size → c.wIntOff + size ≤ dmaLimit s c →
      (outward = true →
        (∀ k, t.mem.read k =
          if k < 4294967296 ∧ ext k < size then lm (off + ext k) else s.mem.read k)
        ∧ t.ilm = s.ilm ∧ t.dlm = s.dlm)
      ∧ (outward = false → c.wCount ≤ 1 ∨ c.wIntOff + size < dmaLimit s c → t.mem = s.mem ∧
        (if toDlm then
          t.ilm = s.ilm
            ∧ ∀ k, t.dlm.read k = if off ≤ k ∧ k < off + size then byte (k - off) else s.dlm.read k
        else
          t.dlm = s.dlm
            ∧ ∀ k, t.ilm.read k = if off ≤ k ∧ k < off + size then byte (k - off) else s.ilm.read k))
      ∧ (1 < c.wCount → c.wIntOff + size < dmaLimit s c →
        t.chan i = c' ∧ t.chan (!i) = s.chan (!i)
          ∧ t = { s with mem := t.mem, ilm := t.ilm, dlm := t.dlm, dma := t.dma })
      ∧ (1 < c.wCount → c.wIntOff + size = dmaLimit s c →
        (t.chan i).stat = .stopError ∧ (t.chan i).err = { c.err with ioor := true }
          ∧ (t.chan i).int = (c.int || c.setup.getLsbD 18) ∧ (t.chan i).esaddr = c'.wExtAddr
          ∧ (t.chan i).isaddr = BitVec.ofNat 20 c'.wIntOff ∧ (t.chan i).tcnt = BitVec.ofNat 18 c'.wCount
          ∧ (t.chan i).stwecnt = back c'.wRow ∧ (t.chan i).setup = c.setup ∧ (t.chan i).wecnt = c.wecnt
          ∧ (t.chan i).htstr = c.htstr ∧ left)
      ∧ (c.wCount = 1 →
        (t.chan i).stat = .complete ∧ (t.chan i).err = c.err ∧ (t.chan i).int = (c.int || c.setup.getLsbD 16)
          ∧ (t.chan i).tcnt = 0#18 ∧ (t.chan i).esaddr = c'.wExtAddr
          ∧ (t.chan i).isaddr = BitVec.ofNat 20 c'.wIntOff
          ∧ (s.cfg.dma2det = false → (t.chan i).stwecnt = back c'.wRow)
          ∧ (t.chan i).setup = c.setup ∧ (t.chan i).wecnt = c.wecnt ∧ (t.chan i).htstr = c.htstr ∧ left
          ∧ t = { s with mem := t.mem, ilm := t.ilm, dlm := t.dlm, dma := t.dma, draws := t.draws })))
  ∧ (∀ s : State, (sample s).2 = none →
    let u := (sample s).1
    let b := s.atBoundary
    (u.running = none → b = u)
    ∧ (∀ i, u.running = some i →
      (∃ (n : Nat) (f : Nat → State), f 0 = u.drawn ∧ b = f n
        ∧ ∀ k < n, ∃ j, (f k).running = some j ∧ f (k + 1) = element (f k) j)
      ∧ b = { u with mem := b.mem, ilm := b.ilm, dlm := b.dlm, dma := b.dma, devLog := b.devLog, draws := b.draws }
      ∧ (u.hsmpBroken = true → step s = .fault .hsmpRangePattern ∨ b = u.drawn)))
  ∧ ∀ (s : State) (ra : Reg) (idx : BitVec 10) (r : Sr), srAccessAllowed s idx = true → srOf idx = some r →
    srExists s.cfg r = true →
    (r = .dmaSetup ∧ ((s.x ra).extractLsb' 2 2 = 3#2 → s.cfg.dmaTes8 = true) ∧ (s.x ra).extractLsb' 21 3 ≠ 3#3
      ∨ r = .dmaIsaddr ∨ r = .dmaEsaddr ∨ r = .dmaTcnt ∨ r = .dma2dset ∨ r = .dma2dsctl) →
      let i := s.selected
      let c := s.chan i
      let o := s.chan !i
      let twoOf := fun d : DmaChan => s.cfg.dma2det && d.setup.getLsbD 20
      c.stat = .run ∨ c.stat = .pended →
        ∃ t : State, exec (.mtsr ra idx) s = .next (t.retire s.pc (s.cfg.addr (s.pc + 4#32)))
          ∧ (t.chan i).stat = .stopError ∧ (t.chan i).err = { c.err with derr := true }
          ∧ (t.chan i).int = (c.int || c.setup.getLsbD 18)
          ∧ (t.chan i).setup = c.setup ∧ (t.chan i).wecnt = c.wecnt ∧ (t.chan i).htstr = c.htstr
          ∧ (c.stat = .run → (t.chan i).esaddr = c.wExtAddr ∧ (t.chan i).tcnt = BitVec.ofNat 18 c.wCount
            ∧ (t.chan i).isaddr = BitVec.ofNat 20 c.wIntOff
            ∧ (t.chan i).stwecnt = BitVec.ofNat 16
              (if twoOf c && s.cfg.dmaWecntMinus1 && s.cfg.dmaRestartMinus1 then c.wRow - 1 else c.wRow)
            ∧ (o.stat = .pended → t.chan (!i) = { o with
                stat := .run
                wIntOff := o.isaddr.toNat % dmaLimit s o
                wExtAddr := o.esaddr
                wCount := o.tcnt.toNat
                wRow := if twoOf o && s.cfg.dmaWecntMinus1 then o.stwecnt.toNat + 1 else o.stwecnt.toNat })
            ∧ (o.stat ≠ .pended → t.chan (!i) = o))
          ∧ (c.stat = .pended → t.chan i = { c with
              stat := .stopError, err := { c.err with derr := true }, int := c.int || c.setup.getLsbD 18 }
            ∧ t.chan (!i) = o)
          ∧ t.dma.en = s.dma.en ∧ t.dma.chan = s.dma.chan ∧ t.dma.nextSeq = s.dma.nextSeq
          ∧ t = { s with dma := t.dma }

/-- R272, R704: while DMA_GCSW.EN is 0 a command has no effect, and writing EN = 0 puts both channels in Idle with
no error and no interrupt; these MTSR complete where the access is allowed, in user mode too. That the other
registers of a channel, its working values and DMA_CHNSEL keep their values is the model's choice (log 41). -/
def Obligations.DmaDisabled : Prop :=
  ∀ (s : State) (ra : Reg), s.cfg.hasDma = true →
    let next := s.cfg.addr (s.pc + 4#32)
    (srAccessAllowed s 0x298#10 = true → s.dma.en = false → exec (.mtsr ra 0x298#10) s = .next (s.retire s.pc next))
      ∧ (srAccessAllowed s 0x288#10 = true → (s.x ra).getLsbD 31 = false →
        ∃ t, exec (.mtsr ra 0x288#10) s = .next t ∧ t.dma.en = false
          ∧ (∀ i, t.chan i = { s.chan i with stat := .idle, err := .none, int := false })
          ∧ t.dma.chan = s.dma.chan ∧ t.dma.nextSeq = s.dma.nextSeq
          ∧ t = { s with
              dma := t.dma
              pc := next
              prevPc := s.pc
              note := { s.note with completed := true } })

/-- R256, R257, R262, R881, R882: the three counters: each advances, modulo 2^32, by the number of times its event
occurred in the step, exactly when it is enabled and its filters allow the mode the step started in, and then
sets its overflow bit on a wrap, which stays set. Counter 0 counts completed instructions with SEL0 = 1; of
Table 27 the events that follow from the instructions are counted exactly; every other event, cycles among them,
is some count. The bit places of PFM_CTL, what is counted as completed and which events occur 0 times are
inferences and choices (log 40). -/
def Obligations.CounterZeroCountsInstructions : Prop :=
  ∀ (s t : State) (w : Work), s.cfg.hasPfm = true →
    let ctl := t.pfm.pfmCtl
    let u := account s w t
    let pom := s.ir.psw.extractLsb' 3 2
    let on := fun i : Nat =>
      ctl.getLsbD i && !(pom == 1#2 && ctl.getLsbD (9 + i)) && !(pom == 0#2 && ctl.getLsbD (12 + i))
    let counted := fun (i n : Nat) (old new : Word) =>
      new = (if on i then old + BitVec.ofNat 32 n else old)
        ∧ u.pfm.pfmCtl.getLsbD (6 + i) = (ctl.getLsbD (6 + i) || (on i && decide (2 ^ 32 ≤ old.toNat + n)))
    let done := t.note.completed = true
    let once := fun (n : Nat) (p : Prop) => n ≤ 1 ∧ (n = 1 ↔ done ∧ p)
    ∃ n0 n1 n2 : Nat,
      counted 0 n0 t.pfm.pfmc0 u.pfm.pfmc0 ∧ counted 1 n1 t.pfm.pfmc1 u.pfm.pfmc1
        ∧ counted 2 n2 t.pfm.pfmc2 u.pfm.pfmc2
        ∧ (ctl.getLsbD 15 = true → once n0 True)
        ∧ (let sel := (ctl.extractLsb' 16 6).toNat
          (sel = 1 → once n1 True)
            ∧ (sel = 2 → once n1 (∃ rt i, w = .insn (.beqz rt i) ∨ w = .insn (.bnez rt i)))
            ∧ (sel = 3 → once n1 (∃ rt i, (w = .insn (.beqz rt i) ∧ s.x rt = 0#32)
                ∨ (w = .insn (.bnez rt i) ∧ s.x rt ≠ 0#32)))
            ∧ (sel = 10 → once n1 (w = .insn .isb ∨ w = .insn .dsb))
            ∧ (sel = 11 → once n1 (∃ ra, w = .insn (.cctlL1dVaWb ra)))
            ∧ (sel = 12 → n1 = t.note.interrupts)
            ∧ (sel = 13 → once n1 (∃ rt ra i, w = .insn (.lwi rt ra i) ∨ w = .insn (.lwVlpt rt ra i) ∨ w = .zeroWord))
            ∧ (sel = 24 → n1 = t.note.ilm)
            ∧ (4 ≤ sel ∧ sel ≤ 9 ∨ sel = 29 → n1 = 0))
        ∧ (let sel := (ctl.extractLsb' 22 6).toNat
          (sel = 6 → once n2 (∃ i, w = .insn (.j i)))
            ∧ (sel = 7 → n2 = 0)
            ∧ (sel = 8 → once n2 (∃ n, w = .insn (.break16 n)))
            ∧ (sel = 12 → n2 = t.note.exceptions)
            ∧ (sel = 13 → once n2 (∃ rt ra i, w = .insn (.swi rt ra i)))
            ∧ (sel = 24 → n2 = t.note.dlm))
        ∧ (∀ i, i < 6 ∨ 9 ≤ i → u.pfm.pfmCtl.getLsbD i = ctl.getLsbD i)
        ∧ u = { t with pfm := u.pfm, draws := u.draws }

/-! ## Encoding -/

/-- R570, R580 to R586: decoding the bytes of a well-formed instruction, whatever follows them, gives the
instruction back with every operand. The encodings are general knowledge in the spec (log 16). -/
def Obligations.DecodeOfEncode : Prop :=
  ∀ (i : Instr) (rest : List Byte), WellFormed i = true → decode (encode i ++ rest) = .ok (i, rest)

/-- R580 to R586: bytes that decode to an instruction are exactly the bytes that encode it: no two words mean the
same instruction and no ignored bit is accepted. The encodings are general knowledge in the spec, and refusing
set ignored bits is the choice of log 16. -/
def Obligations.EncodeOfDecode : Prop :=
  ∀ (bytes rest : List Byte) (i : Instr), decode bytes = .ok (i, rest) → bytes = encode i ++ rest ∧ WellFormed i = true

/-- R587: worked encodings of the spec decode to their instructions. The encodings are general knowledge in the spec
(log 16). -/
def Obligations.WorkedEncodings : Prop :=
  decodeTableWord 32 0x641A2003 = some (.mtsr 1 0x288#10)
    ∧ decodeTableWord 32 0x641B0002 = some (.mfsr 1 0x2C0#10)
    ∧ decodeTableWord 32 0x6401804E = some (.tlbopRwr 3)
    ∧ decodeTableWord 32 0x644180AE = some (.tlbopPb 4 3)
    ∧ decodeTableWord 32 0x640000AB = some (.syscall 5#15)
    ∧ decodeTableWord 16 0xEA03 = some (.break16 3#9)

/-! ## Invariants -/

/-- The reset state of every configuration and kind of reset has every invariant of Safety.lean (log 3 names the
registers' values that the spec leaves open). -/
def Obligations.ResetHasTheInvariants : Prop :=
  ∀ (c : Config) (kind : ResetKind), let s := State.resetOf c kind
    s.memoryOk ∧ s.modesOk ∧ s.interruptionReservedOk ∧ s.mmuReservedOk ∧ s.tlbOk ∧ s.dmaOk

/-- R46 to R54, R50, R406: every step keeps memory, the ILM and the DLM in canonical form and the TLB a list of
entries that exist, each number once; no step changes a configuration register. The canonical form is the
model's own (log 4). -/
def Obligations.StepKeepsStoredForms : Prop :=
  ∀ s t : State, step s = .next t → (s.memoryOk → t.memoryOk) ∧ (s.tlbOk → t.tlbOk) ∧ t.cfg = s.cfg

/-- R22, R104, R794: in every step PSW, IPSW and P_IPSW keep a legal mode and a legal level, and the reserved fields
of the registers of majors 1 and 2 stay 0. That a reserved field holds 0 always is the model's choice (log 29). -/
def Obligations.StepKeepsRegistersLegal : Prop :=
  ∀ s t : State, step s = .next t →
    (s.modesOk → t.modesOk) ∧ (s.interruptionReservedOk → t.interruptionReservedOk)
      ∧ (s.mmuReservedOk → t.mmuReservedOk)

/-- R272, R701: every step keeps the DMA channels in order: at most one in Run, a pended one waiting for it, both
Idle while the engine is disabled. The transitions are completed by D41 (log 41). -/
def Obligations.StepKeepsDmaChannelsInOrder : Prop :=
  ∀ s t : State, s.dmaOk → step s = .next t → t.dmaOk

end
end

