-- ==== Sys2Proof/Laws/Bits.lean ====
section
/-! SUPPORT. Bit fields, bit by bit, and the byte orders. -/

namespace Sys2Proof.Machine

@[simp] theorem getLsbD_field {w : Nat} (v : BitVec w) (lo n i : Nat) :
    (field v lo n).getLsbD i = (decide (i < n) && v.getLsbD (lo + i)) := by
  simp [field]

theorem bit_eq {w : Nat} (v : BitVec w) (i : Nat) : bit v i = v.getLsbD i := rfl

@[simp] theorem getLsbD_bitAt (i j : Nat) (b : Bool) :
    (bitAt i b).getLsbD j = (b && decide (i = j) && decide (j < 32)) := by
  unfold bitAt
  cases b
  · simp
  · by_cases h : j < 32
    · by_cases h' : i = j
      · subst h'; simp [h]
      · simp only [if_true, BitVec.getLsbD_shiftLeft, BitVec.getLsbD_one, h, h', decide_true, decide_false,
          Bool.true_and, Bool.and_true]
        have : ¬(i ≤ j ∧ j - i = 0) := by omega
        by_cases h2 : j < i
        · simp [h2]
        · have : j - i ≠ 0 := by omega
          simp [this]
    · simp [h]

@[simp] theorem getLsbD_fieldAt (lo : Nat) {n : Nat} (x : BitVec n) (j : Nat) :
    (fieldAt lo x).getLsbD j = (decide (j < 32) && decide (lo ≤ j) && x.getLsbD (j - lo)) := by
  unfold fieldAt
  by_cases h : j < 32
  · have : j - lo < 32 := by omega
    by_cases h2 : lo ≤ j
    · have : ¬ j < lo := by omega
      simp [h, h2, this]
    · have : j < lo := by omega
      simp [h2, this]
  · simp [h]

@[simp] theorem getLsbD_fieldMask (lo n j : Nat) :
    (fieldMask lo n).getLsbD j = (decide (j < 32) && decide (lo ≤ j) && decide (j < lo + n)) := by
  unfold fieldMask
  by_cases h : j < 32
  · by_cases h2 : lo ≤ j
    · have h3 : ¬ j < lo := by omega
      have h4 : (decide (j - lo < n)) = decide (j < lo + n) := by
        rw [decide_eq_decide]; omega
      simp [h, h2, h3, h4]
    · have : j < lo := by omega
      simp [h2, this]
  · simp [h]

/-- A field replaced, bit by bit. -/
@[simp] theorem getLsbD_setField (v : Word) (lo : Nat) {n : Nat} (x : BitVec n) (j : Nat) :
    (setField v lo x).getLsbD j =
      if lo ≤ j ∧ j < lo + n ∧ j < 32 then x.getLsbD (j - lo) else v.getLsbD j := by
  have hx : ((x.setWidth 32 <<< lo : Word)).getLsbD j = (fieldAt lo x).getLsbD j := rfl
  unfold setField
  rw [BitVec.getLsbD_or, BitVec.getLsbD_and, BitVec.getLsbD_not, getLsbD_fieldMask, hx, getLsbD_fieldAt]
  by_cases h : j < 32
  · by_cases h2 : lo ≤ j
    · by_cases h3 : j < lo + n
      · simp [h, h2, h3]
      · have : x.getLsbD (j - lo) = false := BitVec.getLsbD_of_ge _ _ (by omega)
        simp [h, h3, this]
    · simp [h, h2]
  · have : v.getLsbD j = false := BitVec.getLsbD_of_ge _ _ (by omega)
    simp [h, this]

/-- A bit replaced, bit by bit. -/
@[simp] theorem getLsbD_setBit (v : Word) (i : Nat) (b : Bool) (j : Nat) :
    (setBit v i b).getLsbD j = if j = i ∧ j < 32 then b else v.getLsbD j := by
  unfold setBit
  rw [getLsbD_setField]
  by_cases h : j = i ∧ j < 32
  · have : i ≤ j ∧ j < i + 1 ∧ j < 32 := by omega
    rw [if_pos h, if_pos this, show j - i = 0 by omega]
    simp
  · have : ¬(i ≤ j ∧ j < i + 1 ∧ j < 32) := by omega
    rw [if_neg h, if_neg this]

/-! The same for an index in range, the form `simp` gives a bit. -/

@[simp] theorem getElem_field {w : Nat} (v : BitVec w) (lo n i : Nat) (h : i < n) :
    (field v lo n)[i] = v.getLsbD (lo + i) := by
  rw [← BitVec.getLsbD_eq_getElem, getLsbD_field]; simp [h]

@[simp] theorem getElem_bitAt (i j : Nat) (b : Bool) (h : j < 32) : (bitAt i b)[j] = (b && decide (i = j)) := by
  rw [← BitVec.getLsbD_eq_getElem, getLsbD_bitAt]; simp [h]

@[simp] theorem getElem_fieldAt (lo : Nat) {n : Nat} (x : BitVec n) (j : Nat) (h : j < 32) :
    (fieldAt lo x)[j] = (decide (lo ≤ j) && x.getLsbD (j - lo)) := by
  rw [← BitVec.getLsbD_eq_getElem, getLsbD_fieldAt]; simp [h]

@[simp] theorem getElem_setField (v : Word) (lo : Nat) {n : Nat} (x : BitVec n) (j : Nat) (h : j < 32) :
    (setField v lo x)[j] = if lo ≤ j ∧ j < lo + n then x.getLsbD (j - lo) else v[j] := by
  rw [← BitVec.getLsbD_eq_getElem, getLsbD_setField]; simp [h]

@[simp] theorem getElem_setBit (v : Word) (i : Nat) (b : Bool) (j : Nat) (h : j < 32) :
    (setBit v i b)[j] = if j = i then b else v[j] := by
  rw [← BitVec.getLsbD_eq_getElem, getLsbD_setBit]; simp [h]

/-- `within`, bit by bit. -/
theorem within_iff (mask v : Word) :
    within mask v ↔ ∀ i < 32, v.getLsbD i = true → mask.getLsbD i = true := by
  unfold within
  constructor
  · intro h i hi hv
    have := congrArg (BitVec.getLsbD · i) h
    simpa [hi, hv] using this
  · intro h
    refine BitVec.eq_of_getLsbD_eq fun i hi => ?_
    have h' := h i hi
    rw [BitVec.getLsbD_and, BitVec.getLsbD_not]
    revert h'
    cases v.getLsbD i <;> cases mask.getLsbD i <;> simp

/-- A masked word is within the mask. -/
theorem within_and (mask v : Word) : within mask (v &&& mask) := by
  rw [within_iff]
  intro i _ h
  rw [BitVec.getLsbD_and, Bool.and_eq_true] at h
  exact h.2

theorem within_zero (mask : Word) : within mask 0#32 := by simp [within]

theorem within_or {mask v w : Word} (hv : within mask v) (hw : within mask w) : within mask (v ||| w) := by
  rw [within_iff] at *
  intro i hi h
  rw [BitVec.getLsbD_or, Bool.or_eq_true] at h
  rcases h with h | h
  · exact hv i hi h
  · exact hw i hi h

theorem within_mono {mask mask' v : Word} (h : within mask v) (hm : within mask' mask) : within mask' v := by
  rw [within_iff] at *
  exact fun i hi hv => hm i hi (h i hi hv)

/-- Four bytes in big-endian order. -/
theorem assemble_big (b0 b1 b2 b3 : Byte) : assemble true [b0, b1, b2, b3] = b0 ++ b1 ++ b2 ++ b3 := by
  refine BitVec.eq_of_getLsbD_eq fun i hi => ?_
  simp only [assemble, fromBytesBE, List.foldl_cons, List.foldl_nil, if_true, BitVec.getLsbD_or,
    BitVec.getLsbD_shiftLeft, BitVec.getLsbD_setWidth, BitVec.getLsbD_append]
  interval_cases i <;> simp

/-- Four bytes in little-endian order. -/
theorem assemble_little (b0 b1 b2 b3 : Byte) : assemble false [b0, b1, b2, b3] = b3 ++ b2 ++ b1 ++ b0 :=
  assemble_big b3 b2 b1 b0

/-- A word written and assembled again in the same byte order is that word. -/
theorem assemble_disassemble (big : Bool) (v : Word) : assemble big (disassemble big v) = v := by
  have h : assemble true (wordBytes v) = v := by
    rw [wordBytes, assemble_big]
    refine BitVec.eq_of_getLsbD_eq fun i hi => ?_
    simp only [BitVec.getLsbD_append, getLsbD_field]
    interval_cases i <;> simp
  cases big
  · simpa [assemble, disassemble] using h
  · exact h

@[simp] theorem disassemble_length (big : Bool) (v : Word) : (disassemble big v).length = 4 := by
  cases big <;> rfl

/-- Each byte of a stored word (R362). -/
theorem getD_disassemble (big : Bool) (v : Word) {i : Nat} (h : i < 4) :
    (disassemble big v).getD i 0#8 = byteOf big v i := by
  obtain rfl | rfl | rfl | rfl : i = 0 ∨ i = 1 ∨ i = 2 ∨ i = 3 := by omega
  all_goals cases big <;> rfl

/-- A word is a multiple of 4 when its two low bits are 0. -/
theorem mod4_iff (v : Word) : v.toNat % 4 = 0 ↔ v.getLsbD 0 = false ∧ v.getLsbD 1 = false := by
  have h4 : v.toNat % 4 = (v.extractLsb' 0 2).toNat := by simp
  rw [h4]
  constructor
  · intro h
    have h' : v.extractLsb' 0 2 = 0#2 := BitVec.eq_of_toNat_eq h
    have h0 := congrArg (·.getLsbD 0) h'
    have h1 := congrArg (·.getLsbD 1) h'
    simp only [BitVec.getLsbD_extractLsb', BitVec.getLsbD_zero] at h0 h1
    exact ⟨by simpa using h0, by simpa using h1⟩
  · rintro ⟨h0, h1⟩
    have : v.extractLsb' 0 2 = 0#2 := by
      apply BitVec.eq_of_getLsbD_eq
      intro i hi
      obtain rfl | rfl : i = 0 ∨ i = 1 := by omega
      · simpa using h0
      · simpa using h1
    rw [this]
    rfl

end Sys2Proof.Machine
end

