-- ==== Sys2Proof/Laws/State.lean ====
section
/-! SUPPORT. One lemma per field per named update of the state, true by `rfl`. -/

namespace Sys2Proof.Machine

/-! ## State.setX -/

@[simp] theorem State.setX_cfg (s : State) (r : Reg) (v : Word) : (s.setX r v).cfg = s.cfg := rfl
@[simp] theorem State.setX_gpr (s : State) (r : Reg) (v : Word) : (s.setX r v).gpr = s.gpr.set r v := rfl
@[simp] theorem State.setX_d0 (s : State) (r : Reg) (v : Word) : (s.setX r v).d0 = s.d0 := rfl
@[simp] theorem State.setX_d1 (s : State) (r : Reg) (v : Word) : (s.setX r v).d1 = s.d1 := rfl
@[simp] theorem State.setX_pc (s : State) (r : Reg) (v : Word) : (s.setX r v).pc = s.pc := rfl
@[simp] theorem State.setX_prevPc (s : State) (r : Reg) (v : Word) : (s.setX r v).prevPc = s.prevPc := rfl
@[simp] theorem State.setX_ir (s : State) (r : Reg) (v : Word) : (s.setX r v).ir = s.ir := rfl
@[simp] theorem State.setX_mr (s : State) (r : Reg) (v : Word) : (s.setX r v).mr = s.mr := rfl
@[simp] theorem State.setX_pfm (s : State) (r : Reg) (v : Word) : (s.setX r v).pfm = s.pfm := rfl
@[simp] theorem State.setX_misc (s : State) (r : Reg) (v : Word) : (s.setX r v).misc = s.misc := rfl
@[simp] theorem State.setX_edm (s : State) (r : Reg) (v : Word) : (s.setX r v).edm = s.edm := rfl
@[simp] theorem State.setX_tlb (s : State) (r : Reg) (v : Word) : (s.setX r v).tlb = s.tlb := rfl
@[simp] theorem State.setX_itlb (s : State) (r : Reg) (v : Word) : (s.setX r v).itlb = s.itlb := rfl
@[simp] theorem State.setX_mpu (s : State) (r : Reg) (v : Word) : (s.setX r v).mpu = s.mpu := rfl
@[simp] theorem State.setX_dma (s : State) (r : Reg) (v : Word) : (s.setX r v).dma = s.dma := rfl
@[simp] theorem State.setX_mem (s : State) (r : Reg) (v : Word) : (s.setX r v).mem = s.mem := rfl
@[simp] theorem State.setX_ilm (s : State) (r : Reg) (v : Word) : (s.setX r v).ilm = s.ilm := rfl
@[simp] theorem State.setX_dlm (s : State) (r : Reg) (v : Word) : (s.setX r v).dlm = s.dlm := rfl
@[simp] theorem State.setX_env (s : State) (r : Reg) (v : Word) : (s.setX r v).env = s.env := rfl
@[simp] theorem State.setX_pendImp (s : State) (r : Reg) (v : Word) : (s.setX r v).pendImp = s.pendImp := rfl
@[simp] theorem State.setX_stepEvt (s : State) (r : Reg) (v : Word) : (s.setX r v).stepEvt = s.stepEvt := rfl
@[simp] theorem State.setX_note (s : State) (r : Reg) (v : Word) : (s.setX r v).note = s.note := rfl
@[simp] theorem State.setX_devLog (s : State) (r : Reg) (v : Word) : (s.setX r v).devLog = s.devLog := rfl
@[simp] theorem State.setX_draws (s : State) (r : Reg) (v : Word) : (s.setX r v).draws = s.draws := rfl

/-! ## State.drawn -/

@[simp] theorem State.drawn_cfg (s : State) : (s.drawn).cfg = s.cfg := rfl
@[simp] theorem State.drawn_gpr (s : State) : (s.drawn).gpr = s.gpr := rfl
@[simp] theorem State.drawn_d0 (s : State) : (s.drawn).d0 = s.d0 := rfl
@[simp] theorem State.drawn_d1 (s : State) : (s.drawn).d1 = s.d1 := rfl
@[simp] theorem State.drawn_pc (s : State) : (s.drawn).pc = s.pc := rfl
@[simp] theorem State.drawn_prevPc (s : State) : (s.drawn).prevPc = s.prevPc := rfl
@[simp] theorem State.drawn_ir (s : State) : (s.drawn).ir = s.ir := rfl
@[simp] theorem State.drawn_mr (s : State) : (s.drawn).mr = s.mr := rfl
@[simp] theorem State.drawn_pfm (s : State) : (s.drawn).pfm = s.pfm := rfl
@[simp] theorem State.drawn_misc (s : State) : (s.drawn).misc = s.misc := rfl
@[simp] theorem State.drawn_edm (s : State) : (s.drawn).edm = s.edm := rfl
@[simp] theorem State.drawn_tlb (s : State) : (s.drawn).tlb = s.tlb := rfl
@[simp] theorem State.drawn_itlb (s : State) : (s.drawn).itlb = s.itlb := rfl
@[simp] theorem State.drawn_mpu (s : State) : (s.drawn).mpu = s.mpu := rfl
@[simp] theorem State.drawn_dma (s : State) : (s.drawn).dma = s.dma := rfl
@[simp] theorem State.drawn_mem (s : State) : (s.drawn).mem = s.mem := rfl
@[simp] theorem State.drawn_ilm (s : State) : (s.drawn).ilm = s.ilm := rfl
@[simp] theorem State.drawn_dlm (s : State) : (s.drawn).dlm = s.dlm := rfl
@[simp] theorem State.drawn_env (s : State) : (s.drawn).env = s.env := rfl
@[simp] theorem State.drawn_pendImp (s : State) : (s.drawn).pendImp = s.pendImp := rfl
@[simp] theorem State.drawn_stepEvt (s : State) : (s.drawn).stepEvt = s.stepEvt := rfl
@[simp] theorem State.drawn_note (s : State) : (s.drawn).note = s.note := rfl
@[simp] theorem State.drawn_devLog (s : State) : (s.drawn).devLog = s.devLog := rfl
@[simp] theorem State.drawn_draws (s : State) : (s.drawn).draws = s.draws + 1 := rfl

/-! ## State.retire -/

@[simp] theorem State.retire_cfg (s : State) (pc0 next : Word) : (s.retire pc0 next).cfg = s.cfg := rfl
@[simp] theorem State.retire_gpr (s : State) (pc0 next : Word) : (s.retire pc0 next).gpr = s.gpr := rfl
@[simp] theorem State.retire_d0 (s : State) (pc0 next : Word) : (s.retire pc0 next).d0 = s.d0 := rfl
@[simp] theorem State.retire_d1 (s : State) (pc0 next : Word) : (s.retire pc0 next).d1 = s.d1 := rfl
@[simp] theorem State.retire_pc (s : State) (pc0 next : Word) : (s.retire pc0 next).pc = next := rfl
@[simp] theorem State.retire_prevPc (s : State) (pc0 next : Word) : (s.retire pc0 next).prevPc = pc0 := rfl
@[simp] theorem State.retire_ir (s : State) (pc0 next : Word) : (s.retire pc0 next).ir = s.ir := rfl
@[simp] theorem State.retire_mr (s : State) (pc0 next : Word) : (s.retire pc0 next).mr = s.mr := rfl
@[simp] theorem State.retire_pfm (s : State) (pc0 next : Word) : (s.retire pc0 next).pfm = s.pfm := rfl
@[simp] theorem State.retire_misc (s : State) (pc0 next : Word) : (s.retire pc0 next).misc = s.misc := rfl
@[simp] theorem State.retire_edm (s : State) (pc0 next : Word) : (s.retire pc0 next).edm = s.edm := rfl
@[simp] theorem State.retire_tlb (s : State) (pc0 next : Word) : (s.retire pc0 next).tlb = s.tlb := rfl
@[simp] theorem State.retire_itlb (s : State) (pc0 next : Word) : (s.retire pc0 next).itlb = s.itlb := rfl
@[simp] theorem State.retire_mpu (s : State) (pc0 next : Word) : (s.retire pc0 next).mpu = s.mpu := rfl
@[simp] theorem State.retire_dma (s : State) (pc0 next : Word) : (s.retire pc0 next).dma = s.dma := rfl
@[simp] theorem State.retire_mem (s : State) (pc0 next : Word) : (s.retire pc0 next).mem = s.mem := rfl
@[simp] theorem State.retire_ilm (s : State) (pc0 next : Word) : (s.retire pc0 next).ilm = s.ilm := rfl
@[simp] theorem State.retire_dlm (s : State) (pc0 next : Word) : (s.retire pc0 next).dlm = s.dlm := rfl
@[simp] theorem State.retire_env (s : State) (pc0 next : Word) : (s.retire pc0 next).env = s.env := rfl
@[simp] theorem State.retire_pendImp (s : State) (pc0 next : Word) : (s.retire pc0 next).pendImp = s.pendImp := rfl
@[simp] theorem State.retire_stepEvt (s : State) (pc0 next : Word) : (s.retire pc0 next).stepEvt = s.stepEvt := rfl
@[simp] theorem State.retire_note (s : State) (pc0 next : Word) : (s.retire pc0 next).note = { s.note with completed := true } := rfl
@[simp] theorem State.retire_devLog (s : State) (pc0 next : Word) : (s.retire pc0 next).devLog = s.devLog := rfl
@[simp] theorem State.retire_draws (s : State) (pc0 next : Word) : (s.retire pc0 next).draws = s.draws := rfl

/-! ## State.setBe -/

@[simp] theorem State.setBe_cfg (s : State) (be : Bool) : (s.setBe be).cfg = s.cfg := rfl
@[simp] theorem State.setBe_gpr (s : State) (be : Bool) : (s.setBe be).gpr = s.gpr := rfl
@[simp] theorem State.setBe_d0 (s : State) (be : Bool) : (s.setBe be).d0 = s.d0 := rfl
@[simp] theorem State.setBe_d1 (s : State) (be : Bool) : (s.setBe be).d1 = s.d1 := rfl
@[simp] theorem State.setBe_pc (s : State) (be : Bool) : (s.setBe be).pc = s.pc := rfl
@[simp] theorem State.setBe_prevPc (s : State) (be : Bool) : (s.setBe be).prevPc = s.prevPc := rfl
@[simp] theorem State.setBe_ir (s : State) (be : Bool) : (s.setBe be).ir = { s.ir with psw := setBit s.ir.psw 5 be } := rfl
@[simp] theorem State.setBe_mr (s : State) (be : Bool) : (s.setBe be).mr = s.mr := rfl
@[simp] theorem State.setBe_pfm (s : State) (be : Bool) : (s.setBe be).pfm = s.pfm := rfl
@[simp] theorem State.setBe_misc (s : State) (be : Bool) : (s.setBe be).misc = s.misc := rfl
@[simp] theorem State.setBe_edm (s : State) (be : Bool) : (s.setBe be).edm = s.edm := rfl
@[simp] theorem State.setBe_tlb (s : State) (be : Bool) : (s.setBe be).tlb = s.tlb := rfl
@[simp] theorem State.setBe_itlb (s : State) (be : Bool) : (s.setBe be).itlb = s.itlb := rfl
@[simp] theorem State.setBe_mpu (s : State) (be : Bool) : (s.setBe be).mpu = s.mpu := rfl
@[simp] theorem State.setBe_dma (s : State) (be : Bool) : (s.setBe be).dma = s.dma := rfl
@[simp] theorem State.setBe_mem (s : State) (be : Bool) : (s.setBe be).mem = s.mem := rfl
@[simp] theorem State.setBe_ilm (s : State) (be : Bool) : (s.setBe be).ilm = s.ilm := rfl
@[simp] theorem State.setBe_dlm (s : State) (be : Bool) : (s.setBe be).dlm = s.dlm := rfl
@[simp] theorem State.setBe_env (s : State) (be : Bool) : (s.setBe be).env = s.env := rfl
@[simp] theorem State.setBe_pendImp (s : State) (be : Bool) : (s.setBe be).pendImp = s.pendImp := rfl
@[simp] theorem State.setBe_stepEvt (s : State) (be : Bool) : (s.setBe be).stepEvt = s.stepEvt := rfl
@[simp] theorem State.setBe_note (s : State) (be : Bool) : (s.setBe be).note = s.note := rfl
@[simp] theorem State.setBe_devLog (s : State) (be : Bool) : (s.setBe be).devLog = s.devLog := rfl
@[simp] theorem State.setBe_draws (s : State) (be : Bool) : (s.setBe be).draws = s.draws := rfl

/-! ## State.setIr -/

@[simp] theorem State.setIr_cfg (s : State) (r : IntRegs) : (s.setIr r).cfg = s.cfg := rfl
@[simp] theorem State.setIr_gpr (s : State) (r : IntRegs) : (s.setIr r).gpr = s.gpr := rfl
@[simp] theorem State.setIr_d0 (s : State) (r : IntRegs) : (s.setIr r).d0 = s.d0 := rfl
@[simp] theorem State.setIr_d1 (s : State) (r : IntRegs) : (s.setIr r).d1 = s.d1 := rfl
@[simp] theorem State.setIr_pc (s : State) (r : IntRegs) : (s.setIr r).pc = s.pc := rfl
@[simp] theorem State.setIr_prevPc (s : State) (r : IntRegs) : (s.setIr r).prevPc = s.prevPc := rfl
@[simp] theorem State.setIr_ir (s : State) (r : IntRegs) : (s.setIr r).ir = r := rfl
@[simp] theorem State.setIr_mr (s : State) (r : IntRegs) : (s.setIr r).mr = s.mr := rfl
@[simp] theorem State.setIr_pfm (s : State) (r : IntRegs) : (s.setIr r).pfm = s.pfm := rfl
@[simp] theorem State.setIr_misc (s : State) (r : IntRegs) : (s.setIr r).misc = s.misc := rfl
@[simp] theorem State.setIr_edm (s : State) (r : IntRegs) : (s.setIr r).edm = s.edm := rfl
@[simp] theorem State.setIr_tlb (s : State) (r : IntRegs) : (s.setIr r).tlb = s.tlb := rfl
@[simp] theorem State.setIr_itlb (s : State) (r : IntRegs) : (s.setIr r).itlb = s.itlb := rfl
@[simp] theorem State.setIr_mpu (s : State) (r : IntRegs) : (s.setIr r).mpu = s.mpu := rfl
@[simp] theorem State.setIr_dma (s : State) (r : IntRegs) : (s.setIr r).dma = s.dma := rfl
@[simp] theorem State.setIr_mem (s : State) (r : IntRegs) : (s.setIr r).mem = s.mem := rfl
@[simp] theorem State.setIr_ilm (s : State) (r : IntRegs) : (s.setIr r).ilm = s.ilm := rfl
@[simp] theorem State.setIr_dlm (s : State) (r : IntRegs) : (s.setIr r).dlm = s.dlm := rfl
@[simp] theorem State.setIr_env (s : State) (r : IntRegs) : (s.setIr r).env = s.env := rfl
@[simp] theorem State.setIr_pendImp (s : State) (r : IntRegs) : (s.setIr r).pendImp = s.pendImp := rfl
@[simp] theorem State.setIr_stepEvt (s : State) (r : IntRegs) : (s.setIr r).stepEvt = s.stepEvt := rfl
@[simp] theorem State.setIr_note (s : State) (r : IntRegs) : (s.setIr r).note = s.note := rfl
@[simp] theorem State.setIr_devLog (s : State) (r : IntRegs) : (s.setIr r).devLog = s.devLog := rfl
@[simp] theorem State.setIr_draws (s : State) (r : IntRegs) : (s.setIr r).draws = s.draws := rfl

/-! ## State.setMr -/

@[simp] theorem State.setMr_cfg (s : State) (r : MmuRegs) : (s.setMr r).cfg = s.cfg := rfl
@[simp] theorem State.setMr_gpr (s : State) (r : MmuRegs) : (s.setMr r).gpr = s.gpr := rfl
@[simp] theorem State.setMr_d0 (s : State) (r : MmuRegs) : (s.setMr r).d0 = s.d0 := rfl
@[simp] theorem State.setMr_d1 (s : State) (r : MmuRegs) : (s.setMr r).d1 = s.d1 := rfl
@[simp] theorem State.setMr_pc (s : State) (r : MmuRegs) : (s.setMr r).pc = s.pc := rfl
@[simp] theorem State.setMr_prevPc (s : State) (r : MmuRegs) : (s.setMr r).prevPc = s.prevPc := rfl
@[simp] theorem State.setMr_ir (s : State) (r : MmuRegs) : (s.setMr r).ir = s.ir := rfl
@[simp] theorem State.setMr_mr (s : State) (r : MmuRegs) : (s.setMr r).mr = r := rfl
@[simp] theorem State.setMr_pfm (s : State) (r : MmuRegs) : (s.setMr r).pfm = s.pfm := rfl
@[simp] theorem State.setMr_misc (s : State) (r : MmuRegs) : (s.setMr r).misc = s.misc := rfl
@[simp] theorem State.setMr_edm (s : State) (r : MmuRegs) : (s.setMr r).edm = s.edm := rfl
@[simp] theorem State.setMr_tlb (s : State) (r : MmuRegs) : (s.setMr r).tlb = s.tlb := rfl
@[simp] theorem State.setMr_itlb (s : State) (r : MmuRegs) : (s.setMr r).itlb = s.itlb := rfl
@[simp] theorem State.setMr_mpu (s : State) (r : MmuRegs) : (s.setMr r).mpu = s.mpu := rfl
@[simp] theorem State.setMr_dma (s : State) (r : MmuRegs) : (s.setMr r).dma = s.dma := rfl
@[simp] theorem State.setMr_mem (s : State) (r : MmuRegs) : (s.setMr r).mem = s.mem := rfl
@[simp] theorem State.setMr_ilm (s : State) (r : MmuRegs) : (s.setMr r).ilm = s.ilm := rfl
@[simp] theorem State.setMr_dlm (s : State) (r : MmuRegs) : (s.setMr r).dlm = s.dlm := rfl
@[simp] theorem State.setMr_env (s : State) (r : MmuRegs) : (s.setMr r).env = s.env := rfl
@[simp] theorem State.setMr_pendImp (s : State) (r : MmuRegs) : (s.setMr r).pendImp = s.pendImp := rfl
@[simp] theorem State.setMr_stepEvt (s : State) (r : MmuRegs) : (s.setMr r).stepEvt = s.stepEvt := rfl
@[simp] theorem State.setMr_note (s : State) (r : MmuRegs) : (s.setMr r).note = s.note := rfl
@[simp] theorem State.setMr_devLog (s : State) (r : MmuRegs) : (s.setMr r).devLog = s.devLog := rfl
@[simp] theorem State.setMr_draws (s : State) (r : MmuRegs) : (s.setMr r).draws = s.draws := rfl

/-! ## State.setChan -/

@[simp] theorem State.setChan_cfg (s : State) (i : Bool) (c : DmaChan) : (s.setChan i c).cfg = s.cfg := rfl
@[simp] theorem State.setChan_gpr (s : State) (i : Bool) (c : DmaChan) : (s.setChan i c).gpr = s.gpr := rfl
@[simp] theorem State.setChan_d0 (s : State) (i : Bool) (c : DmaChan) : (s.setChan i c).d0 = s.d0 := rfl
@[simp] theorem State.setChan_d1 (s : State) (i : Bool) (c : DmaChan) : (s.setChan i c).d1 = s.d1 := rfl
@[simp] theorem State.setChan_pc (s : State) (i : Bool) (c : DmaChan) : (s.setChan i c).pc = s.pc := rfl
@[simp] theorem State.setChan_prevPc (s : State) (i : Bool) (c : DmaChan) : (s.setChan i c).prevPc = s.prevPc := rfl
@[simp] theorem State.setChan_ir (s : State) (i : Bool) (c : DmaChan) : (s.setChan i c).ir = s.ir := rfl
@[simp] theorem State.setChan_mr (s : State) (i : Bool) (c : DmaChan) : (s.setChan i c).mr = s.mr := rfl
@[simp] theorem State.setChan_pfm (s : State) (i : Bool) (c : DmaChan) : (s.setChan i c).pfm = s.pfm := rfl
@[simp] theorem State.setChan_misc (s : State) (i : Bool) (c : DmaChan) : (s.setChan i c).misc = s.misc := rfl
@[simp] theorem State.setChan_edm (s : State) (i : Bool) (c : DmaChan) : (s.setChan i c).edm = s.edm := rfl
@[simp] theorem State.setChan_tlb (s : State) (i : Bool) (c : DmaChan) : (s.setChan i c).tlb = s.tlb := rfl
@[simp] theorem State.setChan_itlb (s : State) (i : Bool) (c : DmaChan) : (s.setChan i c).itlb = s.itlb := rfl
@[simp] theorem State.setChan_mpu (s : State) (i : Bool) (c : DmaChan) : (s.setChan i c).mpu = s.mpu := rfl
@[simp] theorem State.setChan_dma (s : State) (i : Bool) (c : DmaChan) : (s.setChan i c).dma = s.dma.put i c := rfl
@[simp] theorem State.setChan_mem (s : State) (i : Bool) (c : DmaChan) : (s.setChan i c).mem = s.mem := rfl
@[simp] theorem State.setChan_ilm (s : State) (i : Bool) (c : DmaChan) : (s.setChan i c).ilm = s.ilm := rfl
@[simp] theorem State.setChan_dlm (s : State) (i : Bool) (c : DmaChan) : (s.setChan i c).dlm = s.dlm := rfl
@[simp] theorem State.setChan_env (s : State) (i : Bool) (c : DmaChan) : (s.setChan i c).env = s.env := rfl
@[simp] theorem State.setChan_pendImp (s : State) (i : Bool) (c : DmaChan) : (s.setChan i c).pendImp = s.pendImp := rfl
@[simp] theorem State.setChan_stepEvt (s : State) (i : Bool) (c : DmaChan) : (s.setChan i c).stepEvt = s.stepEvt := rfl
@[simp] theorem State.setChan_note (s : State) (i : Bool) (c : DmaChan) : (s.setChan i c).note = s.note := rfl
@[simp] theorem State.setChan_devLog (s : State) (i : Bool) (c : DmaChan) : (s.setChan i c).devLog = s.devLog := rfl
@[simp] theorem State.setChan_draws (s : State) (i : Bool) (c : DmaChan) : (s.setChan i c).draws = s.draws := rfl

/-! ## State.pend -/

@[simp] theorem State.pend_cfg (s : State) (c : Cause) : (s.pend c).cfg = s.cfg := rfl
@[simp] theorem State.pend_gpr (s : State) (c : Cause) : (s.pend c).gpr = s.gpr := rfl
@[simp] theorem State.pend_d0 (s : State) (c : Cause) : (s.pend c).d0 = s.d0 := rfl
@[simp] theorem State.pend_d1 (s : State) (c : Cause) : (s.pend c).d1 = s.d1 := rfl
@[simp] theorem State.pend_pc (s : State) (c : Cause) : (s.pend c).pc = s.pc := rfl
@[simp] theorem State.pend_prevPc (s : State) (c : Cause) : (s.pend c).prevPc = s.prevPc := rfl
@[simp] theorem State.pend_ir (s : State) (c : Cause) : (s.pend c).ir = s.ir := rfl
@[simp] theorem State.pend_mr (s : State) (c : Cause) : (s.pend c).mr = s.mr := rfl
@[simp] theorem State.pend_pfm (s : State) (c : Cause) : (s.pend c).pfm = s.pfm := rfl
@[simp] theorem State.pend_misc (s : State) (c : Cause) : (s.pend c).misc = s.misc := rfl
@[simp] theorem State.pend_edm (s : State) (c : Cause) : (s.pend c).edm = s.edm := rfl
@[simp] theorem State.pend_tlb (s : State) (c : Cause) : (s.pend c).tlb = s.tlb := rfl
@[simp] theorem State.pend_itlb (s : State) (c : Cause) : (s.pend c).itlb = s.itlb := rfl
@[simp] theorem State.pend_mpu (s : State) (c : Cause) : (s.pend c).mpu = s.mpu := rfl
@[simp] theorem State.pend_dma (s : State) (c : Cause) : (s.pend c).dma = s.dma := rfl
@[simp] theorem State.pend_mem (s : State) (c : Cause) : (s.pend c).mem = s.mem := rfl
@[simp] theorem State.pend_ilm (s : State) (c : Cause) : (s.pend c).ilm = s.ilm := rfl
@[simp] theorem State.pend_dlm (s : State) (c : Cause) : (s.pend c).dlm = s.dlm := rfl
@[simp] theorem State.pend_env (s : State) (c : Cause) : (s.pend c).env = s.env := rfl
@[simp] theorem State.pend_pendImp (s : State) (c : Cause) : (s.pend c).pendImp = s.pendImp ++ [⟨c, s.level⟩] := rfl
@[simp] theorem State.pend_stepEvt (s : State) (c : Cause) : (s.pend c).stepEvt = s.stepEvt := rfl
@[simp] theorem State.pend_note (s : State) (c : Cause) : (s.pend c).note = s.note := rfl
@[simp] theorem State.pend_devLog (s : State) (c : Cause) : (s.pend c).devLog = s.devLog := rfl
@[simp] theorem State.pend_draws (s : State) (c : Cause) : (s.pend c).draws = s.draws := rfl

/-! ## State.noteIlm -/

@[simp] theorem State.noteIlm_cfg (s : State) : (s.noteIlm).cfg = s.cfg := rfl
@[simp] theorem State.noteIlm_gpr (s : State) : (s.noteIlm).gpr = s.gpr := rfl
@[simp] theorem State.noteIlm_d0 (s : State) : (s.noteIlm).d0 = s.d0 := rfl
@[simp] theorem State.noteIlm_d1 (s : State) : (s.noteIlm).d1 = s.d1 := rfl
@[simp] theorem State.noteIlm_pc (s : State) : (s.noteIlm).pc = s.pc := rfl
@[simp] theorem State.noteIlm_prevPc (s : State) : (s.noteIlm).prevPc = s.prevPc := rfl
@[simp] theorem State.noteIlm_ir (s : State) : (s.noteIlm).ir = s.ir := rfl
@[simp] theorem State.noteIlm_mr (s : State) : (s.noteIlm).mr = s.mr := rfl
@[simp] theorem State.noteIlm_pfm (s : State) : (s.noteIlm).pfm = s.pfm := rfl
@[simp] theorem State.noteIlm_misc (s : State) : (s.noteIlm).misc = s.misc := rfl
@[simp] theorem State.noteIlm_edm (s : State) : (s.noteIlm).edm = s.edm := rfl
@[simp] theorem State.noteIlm_tlb (s : State) : (s.noteIlm).tlb = s.tlb := rfl
@[simp] theorem State.noteIlm_itlb (s : State) : (s.noteIlm).itlb = s.itlb := rfl
@[simp] theorem State.noteIlm_mpu (s : State) : (s.noteIlm).mpu = s.mpu := rfl
@[simp] theorem State.noteIlm_dma (s : State) : (s.noteIlm).dma = s.dma := rfl
@[simp] theorem State.noteIlm_mem (s : State) : (s.noteIlm).mem = s.mem := rfl
@[simp] theorem State.noteIlm_ilm (s : State) : (s.noteIlm).ilm = s.ilm := rfl
@[simp] theorem State.noteIlm_dlm (s : State) : (s.noteIlm).dlm = s.dlm := rfl
@[simp] theorem State.noteIlm_env (s : State) : (s.noteIlm).env = s.env := rfl
@[simp] theorem State.noteIlm_pendImp (s : State) : (s.noteIlm).pendImp = s.pendImp := rfl
@[simp] theorem State.noteIlm_stepEvt (s : State) : (s.noteIlm).stepEvt = s.stepEvt := rfl
@[simp] theorem State.noteIlm_note (s : State) : (s.noteIlm).note = { s.note with ilm := s.note.ilm + 1 } := rfl
@[simp] theorem State.noteIlm_devLog (s : State) : (s.noteIlm).devLog = s.devLog := rfl
@[simp] theorem State.noteIlm_draws (s : State) : (s.noteIlm).draws = s.draws := rfl

/-! ## State.noteDlm -/

@[simp] theorem State.noteDlm_cfg (s : State) : (s.noteDlm).cfg = s.cfg := rfl
@[simp] theorem State.noteDlm_gpr (s : State) : (s.noteDlm).gpr = s.gpr := rfl
@[simp] theorem State.noteDlm_d0 (s : State) : (s.noteDlm).d0 = s.d0 := rfl
@[simp] theorem State.noteDlm_d1 (s : State) : (s.noteDlm).d1 = s.d1 := rfl
@[simp] theorem State.noteDlm_pc (s : State) : (s.noteDlm).pc = s.pc := rfl
@[simp] theorem State.noteDlm_prevPc (s : State) : (s.noteDlm).prevPc = s.prevPc := rfl
@[simp] theorem State.noteDlm_ir (s : State) : (s.noteDlm).ir = s.ir := rfl
@[simp] theorem State.noteDlm_mr (s : State) : (s.noteDlm).mr = s.mr := rfl
@[simp] theorem State.noteDlm_pfm (s : State) : (s.noteDlm).pfm = s.pfm := rfl
@[simp] theorem State.noteDlm_misc (s : State) : (s.noteDlm).misc = s.misc := rfl
@[simp] theorem State.noteDlm_edm (s : State) : (s.noteDlm).edm = s.edm := rfl
@[simp] theorem State.noteDlm_tlb (s : State) : (s.noteDlm).tlb = s.tlb := rfl
@[simp] theorem State.noteDlm_itlb (s : State) : (s.noteDlm).itlb = s.itlb := rfl
@[simp] theorem State.noteDlm_mpu (s : State) : (s.noteDlm).mpu = s.mpu := rfl
@[simp] theorem State.noteDlm_dma (s : State) : (s.noteDlm).dma = s.dma := rfl
@[simp] theorem State.noteDlm_mem (s : State) : (s.noteDlm).mem = s.mem := rfl
@[simp] theorem State.noteDlm_ilm (s : State) : (s.noteDlm).ilm = s.ilm := rfl
@[simp] theorem State.noteDlm_dlm (s : State) : (s.noteDlm).dlm = s.dlm := rfl
@[simp] theorem State.noteDlm_env (s : State) : (s.noteDlm).env = s.env := rfl
@[simp] theorem State.noteDlm_pendImp (s : State) : (s.noteDlm).pendImp = s.pendImp := rfl
@[simp] theorem State.noteDlm_stepEvt (s : State) : (s.noteDlm).stepEvt = s.stepEvt := rfl
@[simp] theorem State.noteDlm_note (s : State) : (s.noteDlm).note = { s.note with dlm := s.note.dlm + 1 } := rfl
@[simp] theorem State.noteDlm_devLog (s : State) : (s.noteDlm).devLog = s.devLog := rfl
@[simp] theorem State.noteDlm_draws (s : State) : (s.noteDlm).draws = s.draws := rfl

/-! ## State.setD -/

@[simp] theorem State.setD_d0 (s : State) (dt : Bool) (v : BitVec 64) : (s.setD dt v).d0 = if dt then s.d0 else v := by
  cases dt <;> rfl
@[simp] theorem State.setD_d1 (s : State) (dt : Bool) (v : BitVec 64) : (s.setD dt v).d1 = if dt then v else s.d1 := by
  cases dt <;> rfl
@[simp] theorem State.setD_cfg (s : State) (dt : Bool) (v : BitVec 64) : (s.setD dt v).cfg = s.cfg := by
  cases dt <;> rfl
@[simp] theorem State.setD_gpr (s : State) (dt : Bool) (v : BitVec 64) : (s.setD dt v).gpr = s.gpr := by
  cases dt <;> rfl
@[simp] theorem State.setD_pc (s : State) (dt : Bool) (v : BitVec 64) : (s.setD dt v).pc = s.pc := by
  cases dt <;> rfl
@[simp] theorem State.setD_prevPc (s : State) (dt : Bool) (v : BitVec 64) : (s.setD dt v).prevPc = s.prevPc := by
  cases dt <;> rfl
@[simp] theorem State.setD_ir (s : State) (dt : Bool) (v : BitVec 64) : (s.setD dt v).ir = s.ir := by
  cases dt <;> rfl
@[simp] theorem State.setD_mr (s : State) (dt : Bool) (v : BitVec 64) : (s.setD dt v).mr = s.mr := by
  cases dt <;> rfl
@[simp] theorem State.setD_pfm (s : State) (dt : Bool) (v : BitVec 64) : (s.setD dt v).pfm = s.pfm := by
  cases dt <;> rfl
@[simp] theorem State.setD_misc (s : State) (dt : Bool) (v : BitVec 64) : (s.setD dt v).misc = s.misc := by
  cases dt <;> rfl
@[simp] theorem State.setD_edm (s : State) (dt : Bool) (v : BitVec 64) : (s.setD dt v).edm = s.edm := by
  cases dt <;> rfl
@[simp] theorem State.setD_tlb (s : State) (dt : Bool) (v : BitVec 64) : (s.setD dt v).tlb = s.tlb := by
  cases dt <;> rfl
@[simp] theorem State.setD_itlb (s : State) (dt : Bool) (v : BitVec 64) : (s.setD dt v).itlb = s.itlb := by
  cases dt <;> rfl
@[simp] theorem State.setD_mpu (s : State) (dt : Bool) (v : BitVec 64) : (s.setD dt v).mpu = s.mpu := by
  cases dt <;> rfl
@[simp] theorem State.setD_dma (s : State) (dt : Bool) (v : BitVec 64) : (s.setD dt v).dma = s.dma := by
  cases dt <;> rfl
@[simp] theorem State.setD_mem (s : State) (dt : Bool) (v : BitVec 64) : (s.setD dt v).mem = s.mem := by
  cases dt <;> rfl
@[simp] theorem State.setD_ilm (s : State) (dt : Bool) (v : BitVec 64) : (s.setD dt v).ilm = s.ilm := by
  cases dt <;> rfl
@[simp] theorem State.setD_dlm (s : State) (dt : Bool) (v : BitVec 64) : (s.setD dt v).dlm = s.dlm := by
  cases dt <;> rfl
@[simp] theorem State.setD_env (s : State) (dt : Bool) (v : BitVec 64) : (s.setD dt v).env = s.env := by
  cases dt <;> rfl
@[simp] theorem State.setD_pendImp (s : State) (dt : Bool) (v : BitVec 64) : (s.setD dt v).pendImp = s.pendImp := by
  cases dt <;> rfl
@[simp] theorem State.setD_stepEvt (s : State) (dt : Bool) (v : BitVec 64) : (s.setD dt v).stepEvt = s.stepEvt := by
  cases dt <;> rfl
@[simp] theorem State.setD_note (s : State) (dt : Bool) (v : BitVec 64) : (s.setD dt v).note = s.note := by
  cases dt <;> rfl
@[simp] theorem State.setD_devLog (s : State) (dt : Bool) (v : BitVec 64) : (s.setD dt v).devLog = s.devLog := by
  cases dt <;> rfl
@[simp] theorem State.setD_draws (s : State) (dt : Bool) (v : BitVec 64) : (s.setD dt v).draws = s.draws := by
  cases dt <;> rfl

end Sys2Proof.Machine
end

