-- ==== Sys2Proof/Laws/Memory.lean ====
section
/-! SUPPORT. Cells, memory and local memories: what a read gives after a write, and that every operation keeps the
canonical form. -/

namespace Sys2Proof.Machine

variable {β : Type}

/-! ## Cells -/

/-- `cellsRise` says that keys rise strictly. -/
theorem cellsRise_iff (l : List (Nat × β)) : cellsRise l = true ↔ l.Pairwise (fun p q => p.1 < q.1) := by
  induction l with
  | nil => simp [cellsRise]
  | cons p r ih =>
    cases r with
    | nil => simp [cellsRise]
    | cons q r =>
      rw [cellsRise, Bool.and_eq_true, ih]
      simp only [List.pairwise_cons, decide_eq_true_eq, List.mem_cons, forall_eq_or_imp]
      constructor
      · rintro ⟨h, h1, h2⟩
        exact ⟨⟨h, fun x hx => lt_trans h (h1 x hx)⟩, h1, h2⟩
      · rintro ⟨⟨h, -⟩, h1, h2⟩
        exact ⟨h, h1, h2⟩

theorem cellsRise_filter {l : List (Nat × β)} (f : Nat × β → Bool) (h : cellsRise l = true) :
    cellsRise (l.filter f) = true := by
  rw [cellsRise_iff] at *
  exact h.filter f

/-- The keys of a put are the old ones and the new one. -/
theorem mem_cellPut {l : List (Nat × β)} {a : Nat} {b : β} {p : Nat × β} (h : p ∈ cellPut l a b) :
    p = (a, b) ∨ p ∈ l := by
  induction l with
  | nil => simpa [cellPut] using h
  | cons q r ih =>
    simp only [cellPut] at h
    split at h
    · simpa using h
    · split at h
      · rcases List.mem_cons.1 h with h | h
        · exact .inl h
        · exact .inr (List.mem_cons_of_mem _ h)
      · rcases List.mem_cons.1 h with h | h
        · exact .inr (by rw [h]; exact List.mem_cons_self)
        · rcases ih h with h | h
          · exact .inl h
          · exact .inr (List.mem_cons_of_mem _ h)

theorem mem_cellErase {l : List (Nat × β)} {a : Nat} {p : Nat × β} (h : p ∈ cellErase l a) : p ∈ l := by
  induction l with
  | nil => simp [cellErase] at h
  | cons q r ih =>
    simp only [cellErase] at h
    split at h
    · exact List.mem_cons_of_mem _ h
    · rcases List.mem_cons.1 h with h | h
      · rw [h]; exact List.mem_cons_self
      · exact List.mem_cons_of_mem _ (ih h)

theorem cellsRise_cellPut {l : List (Nat × β)} (a : Nat) (b : β) (h : cellsRise l = true) :
    cellsRise (cellPut l a b) = true := by
  rw [cellsRise_iff] at *
  induction l with
  | nil => simp [cellPut]
  | cons q r ih =>
    have hq := List.pairwise_cons.1 h
    simp only [cellPut]
    split
    · next hlt =>
      exact List.pairwise_cons.2 ⟨fun x hx => by
        rcases List.mem_cons.1 hx with hx | hx
        · rw [hx]; exact hlt
        · exact lt_trans hlt (hq.1 x hx), h⟩
    · split
      · next he =>
        exact List.pairwise_cons.2 ⟨fun x hx => by rw [he]; exact hq.1 x hx, hq.2⟩
      · refine List.pairwise_cons.2 ⟨fun x hx => ?_, ih hq.2⟩
        rcases mem_cellPut hx with hx | hx
        · rw [hx]; dsimp only; omega
        · exact hq.1 x hx

theorem cellsRise_cellErase {l : List (Nat × β)} (a : Nat) (h : cellsRise l = true) :
    cellsRise (cellErase l a) = true := by
  rw [cellsRise_iff] at *
  induction l with
  | nil => simp [cellErase]
  | cons q r ih =>
    have hq := List.pairwise_cons.1 h
    simp only [cellErase]
    split
    · exact hq.2
    · exact List.pairwise_cons.2 ⟨fun x hx => hq.1 x (mem_cellErase hx), ih hq.2⟩

/-- A read after a put. -/
theorem cellGet_cellPut (l : List (Nat × β)) (a : Nat) (b : β) (k : Nat) :
    cellGet (cellPut l a b) k = if k = a then some b else cellGet l k := by
  induction l with
  | nil => simp [cellPut, cellGet, eq_comm]
  | cons q r ih =>
    simp only [cellPut]
    split
    · by_cases hk : k = a
      · simp [cellGet, hk]
      · simp [cellGet, hk, Ne.symm hk]
    · split
      · next he =>
        by_cases hk : k = a
        · simp [cellGet, hk]
        · have : ¬ q.1 = k := fun h => hk (by omega)
          simp [cellGet, hk, Ne.symm hk, this]
      · next hlt he =>
        simp only [cellGet]
        split
        · next h =>
          have : ¬ k = a := fun h' => he (by omega)
          simp [this]
        · exact ih

theorem cellGet_none_of_lt {l : List (Nat × β)} {k : Nat} (h : ∀ p ∈ l, k < p.1) : cellGet l k = none := by
  induction l with
  | nil => rfl
  | cons q r ih =>
    have := h q List.mem_cons_self
    rw [cellGet, if_neg (by omega)]
    exact ih fun p hp => h p (List.mem_cons_of_mem _ hp)

/-- A read after an erase, in a list whose keys rise. -/
theorem cellGet_cellErase {l : List (Nat × β)} (h : cellsRise l = true) (a k : Nat) :
    cellGet (cellErase l a) k = if k = a then none else cellGet l k := by
  rw [cellsRise_iff] at h
  induction l with
  | nil => simp [cellErase, cellGet]
  | cons q r ih =>
    have hq := List.pairwise_cons.1 h
    simp only [cellErase]
    split
    · next he =>
      by_cases hk : k = a
      · rw [if_pos hk]
        exact cellGet_none_of_lt fun p hp => by have := hq.1 p hp; omega
      · have : ¬ q.1 = k := by omega
        simp [cellGet, hk, this]
    · next he =>
      simp only [cellGet]
      split
      · next h' =>
        have : ¬ k = a := by omega
        simp [this]
      · exact ih hq.2

/-- A read of the entries that a filter keeps, in a list whose keys rise. -/
theorem cellGet_filter {l : List (Nat × β)} (h : cellsRise l = true) (f : Nat × β → Bool) (k : Nat) :
    cellGet (l.filter f) k = (cellGet l k).filter (fun e => f (k, e)) := by
  rw [cellsRise_iff] at h
  induction l with
  | nil => rfl
  | cons q r ih =>
    obtain ⟨a, e⟩ := q
    have hq := List.pairwise_cons.1 h
    rw [List.filter_cons]
    by_cases hk : a = k
    · subst hk
      have hr : cellGet r a = none := cellGet_none_of_lt fun p hp => hq.1 p hp
      cases hf : f (a, e) <;> simp [cellGet, ih hq.2, hr, hf, Option.filter]
    · cases hf : f (a, e) <;> simp [cellGet, hk, ih hq.2]

theorem mem_of_cellGet {l : List (Nat × β)} {k : Nat} {b : β} (h : cellGet l k = some b) : (k, b) ∈ l := by
  induction l with
  | nil => simp [cellGet] at h
  | cons q r ih =>
    simp only [cellGet] at h
    split at h
    · next hk =>
      obtain ⟨k', c⟩ := q
      simp only [Option.some.injEq] at h
      subst h
      rw [← hk]
      exact List.mem_cons_self
    · exact List.mem_cons_of_mem _ (ih h)

/-! ## Memory -/

theorem Memory.wf_iff (m : Memory) :
    m.wf = true ↔ cellsRise m = true ∧ ∀ c ∈ m, c.2 ≠ Memory.unlisted := by
  rw [Memory.wf, Bool.and_eq_true, List.all_eq_true]
  simp

/-- A write keeps the canonical form. -/
theorem Memory.write_wf {m : Memory} (h : m.wf = true) (a : Nat) (b : Byte) : (m.write a b).wf = true := by
  rw [Memory.wf_iff] at *
  rw [Memory.write]
  split
  · exact ⟨cellsRise_cellErase _ h.1, fun c hc => h.2 c (mem_cellErase hc)⟩
  · next hb =>
    refine ⟨cellsRise_cellPut _ _ h.1, fun c hc => ?_⟩
    rcases mem_cellPut hc with hc | hc
    · rw [hc]; exact hb
    · exact h.2 c hc

/-- A byte reads what was written to it, and every other byte what it held. -/
theorem Memory.read_write {m : Memory} (h : m.wf = true) (a : Nat) (b : Byte) (k : Nat) :
    (m.write a b).read k = if k = a then b else m.read k := by
  have hr := ((Memory.wf_iff m).1 h).1
  rw [Memory.write, Memory.read]
  split
  · next hb =>
    rw [cellGet_cellErase hr]
    split
    · exact hb.symm
    · rfl
  · rw [cellGet_cellPut]
    split <;> rfl

theorem writeBytes_wf (c : Config) {m : Memory} (h : m.wf = true) (pa : Nat) (bytes : List Byte) :
    (writeBytes c m pa bytes).wf = true := by
  induction bytes generalizing m pa with
  | nil => exact h
  | cons b r ih =>
    rw [writeBytes]
    split
    · exact ih h _
    · exact ih (Memory.write_wf h _ _) _

/-- How far an address lies above the start of a store, the addresses going round (R21). -/
def busOffset (pa k : Nat) : Nat := (k + (4294967296 - busAddr pa)) % 4294967296

/-- What memory reads after `writeBytes`: the bytes stored, where no device lies, and what it held elsewhere. The
addresses go round at 2^32. -/
theorem read_writeBytes (c : Config) {m : Memory} (h : m.wf = true) (pa : Nat) (bytes : List Byte)
    (hl : bytes.length ≤ 4294967296) (k : Nat) :
    (writeBytes c m pa bytes).read k =
      if k < 4294967296 ∧ busOffset pa k < bytes.length ∧ c.regionOf k ≠ .device then bytes.getD (busOffset pa k) 0#8
      else m.read k := by
  induction bytes generalizing m pa with
  | nil => simp [writeBytes]
  | cons b r ih =>
    simp only [List.length_cons] at hl ⊢
    rw [writeBytes]
    by_cases hk : k = busAddr pa
    · have hk' : k < 4294967296 := by unfold busAddr at hk; omega
      have h0 : busOffset pa k = 0 := by unfold busOffset busAddr at *; omega
      have h1 : ¬ busOffset (pa + 1) k < r.length := by unfold busOffset busAddr at *; omega
      rw [← hk]
      split
      · next hd => rw [ih h _ (by omega), if_neg fun hc => h1 hc.2.1, if_neg fun hc => hc.2.2 hd]
      · next hd =>
        rw [ih (Memory.write_wf h _ _) _ (by omega), if_neg fun hc => h1 hc.2.1, Memory.read_write h, if_pos rfl,
          if_pos ⟨hk', by omega, fun h' => hd h'⟩, h0]
        simp
    · have hoff : k < 4294967296 → busOffset pa k = busOffset (pa + 1) k + 1 := fun hk' => by
        unfold busOffset busAddr at *; omega
      have hread : ∀ m' : Memory, m'.wf = true → m'.read k = m.read k →
          (writeBytes c m' (pa + 1) r).read k =
            if k < 4294967296 ∧ busOffset pa k < r.length + 1 ∧ c.regionOf k ≠ .device
            then (b :: r).getD (busOffset pa k) 0#8 else m.read k := fun m' h' hm' => by
        rw [ih h' _ (by omega), hm']
        by_cases hk' : k < 4294967296
        · rw [hoff hk']
          simp [hk']
        · simp [hk']
      split
      · exact hread m h rfl
      · exact hread _ (Memory.write_wf h _ _) (by rw [Memory.read_write h, if_neg hk])

/-- The same where the bytes do not reach the end of the address space. -/
theorem read_writeBytes_low (c : Config) {m : Memory} (h : m.wf = true) (pa : Nat) (bytes : List Byte)
    (hl : pa + bytes.length ≤ 4294967296) (k : Nat) :
    (writeBytes c m pa bytes).read k =
      if pa ≤ k ∧ k < pa + bytes.length ∧ c.regionOf k ≠ .device then bytes.getD (k - pa) 0#8 else m.read k := by
  rw [read_writeBytes c h pa bytes (by omega)]
  by_cases hc : pa ≤ k ∧ k < pa + bytes.length
  · have : busOffset pa k = k - pa := by unfold busOffset busAddr; omega
    rw [this]
    simp only [show k < 4294967296 by omega, show k - pa < bytes.length by omega, hc.1, hc.2, true_and]
  · rw [if_neg, if_neg fun h' => hc ⟨h'.1, h'.2.1⟩]
    rintro ⟨h1, h2, -⟩
    apply hc
    unfold busOffset busAddr at h2
    omega

/-! ## Local memories -/

theorem LocalMem.wf_iff (m : LocalMem) :
    m.wf = true ↔ cellsRise m.cells = true ∧ (m.lost = none → ∀ c ∈ m.cells, c.2 ≠ 0#8) := by
  rw [LocalMem.wf, Bool.and_eq_true, Bool.or_eq_true, List.all_eq_true]
  cases m.lost <;> simp

theorem LocalMem.lost_wf (d : Nat) : LocalMem.wf ⟨[], some d⟩ = true := rfl

/-- A write keeps the canonical form. -/
theorem LocalMem.write_wf {m : LocalMem} (h : m.wf = true) (a : Nat) (b : Byte) : (m.write a b).wf = true := by
  rw [LocalMem.wf_iff] at *
  rw [LocalMem.write]
  split
  · exact ⟨cellsRise_cellErase _ h.1, fun hl c hc => h.2 hl c (mem_cellErase hc)⟩
  · next hb =>
    refine ⟨cellsRise_cellPut _ _ h.1, fun hl c hc => ?_⟩
    rcases mem_cellPut hc with hc | hc
    · rw [hc]; exact fun h0 => hb ⟨hl, h0⟩
    · exact h.2 hl c hc

/-- A byte reads what was written to it, and every other byte what it held. -/
theorem LocalMem.read_write {m : LocalMem} (h : m.wf = true) (a : Nat) (b : Byte) (k : Nat) :
    (m.write a b).read k = if k = a then b else m.read k := by
  have hr := ((LocalMem.wf_iff m).1 h).1
  rw [LocalMem.write]
  split
  · next hb =>
    rw [LocalMem.read, cellGet_cellErase hr]
    by_cases hk : k = a
    · simp [hk, hb.1, hb.2]
    · simp [hk, LocalMem.read]
  · rw [LocalMem.read, cellGet_cellPut]
    by_cases hk : k = a
    · simp [hk]
    · simp [hk, LocalMem.read]

theorem LocalMem.writeAll_wf {m : LocalMem} (h : m.wf = true) (off : Nat) (bytes : List Byte) :
    (m.writeAll off bytes).wf = true := by
  induction bytes generalizing m off with
  | nil => exact h
  | cons b r ih => exact ih (LocalMem.write_wf h _ _) _

/-- What a local memory reads after bytes were written. -/
theorem LocalMem.read_writeAll {m : LocalMem} (h : m.wf = true) (off : Nat) (bytes : List Byte) (k : Nat) :
    (m.writeAll off bytes).read k =
      if off ≤ k ∧ k < off + bytes.length then bytes.getD (k - off) 0#8 else m.read k := by
  induction bytes generalizing m off with
  | nil =>
    rw [LocalMem.writeAll, if_neg]
    simp only [List.length_nil]; omega
  | cons b r ih =>
    rw [LocalMem.writeAll, ih (LocalMem.write_wf h _ _), LocalMem.read_write h]
    simp only [List.length_cons]
    by_cases hk : k = off
    · subst hk
      rw [if_neg (by omega), if_pos rfl, if_pos ⟨le_rfl, by omega⟩]
      simp
    · by_cases hc : off + 1 ≤ k ∧ k < off + 1 + r.length
      · rw [if_pos hc, if_pos ⟨by omega, by omega⟩]
        obtain ⟨j, rfl⟩ := Nat.exists_eq_add_of_le hc.1
        rw [show off + 1 + j - off = j + 1 by omega, show off + 1 + j - (off + 1) = j by omega]
        rfl
      · rw [if_neg hc, if_neg hk, if_neg fun h' => hc ⟨by omega, by omega⟩]

/-- The memory and the local memories of the reset state have their canonical form. -/
theorem reset_mem_wf (c : Config) (kind : ResetKind) : (State.resetOf c kind).mem.wf = true := rfl

end Sys2Proof.Machine
end

