-- ==== Sys2Proof/Laws/Access.lean ====
section
/-! SUPPORT. What translating an address, loading, storing and fetching can change: everything else is the same before
and after. Frames are equations between states with the parts that may change blanked. -/

namespace Sys2Proof.Machine

/-! ## Results -/

/-- Every state a result carries has a property. -/
def Res.Sat {α : Type} (r : Res α) (P : State → Prop) : Prop :=
  match r with
  | .ok _ t => P t
  | .raise _ t => P t
  | .stop _ => True
  | .refuse _ => True

@[simp] theorem Res.sat_ok {α : Type} (a : α) (s : State) (P : State → Prop) : (Res.ok a s).Sat P ↔ P s := Iff.rfl
@[simp] theorem Res.sat_raise {α : Type} (c : Cause) (s : State) (P : State → Prop) :
    (Res.raise c s : Res α).Sat P ↔ P s := Iff.rfl
@[simp] theorem Res.sat_stop {α : Type} (f : Fault) (P : State → Prop) : (Res.stop f : Res α).Sat P := trivial
@[simp] theorem Res.sat_refuse {α : Type} (f : Refusal) (P : State → Prop) : (Res.refuse f : Res α).Sat P := trivial

@[simp] theorem Res.bind_ok {α β : Type} (a : α) (s : State) (f : α → State → Res β) : (Res.ok a s).bind f = f a s :=
  rfl
@[simp] theorem Res.bind_raise {α β : Type} (c : Cause) (s : State) (f : α → State → Res β) :
    (Res.raise c s : Res α).bind f = .raise c s := rfl
@[simp] theorem Res.bind_stop {α β : Type} (c : Fault) (f : α → State → Res β) :
    (Res.stop c : Res α).bind f = .stop c := rfl
@[simp] theorem Res.bind_refuse {α β : Type} (c : Refusal) (f : α → State → Res β) :
    (Res.refuse c : Res α).bind f = .refuse c := rfl

theorem Res.Sat.bind {α β : Type} {r : Res α} {f : α → State → Res β} {P : State → Prop} (h : r.Sat P)
    (hf : ∀ a t, P t → (f a t).Sat P) : (r.bind f).Sat P := by
  cases r with
  | ok a t => exact hf a t h
  | raise c t => exact h
  | stop f => trivial
  | refuse f => trivial

theorem Res.Sat.mono {α : Type} {r : Res α} {P Q : State → Prop} (h : r.Sat P) (hpq : ∀ t, P t → Q t) : r.Sat Q := by
  cases r with
  | ok a t => exact hpq t h
  | raise c t => exact hpq t h
  | stop f => trivial
  | refuse f => trivial

theorem Res.Sat.ok {α : Type} {r : Res α} {P : State → Prop} {a : α} {t : State} (h : r.Sat P) (e : r = .ok a t) :
    P t := by
  rw [e] at h; exact h

theorem Res.Sat.raised {α : Type} {r : Res α} {P : State → Prop} {c : Cause} {t : State} (h : r.Sat P)
    (e : r = .raise c t) : P t := by
  rw [e] at h; exact h

theorem privileged_sat {α : Type} {s : State} {r : Res α} {P : State → Prop} (hs : P s) (h : r.Sat P) :
    (privileged s r).Sat P := by
  rw [privileged]
  split
  · exact h
  · exact hs

/-! ## Frames -/

/-- The state without what translating and reading may change. -/
def State.sansAccess (s : State) : State :=
  { s with tlb := ⟨[], .flushed 0⟩, itlb := [], note := { s.note with ilm := 0, dlm := 0 }, devLog := [], draws := 0 }

/-- The state without what a store may change. -/
def State.sansStore (s : State) : State :=
  { s with tlb := ⟨[], .flushed 0⟩, itlb := [], note := { s.note with ilm := 0, dlm := 0 }, devLog := [], draws := 0,
           mem := [], ilm := ⟨[], none⟩, dlm := ⟨[], none⟩ }

theorem State.sansStore_of_sansAccess {s t : State} (h : t.sansAccess = s.sansAccess) : t.sansStore = s.sansStore :=
  congrArg (fun u : State => { u with mem := [], ilm := ⟨[], none⟩, dlm := ⟨[], none⟩ }) h

/-- What `sansAccess` keeps. Of the step's note an access changes the counts of local memory accesses only. -/
theorem State.sansAccess_keeps {s t : State} (h : t.sansAccess = s.sansAccess) :
    t.cfg = s.cfg ∧ t.gpr = s.gpr ∧ t.d0 = s.d0 ∧ t.d1 = s.d1 ∧ t.pc = s.pc ∧ t.prevPc = s.prevPc ∧ t.ir = s.ir
      ∧ t.mr = s.mr ∧ t.pfm = s.pfm ∧ t.misc = s.misc ∧ t.edm = s.edm ∧ t.mpu = s.mpu ∧ t.dma = s.dma
      ∧ t.mem = s.mem ∧ t.ilm = s.ilm ∧ t.dlm = s.dlm ∧ t.env = s.env ∧ t.pendImp = s.pendImp
      ∧ t.stepEvt = s.stepEvt ∧ t.note.completed = s.note.completed := by
  simp only [State.sansAccess, State.mk.injEq, StepNote.mk.injEq] at h
  tauto

/-- What `sansStore` keeps. -/
theorem State.sansStore_keeps {s t : State} (h : t.sansStore = s.sansStore) :
    t.cfg = s.cfg ∧ t.gpr = s.gpr ∧ t.d0 = s.d0 ∧ t.d1 = s.d1 ∧ t.pc = s.pc ∧ t.prevPc = s.prevPc ∧ t.ir = s.ir
      ∧ t.mr = s.mr ∧ t.pfm = s.pfm ∧ t.misc = s.misc ∧ t.edm = s.edm ∧ t.mpu = s.mpu ∧ t.dma = s.dma
      ∧ t.env = s.env ∧ t.pendImp = s.pendImp ∧ t.stepEvt = s.stepEvt
      ∧ t.note.completed = s.note.completed := by
  simp only [State.sansStore, State.mk.injEq, StepNote.mk.injEq] at h
  tauto

/-! ## The bus -/

/-- A bus read leaves all but the device log and the draws, and answers as many bytes as asked. -/
theorem busRead_spec {s t : State} {pa n : Nat} {bytes : List Byte} (h : s.busRead pa n = some (bytes, t)) :
    t = { s with devLog := t.devLog, draws := t.draws } ∧ bytes.length = n := by
  rw [State.busRead] at h
  split at h
  · cases h
  · simp only [Option.some.injEq, Prod.mk.injEq] at h
    obtain ⟨rfl, rfl⟩ := h
    refine ⟨?_, by simp⟩
    split <;> rfl

/-- A bus read of memory changes nothing and answers the bytes of memory. -/
theorem busRead_ram {s : State} {pa n : Nat} (h : s.ramAt pa n) :
    s.busRead pa n = some ((List.range n).map (fun i => s.mem.read (busAddr (pa + i))), s) := by
  have hall : ∀ a ∈ span pa n, s.cfg.regionOf a = .ram := fun a ha => by
    simp only [span, List.mem_map, List.mem_range] at ha
    obtain ⟨i, hi, rfl⟩ := ha
    exact h i hi
  rw [State.busRead, if_neg, if_neg]
  · congr 2
    refine List.map_congr_left fun i hi => ?_
    rw [List.mem_range] at hi
    rw [State.busByte, h i hi]
  · simp only [List.any_eq_true, beq_iff_eq, not_exists, not_and]
    intro a ha; rw [hall a ha]; simp
  · simp only [List.any_eq_true, beq_iff_eq, not_exists, not_and]
    intro a ha; rw [hall a ha]; simp

/-- A bus write changes memory and the device log only. -/
theorem busWrite_spec {s t : State} {pa : Nat} {bytes : List Byte} (h : s.busWrite pa bytes = some t) :
    t = { s with mem := writeBytes s.cfg s.mem pa bytes, devLog := t.devLog } := by
  rw [State.busWrite] at h
  split at h
  · cases h
  · simp only [Option.some.injEq] at h
    subst h
    rfl

/-- A bus write to memory. -/
theorem busWrite_ram {s : State} {pa : Nat} {bytes : List Byte}
    (h : s.ramAt pa bytes.length) :
    s.busWrite pa bytes = some { s with mem := writeBytes s.cfg s.mem pa bytes } := by
  have hall : ∀ a ∈ span pa bytes.length, s.cfg.regionOf a = .ram := fun a ha => by
    simp only [span, List.mem_map, List.mem_range] at ha
    obtain ⟨i, hi, rfl⟩ := ha
    exact h i hi
  rw [State.busWrite, if_neg, if_neg]
  · simp only [List.any_eq_true, beq_iff_eq, not_exists, not_and]
    intro a ha; rw [hall a ha]; simp
  · simp only [List.any_eq_true, beq_iff_eq, not_exists, not_and]
    intro a ha; rw [hall a ha]; simp

/-- A read of four bytes of memory that do not reach the end of the address space. -/
theorem busRead_word {s : State} {pa : Nat} (hp : pa + 4 ≤ 4294967296) (h : s.ramAt pa 4) :
    s.busRead pa 4 =
      some ([s.mem.read pa, s.mem.read (pa + 1), s.mem.read (pa + 2), s.mem.read (pa + 3)], s) := by
  have e : ∀ i < 4, busAddr (pa + i) = pa + i := fun i hi => by unfold busAddr; omega
  have e0 : busAddr pa = pa := e 0 (by omega)
  rw [busRead_ram h]
  simp [List.range, List.range.loop, e, e0]

/-- An untranslated address is a multiple of 4 when the virtual address is one. -/
theorem nonTranslated_aligned (s : State) {a : Word} (h : a.toNat % 4 = 0) :
    (nonTranslated s (s.cfg.addr a)).pa.toNat % 4 = 0 := by
  rw [mod4_iff] at *
  obtain ⟨h0, h1⟩ := h
  simp only [nonTranslated, Config.addr]
  repeat' split
  all_goals simp_all

/-! ## The TLB -/

/-- What a match of an entry is (R431). -/
theorem State.tlbMatches_iff (s : State) (e : TlbEntry) (va : Word) :
    s.tlbMatches e va = true ↔
      e.v = true ∧ (∀ i, pageShift e.psz ≤ i → i < 32 → (e.vpn ++ 0#12 : Word).getLsbD i = va.getLsbD i)
        ∧ (e.g = true ∨ e.cid = s.mr.tlbMisc.extractLsb' 4 9) := by
  have h : (e.vpn ++ 0#12 : Word) >>> pageShift e.psz = va >>> pageShift e.psz ↔
      ∀ i, pageShift e.psz ≤ i → i < 32 → (e.vpn ++ 0#12 : Word).getLsbD i = va.getLsbD i := by
    refine ⟨fun h i h1 _ => ?_, fun h => BitVec.eq_of_getLsbD_eq fun i _ => ?_⟩
    · have := congrArg (fun x : Word => x.getLsbD (i - pageShift e.psz)) h
      simp only [BitVec.getLsbD_ushiftRight] at this
      rwa [Nat.add_sub_cancel' h1] at this
    · simp only [BitVec.getLsbD_ushiftRight]
      by_cases h2 : pageShift e.psz + i < 32
      · exact h _ (by omega) h2
      · rw [BitVec.getLsbD_of_ge _ _ (by omega), BitVec.getLsbD_of_ge _ _ (by omega)]
  simp only [State.tlbMatches, Bool.and_eq_true, beq_iff_eq, Bool.or_eq_true, h, State.cid, field, and_assoc]

theorem tlbSets_pos (c : Config) : 0 < c.tlbSets := Nat.pow_pos (by decide)

/-- An entry number of a way and a set that exist is below the number of entries. -/
theorem entry_lt {c : Config} {way set : Nat} (hw : way < c.tlbWays) (hs : set < c.tlbSets) :
    way * c.tlbSets + set < Config.tlbEntries c := by
  rw [Config.tlbEntries]
  calc way * c.tlbSets + set < way * c.tlbSets + c.tlbSets := by omega
    _ = (way + 1) * c.tlbSets := by ring
    _ ≤ c.tlbWays * c.tlbSets := Nat.mul_le_mul_right _ hw
    _ = c.tlbSets * c.tlbWays := Nat.mul_comm _ _

theorem setIndex_lt (c : Config) (va : Word) (shift : Nat) : setIndex c va shift < c.tlbSets :=
  Nat.mod_lt _ (tlbSets_pos c)

/-- The entries of a set: their numbers name it (R406). -/
theorem mem_setEntries {c : Config} {set k : Nat} (hs : set < c.tlbSets) :
    k ∈ setEntries c set ↔ k < Config.tlbEntries c ∧ k % c.tlbSets = set := by
  simp only [setEntries, List.mem_map, List.mem_range]
  refine ⟨?_, fun h => ⟨k / c.tlbSets, Nat.div_lt_of_lt_mul h.1, h.2 ▸ Nat.div_add_mod' k c.tlbSets⟩⟩
  rintro ⟨w, hw, rfl⟩
  exact ⟨entry_lt hw hs, by rw [Nat.mul_add_mod_self_right, Nat.mod_eq_of_lt hs]⟩

theorem mem_setEntries_lt {c : Config} {set k : Nat} (hs : set < c.tlbSets) (h : k ∈ setEntries c set) :
    k < Config.tlbEntries c := ((mem_setEntries hs).1 h).1

theorem tlbWrite_ok {c : Config} {t : Tlb} {k : Nat} (e : TlbEntry) (hk : k < Config.tlbEntries c)
    (h : cellsRise t.cells = true ∧ ∀ p ∈ t.cells, p.1 < Config.tlbEntries c) :
    cellsRise (t.write k e).cells = true ∧ ∀ p ∈ (t.write k e).cells, p.1 < Config.tlbEntries c := by
  refine ⟨cellsRise_cellPut _ _ h.1, fun p hp => ?_⟩
  rcases mem_cellPut hp with hp | hp
  · rw [hp]; exact hk
  · exact h.2 p hp

/-- The way `ChooseWay` takes is one of the allowed ones. -/
theorem chooseOf_mem {d : Nat} {allowed : List Nat} (h : allowed ≠ []) : chooseOf d allowed ∈ allowed := by
  unfold chooseOf
  split
  · simp
  · have : Config.freeNat d 0 % allowed.length < allowed.length :=
      Nat.mod_lt _ (List.length_pos_of_ne_nil h)
    rw [List.getD_eq_getElem _ _ this]
    exact List.getElem_mem _

/-- The entries a random write may take lie in the set. -/
theorem mem_insertable {s : State} {set k : Nat} (h : k ∈ s.insertable set) : k ∈ setEntries s.cfg set := by
  rw [State.insertable] at h
  split at h
  · split at h
    · exact h
    · cases h
  · exact List.mem_of_mem_filter h

/-- A random write writes the entry at one insertable entry number of its set, and changes nothing else. -/
theorem randomWrite_spec {s t : State} {e : TlbEntry} (h : s.randomWrite e = some t) :
    ∃ k ∈ s.insertable (setIndex s.cfg (e.vpn ++ 0#12) (pageShift e.psz)),
      t = { s with tlb := s.tlb.write k e, draws := s.draws + 1 } := by
  simp only [State.randomWrite] at h
  split at h
  · cases h
  · next hne =>
    simp only [Option.some.injEq] at h
    exact ⟨_, chooseOf_mem fun h0 => hne (by simp [h0]), h.symm⟩

theorem randomWrite_tlbOk {s t : State} {e : TlbEntry} (hs : s.tlbOk) (h : s.randomWrite e = some t) : t.tlbOk := by
  obtain ⟨k, hk, rfl⟩ := randomWrite_spec h
  exact tlbWrite_ok (c := s.cfg) e (mem_setEntries_lt (setIndex_lt _ _ _) (mem_insertable hk)) hs

/-! ## Translation -/

/-- What translating may do to the state: the TLB, which stays well formed, the invisible TLB, the record of devices and
the draws. -/
def State.translated (s t : State) : Prop :=
  t = { s with tlb := t.tlb, itlb := t.itlb, devLog := t.devLog, draws := t.draws } ∧ (s.tlbOk → t.tlbOk)

/-- What an access may do to the state: the parts `sansAccess` blanks, and the TLB stays well formed. -/
def State.accessed (s t : State) : Prop := t.sansAccess = s.sansAccess ∧ (s.tlbOk → t.tlbOk)

theorem State.translated_refl (s : State) : s.translated s := ⟨rfl, id⟩

theorem State.translated_trans {s t u : State} (h : s.translated t) (h' : t.translated u) : s.translated u := by
  refine ⟨?_, fun hs => h'.2 (h.2 hs)⟩
  rw [h'.1, h.1]

theorem State.translated_drawn (s : State) : s.translated s.drawn := ⟨rfl, id⟩

theorem State.accessed_of_translated {s t : State} (h : s.translated t) : s.accessed t :=
  ⟨by rw [h.1]; rfl, h.2⟩

theorem State.accessed_refl (s : State) : s.accessed s := ⟨rfl, id⟩

theorem State.accessed_trans {s t u : State} (h : s.accessed t) (h' : t.accessed u) : s.accessed u :=
  ⟨h'.1.trans h.1, fun hs => h'.2 (h.2 hs)⟩

/-- A piece that translates, followed by a piece that does. -/
theorem Res.Sat.thenTranslated {α β : Type} {s : State} {r : Res α} {f : α → State → Res β} (h : r.Sat s.translated)
    (hf : ∀ a t, (f a t).Sat t.translated) : (r.bind f).Sat s.translated :=
  h.bind fun a t ht => (hf a t).mono fun _ hu => State.translated_trans ht hu

/-- A piece that is an access, followed by a piece that is one. -/
theorem Res.Sat.then {α β : Type} {s : State} {r : Res α} {f : α → State → Res β} (h : r.Sat s.accessed)
    (hf : ∀ a t, (f a t).Sat t.accessed) : (r.bind f).Sat s.accessed :=
  h.bind fun a t ht => (hf a t).mono fun _ hu => State.accessed_trans ht hu

theorem busRead_translated {s t : State} {pa n : Nat} {bytes : List Byte} (h : s.busRead pa n = some (bytes, t)) :
    s.translated t := by
  rw [(busRead_spec h).1]
  exact ⟨rfl, id⟩

theorem walkerLoad_frame (s : State) (pa va : Word) (acc : Acc) : (walkerLoad s pa va acc).Sat s.translated := by
  rw [walkerLoad]
  split
  · trivial
  · split
    · next h => exact busRead_translated h
    · exact s.translated_refl

/-- The reserved-attribute test changes nothing. -/
theorem checkAttribute_frame (s : State) (e : TlbEntry) (va : Word) (acc : Acc) :
    (checkAttribute s e va acc).Sat (fun t => t = s) := by
  rw [checkAttribute]
  split
  · split <;> simp
  · simp

/-- Checking an entry changes nothing. -/
theorem checkEntry_frame (s : State) (e : TlbEntry) (va : Word) (acc : Acc) :
    (checkEntry s e va acc).Sat (fun t => t = s) := by
  rw [checkEntry]
  refine (checkAttribute_frame s e va acc).bind fun _ t ht => ?_
  split <;> simp [ht]

theorem checkAttribute_translated (s : State) (e : TlbEntry) (va : Word) (acc : Acc) :
    (checkAttribute s e va acc).Sat s.translated :=
  (checkAttribute_frame s e va acc).mono fun _ h => h ▸ s.translated_refl

theorem checkEntry_translated (s : State) (e : TlbEntry) (va : Word) (acc : Acc) :
    (checkEntry s e va acc).Sat s.translated :=
  (checkEntry_frame s e va acc).mono fun _ h => h ▸ s.translated_refl

theorem walkerInsert_frame (s : State) (e : TlbEntry) (va : Word) (acc : Acc) :
    (walkerInsert s e va acc).Sat s.translated := by
  rw [walkerInsert]
  split
  · exact ⟨rfl, id⟩
  · split
    · next t h =>
      obtain ⟨k, -, ht⟩ := randomWrite_spec h
      exact ⟨by rw [ht], fun hs => randomWrite_tlbOk hs h⟩
    · exact (checkEntry_translated _ _ _ _).thenTranslated fun _ t => t.translated_refl

theorem walk_frame (s : State) (va : Word) (acc : Acc) : (walk s va acc).Sat s.translated := by
  rw [walk]
  refine (walkerLoad_frame _ _ _ _).thenTranslated fun l1 s1 => ?_
  split
  · exact s1.translated_refl
  · refine (walkerLoad_frame _ _ _ _).thenTranslated fun l2 s2 => ?_
    split
    · exact s2.translated_refl
    · split
      · exact (checkAttribute_translated _ _ _ _).thenTranslated fun _ s3 => s3.translated_refl
      · exact (walkerInsert_frame _ _ _ _).thenTranslated fun _ s3 => s3.translated_refl

theorem findEntry_frame (s : State) (va : Word) (acc : Acc) (vlpt : Bool) :
    (findEntry s va acc vlpt).Sat s.translated := by
  rw [findEntry]
  split
  · split
    · exact s.translated_drawn
    · split
      · exact (walk_frame _ _ _).mono fun _ h => State.translated_trans s.translated_drawn h
      · exact s.translated_drawn
  · exact s.translated_drawn
  · exact s.translated_drawn

/-- Translating an address changes the TLB, the record of devices and the draws only. -/
theorem translate_frame (s : State) (va : Word) (acc : Acc) (vlpt : Bool) :
    (translate s va acc vlpt).Sat s.translated := by
  rw [translate]
  split
  · exact s.translated_refl
  · split
    · exact s.translated_refl
    · split
      · rw [mpuTranslate]
        split <;> exact s.translated_refl
      · rw [mmuTranslate]
        exact (findEntry_frame _ _ _ _).thenTranslated fun e t =>
          (checkEntry_translated _ _ _ _).thenTranslated fun _ u => u.translated_refl

theorem translate_accessed (s : State) (va : Word) (acc : Acc) (vlpt : Bool) :
    (translate s va acc vlpt).Sat s.accessed :=
  (translate_frame s va acc vlpt).mono fun _ h => State.accessed_of_translated h

/-! ## The page offset -/

theorem pageShift_ge (psz : BitVec 4) : 12 ≤ pageShift psz := by revert psz; decide

/-- Two words agree in the 12 bits of the smallest page's offset. -/
def lowSame (a b : Word) : Prop := ∀ i < 12, a.getLsbD i = b.getLsbD i

/-- The 24-bit address space keeps the page offset. -/
theorem addr_low (c : Config) (va : Word) : lowSame (c.addr va) va := by
  intro i hi
  rw [Config.addr]
  split
  · rw [BitVec.getLsbD_and]
    have : (0x00FFFFFF#32 : Word).getLsbD i = true := by interval_cases i <;> rfl
    rw [this, Bool.and_true]
  · rfl

theorem nonTranslated_low (s : State) (va : Word) : lowSame (nonTranslated s va).pa va := by
  intro i hi
  simp only [nonTranslated]
  repeat' split
  all_goals first | rfl | (rw [getLsbD_setField, if_neg (by omega)])

theorem entryPa_low (e : TlbEntry) (va : Word) : lowSame (entryPa e va) va := by
  intro i hi
  have h := pageShift_ge e.psz
  have h2 : i < pageShift e.psz := by omega
  have h3 : i < 32 := by omega
  simp [entryPa, h2, h3]

/-- A translated address keeps the 12 bits of the smallest page's offset. -/
theorem translate_low {s t : State} {va : Word} {acc : Acc} {vlpt : Bool} {x : Xlat}
    (h : translate s va acc vlpt = .ok x t) : lowSame x.pa va := by
  intro i hi
  rw [← addr_low s.cfg va i hi]
  rw [translate] at h
  split at h
  · cases h
  · split at h
    · cases h
      exact nonTranslated_low s _ i hi
    · split at h
      · rw [mpuTranslate] at h
        split at h
        · cases h
        · cases h
          refine (BitVec.getLsbD_append (y := field (s.cfg.addr va) 0 12)).trans ?_
          simp [hi]
      · rw [mmuTranslate] at h
        cases hf : findEntry s (s.cfg.addr va) acc vlpt with
        | ok e u =>
          rw [hf, Res.bind_ok] at h
          cases hc : checkEntry u e (s.cfg.addr va) acc with
          | ok a w =>
            rw [hc, Res.bind_ok] at h
            cases h
            exact entryPa_low e _ i hi
          | raise c w => rw [hc] at h; cases h
          | stop f => rw [hc] at h; cases h
          | refuse r => rw [hc] at h; cases h
        | raise c w => rw [hf] at h; cases h
        | stop f => rw [hf] at h; cases h
        | refuse r => rw [hf] at h; cases h

/-- A translated address is a multiple of 4 when the virtual address is one. -/
theorem translate_aligned {s t : State} {va : Word} {acc : Acc} {vlpt : Bool} {x : Xlat}
    (h : translate s va acc vlpt = .ok x t) (ha : va.toNat % 4 = 0) : x.pa.toNat % 4 = 0 := by
  rw [mod4_iff] at *
  rwa [translate_low h 0 (by decide), translate_low h 1 (by decide)]

/-! ## Loads, stores, fetch -/

/-- Routing changes nothing. -/
theorem route_frame (s : State) (pa : Word) (acc : Acc) : (route s pa acc).Sat (fun t => t = s) := by
  rw [route]
  split
  · split <;> simp
  · split
    · split <;> simp
    · split <;> simp

theorem route_accessed (s : State) (pa : Word) (acc : Acc) : (route s pa acc).Sat s.accessed :=
  (route_frame s pa acc).mono fun _ h => h ▸ s.accessed_refl

theorem readPlace_frame (s : State) (p : Place) (n : Nat) (va : Word) (acc : Acc) :
    (readPlace s p n va acc).Sat s.accessed := by
  unfold readPlace
  split
  · exact ⟨rfl, id⟩
  · exact ⟨rfl, id⟩
  · split
    · next h => exact State.accessed_of_translated (busRead_translated h)
    · exact s.accessed_refl

theorem loadWord_frame (s : State) (va : Word) (vlpt : Bool) : (loadWord s va vlpt).Sat s.accessed := by
  rw [loadWord]
  split
  · exact s.accessed_refl
  · exact (translate_accessed _ _ _ _).then fun x t =>
      (route_accessed _ _ _).then fun p u =>
        (readPlace_frame _ _ _ _ _).then fun b v => v.accessed_refl

theorem loadByte_frame (s : State) (va : Word) : (loadByte s va).Sat s.accessed := by
  rw [loadByte]
  exact (translate_accessed _ _ _ _).then fun x t =>
    (route_accessed _ _ _).then fun p u =>
      (readPlace_frame _ _ _ _ _).then fun b v => v.accessed_refl

theorem fetchHalf_frame (s : State) (pa va : Word) : (fetchHalf s pa va).Sat s.accessed := by
  rw [fetchHalf]
  exact (route_accessed _ _ _).then fun p u =>
    (readPlace_frame _ _ _ _ _).then fun b v => v.accessed_refl

/-- Fetching an instruction changes the TLB, the device log, the draws and the step's note only. -/
theorem fetchInsn_frame (s : State) : (fetchInsn s).Sat s.accessed := by
  rw [fetchInsn]
  refine (translate_accessed _ _ _ _).then fun x t =>
    (fetchHalf_frame _ _ _).then fun h0 u => ?_
  split
  · exact u.accessed_refl
  · refine Res.Sat.then ?_ fun y v =>
      (fetchHalf_frame _ _ _).then fun h1 w => w.accessed_refl
    split
    · exact translate_accessed _ _ _ _
    · exact u.accessed_refl

/-- What a store may do to the state: the parts `sansStore` blanks, the TLB staying well formed and the memories
canonical. -/
def State.stored (s t : State) : Prop :=
  t.sansStore = s.sansStore ∧ (s.tlbOk → t.tlbOk) ∧ (s.memoryOk → t.memoryOk)

theorem State.stored_of_accessed {s t : State} (h : s.accessed t) : s.stored t := by
  refine ⟨State.sansStore_of_sansAccess h.1, h.2, fun hs => ?_⟩
  have hk := State.sansAccess_keeps h.1
  have hm : t.mem = s.mem := by tauto
  have hi : t.ilm = s.ilm := by tauto
  have hd : t.dlm = s.dlm := by tauto
  rw [State.memoryOk, hm, hi, hd]
  exact hs

theorem State.stored_trans {s t u : State} (h : s.stored t) (h' : t.stored u) : s.stored u :=
  ⟨h'.1.trans h.1, fun hs => h'.2.1 (h.2.1 hs), fun hs => h'.2.2 (h.2.2 hs)⟩

theorem writePlace_frame (s : State) (p : Place) (bytes : List Byte) (va : Word) :
    (writePlace s p bytes va).Sat s.stored := by
  unfold writePlace
  split
  · exact ⟨rfl, id, fun h => ⟨h.1, LocalMem.writeAll_wf h.2.1 _ _, h.2.2⟩⟩
  · exact ⟨rfl, id, fun h => ⟨h.1, h.2.1, LocalMem.writeAll_wf h.2.2 _ _⟩⟩
  · split
    · next t h =>
      rw [Res.sat_ok, busWrite_spec h]
      exact ⟨rfl, id, fun hm => ⟨writeBytes_wf _ hm.1 _ _, hm.2⟩⟩
    · exact State.stored_of_accessed s.accessed_refl

/-- A store changes memory, the local memories and what an access may change, nothing else. -/
theorem storeWord_frame (s : State) (va data : Word) : (storeWord s va data).Sat s.stored := by
  rw [storeWord]
  split
  · exact State.stored_of_accessed s.accessed_refl
  · refine Res.Sat.bind ((translate_accessed s va .store false).mono fun _ h => State.stored_of_accessed h) fun x t ht => ?_
    refine Res.Sat.bind (P := s.stored) ?_ fun p u hu => ?_
    · exact (route_frame _ _ _).mono fun _ h => h ▸ ht
    · exact (writePlace_frame _ _ _ _).mono fun _ h => State.stored_trans hu h

end Sys2Proof.Machine
end

