-- ==== Sys2Proof/Laws/Entry.lean ====
section
/-! SUPPORT. What taking an interruption and returning from one do, field by field. -/

namespace Sys2Proof.Machine

/-! ## Taking an interruption (R783 to R791) -/

/-- Where an interruption goes (R776, R783). -/
@[simp] theorem enter_pc (c : Cause) (pc : Word) (s : State) : (enter c pc s).pc = vectorAddress s.ir.ivb c.entry :=
  rfl

@[simp] theorem enter_note (c : Cause) (pc : Word) (s : State) : (enter c pc s).note = noteEntry s.note c := rfl

@[simp] theorem enter_cfg (c : Cause) (pc : Word) (s : State) : (enter c pc s).cfg = s.cfg := by
  unfold enter; split <;> rfl

@[simp] theorem enter_gpr (c : Cause) (pc : Word) (s : State) : (enter c pc s).gpr = s.gpr := by
  unfold enter; split <;> rfl

@[simp] theorem enter_d0 (c : Cause) (pc : Word) (s : State) : (enter c pc s).d0 = s.d0 := by
  unfold enter; split <;> rfl

@[simp] theorem enter_d1 (c : Cause) (pc : Word) (s : State) : (enter c pc s).d1 = s.d1 := by
  unfold enter; split <;> rfl

@[simp] theorem enter_prevPc (c : Cause) (pc : Word) (s : State) : (enter c pc s).prevPc = s.prevPc := by
  unfold enter; split <;> rfl

@[simp] theorem enter_pfm (c : Cause) (pc : Word) (s : State) : (enter c pc s).pfm = s.pfm := by
  unfold enter; split <;> rfl

@[simp] theorem enter_misc (c : Cause) (pc : Word) (s : State) : (enter c pc s).misc = s.misc := by
  unfold enter; split <;> rfl

@[simp] theorem enter_edm (c : Cause) (pc : Word) (s : State) : (enter c pc s).edm = s.edm := by
  unfold enter; split <;> rfl

@[simp] theorem enter_tlb (c : Cause) (pc : Word) (s : State) : (enter c pc s).tlb = s.tlb := by
  unfold enter; split <;> rfl

@[simp] theorem enter_itlb (c : Cause) (pc : Word) (s : State) : (enter c pc s).itlb = s.itlb := by
  unfold enter; split <;> rfl

@[simp] theorem enter_mpu (c : Cause) (pc : Word) (s : State) : (enter c pc s).mpu = s.mpu := by
  unfold enter; split <;> rfl

@[simp] theorem enter_dma (c : Cause) (pc : Word) (s : State) : (enter c pc s).dma = s.dma := by
  unfold enter; split <;> rfl

@[simp] theorem enter_mem (c : Cause) (pc : Word) (s : State) : (enter c pc s).mem = s.mem := by
  unfold enter; split <;> rfl

@[simp] theorem enter_ilm (c : Cause) (pc : Word) (s : State) : (enter c pc s).ilm = s.ilm := by
  unfold enter; split <;> rfl

@[simp] theorem enter_dlm (c : Cause) (pc : Word) (s : State) : (enter c pc s).dlm = s.dlm := by
  unfold enter; split <;> rfl

@[simp] theorem enter_env (c : Cause) (pc : Word) (s : State) : (enter c pc s).env = s.env := by
  unfold enter; split <;> rfl

@[simp] theorem enter_pendImp (c : Cause) (pc : Word) (s : State) : (enter c pc s).pendImp = s.pendImp := by
  unfold enter; split <;> rfl

@[simp] theorem enter_stepEvt (c : Cause) (pc : Word) (s : State) : (enter c pc s).stepEvt = s.stepEvt := by
  unfold enter; split <;> rfl

@[simp] theorem enter_devLog (c : Cause) (pc : Word) (s : State) : (enter c pc s).devLog = s.devLog := by
  unfold enter; split <;> rfl

/-- An entry to level 1 or 2 (R783, first branch). -/
theorem enter_level {c : Cause} {pc : Word} {s : State} (h : s.level.toNat + 1 < s.cfg.maxLevel) :
    (enter c pc s).ir = { entryRegs s c pc with merr := merrAfter s c } ∧ (enter c pc s).mr = entryMmu s c := by
  rw [enter, if_pos h]
  exact ⟨rfl, rfl⟩

/-- An entry to the overflow level (R789, R791). -/
theorem enter_overflow {c : Cause} {pc : Word} {s : State} (h : ¬ s.level.toNat + 1 < s.cfg.maxLevel) :
    (enter c pc s).ir =
        { s.ir with
          oipc := pc
          psw := overflowPsw s.cfg s.ir.psw c.ime c.dme c.dbg
          merr := merrAfter s c }
      ∧ (enter c pc s).mr = s.mr ∧ (enter c pc s).draws = s.draws := by
  rw [enter, if_neg h]
  exact ⟨rfl, rfl, rfl⟩

/-! ## Returning (R647) -/

/-- A return changes the interruption registers and general registers P0 and P1 only. -/
theorem returnState_frame (s : State) :
    returnState s = { s with ir := (returnState s).ir, gpr := (returnState s).gpr } := by
  unfold returnState
  split
  · rfl
  · split <;> rfl

/-! ## Ending an instruction -/

@[simp] theorem complete_ok (s : State) (next : Word) (t : State) :
    complete s (.ok next t) = .next (t.retire s.pc next) := rfl
@[simp] theorem complete_raise (s : State) (c : Cause) (t : State) :
    complete s (.raise c t) = .next (enter c s.pc t) := rfl
@[simp] theorem complete_stop (s : State) (f : Fault) : complete s (.stop f) = .fault f := rfl
@[simp] theorem complete_refuse (s : State) (r : Refusal) : complete s (.refuse r) = .refused r := rfl

/-- All the next states an instruction can end in. -/
theorem complete_next {s u : State} {r : Res Word} (h : complete s r = .next u) :
    (∃ next t, r = .ok next t ∧ u = t.retire s.pc next) ∨ (∃ c t, r = .raise c t ∧ u = enter c s.pc t) := by
  cases r with
  | ok next t => exact .inl ⟨next, t, rfl, by simpa using h.symm⟩
  | raise c t => exact .inr ⟨c, t, rfl, by simpa using h.symm⟩
  | stop f => simp at h
  | refuse f => simp at h

/-- A property of the state that retiring and taking an interruption keep holds after an instruction all of whose
results have it. -/
theorem complete_keeps {P : State → Prop} {s u : State} {r : Res Word} (hr : r.Sat P)
    (hret : ∀ t pc0 next, P t → P (t.retire pc0 next)) (hent : ∀ c pc t, P t → P (enter c pc t))
    (h : complete s r = .next u) : P u := by
  obtain ⟨next, t, rfl, rfl⟩ | ⟨c, t, rfl, rfl⟩ := complete_next h
  · exact hret _ _ _ hr
  · exact hent _ _ _ hr

end Sys2Proof.Machine
end

