-- ==== Sys2Proof/Laws/Dma.lean ====
section
/-! SUPPORT. What the DMA engine can change, and that it keeps the memories canonical and its channels in order. -/

namespace Sys2Proof.Machine

/-- The state without what the DMA engine may change. -/
def State.sansDma (s : State) : State :=
  { s with dma := .reset, mem := [], ilm := ⟨[], none⟩, dlm := ⟨[], none⟩, devLog := [], draws := 0 }

/-- What the DMA engine may do: the parts `sansDma` blanks, the memories staying canonical. -/
def State.dmaMoved (s t : State) : Prop := t.sansDma = s.sansDma ∧ (s.memoryOk → t.memoryOk)

theorem State.dmaMoved_refl (s : State) : s.dmaMoved s := ⟨rfl, id⟩

theorem State.dmaMoved_trans {s t u : State} (h : s.dmaMoved t) (h' : t.dmaMoved u) : s.dmaMoved u :=
  ⟨h'.1.trans h.1, fun hs => h'.2 (h.2 hs)⟩

/-- What `sansDma` keeps. -/
theorem State.sansDma_keeps {s t : State} (h : t.sansDma = s.sansDma) :
    t.cfg = s.cfg ∧ t.gpr = s.gpr ∧ t.d0 = s.d0 ∧ t.d1 = s.d1 ∧ t.pc = s.pc ∧ t.prevPc = s.prevPc ∧ t.ir = s.ir
      ∧ t.mr = s.mr ∧ t.pfm = s.pfm ∧ t.misc = s.misc ∧ t.edm = s.edm ∧ t.tlb = s.tlb ∧ t.itlb = s.itlb
      ∧ t.mpu = s.mpu ∧ t.env = s.env ∧ t.pendImp = s.pendImp ∧ t.stepEvt = s.stepEvt ∧ t.note = s.note := by
  simp only [State.sansDma, State.mk.injEq] at h
  tauto

/-- A state that agrees with another but for what the DMA engine may change is that other one with those parts
replaced. -/
theorem State.eq_of_sansDma {s t : State} (h : t.sansDma = s.sansDma) :
    t = { s with dma := t.dma, mem := t.mem, ilm := t.ilm, dlm := t.dlm, devLog := t.devLog, draws := t.draws } :=
  congrArg (fun u : State =>
    { u with dma := t.dma, mem := t.mem, ilm := t.ilm, dlm := t.dlm, devLog := t.devLog, draws := t.draws }) h

/-! ## Channels -/

@[simp] theorem DmaEngine.get_put (e : DmaEngine) (i j : Bool) (c : DmaChan) :
    (e.put i c).get j = if i = j then c else e.get j := by
  cases i <;> cases j <;> rfl

@[simp] theorem DmaEngine.put_en (e : DmaEngine) (i : Bool) (c : DmaChan) : (e.put i c).en = e.en := by
  cases i <;> rfl

@[simp] theorem DmaEngine.put_chan (e : DmaEngine) (i : Bool) (c : DmaChan) : (e.put i c).chan = e.chan := by
  cases i <;> rfl

@[simp] theorem DmaEngine.put_nextSeq (e : DmaEngine) (i : Bool) (c : DmaChan) :
    (e.put i c).nextSeq = e.nextSeq := by
  cases i <;> rfl

@[simp] theorem State.chan_setChan (s : State) (i j : Bool) (c : DmaChan) :
    (s.setChan i c).chan j = if i = j then c else s.chan j := by
  simp [State.chan]

theorem setChan_dmaMoved (s : State) (i : Bool) (c : DmaChan) : s.dmaMoved (s.setChan i c) := ⟨rfl, id⟩

theorem drawn_dmaMoved (s : State) : s.dmaMoved s.drawn := ⟨rfl, id⟩

/-! ## Bytes -/

theorem setLmByte_moved (s : State) (c : DmaChan) (off : Nat) (b : Byte) :
    s.dmaMoved (setLmByte s c off b) ∧ (setLmByte s c off b).dma = s.dma := by
  unfold setLmByte
  dsimp only
  split
  · exact ⟨⟨rfl, fun h => ⟨h.1, h.2.1, LocalMem.write_wf h.2.2 _ _⟩⟩, rfl⟩
  · exact ⟨⟨rfl, fun h => ⟨h.1, LocalMem.write_wf h.2.1 _ _, h.2.2⟩⟩, rfl⟩

theorem setLmBytes_moved (c : DmaChan) (off : Nat) (bytes : List Byte) (s : State) :
    s.dmaMoved (setLmBytes c off bytes s) ∧ (setLmBytes c off bytes s).dma = s.dma := by
  induction bytes generalizing off s with
  | nil => exact ⟨s.dmaMoved_refl, rfl⟩
  | cons b r ih =>
    have h1 := setLmByte_moved s c off b
    have h2 := ih (off + 1) (setLmByte s c off b)
    exact ⟨State.dmaMoved_trans h1.1 h2.1, h2.2.trans h1.2⟩

/-! ## Leaving and entering Run -/

theorem enterRun_moved (s : State) (i : Bool) : s.dmaMoved (enterRun s i) := setChan_dmaMoved _ _ _

theorem startPended_moved (s : State) (i : Bool) : s.dmaMoved (startPended s i) := by
  unfold startPended
  split
  · exact enterRun_moved _ _
  · exact s.dmaMoved_refl

theorem finish_moved (s : State) (i : Bool) (new : DmaStat) (err : DmaErr) (irq : Bool) :
    s.dmaMoved (finish s i new err irq) := by
  unfold finish
  dsimp only
  split
  · exact State.dmaMoved_trans (State.dmaMoved_trans (setChan_dmaMoved _ _ _) (drawn_dmaMoved _))
      (startPended_moved _ _)
  · exact State.dmaMoved_trans (setChan_dmaMoved _ _ _) (startPended_moved _ _)

/-! ## Elements -/

theorem copyChunk_moved {s t : State} {c : DmaChan} {off pa n : Nat} (h : copyChunk s c off pa n = some t) :
    s.dmaMoved t ∧ t.dma = s.dma := by
  unfold copyChunk at h
  split at h
  · rw [busWrite_spec h]
    exact ⟨⟨rfl, fun hm => ⟨writeBytes_wf _ hm.1 _ _, hm.2⟩⟩, rfl⟩
  · split at h
    · next bytes u hu =>
      simp only [Option.some.injEq] at h
      subst h
      have h1 : s.dmaMoved u ∧ u.dma = s.dma := by
        rw [(busRead_spec hu).1]
        exact ⟨⟨rfl, id⟩, rfl⟩
      have h2 := setLmBytes_moved c off bytes u
      exact ⟨State.dmaMoved_trans h1.1 h2.1, h2.2.trans h1.2⟩
    · cases h

theorem copyElement_moved (s : State) (c : DmaChan) :
    s.dmaMoved (copyElement s c).1 ∧ (copyElement s c).1.dma = s.dma := by
  unfold copyElement
  dsimp only
  split
  · exact ⟨s.dmaMoved_refl, rfl⟩
  · next t ht =>
    have h1 := copyChunk_moved ht
    split
    · exact h1
    · split
      · exact h1
      · next u hu =>
        have h2 := copyChunk_moved hu
        exact ⟨State.dmaMoved_trans h1.1 h2.1, h2.2.trans h1.2⟩

theorem corruptLm_moved (s : State) (c : DmaChan) : s.dmaMoved (corruptLm s c) ∧ (corruptLm s c).dma = s.dma := by
  have h := setLmBytes_moved c 0
    ((List.range (min (Config.freeNat s.draws 0 * c.elemSize) (dmaLimit s c))).map
      (fun j => Config.freeByte s.draws j)) s.drawn
  exact ⟨State.dmaMoved_trans (drawn_dmaMoved s) h.1, h.2⟩

/-- One element changes the DMA engine, the memories, the device log and the draws only. -/
theorem element_moved (s : State) (i : Bool) : s.dmaMoved (element s i) := by
  unfold element
  have h := copyElement_moved s (s.chan i)
  dsimp only
  split
  · next t ht =>
    rw [ht] at h
    exact State.dmaMoved_trans h.1 (finish_moved _ _ _ _ _)
  · next t ht =>
    rw [ht] at h
    have h' := State.dmaMoved_trans h.1 (setChan_dmaMoved t i
      { s.chan i with
        wIntOff := (s.chan i).wIntOff + (s.chan i).elemSize
        wExtAddr := (s.chan i).wExtAddr + BitVec.ofNat 32 (nextStride s (s.chan i)).1
        wCount := (s.chan i).wCount - 1
        wRow := (nextStride s (s.chan i)).2 })
    split
    · exact State.dmaMoved_trans h' (finish_moved _ _ _ _ _)
    · split
      · split
        · exact State.dmaMoved_trans h' (finish_moved _ _ _ _ _)
        · exact State.dmaMoved_trans (State.dmaMoved_trans h' (corruptLm_moved _ _).1) (finish_moved _ _ _ _ _)
      · exact h'

theorem dmaRun_moved (n : Nat) (s : State) : s.dmaMoved (dmaRun n s) := by
  induction n generalizing s with
  | zero => exact s.dmaMoved_refl
  | succ n ih =>
    unfold dmaRun
    split
    · exact s.dmaMoved_refl
    · exact State.dmaMoved_trans (element_moved _ _) (ih _)

/-- The engine's share of a step changes the DMA engine, the memories, the device log and the draws only. -/
theorem dmaBurst_moved (s : State) : s.dmaMoved (dmaBurst s) := by
  unfold dmaBurst
  split
  · exact s.dmaMoved_refl
  · exact State.dmaMoved_trans (drawn_dmaMoved s) (dmaRun_moved _ _)

/-- Without a channel in Run the engine does nothing. -/
theorem dmaBurst_idle {s : State} (h : s.running = none) : dmaBurst s = s := by
  unfold dmaBurst; rw [h]

/-- Without a channel in Run nothing of the engine stops the machine. -/
theorem dmaBlocked_idle {s : State} (h : s.running = none) : dmaBlocked s = false := by
  unfold dmaBlocked; rw [h]; rfl

/-! ## Commands -/

theorem drain_moved (i : Bool) (n : Nat) (s : State) : s.dmaMoved (drain i n s) := by
  induction n generalizing s with
  | zero => exact s.dmaMoved_refl
  | succ n ih =>
    unfold drain
    split
    · exact State.dmaMoved_trans (element_moved _ _) (ih _)
    · exact s.dmaMoved_refl

theorem dmaStart_moved (s : State) (i : Bool) : (dmaStart s i).Sat s.dmaMoved := by
  unfold dmaStart
  dsimp only
  split
  · split
    · exact setChan_dmaMoved _ _ _
    · split
      · exact setChan_dmaMoved _ _ _
      · split
        · trivial
        · split
          · exact ⟨rfl, id⟩
          · exact State.dmaMoved_trans (setChan_dmaMoved _ _ _) (enterRun_moved _ _)
  · exact s.dmaMoved_refl

theorem dmaStop_moved (s : State) (i : Bool) : s.dmaMoved (dmaStop s i) := by
  unfold dmaStop
  dsimp only
  split
  · split
    · exact State.dmaMoved_trans (State.dmaMoved_trans (drawn_dmaMoved s) (drain_moved _ _ _)) (finish_moved _ _ _ _ _)
    · exact State.dmaMoved_trans (drawn_dmaMoved s) (drain_moved _ _ _)
  · split
    · exact setChan_dmaMoved _ _ _
    · exact s.dmaMoved_refl

theorem dmaReset_moved (s : State) (i : Bool) : s.dmaMoved (dmaReset s i) := by
  unfold dmaReset
  dsimp only
  split
  · exact State.dmaMoved_trans (setChan_dmaMoved _ _ _) (startPended_moved _ _)
  · exact setChan_dmaMoved _ _ _

/-- A command changes the DMA engine, the memories, the device log and the draws only. -/
theorem dmaCommand_moved (s : State) (acmd : BitVec 2) : (dmaCommand s acmd).Sat s.dmaMoved := by
  unfold dmaCommand
  split
  · exact s.dmaMoved_refl
  · split
    · exact dmaStart_moved _ _
    · split
      · split
        · trivial
        · exact dmaStop_moved _ _
      · split
        · exact dmaReset_moved _ _
        · exact s.dmaMoved_refl

theorem dmaEnable_moved (s : State) (en : Bool) : s.dmaMoved (dmaEnable s en) := by
  unfold dmaEnable
  split <;> exact ⟨rfl, id⟩

theorem dmaSetupWrite_moved (s : State) (f : DmaChan → DmaChan) : s.dmaMoved (dmaSetupWrite s f) := by
  unfold dmaSetupWrite
  dsimp only
  split
  · unfold disrupt
    dsimp only
    split
    · exact finish_moved _ _ _ _ _
    · exact setChan_dmaMoved _ _ _
  · exact setChan_dmaMoved _ _ _

/-! ## What an element moves and what it leaves -/

@[simp] theorem startPended_chan (s : State) (i : Bool) : (startPended s i).chan i = s.chan i := by
  unfold startPended
  split
  · simp [enterRun]
  · rfl

/-- A 1-D transfer whose `w` is still that of its Start leaves STWECNT as it was (R720, R722). -/
theorem restartRow_oneD {s : State} {c d : DmaChan} (h : twoD s c = false) (hd : twoD s d = false)
    (hw : d.wRow = startRow s c) : BitVec.ofNat 16 (restartRow s d) = c.stwecnt := by
  simp [restartRow, startRow, h, hd, hw]

/-- Leaving Run other than by completing: the channel with its restart values, and what becomes of the other one. -/
theorem finish_restart (s : State) (i : Bool) {new : DmaStat} (err : DmaErr) (irq : Bool) (h : new ≠ .complete) :
    let c := s.chan i
    let o := s.chan !i
    let t := finish s i new err irq
    t.chan i = { c with
        isaddr := BitVec.ofNat 20 c.wIntOff
        esaddr := c.wExtAddr
        tcnt := BitVec.ofNat 18 c.wCount
        stwecnt := BitVec.ofNat 16 (restartRow s c)
        stat := new
        err := err
        int := c.int || irq }
      ∧ (o.stat = .pended → t.chan (!i) = enteredRun s o)
      ∧ (o.stat ≠ .pended → t.chan (!i) = o)
      ∧ t = { s with dma := t.dma } := by
  have hni : ¬ i = !i := by cases i <;> decide
  intro c o t
  have ht : t = startPended (s.setChan i { c with
        isaddr := BitVec.ofNat 20 c.wIntOff
        esaddr := c.wExtAddr
        tcnt := BitVec.ofNat 18 c.wCount
        stwecnt := BitVec.ofNat 16 (restartRow s c)
        stat := new
        err := err
        int := c.int || irq }) i := by
    simp [t, finish, h, c]
  rw [ht]
  refine ⟨by rw [startPended_chan]; simp, fun ho => ?_, fun ho => ?_, ?_⟩
  · rw [startPended, State.chan_setChan, if_neg hni, if_pos ho, enterRun, State.chan_setChan, if_pos rfl]
    exact congrArg (enteredRun s) ((State.chan_setChan ..).trans (if_neg hni))
  · rw [startPended, State.chan_setChan, if_neg hni, if_neg ho, State.chan_setChan, if_neg hni]
  · rw [startPended]; split <;> rfl

/-- Leaving Run keeps DMA_GCSW.EN, DMA_CHNSEL and the order of the starts. -/
theorem finish_control (s : State) (i : Bool) (new : DmaStat) (err : DmaErr) (irq : Bool) :
    let t := finish s i new err irq
    t.dma.en = s.dma.en ∧ t.dma.chan = s.dma.chan ∧ t.dma.nextSeq = s.dma.nextSeq := by
  have hset : ∀ (u : State) (j : Bool) (c : DmaChan),
      (u.setChan j c).dma.en = u.dma.en ∧ (u.setChan j c).dma.chan = u.dma.chan
        ∧ (u.setChan j c).dma.nextSeq = u.dma.nextSeq := fun u j c => by
    simp [State.setChan]
  have hp : ∀ (u : State) (j : Bool), (startPended u j).dma.en = u.dma.en
      ∧ (startPended u j).dma.chan = u.dma.chan ∧ (startPended u j).dma.nextSeq = u.dma.nextSeq := fun u j => by
    unfold startPended
    split
    · exact hset _ _ _
    · exact ⟨rfl, rfl, rfl⟩
  intro t
  simp only [t, finish, hp]
  split <;> exact hset _ _ _

/-- One element keeps DMA_GCSW.EN, DMA_CHNSEL and the order of the starts. -/
theorem element_control (s : State) (i : Bool) :
    (element s i).dma.en = s.dma.en ∧ (element s i).dma.chan = s.dma.chan
      ∧ (element s i).dma.nextSeq = s.dma.nextSeq := by
  have hc := (copyElement_moved s (s.chan i)).2
  unfold element
  dsimp only
  split
  · next t ht =>
    replace hc : t.dma = s.dma := by rw [ht] at hc; exact hc
    simp [finish_control, hc]
  · next t ht =>
    replace hc : t.dma = s.dma := by rw [ht] at hc; exact hc
    split
    · simp [finish_control, State.setChan, hc]
    · split
      · split
        · simp [finish_control, State.setChan, hc]
        · simp [finish_control, (corruptLm_moved _ _).2, State.setChan, hc]
      · simp [State.setChan, hc]

/-- The further elements of a Stop keep DMA_GCSW.EN, DMA_CHNSEL and the order of the starts. -/
theorem drain_control (i : Bool) (n : Nat) (s : State) :
    (drain i n s).dma.en = s.dma.en ∧ (drain i n s).dma.chan = s.dma.chan
      ∧ (drain i n s).dma.nextSeq = s.dma.nextSeq := by
  induction n generalizing s with
  | zero => exact ⟨rfl, rfl, rfl⟩
  | succ n ih =>
    rw [drain]
    split
    · have h := element_control s i
      exact ⟨(ih _).1.trans h.1, (ih _).2.1.trans h.2.1, (ih _).2.2.trans h.2.2⟩
    · exact ⟨rfl, rfl, rfl⟩

/-- STWECNT after leaving Run, where R722 gives it (U25 leaves it free at Complete under DMA_2DET). -/
theorem finish_stwecnt (s : State) (i : Bool) (new : DmaStat) (err : DmaErr) (irq : Bool)
    (h : new ≠ .complete ∨ s.cfg.dma2det = false) :
    ((finish s i new err irq).chan i).stwecnt = BitVec.ofNat 16 (restartRow s (s.chan i)) := by
  have hf : ¬(new = .complete ∧ s.cfg.dma2det = true) := by rcases h with h | h <;> simp [h]
  simp [finish, hf]

/-- The engine's run is a finite sequence of elements, each of the channel then in Run. -/
theorem dmaRun_trace (n : Nat) (s : State) :
    ∃ (m : Nat) (f : Nat → State), f 0 = s ∧ dmaRun n s = f m
      ∧ ∀ k < m, ∃ j, (f k).running = some j ∧ f (k + 1) = element (f k) j := by
  induction n generalizing s with
  | zero => exact ⟨0, fun _ => s, rfl, rfl, fun k hk => by omega⟩
  | succ n ih =>
    cases hr : s.running with
    | none => exact ⟨0, fun _ => s, rfl, by rw [dmaRun, hr], fun k hk => by omega⟩
    | some i =>
      obtain ⟨m, f, h0, hm, hf⟩ := ih (element s i)
      refine ⟨m + 1, fun k => Nat.casesOn k s f, rfl, by rw [dmaRun, hr]; exact hm, fun k hk => ?_⟩
      cases k with
      | zero => exact ⟨i, hr, h0⟩
      | succ k => exact hf k (by omega)

/-- The elements after a Stop: a finite sequence of the channel's, while it is in Run. -/
theorem drain_trace (i : Bool) (n : Nat) (s : State) :
    ∃ (m : Nat) (f : Nat → State), m ≤ n ∧ f 0 = s ∧ drain i n s = f m
      ∧ ∀ k < m, ((f k).chan i).stat = .run ∧ f (k + 1) = element (f k) i := by
  induction n generalizing s with
  | zero => exact ⟨0, fun _ => s, le_rfl, rfl, rfl, fun k hk => by omega⟩
  | succ n ih =>
    by_cases hr : (s.chan i).stat = .run
    · obtain ⟨m, f, hmn, h0, hm, hf⟩ := ih (element s i)
      refine ⟨m + 1, fun k => Nat.casesOn k s f, by omega, rfl, by rw [drain, if_pos hr]; exact hm, fun k hk => ?_⟩
      cases k with
      | zero => exact ⟨hr, h0⟩
      | succ k => exact hf k (by omega)
    · exact ⟨0, fun _ => s, Nat.zero_le _, rfl, by rw [drain, if_neg hr], fun k hk => by omega⟩

/-- A Stop of a channel in Run: some further elements, at most those that remain, then, if it is still in Run, it leaves
it with its restart values. -/
theorem dmaStop_run {s : State} {i : Bool} (hr : (s.chan i).stat = .run) :
    ∃ (n : Nat) (f : Nat → State), f 0 = s.drawn ∧ n ≤ (s.chan i).wCount ∧ (f n).cfg = s.cfg
      ∧ (∀ k < n, ((f k).chan i).stat = .run ∧ f (k + 1) = element (f k) i)
      ∧ dmaStop s i =
        if ((f n).chan i).stat = .run then
          finish (f n) i .stopError ((f n).chan i).err ((f n).chan i).sie
        else f n := by
  obtain ⟨m, f, hmn, h0, hm, hf⟩ := drain_trace i (stopCount s i) s.drawn
  have hk := State.sansDma_keeps (drain_moved i (stopCount s i) s.drawn).1
  refine ⟨m, f, h0, hmn.trans (Nat.le_of_lt_succ (Nat.mod_lt _ (Nat.succ_pos _))), ?_, hf, ?_⟩
  · rw [← hm]; exact hk.1
  · rw [dmaStop, if_pos hr, ← hm]

/-- Leaving Run: what the channel holds, what becomes of the other one, and that nothing else changes but, at
Complete, the draws. -/
theorem finish_spec (s : State) (i : Bool) (new : DmaStat) (err : DmaErr) (irq : Bool) :
    let c := s.chan i
    let t := finish s i new err irq
    (t.chan i).stat = new ∧ (t.chan i).err = err ∧ (t.chan i).int = (c.int || irq)
      ∧ (t.chan i).tcnt = BitVec.ofNat 18 c.wCount ∧ (t.chan i).esaddr = c.wExtAddr
      ∧ (t.chan i).isaddr = BitVec.ofNat 20 c.wIntOff ∧ (t.chan i).setup = c.setup ∧ (t.chan i).wecnt = c.wecnt
      ∧ (t.chan i).htstr = c.htstr
      ∧ ((s.chan !i).stat = .pended → t.chan (!i) = enteredRun s (s.chan !i))
      ∧ ((s.chan !i).stat ≠ .pended → t.chan (!i) = s.chan (!i))
      ∧ t = { s with dma := t.dma, draws := t.draws }
      ∧ (new ≠ .complete → t.draws = s.draws) := by
  have hni : ¬ i = !i := by cases i <;> decide
  intro c t
  have key : ∀ (c' : DmaChan) (b : Bool),
      let v := if b then (s.setChan i c').drawn else s.setChan i c'
      (startPended v i).chan i = c'
        ∧ ((s.chan !i).stat = .pended → (startPended v i).chan (!i) = enteredRun s (s.chan !i))
        ∧ ((s.chan !i).stat ≠ .pended → (startPended v i).chan (!i) = s.chan (!i))
        ∧ startPended v i = { s with dma := (startPended v i).dma, draws := (startPended v i).draws }
        ∧ (b = false → (startPended v i).draws = s.draws) := by
    intro c' b v
    have hv : ∀ j, v.chan j = (s.setChan i c').chan j := fun j => by simp only [v]; split <;> rfl
    refine ⟨by rw [startPended_chan, hv]; simp, fun h => ?_, fun h => ?_, ?_, fun h => ?_⟩
    · unfold startPended
      rw [hv, State.chan_setChan, if_neg hni, if_pos h, enterRun, State.chan_setChan, if_pos rfl, hv,
        State.chan_setChan, if_neg hni]
      simp only [v]
      split <;> rfl
    · unfold startPended
      rw [hv, State.chan_setChan, if_neg hni, if_neg h, hv, State.chan_setChan, if_neg hni]
    · unfold startPended
      split <;> (simp only [v, enterRun]; split <;> rfl)
    · subst h
      unfold startPended
      split <;> rfl
  obtain ⟨a1, a2, a3, a4, a5⟩ := key { c with
    isaddr := BitVec.ofNat 20 c.wIntOff
    esaddr := c.wExtAddr
    tcnt := BitVec.ofNat 18 c.wCount
    stwecnt :=
      if new = .complete ∧ s.cfg.dma2det = true then field (Config.freeWord s.draws 0) 0 16
      else BitVec.ofNat 16 (restartRow s c)
    stat := new
    err := err
    int := c.int || irq } (decide (new = .complete ∧ s.cfg.dma2det = true))
  simp only [decide_eq_true_eq] at a1 a2 a3 a4 a5
  have ht : t = startPended (if new = .complete ∧ s.cfg.dma2det = true then _ else _) i := rfl
  rw [ht, a1]
  exact ⟨rfl, rfl, rfl, rfl, rfl, rfl, rfl, rfl, rfl, a2, a3, a4, fun h => a5 (by simp [h])⟩

/-- The element sizes. -/
theorem elemSize_cases (c : DmaChan) :
    c.elemSize = 2 ^ (c.setup.extractLsb' 2 2).toNat
      ∧ (c.elemSize = 1 ∨ c.elemSize = 2 ∨ c.elemSize = 4 ∨ c.elemSize = 8) := by
  simp only [DmaChan.elemSize, Nat.one_shiftLeft, field, true_and]
  have hlt := (c.setup.extractLsb' 2 2).isLt
  obtain h | h | h | h : (c.setup.extractLsb' 2 2).toNat = 0 ∨ (c.setup.extractLsb' 2 2).toNat = 1
    ∨ (c.setup.extractLsb' 2 2).toNat = 2 ∨ (c.setup.extractLsb' 2 2).toNat = 3 := by omega
  all_goals rw [h]; simp

/-- Bytes that do not pass the end of the local memory go to consecutive places of it. -/
theorem setLmBytes_eq (c : DmaChan) (bytes : List Byte) (off : Nat) (s : State)
    (h : off + bytes.length ≤ dmaLimit s c) :
    setLmBytes c off bytes s =
      if c.toDlm then { s with dlm := s.dlm.writeAll (s.dmaBank off) bytes }
      else { s with ilm := s.ilm.writeAll off bytes } := by
  induction bytes generalizing off s with
  | nil => simp [setLmBytes, LocalMem.writeAll]
  | cons b r ih =>
    simp only [List.length_cons] at h
    have h1 : setLmByte s c off b =
        if c.toDlm then { s with dlm := s.dlm.write (s.dmaBank off) b }
        else { s with ilm := s.ilm.write off b } := by
      simp only [setLmByte]
      rw [Nat.mod_eq_of_lt (by omega)]
    have hb : s.dmaBank (off + 1) = s.dmaBank off + 1 := by
      simp only [State.dmaBank]
      split <;> simp [Nat.add_assoc]
    show setLmBytes c (off + 1) r (setLmByte s c off b) = _
    rw [h1]
    cases hd : c.toDlm
    · show setLmBytes c (off + 1) r { s with ilm := s.ilm.write off b } = { s with ilm := _ }
      have := ih (off + 1) { s with ilm := s.ilm.write off b } (show off + 1 + r.length ≤ dmaLimit s c by omega)
      rw [hd] at this
      exact this
    · show setLmBytes c (off + 1) r { s with dlm := s.dlm.write (s.dmaBank off) b } = { s with dlm := _ }
      have := ih (off + 1) { s with dlm := s.dlm.write (s.dmaBank off) b }
        (show off + 1 + r.length ≤ dmaLimit s c by omega)
      rw [hd] at this
      exact this.trans (congrArg (fun x => { s with dlm := (s.dlm.write (s.dmaBank off) b).writeAll x r }) hb)

theorem setLmBytes_append (c : DmaChan) (l r : List Byte) (off : Nat) (s : State) :
    setLmBytes c off (l ++ r) s = setLmBytes c (off + l.length) r (setLmBytes c off l s) := by
  induction l generalizing off s with
  | nil => rfl
  | cons b l ih =>
    simp only [List.cons_append, setLmBytes, List.length_cons, Nat.add_comm l.length 1, ← Nat.add_assoc]
    exact ih _ _

theorem writeBytes_append (cfg : Config) (l r : List Byte) (m : Memory) (pa : Nat) :
    writeBytes cfg m pa (l ++ r) = writeBytes cfg (writeBytes cfg m pa l) (pa + l.length) r := by
  induction l generalizing m pa with
  | nil => rfl
  | cons b l ih =>
    simp only [List.cons_append, writeBytes, List.length_cons, Nat.add_comm l.length 1, ← Nat.add_assoc]
    split <;> exact ih _ _

theorem copyChunk_out {s : State} {c : DmaChan} {off pa n : Nat} (ho : c.outward = true) (hr : s.ramAt pa n) :
    copyChunk s c off pa n =
      some { s with
        mem := writeBytes s.cfg s.mem pa ((List.range n).map (fun j => lmByte s c (off + j))) } := by
  rw [copyChunk, if_pos ho, busWrite_ram]
  simpa using hr

theorem copyChunk_in {s : State} {c : DmaChan} {off pa n : Nat} (ho : c.outward = false) (hr : s.ramAt pa n) :
    copyChunk s c off pa n =
      some (setLmBytes c off ((List.range n).map (fun i => s.mem.read (busAddr (pa + i)))) s) := by
  rw [copyChunk, if_neg (by simp [ho]), busRead_ram hr]

/-- An outward element that memory serves. -/
theorem copyElement_out {s : State} {c : DmaChan} (ho : c.outward = true)
    (hr : s.ramAt c.wExtAddr.toNat c.elemSize) :
    copyElement s c =
      ({ s with
        mem := writeBytes s.cfg s.mem c.wExtAddr.toNat
          ((List.range c.elemSize).map (fun j => lmByte s c (c.wIntOff + j))) }, false) := by
  simp only [copyElement]
  obtain h | h | h | h := (elemSize_cases c).2
  on_goal 4 =>
    rw [h] at hr ⊢
    rw [copyChunk_out ho (fun i hi => hr i (by omega))]
    dsimp only
    rw [if_neg (by omega), copyChunk_out ho (fun i hi => by rw [Nat.add_assoc]; exact hr (4 + i) (by omega))]
    dsimp only
    have : (List.range 8).map (fun j => lmByte s c (c.wIntOff + j)) =
        (List.range (min 8 4)).map (fun j => lmByte s c (c.wIntOff + j))
          ++ (List.range 4).map (fun j => lmByte s c (c.wIntOff + 4 + j)) := by
      simp [List.range, List.range.loop, Nat.add_assoc]
    rw [this, writeBytes_append]
    rfl
  all_goals
    rw [h] at hr ⊢
    rw [copyChunk_out ho (by simpa using hr)]
    rfl

/-- An inward element that memory serves and that lies inside the local memory. -/
theorem copyElement_in {s : State} {c : DmaChan} (ho : c.outward = false)
    (hr : s.ramAt c.wExtAddr.toNat c.elemSize) (hl : c.wIntOff + c.elemSize ≤ dmaLimit s c) :
    let bytes := (List.range c.elemSize).map (fun i => s.mem.read (busAddr (c.wExtAddr.toNat + i)))
    copyElement s c =
      (if c.toDlm then { s with dlm := s.dlm.writeAll (s.dmaBank c.wIntOff) bytes }
        else { s with ilm := s.ilm.writeAll c.wIntOff bytes }, false) := by
  intro bytes
  rw [← setLmBytes_eq c bytes c.wIntOff s (by simpa [bytes] using hl)]
  simp only [copyElement, bytes]
  obtain h | h | h | h := (elemSize_cases c).2
  on_goal 4 =>
    rw [h] at hr hl ⊢
    rw [copyChunk_in ho (fun i hi => hr i (by omega))]
    dsimp only
    set b1 := (List.range (min 8 4)).map (fun i => s.mem.read (busAddr (c.wExtAddr.toNat + i))) with hb1
    have hl1 : b1.length = 4 := by simp [hb1]
    have e := setLmBytes_eq c b1 c.wIntOff s (by rw [hl1]; omega)
    have ecfg : (setLmBytes c c.wIntOff b1 s).cfg = s.cfg ∧ (setLmBytes c c.wIntOff b1 s).mem = s.mem := by
      rw [e]
      split <;> exact ⟨rfl, rfl⟩
    rw [if_neg (by omega),
      copyChunk_in ho (fun i hi => by rw [ecfg.1, Nat.add_assoc]; exact hr (4 + i) (by omega)), ecfg.2]
    dsimp only
    have : (List.range 8).map (fun i => s.mem.read (busAddr (c.wExtAddr.toNat + i))) =
        b1 ++ (List.range 4).map (fun i => s.mem.read (busAddr (c.wExtAddr.toNat + 4 + i))) := by
      simp [hb1, List.range, List.range.loop, Nat.add_assoc]
    rw [this, setLmBytes_append, hl1]
  all_goals
    rw [h] at hr ⊢
    rw [copyChunk_in ho (by simpa using hr)]
    rfl

/-- An element whose bytes moved without a bus error: the working values advance, and the channel leaves Run after the
last element or past the end of the local memory. -/
theorem element_eq {s : State} {i : Bool} {u : State} {c' : DmaChan} (h : copyElement s (s.chan i) = (u, false))
    (hc : { s.chan i with
      wIntOff := (s.chan i).wIntOff + (s.chan i).elemSize
      wExtAddr := (s.chan i).wExtAddr + BitVec.ofNat 32 (nextStride s (s.chan i)).1
      wCount := (s.chan i).wCount - 1
      wRow := (nextStride s (s.chan i)).2 } = c') :
    element s i =
      if c'.wCount = 0 then finish (u.setChan i c') i .complete (s.chan i).err (s.chan i).cie
      else if dmaLimit s (s.chan i) ≤ c'.wIntOff then
        finish (if (s.chan i).outward then u.setChan i c' else corruptLm (u.setChan i c') (s.chan i)) i .stopError
          { (s.chan i).err with ioor := true } (s.chan i).eie
      else u.setChan i c' := by
  subst hc
  unfold element
  dsimp only
  rw [h]

/-- After the further elements of a Stop the channel is in Run, or has left it by an error or by its last element. -/
theorem drain_ends (i : Bool) (n : Nat) {s : State}
    (h : (s.chan i).stat = .run ∨ (s.chan i).stat = .stopError ∨ (s.chan i).stat = .complete) :
    ((drain i n s).chan i).stat = .run ∨ ((drain i n s).chan i).stat = .stopError
      ∨ ((drain i n s).chan i).stat = .complete := by
  induction n generalizing s with
  | zero => exact h
  | succ n ih =>
    unfold drain
    split
    · next hr =>
      apply ih
      unfold element
      dsimp only
      split
      · exact .inr (.inl (finish_spec ..).1)
      · split
        · exact .inr (.inr (finish_spec ..).1)
        · split
          · exact .inr (.inl (finish_spec ..).1)
          · exact .inl (by simp [hr])
    · exact h

end Sys2Proof.Machine
end

