-- ==== Sys2Proof/Laws/SysRegs.lean ====
section
/-! SUPPORT. What a write to a system register can change. -/

namespace Sys2Proof.Machine

/-- The state without what a write to a system register may change. -/
def State.sansSr (s : State) : State :=
  { s with
    ir := .reset s.cfg .cold
    mr := .reset s.cfg
    pfm := ⟨0#32, 0#32, 0#32, 0#32⟩
    misc := ⟨0#32, 0#32, 0#32, 0#32⟩
    edm := Vector.replicate 48 0#32
    tlb := ⟨[], .flushed 0⟩
    dma := .reset
    mem := []
    ilm := ⟨[], none⟩
    dlm := ⟨[], none⟩
    devLog := []
    draws := 0 }

/-- What a write to a system register may do: the parts `sansSr` blanks, the TLB staying well formed and the memories
canonical. -/
def State.srWritten (s t : State) : Prop :=
  t.sansSr = s.sansSr ∧ (s.tlbOk → t.tlbOk) ∧ (s.memoryOk → t.memoryOk)

/-- What `sansSr` keeps. -/
theorem State.sansSr_keeps {s t : State} (h : t.sansSr = s.sansSr) :
    t.cfg = s.cfg ∧ t.gpr = s.gpr ∧ t.d0 = s.d0 ∧ t.d1 = s.d1 ∧ t.pc = s.pc ∧ t.prevPc = s.prevPc ∧ t.itlb = s.itlb
      ∧ t.mpu = s.mpu ∧ t.env = s.env ∧ t.pendImp = s.pendImp ∧ t.stepEvt = s.stepEvt ∧ t.note = s.note := by
  simp only [State.sansSr, State.mk.injEq] at h
  tauto

theorem State.srWritten_of_dmaMoved {s t : State} (h : s.dmaMoved t) : s.srWritten t := by
  have hk := State.sansDma_keeps h.1
  have htlb : t.tlb = s.tlb := by tauto
  have hcfg : t.cfg = s.cfg := by tauto
  refine ⟨congrArg (fun u : State => { u with
    ir := .reset u.cfg .cold
    mr := .reset u.cfg
    pfm := ⟨0#32, 0#32, 0#32, 0#32⟩
    misc := ⟨0#32, 0#32, 0#32, 0#32⟩
    edm := Vector.replicate 48 0#32
    tlb := ⟨[], .flushed 0⟩ }) h.1, fun hs => ?_, h.2⟩
  rw [State.tlbOk, htlb, hcfg]
  exact hs

theorem State.srWritten_refl (s : State) : s.srWritten s := ⟨rfl, id, id⟩

theorem writeDlmb_written (s : State) (v : Word) : s.srWritten (writeDlmb s v) := by
  unfold writeDlmb
  dsimp only
  split
  · exact ⟨rfl, id, id⟩
  · exact ⟨rfl, id, fun h => ⟨h.1, h.2.1, LocalMem.lost_wf _⟩⟩

theorem writeSdz_written (s : State) (v : Word) : s.srWritten (writeSdz s v) := by
  unfold writeSdz
  dsimp only
  split
  · exact ⟨rfl, id, id⟩
  · exact ⟨rfl, fun _ => ⟨rfl, fun p hp => by cases hp⟩, id⟩

theorem lmWritten_sat {t : State} {P : State → Prop} (h : P t) : (lmWritten t).Sat P := by
  unfold lmWritten
  split
  · trivial
  · exact h

/-- A write to a system register changes no general register, not pc, not the environment, not what is pending. -/
theorem writeSr_frame (s : State) (sr : Sr) (v : Word) : (writeSr s sr v).Sat s.srWritten := by
  cases sr <;> simp only [writeSr] <;>
    first
      | exact ⟨rfl, id, id⟩
      | (split <;> exact ⟨rfl, id, id⟩)
      | exact lmWritten_sat ⟨rfl, id, id⟩
      | exact lmWritten_sat (writeDlmb_written _ _)
      | exact writeSdz_written _ _
      | exact State.srWritten_of_dmaMoved (dmaEnable_moved _ _)
      | exact State.srWritten_of_dmaMoved (dmaSetupWrite_moved _ _)
      | exact (dmaCommand_moved _ _).mono fun _ h => State.srWritten_of_dmaMoved h
      | (split
         · exact ⟨rfl, id, id⟩
         · exact State.srWritten_of_dmaMoved (dmaSetupWrite_moved _ _))

/-- Finding the register of an index changes nothing. -/
theorem accessSr_frame (s : State) (idx : BitVec 10) : (accessSr s idx).Sat (fun t => t = s) := by
  unfold accessSr
  split
  · split
    · split <;> simp
    · simp
  · simp

/-- The register an access reaches: allowed, named and existing (R642, R643). -/
theorem accessSr_ok {s : State} {idx : BitVec 10} {sr : Sr} (ha : srAccessAllowed s idx = true)
    (hn : srOf idx = some sr) (he : srExists s.cfg sr = true) : accessSr s idx = .ok sr s := by
  rw [accessSr, if_pos ha]
  simp [hn, he]

/-- MTSR completes where its write does. -/
theorem mtsr_ok {s t : State} {ra : Reg} {idx : BitVec 10} {sr : Sr} (ha : srAccessAllowed s idx = true)
    (hn : srOf idx = some sr) (he : srExists s.cfg sr = true) (h : writeSr s sr (s.x ra) = .ok () t) :
    exec (.mtsr ra idx) s = .next (t.retire s.pc s.next4) := by
  simp only [exec, execMtsr, accessSr_ok ha hn he, Res.bind_ok, h, complete]

end Sys2Proof.Machine
end

