-- ==== Sys2Proof/Laws/Cycle.lean ====
section
/-! SUPPORT. The parts of a step: sampling, the boundary, the performance monitor, and how a step falls into cases. -/

namespace Sys2Proof.Machine

/-- Sampling the inputs changes the environment, the pending imprecise exceptions and the step's note. -/
theorem sample_frame (s : State) :
    (sample s).1 = { s with note := .empty, env := (sample s).1.env, pendImp := (sample s).1.pendImp } := by
  unfold sample
  split
  · rfl
  · unfold withBusReport
    dsimp only
    split <;> rfl

/-- With no input left the lines hold and nothing is reported. -/
theorem sample_idle {s : State} (h : s.env.inputs = []) : sample s = ({ s with note := .empty }, none) := by
  unfold sample; rw [h]

/-- An event of the boundary changes only what it consumes. -/
theorem boundary_frame {s t : State} {c : Cause} (h : boundary s = some (c, t)) :
    t = { s with stepEvt := t.stepEvt, env := t.env, pendImp := t.pendImp } := by
  unfold boundary at h
  split at h
  · simp only [Option.some.injEq, Prod.mk.injEq] at h
    rw [← h.2]
  · split at h
    · simp only [Option.some.injEq, Prod.mk.injEq] at h
      rw [← h.2]
    · split at h
      · simp only [Option.some.injEq, Prod.mk.injEq] at h
        rw [← h.2]
      · split at h
        · simp only [Option.some.injEq, Prod.mk.injEq] at h
          rw [← h.2]
        · cases h

/-- The performance monitor changes its own registers and the draws. -/
theorem account_frame (s : State) (w : Work) (t : State) :
    account s w t = { t with pfm := (account s w t).pfm, draws := (account s w t).draws } := by
  unfold account
  dsimp only
  split <;> rfl

/-- With no counter counting, the performance monitor changes nothing. -/
theorem account_off {s t : State} {w : Work}
    (h : ∀ i < 3, counting t.pfm.pfmCtl s.pom i = false) : account s w t = t := by
  unfold account
  dsimp only
  rw [if_neg]
  simp [h 0 (by decide), h 1 (by decide), h 2 (by decide)]

/-- Recording the single-step event changes it only. -/
theorem recordStep_frame (h : Bool) (t : State) : recordStep h t = { t with stepEvt := (recordStep h t).stepEvt } := by
  unfold recordStep
  split <;> rfl

/-- The single-step event is recorded exactly when stepping was on and the instruction completed (R837). -/
theorem recordStep_eq (h : Bool) (t : State) :
    recordStep h t = { t with stepEvt := t.stepEvt || (h && t.note.completed) } := by
  unfold recordStep
  cases hc : h && t.note.completed
  · simp
  · simp

/-- At its boundary a step has an empty note, and the parts of the state that neither the inputs nor the DMA engine
change. -/
theorem atBoundary_frame (s : State) :
    let b := s.atBoundary
    b = { s with
      note := .empty
      env := b.env
      pendImp := b.pendImp
      dma := b.dma
      mem := b.mem
      ilm := b.ilm
      dlm := b.dlm
      devLog := b.devLog
      draws := b.draws } := by
  intro b
  have hk := State.sansDma_keeps (dmaBurst_moved (sample s).1).1
  have henv : b.env = (sample s).1.env := by simp only [b, State.atBoundary]; tauto
  have hpend : b.pendImp = (sample s).1.pendImp := by simp only [b, State.atBoundary]; tauto
  rw [henv, hpend]
  exact (State.eq_of_sansDma (dmaBurst_moved (sample s).1).1).trans (by
    rw [sample_frame s]; simp only [← sample_frame s]; rfl)

/-- The step's note at the boundary says that nothing has completed. -/
@[simp] theorem atBoundary_completed (s : State) : s.atBoundary.note.completed = false := by
  rw [atBoundary_frame s]; rfl

/-- A step that comes to its boundary is what `runSampled` makes of the state there. -/
theorem step_goesOn {s : State} (h : s.goesOn) : step s = runSampled exec s.atBoundary := by
  obtain ⟨h1, h2⟩ := h
  unfold step runStep State.atBoundary
  rcases hs : sample s with ⟨t, k⟩
  rw [hs] at h1 h2
  dsimp only at h1 h2
  subst h1
  simp [h2]

/-- A step enters the event of its boundary. -/
theorem step_event {s t : State} {c : Cause} (h : s.goesOn) (hb : boundary s.atBoundary = some (c, t)) :
    step s = .next (account s.atBoundary .none (enter c s.atBoundary.pc t)) := by
  rw [step_goesOn h, runSampled, hb]

/-- Without an event at its boundary a step runs an instruction. -/
theorem step_quiet {s : State} (h : s.goesOn) (hb : boundary s.atBoundary = none) :
    step s = runInsn exec s.atBoundary := by
  rw [step_goesOn h, runSampled, hb]

/-- The three ways a step ends in a next state (R851): a reset; an event of the boundary; an instruction, fetched and
executed or stopped at its fetch. -/
theorem step_cases {s u : State} (h : step s = .next u) :
    (∃ kind, (sample s).2 = some kind ∧ u = resetState (sample s).1 kind)
      ∨ (∃ c t, dmaBlocked (sample s).1 = false ∧ boundary (dmaBurst (sample s).1) = some (c, t)
          ∧ u = account (dmaBurst (sample s).1) .none (enter c (dmaBurst (sample s).1).pc t))
      ∨ (dmaBlocked (sample s).1 = false ∧ runInsn exec (dmaBurst (sample s).1) = .next u) := by
  unfold step runStep at h
  rcases hs : sample s with ⟨t, k⟩
  rw [hs] at h
  cases k with
  | some kind =>
    simp only [Host.Outcome.next.injEq] at h
    exact .inl ⟨kind, rfl, h.symm⟩
  | none =>
    dsimp only at h ⊢
    by_cases hd : dmaBlocked t = true
    · rw [if_pos hd] at h; cases h
    rw [if_neg hd] at h
    rw [Bool.not_eq_true] at hd
    simp only [runSampled] at h
    rcases hb : boundary (dmaBurst t) with _ | ⟨c, v⟩
    · rw [hb] at h
      exact .inr (.inr ⟨hd, h⟩)
    · rw [hb] at h
      simp only [Host.Outcome.next.injEq] at h
      exact .inr (.inl ⟨c, v, hd, rfl, h.symm⟩)

/-- The ways one instruction ends in a next state: its fetch raised an exception, or it was fetched and executed. -/
theorem runInsn_cases {ex : Instr → State → Host.Outcome State Fault Refusal} {s u : State}
    (h : runInsn ex s = .next u) :
    (∃ c t, fetchInsn s = .raise c t ∧ u = account s .none (recordStep s.effHss (enter c s.pc t)))
      ∨ (∃ f t v, fetchInsn s = .ok f t ∧ execFetched ex (classify s.cfg f) t = .next v
          ∧ u = account s (classify s.cfg f).work (recordStep s.effHss v)) := by
  unfold runInsn at h
  rcases hf : fetchInsn s with ⟨f, t⟩ | ⟨c, t⟩ | e | e
  · rw [hf] at h
    dsimp only at h
    unfold afterInsn at h
    split at h
    · next v hv =>
      simp only [Host.Outcome.next.injEq] at h
      exact .inr ⟨f, t, v, rfl, hv, h.symm⟩
    · cases h
    · cases h
  · rw [hf] at h
    simp only [afterInsn, complete_raise, Host.Outcome.next.injEq] at h
    exact .inl ⟨c, t, rfl, h.symm⟩
  · rw [hf] at h; cases h
  · rw [hf] at h; cases h

/-- Two states agree on everything a step's bookkeeping leaves alone. -/
def State.sameCore (s t : State) : Prop :=
  t.cfg = s.cfg ∧ t.ir = s.ir ∧ t.mr = s.mr ∧ t.tlb = s.tlb ∧ t.dma = s.dma ∧ t.mem = s.mem ∧ t.ilm = s.ilm
    ∧ t.dlm = s.dlm

/-- A property of the registers, the TLB, the DMA engine and the memories that every part of a step keeps is kept by
the step. -/
theorem step_keeps {P : State → Prop} (hsame : ∀ s t, s.sameCore t → P s → P t)
    (hent : ∀ c pc s, P s → P (enter c pc s)) (hreset : ∀ s kind, P s → P (resetState s kind))
    (hburst : ∀ s, P s → P (dmaBurst s)) (hacc : ∀ s t, s.accessed t → P s → P t)
    (hzero : ∀ s t, execZeroWord s = .next t → P s → P t)
    (hexec : ∀ i s t, exec i s = .next t → P s → P t) {s u : State} (h : step s = .next u) (hs : P s) : P u := by
  have hsample : P (sample s).1 := by
    refine hsame s _ ?_ hs
    rw [sample_frame]
    exact ⟨rfl, rfl, rfl, rfl, rfl, rfl, rfl, rfl⟩
  have haccount : ∀ v w t, P t → P (account v w t) := fun v w t ht => by
    refine hsame t _ ?_ ht
    rw [account_frame]
    exact ⟨rfl, rfl, rfl, rfl, rfl, rfl, rfl, rfl⟩
  have hrecord : ∀ b t, P t → P (recordStep b t) := fun b t ht => by
    refine hsame t _ ?_ ht
    rw [recordStep_frame]
    exact ⟨rfl, rfl, rfl, rfl, rfl, rfl, rfl, rfl⟩
  obtain ⟨kind, -, rfl⟩ | ⟨c, t, -, hb, rfl⟩ | ⟨-, hr⟩ := step_cases h
  · exact hreset _ _ hsample
  · refine haccount _ _ _ (hent _ _ _ (hsame (dmaBurst (sample s).1) _ ?_ (hburst _ hsample)))
    rw [boundary_frame hb]
    exact ⟨rfl, rfl, rfl, rfl, rfl, rfl, rfl, rfl⟩
  · have hb := hburst _ hsample
    obtain ⟨c, t, hf, rfl⟩ | ⟨f, t, v, hf, hv, rfl⟩ := runInsn_cases hr
    · exact haccount _ _ _ (hrecord _ _ (hent _ _ _ (hacc _ _ ((fetchInsn_frame _).raised hf) hb)))
    · have ht := hacc _ _ ((fetchInsn_frame _).ok hf) hb
      refine haccount _ _ _ (hrecord _ _ ?_)
      revert hv
      unfold execFetched
      split
      · exact fun hv => hexec _ _ _ hv ht
      · exact fun hv => hzero _ _ hv ht
      · intro hv
        rw [complete_raise, Host.Outcome.next.injEq] at hv
        exact hv ▸ hent _ _ _ ht

end Sys2Proof.Machine
end

