-- ==== Sys2Proof/Laws/Invariant.lean ====
section
/-! SUPPORT. What to show of a property so that every instruction keeps it. -/

namespace Sys2Proof.Machine

/-- A property of the registers, the TLB, the DMA engine and the memories that every named operation keeps is kept by
every instruction. -/
theorem exec_keeps {P : State → Prop} (hsame : ∀ s t, s.sameCore t → P s → P t)
    (hent : ∀ c pc s, P s → P (enter c pc s))
    (hsto : ∀ s t, s.stored t → P s → P t)
    (hsr : ∀ s sr v, P s → (writeSr s sr v).Sat P)
    (hbe : ∀ s b, P s → P (s.setBe b)) (hret : ∀ s, P s → P (returnState s))
    (h1 : ∀ s x, s.cfg.hasMmu = true → P s → P (tlbTargetRead s x))
    (h2 : ∀ s x, s.cfg.hasMpu = true → P s → P (mpuTargetRead s x))
    (h3 : ∀ s x, P s → P (tlbTargetWrite s x)) (h4 : ∀ s x b, P s → P (randomWriteOp s x b))
    (h5 : ∀ s x, P s → P (unlock s x)) (h6 : ∀ s x, P s → P (invalidate s x))
    (h7 : ∀ s, P s → P (flushAll s))
    {i : Instr} {s t : State} (h : exec i s = .next t) (hs : P s) : P t := by
  have hR : ∀ t pc0 next, P t → P (t.retire pc0 next) := fun t _ _ ht =>
    hsame t _ ⟨rfl, rfl, rfl, rfl, rfl, rfl, rfl, rfl⟩ ht
  have key : ∀ {r : Res Word}, r.Sat P → complete s r = .next t → P t := fun hr h => complete_keeps hr hR hent h
  have hx : ∀ u r v, P u → P (u.setX r v) := fun u _ _ hu =>
    hsame u _ ⟨rfl, rfl, rfl, rfl, rfl, rfl, rfl, rfl⟩ hu
  have hd : ∀ u r v, P u → P (u.setD r v) := fun u r _ hu =>
    hsame u _ (by cases r <;> exact ⟨rfl, rfl, rfl, rfl, rfl, rfl, rfl, rfl⟩) hu
  have hdr : ∀ u, P u → P (u.drawn) := fun u hu => hsame u _ ⟨rfl, rfl, rfl, rfl, rfl, rfl, rfl, rfl⟩ hu
  have hp : ∀ u c, P u → P (u.pend c) := fun u _ hu => hsame u _ ⟨rfl, rfl, rfl, rfl, rfl, rfl, rfl, rfl⟩ hu
  have hacc : ∀ s t, s.accessed t → P s → P t := fun s t h hp => hsto s t (State.stored_of_accessed h) hp
  have hm : ∀ r : Res Word, r.Sat P → (mmuOnly s r).Sat P := fun r hr => by
    unfold mmuOnly; split
    · exact privileged_sat hs hr
    · exact hs
  have hm2 : ∀ r r' : Res Word, (s.cfg.hasMmu = true → r.Sat P) → (s.cfg.hasMpu = true → r'.Sat P) →
      (mmuOrMpu s r r').Sat P := fun r r' hr hr' => by
    unfold mmuOrMpu; split
    · next h => exact privileged_sat hs (hr h)
    · split
      · next h => exact privileged_sat hs (hr' h)
      · exact hs
  have hdiv : ∀ sg dt a b, (divide s sg dt a b).Sat P := fun sg dt a b => by
    unfold divide
    split
    · exact hs
    · split
      · split
        · exact hs
        · exact hd _ _ _ (hdr _ hs)
      · split
        · exact hs
        · exact hd _ _ _ hs
  have hload : ∀ va rt b, (finishLoad s rt (loadWord s va b)).Sat P := fun va rt b => by
    unfold finishLoad
    exact Res.Sat.bind ((loadWord_frame s va b).mono fun u hu => hacc _ _ hu hs) fun a u hu => hx _ _ _ hu
  cases i with
  | mfsr rt sr =>
    refine key ?_ h
    exact Res.Sat.bind ((accessSr_frame s sr).mono fun u hu => hu ▸ hs) fun r u hu => hx _ _ _ hu
  | mtsr ra sr =>
    refine key ?_ h
    exact Res.Sat.bind ((accessSr_frame s sr).mono fun u hu => hu ▸ hs) fun r u hu =>
      Res.Sat.bind (hsr _ _ _ hu) fun _ v hv => hv
  | setendL => exact key (r := .ok _ _) (hbe _ _ hs) h
  | setendB => exact key (r := .ok _ _) (hbe _ _ hs) h
  | dsb => exact key (r := .ok _ _) hs h
  | isb => exact key (r := .ok _ _) hs h
  | msync sub => exact key (r := .ok _ _) hs h
  | iret => exact key (privileged_sat (r := .ok _ _) hs (hret _ hs)) h
  | cctlL1dVaWb ra => exact key (r := .ok _ _) hs h
  | brk => exact key (r := .raise _ _) hs h
  | break16 => exact key (r := .raise _ _) hs h
  | syscall => exact key (r := .raise _ _) hs h
  | trap => exact key (r := .raise _ _) hs h
  | div dt ra rb => exact key (hdiv _ _ _ _) h
  | divs dt ra rb => exact key (hdiv _ _ _ _) h
  | tlbopTrd ra => exact key (hm2 (.ok _ _) (.ok _ _) (fun h => h1 _ _ h hs) fun h => h2 _ _ h hs) h
  | tlbopTwr ra =>
    exact key (hm2 (.ok _ _) (.ok _ (mpuTargetWrite s (s.x ra))) (fun _ => h3 _ _ hs) fun _ =>
      hsame s _ ⟨rfl, rfl, rfl, rfl, rfl, rfl, rfl, rfl⟩ hs) h
  | tlbopRwr ra => exact key (hm (.ok _ _) (h4 _ _ _ hs)) h
  | tlbopRwlk ra =>
    refine key ?_ h
    split
    · exact hm (.ok _ _) (h4 _ _ _ hs)
    · exact hs
  | tlbopUnlk ra => exact key (hm (.ok _ _) (h5 _ _ hs)) h
  | tlbopInv ra => exact key (hm (.ok _ _) (h6 _ _ hs)) h
  | tlbopPb rt ra =>
    refine key (hm (.ok _ _) ?_) h
    rw [Res.sat_ok]
    unfold probe
    split
    · exact hx _ _ _ (hdr _ hs)
    · exact hx _ _ _ (hdr _ hs)
    · exact hx _ _ _ (hdr _ hs)
    · exact hp _ _ (hx _ _ _ (hdr _ hs))
  | tlbopFlua => exact key (hm (.ok _ _) (h7 _ hs)) h
  | lwVlpt rt ra imm =>
    refine key ?_ h
    split
    · exact privileged_sat hs (hload _ _ _)
    · exact hs
  | movi => exact key (r := .ok _ _) (hx _ _ _ hs) h
  | sethi => exact key (r := .ok _ _) (hx _ _ _ hs) h
  | ori => exact key (r := .ok _ _) (hx _ _ _ hs) h
  | andi => exact key (r := .ok _ _) (hx _ _ _ hs) h
  | addi => exact key (r := .ok _ _) (hx _ _ _ hs) h
  | lwi => exact key (hload _ _ _) h
  | swi rt ra imm =>
    refine key ?_ h
    exact Res.Sat.bind ((storeWord_frame _ _ _).mono fun u hu => hsto _ _ hu hs) fun _ u hu => hu
  | beqz => exact key (r := .ok _ _) hs h
  | bnez => exact key (r := .ok _ _) hs h
  | j => exact key (r := .ok _ _) hs h

/-- The same for the all-zero word. -/
theorem zeroWord_keeps {P : State → Prop} (hsame : ∀ s t, s.sameCore t → P s → P t)
    (hent : ∀ c pc s, P s → P (enter c pc s))
    (hacc : ∀ s t, s.accessed t → P s → P t) {s t : State} (h : execZeroWord s = .next t) (hs : P s) : P t := by
  have hR : ∀ t pc0 next, P t → P (t.retire pc0 next) := fun t _ _ ht =>
    hsame t _ ⟨rfl, rfl, rfl, rfl, rfl, rfl, rfl, rfl⟩ ht
  refine complete_keeps ?_ hR hent h
  split
  · exact hs
  · exact Res.Sat.bind ((loadByte_frame s _).mono fun u hu => hacc _ _ hu hs) fun a u hu =>
      hsame u _ ⟨rfl, rfl, rfl, rfl, rfl, rfl, rfl, rfl⟩ hu

end Sys2Proof.Machine
end

