-- ==== Sys2Proof/Laws/PerInstr.lean ====
section
/-! SUPPORT. Facts about every instruction as syntax, one lemma per constructor. -/

namespace Sys2Proof

open Machine

/-- How many bytes an instruction has (R570): 2 for BREAK16, none for LW_VLPT (R630), 4 for the others. -/
def byteCount : Instr → Nat
  | .break16 _ => 2
  | .lwVlpt _ _ _ => 0
  | _ => 4

/-- The encoding of an instruction has its length, and the first byte's top bit tells a 16-bit one (R570). -/
def Laws.EncodingLength.Statement (i : Instr) : Prop :=
  (encode i).length = byteCount i ∧ ((encode i).headD 0#8).msb = decide (byteCount i = 2)

/-- The top bit of the first byte of a word is the word's. -/
theorem msb_wordBytes (w : Word) : ((wordBytes w).headD 0#8).msb = w.msb := by
  simp [wordBytes, field, BitVec.msb_eq_getLsbD_last]

/-- The top bit of the first byte of a halfword is the halfword's. -/
theorem msb_halfBytes (h : Half) : ((halfBytes h).headD 0#8).msb = h.msb := by
  simp [halfBytes, field, BitVec.msb_eq_getLsbD_last]

/-- A 32-bit encoding: 4 bytes, the word's top bit 0. -/
theorem word_length {w : Word} (h : w.msb = false) :
    (wordBytes w).length = 4 ∧ ((wordBytes w).headD 0#8).msb = decide (4 = 2) :=
  ⟨rfl, (msb_wordBytes w).trans h⟩

/-- The top bit of an append is that of the part above. -/
theorem msb_append_left {n m : Nat} (x : BitVec n) (y : BitVec m) (hn : n ≠ 0) : (x ++ y).msb = x.msb := by
  rw [BitVec.msb_append, if_neg hn]

/-- The top bit of a word of the MISC group. -/
theorem msb_miscWord (rt : BitVec 5) (mid : BitVec 15) (sub : BitVec 5) : (miscWord rt mid sub).msb = false := by
  unfold miscWord
  rw [msb_append_left, msb_append_left, msb_append_left] <;> decide

theorem Laws.EncodingLength.mfsr (rt : Reg) (sr : BitVec 10) :
    Laws.EncodingLength.Statement (.mfsr rt sr) :=
  word_length (msb_miscWord _ _ _)

theorem Laws.EncodingLength.mtsr (ra : Reg) (sr : BitVec 10) :
    Laws.EncodingLength.Statement (.mtsr ra sr) :=
  word_length (msb_miscWord _ _ _)

theorem Laws.EncodingLength.setendL :
    Laws.EncodingLength.Statement (.setendL) :=
  word_length (msb_miscWord _ _ _)

theorem Laws.EncodingLength.setendB :
    Laws.EncodingLength.Statement (.setendB) :=
  word_length (msb_miscWord _ _ _)

theorem Laws.EncodingLength.dsb :
    Laws.EncodingLength.Statement (.dsb) :=
  word_length (msb_miscWord _ _ _)

theorem Laws.EncodingLength.isb :
    Laws.EncodingLength.Statement (.isb) :=
  word_length (msb_miscWord _ _ _)

theorem Laws.EncodingLength.msync (sub : BitVec 3) :
    Laws.EncodingLength.Statement (.msync sub) :=
  word_length (msb_miscWord _ _ _)

theorem Laws.EncodingLength.iret :
    Laws.EncodingLength.Statement (.iret) :=
  word_length (msb_miscWord _ _ _)

theorem Laws.EncodingLength.cctlL1dVaWb (ra : Reg) :
    Laws.EncodingLength.Statement (.cctlL1dVaWb ra) :=
  word_length (msb_miscWord _ _ _)

theorem Laws.EncodingLength.brk (swid : BitVec 15) :
    Laws.EncodingLength.Statement (.brk swid) :=
  word_length (msb_miscWord _ _ _)

theorem Laws.EncodingLength.break16 (swid : BitVec 9) :
    Laws.EncodingLength.Statement (.break16 swid) :=
  ⟨rfl, (msb_halfBytes _).trans (msb_append_left _ _ (by decide))⟩

theorem Laws.EncodingLength.syscall (swid : BitVec 15) :
    Laws.EncodingLength.Statement (.syscall swid) :=
  word_length (msb_miscWord _ _ _)

theorem Laws.EncodingLength.trap (swid : BitVec 15) :
    Laws.EncodingLength.Statement (.trap swid) :=
  word_length (msb_miscWord _ _ _)

theorem Laws.EncodingLength.div (dt : Bool) (ra : Reg) (rb : Reg) :
    Laws.EncodingLength.Statement (.div dt ra rb) :=
  word_length (by iterate 6 rw [msb_append_left _ _ (by decide)]
                  rfl)

theorem Laws.EncodingLength.divs (dt : Bool) (ra : Reg) (rb : Reg) :
    Laws.EncodingLength.Statement (.divs dt ra rb) :=
  word_length (by iterate 6 rw [msb_append_left _ _ (by decide)]
                  rfl)

theorem Laws.EncodingLength.tlbopTrd (ra : Reg) :
    Laws.EncodingLength.Statement (.tlbopTrd ra) :=
  word_length (msb_miscWord _ _ _)

theorem Laws.EncodingLength.tlbopTwr (ra : Reg) :
    Laws.EncodingLength.Statement (.tlbopTwr ra) :=
  word_length (msb_miscWord _ _ _)

theorem Laws.EncodingLength.tlbopRwr (ra : Reg) :
    Laws.EncodingLength.Statement (.tlbopRwr ra) :=
  word_length (msb_miscWord _ _ _)

theorem Laws.EncodingLength.tlbopRwlk (ra : Reg) :
    Laws.EncodingLength.Statement (.tlbopRwlk ra) :=
  word_length (msb_miscWord _ _ _)

theorem Laws.EncodingLength.tlbopUnlk (ra : Reg) :
    Laws.EncodingLength.Statement (.tlbopUnlk ra) :=
  word_length (msb_miscWord _ _ _)

theorem Laws.EncodingLength.tlbopInv (ra : Reg) :
    Laws.EncodingLength.Statement (.tlbopInv ra) :=
  word_length (msb_miscWord _ _ _)

theorem Laws.EncodingLength.tlbopPb (rt : Reg) (ra : Reg) :
    Laws.EncodingLength.Statement (.tlbopPb rt ra) :=
  word_length (msb_miscWord _ _ _)

theorem Laws.EncodingLength.tlbopFlua :
    Laws.EncodingLength.Statement (.tlbopFlua) :=
  word_length (msb_miscWord _ _ _)

theorem Laws.EncodingLength.lwVlpt (rt : Reg) (ra : Reg) (imm : BitVec 15) :
    Laws.EncodingLength.Statement (.lwVlpt rt ra imm) :=
  ⟨rfl, (by decide : (0#8 : Byte).msb = decide (0 = 2))⟩

theorem Laws.EncodingLength.movi (rt : Reg) (imm : BitVec 20) :
    Laws.EncodingLength.Statement (.movi rt imm) :=
  word_length (by rw [msb_append_left, msb_append_left] <;> decide)

theorem Laws.EncodingLength.sethi (rt : Reg) (imm : BitVec 20) :
    Laws.EncodingLength.Statement (.sethi rt imm) :=
  word_length (by rw [msb_append_left, msb_append_left] <;> decide)

theorem Laws.EncodingLength.ori (rt : Reg) (ra : Reg) (imm : BitVec 15) :
    Laws.EncodingLength.Statement (.ori rt ra imm) :=
  word_length (by unfold immWord; rw [msb_append_left, msb_append_left, msb_append_left] <;> decide)

theorem Laws.EncodingLength.andi (rt : Reg) (ra : Reg) (imm : BitVec 15) :
    Laws.EncodingLength.Statement (.andi rt ra imm) :=
  word_length (by unfold immWord; rw [msb_append_left, msb_append_left, msb_append_left] <;> decide)

theorem Laws.EncodingLength.addi (rt : Reg) (ra : Reg) (imm : BitVec 15) :
    Laws.EncodingLength.Statement (.addi rt ra imm) :=
  word_length (by unfold immWord; rw [msb_append_left, msb_append_left, msb_append_left] <;> decide)

theorem Laws.EncodingLength.lwi (rt : Reg) (ra : Reg) (imm : BitVec 15) :
    Laws.EncodingLength.Statement (.lwi rt ra imm) :=
  word_length (by unfold immWord; rw [msb_append_left, msb_append_left, msb_append_left] <;> decide)

theorem Laws.EncodingLength.swi (rt : Reg) (ra : Reg) (imm : BitVec 15) :
    Laws.EncodingLength.Statement (.swi rt ra imm) :=
  word_length (by unfold immWord; rw [msb_append_left, msb_append_left, msb_append_left] <;> decide)

theorem Laws.EncodingLength.beqz (rt : Reg) (imm : BitVec 16) :
    Laws.EncodingLength.Statement (.beqz rt imm) :=
  word_length (by rw [msb_append_left, msb_append_left, msb_append_left] <;> decide)

theorem Laws.EncodingLength.bnez (rt : Reg) (imm : BitVec 16) :
    Laws.EncodingLength.Statement (.bnez rt imm) :=
  word_length (by rw [msb_append_left, msb_append_left, msb_append_left] <;> decide)

theorem Laws.EncodingLength.j (imm : BitVec 24) :
    Laws.EncodingLength.Statement (.j imm) :=
  word_length (by rw [msb_append_left, msb_append_left] <;> decide)

end Sys2Proof
end

