-- ==== Sys2Proof/Tests/Slice0.lean ====
section
/-! SUPPORT. Tests: words written out from the spec's encodings, ill-formed terms refused, one or two steps of every
instruction against the spec's test vectors (95_test_vectors.md), and a witness for every statement that has
hypotheses. -/

namespace Sys2Proof.Tests

open Machine

/-! ## States the tests start from -/

/-- The start of the spec's derived vectors: pc 0x2000, with a PSW (8: superuser, level 0; 1: user with GIE). -/
def at2000 (psw : Word) : State :=
  { State.reset with pc := 0x2000#32, ir := { State.reset.ir with psw := psw } }

/-- A state of another configuration. -/
def State.withCfg (s : State) (c : Config) : State := { s with cfg := c }

/-- A state with other interruption registers. -/
def withIr (s : State) (f : IntRegs → IntRegs) : State := { s with ir := f s.ir }

/-- A state with other registers of major 2. -/
def withMr (s : State) (f : MmuRegs → MmuRegs) : State := { s with mr := f s.mr }

/-- CFG_EX with another MMU_CFG. -/
def mmuCfg (v : Word) : Config := { Config.ex with mmuCfg := v }

/-- CFG_EX with another MSC_CFG. -/
def mscCfg (v : Word) : Config := { Config.ex with mscCfg := v }

/-- CFG_EX with the MPU instead of the MMU. -/
def mpuCfg : Config := mmuCfg 0x4B081B05#32

/-- CFG_EX with MMU_CFG.VLPT. -/
def vlptCfg : Config := mmuCfg 0x6B081B06#32

/-- CFG_EX with MSC_CFG.INTLC: two levels. -/
def twoLevels : Config := mscCfg 0x0000306E#32

/-- The entry of vector V-TLB-1: VPN 0x00403, CID 1, 4KB, PPN 0x00100, C 2, X, D, M 3, V. -/
def entry403 : TlbEntry := ⟨0x00403#20, 0x00100#20, 2#3, false, false, true, true, 3#3, true, 1#9, 0#4, false⟩

/-- A state with an entry in the TLB and TLB_MISC.CID = 1. -/
def withEntry (s : State) (k : Nat) (e : TlbEntry) : State :=
  { withMr s (fun m => { m with tlbMisc := 0x10#32 }) with tlb := s.tlb.write k e }

/-- A state whose memory holds bytes from an address. -/
def withBytes (s : State) (a : Nat) (bytes : List Byte) : State := { s with mem := writeBytes s.cfg s.mem a bytes }

/-- What a field of the state is after an instruction. -/
def after {α : Type} (i : Instr) (s : State) (f : State → α) : Option α := (nextOf (exec i s)).map f

/-! ## Decoding: words from R581 to R587 -/

theorem test_decode_system_registers :
    decodeTableWord 32 0x641A2003 = some (.mtsr 1 0x288#10)
      ∧ decodeTableWord 32 0x64248003 = some (.mtsr 2 0x120#10)
      ∧ decodeTableWord 32 0x641B0002 = some (.mfsr 1 0x2C0#10)
      ∧ decodeTableWord 32 0x64020023 = some .setendL
      ∧ decodeTableWord 32 0x64120023 = some .setendB := by decide

theorem test_decode_barriers_and_traps :
    decodeTableWord 32 0x64000008 = some .dsb
      ∧ decodeTableWord 32 0x64000009 = some .isb
      ∧ decodeTableWord 32 0x6400002C = some (.msync 1#3)
      ∧ decodeTableWord 32 0x64000004 = some .iret
      ∧ decodeTableWord 32 0x64010121 = some (.cctlL1dVaWb 2)
      ∧ decodeTableWord 32 0x640000EA = some (.brk 7#15)
      ∧ decodeTableWord 16 0xEA03 = some (.break16 3#9)
      ∧ decodeTableWord 32 0x640000AB = some (.syscall 5#15)
      ∧ decodeTableWord 32 0x640FFFE5 = some (.trap 0x7FFF#15) := by decide

theorem test_decode_divide_and_tlbop :
    decodeTableWord 32 0x4221902F = some (.div true 3 4)
      ∧ decodeTableWord 32 0x4200882E = some (.divs false 1 2)
      ∧ decodeTableWord 32 0x6402000E = some (.tlbopTrd 4)
      ∧ decodeTableWord 32 0x6402002E = some (.tlbopTwr 4)
      ∧ decodeTableWord 32 0x6401804E = some (.tlbopRwr 3)
      ∧ decodeTableWord 32 0x6401806E = some (.tlbopRwlk 3)
      ∧ decodeTableWord 32 0x6401808E = some (.tlbopUnlk 3)
      ∧ decodeTableWord 32 0x640180CE = some (.tlbopInv 3)
      ∧ decodeTableWord 32 0x644180AE = some (.tlbopPb 4 3)
      ∧ decodeTableWord 32 0x640000EE = some .tlbopFlua := by decide

theorem test_decode_user :
    decodeTableWord 32 0x44100005 = some (.movi 1 5#20)
      ∧ decodeTableWord 32 0x46180000 = some (.sethi 1 0x80000#20)
      ∧ decodeTableWord 32 0x58108049 = some (.ori 1 1 0x49#15)
      ∧ decodeTableWord 32 0x54008004 = some (.andi 0 1 4#15)
      ∧ decodeTableWord 32 0x51FFFFFF = some (.addi 31 31 0x7FFF#15)
      ∧ decodeTableWord 32 0x04518003 = some (.lwi 5 3 3#15)
      ∧ decodeTableWord 32 0x14110000 = some (.swi 1 2 0#15)
      ∧ decodeTableWord 32 0x4E12FFFE = some (.beqz 1 0xFFFE#16)
      ∧ decodeTableWord 32 0x4E030004 = some (.bnez 0 4#16)
      ∧ decodeTableWord 32 0x48FFFFFA = some (.j 0xFFFFFA#24) := by decide

/-- Words R575 and R670 leave outside the table: STANDBY, ISYNC, TEQZ, a TLBOP with a non-zero Rt, an unassigned
16-bit pattern, the all-zero word. -/
theorem test_decode_rejects :
    decode [0x64, 0x00, 0x00, 0x00] = .error (.unassigned32 0x64000000#32)
      ∧ decode [0x64, 0x00, 0x00, 0x0D] = .error (.unassigned32 0x6400000D#32)
      ∧ decode [0x64, 0x00, 0x00, 0x06] = .error (.unassigned32 0x64000006#32)
      ∧ decode [0x64, 0x11, 0x80, 0x4E] = .error (.unassigned32 0x6411804E#32)
      ∧ decode [0x80, 0x00] = .error (.unassigned16 0x8000#16)
      ∧ decode [0x00, 0x00, 0x00, 0x00] = .error (.unassigned32 0#32)
      ∧ decode [0x64, 0x00] = .error .truncated := by decide

/-- The one check of WellFormed: LW_VLPT has no encoding (R630), and nothing decodes to it. -/
theorem test_wellformed_refuses : WellFormed (.lwVlpt 1 2 3#15) = false ∧ encode (.lwVlpt 1 2 3#15) = [] := by decide

theorem test_wellformed_accepts : WellFormed (.lwi 1 2 3#15) = true ∧ WellFormed (.break16 3#9) = true := by decide

/-! ## Steps of the interface -/

theorem test_step_runs_placed_word :
    ((nextOf (step (State.reset.withFetchWord 32 0x44100005))).map fun t => (t.x 1, t.pc)) = some (5#32, 4#32) := by
  decide

theorem test_step_runs_placed_halfword :
    ((nextOf (step (State.reset.withFetchWord 16 0xEA03))).map fun t => (t.ir.itype, t.pc, t.level))
      = some (0x00030001#32, 0x60#32, 2#2) := by decide

/-! ## Instructions: the spec's vectors -/

/-- `sethi` then `ori` of the manual's `li` (S9); ADDI and ANDI wrap and mask. -/
theorem test_immediates :
    after (.sethi 1 0x80000#20) (at2000 8#32) (·.x 1) = some 0x80000000#32
      ∧ after (.ori 1 1 0x49#15) ((at2000 8#32).setX 1 0x00800000#32) (·.x 1) = some 0x00800049#32
      ∧ after (.movi 1 0xFFFFF#20) (at2000 8#32) (·.x 1) = some 0xFFFFFFFF#32
      ∧ after (.addi 1 1 0x7FFF#15) ((at2000 8#32).setX 1 0#32) (·.x 1) = some 0xFFFFFFFF#32
      ∧ after (.andi 0 1 4#15) ((at2000 8#32).setX 1 0x43#32) (·.x 0) = some 0#32 := by decide

/-- Targets of P1's loop: `bnez` + 8, `j` - 12; BEQZ not taken. -/
theorem test_branches :
    after (.bnez 0 4#16) ((at2000 8#32).setX 0 4#32) (·.pc) = some 0x2008#32
      ∧ after (.j 0xFFFFFA#24) (at2000 8#32) (·.pc) = some 0x1FF4#32
      ∧ after (.beqz 0 4#16) ((at2000 8#32).setX 0 4#32) (·.pc) = some 0x2004#32 := by decide

/-- V-BAR-1, V-BAR-3. -/
theorem test_barriers :
    after .dsb (at2000 1#32) (·.pc) = some 0x2004#32 ∧ after .isb (at2000 1#32) (·.pc) = some 0x2004#32
      ∧ after (.msync 1#3) (at2000 1#32) (·.pc) = some 0x2004#32
      ∧ after (.cctlL1dVaWb 2) (at2000 1#32) (·.pc) = some 0x2004#32 := by decide

/-- V-END-1, V-END-2, V-END-3, V-END-4. -/
theorem test_setend_and_byte_order :
    after .setendB (at2000 1#32) (·.ir.psw) = some 0x21#32 ∧ after .setendL (at2000 0x28#32) (·.ir.psw) = some 8#32
      ∧ after (.lwi 1 2 0#15) (withBytes ((at2000 0x28#32).setX 2 0x1000#32) 0x1000 [0x11, 0x22, 0x33, 0x44]) (·.x 1)
          = some 0x11223344#32
      ∧ after (.lwi 1 2 0#15) (withBytes ((at2000 8#32).setX 2 0x1000#32) 0x1000 [0x11, 0x22, 0x33, 0x44]) (·.x 1)
          = some 0x44332211#32
      ∧ after (.swi 1 2 0#15) (((at2000 0x28#32).setX 2 0x1000#32).setX 1 0xAABBCCDD#32) (·.mem.read 0x1003)
          = some 0xDD#8 := by decide

/-- V-SR-3, V-SR-4, V-SR-10, V-SR-13. -/
theorem test_mtsr_mfsr :
    after (.mtsr 1 0x0C0#10) ((at2000 8#32).setX 1 0xFFFFFFFF#32) (fun t => readSr t .intMask) = some 0xE001003F#32
      ∧ after (.mfsr 2 0x000#10) (at2000 8#32) (·.x 2) = some 0x0C100003#32
      ∧ after (.mfsr 1 0x080#10) (at2000 1#32) (fun t => (t.ir.itype, t.ir.psw, t.pc)) = some (7#32, 0xA#32, 0x70#32)
      ∧ after (.mfsr 1 0x128#10) (at2000 8#32) (·.ir.itype) = some 1#32 := by decide

/-- V-SR-5, V-SR-6, V-SR-8, V-SR-22. -/
theorem test_mtsr_fields :
    after (.mtsr 1 0x208#10)
        { (at2000 8#32).setX 1 0x8049#32 with pfm := ⟨0#32, 0#32, 0#32, 0x8049#32⟩ } (·.pfm.pfmCtl) = some 0x8009#32
      ∧ after (.mtsr 1 0x208#10)
        { (at2000 8#32).setX 1 0x8009#32 with pfm := ⟨0#32, 0#32, 0#32, 0x8049#32⟩ } (·.pfm.pfmCtl) = some 0x8049#32
      ∧ after (.mtsr 1 0x080#10) ((at2000 8#32).setX 1 0x12#32) (·.ir.itype) = some 8#32
      ∧ after (.mtsr 1 0x120#10) ((at2000 8#32).setX 1 0xA#32) (fun t => (t.ir.itype, t.pc))
          = some (4#32, 0x50#32) := by decide

/-- V-IRET-2, V-IRET-3. -/
theorem test_iret :
    after .iret (withIr (at2000 0x40C#32) fun r =>
        { r with ipsw := 0xA#32, ipc := 0x18#32, pIpsw := 0xC1#32, pP0 := 0x11#32 })
        (fun t => (t.pc, t.ir.psw, t.ir.ipsw, t.x 26)) = some (0x18#32, 0xA#32, 0xC1#32, 0x11#32)
      ∧ after .iret (withIr (at2000 0x40E#32) fun r => { r with oipc := 0x68#32 }) (fun t => (t.pc, t.ir.psw))
        = some (0x68#32, 0x40C#32) := by decide

/-- V-EXC-2, V-EXC-3, V-EXC-4, V-EXC-6: ITYPE, pc and PSW. -/
theorem test_traps :
    after (.brk 7#15) (at2000 1#32) (fun t => (t.ir.itype, t.pc, t.ir.psw)) = some (0x00070000#32, 0x60#32, 0x40A#32)
      ∧ after (.break16 3#9) (at2000 1#32) (·.ir.itype) = some 0x00030001#32
      ∧ after (.syscall 5#15) (at2000 1#32) (fun t => (t.pc, t.ir.ipc, t.ir.ipsw)) = some (0x80#32, 0x2000#32, 1#32)
      ∧ after (.trap 1#15) (at2000 1#32) (fun t => (t.ir.itype, t.pc)) = some (0x00010002#32, 0x70#32) := by decide

/-- V-EXC-8: at level 2 only OIPC, INTL and pc change. -/
theorem test_overflow_entry :
    after (.syscall 5#15) (at2000 0xC#32) (fun t => (t.ir.oipc, t.ir.psw, t.ir.itype, t.pc))
      = some (0x2000#32, 0xE#32, 0#32, 0x80#32) := by decide

/-- V-DIV-1, V-DIV-2, V-DIV-4, V-DIV-5, V-DIV-7. -/
theorem test_divide :
    after (.div false 1 2) (((at2000 8#32).setX 1 7#32).setX 2 2#32) (·.d0) = some 0x0000000100000003#64
      ∧ after (.divs false 1 2) (((at2000 8#32).setX 1 0xFFFFFFF9#32).setX 2 2#32) (·.d0)
        = some 0xFFFFFFFFFFFFFFFD#64
      ∧ after (.divs true 1 2) (((at2000 8#32).setX 1 7#32).setX 2 0xFFFFFFFE#32) (·.d1) = some 0x00000001FFFFFFFD#64
      ∧ after (.div false 1 2) ((at2000 8#32).setX 1 5#32) (·.ir.itype) = some 0x00010003#32
      ∧ after (.divs false 1 2) (((at2000 8#32).setX 1 0x80000000#32).setX 2 0xFFFFFFFF#32) (·.ir.itype)
        = some 0x00020003#32 := by decide

/-- V-TLB-1, V-TLB-2, V-TLB-3 (the set has one way unlocked), V-TLB-4. -/
theorem test_tlb_write_and_read :
    after (.tlbopTwr 4) (withMr ((at2000 8#32).setX 4 0x23#32) fun m =>
        { m with tlbVpn := 0x00403000#32, tlbData := 0x00100237#32, tlbMisc := 0x10#32 }) (·.tlb.read 35)
        = some entry403
      ∧ after (.tlbopTrd 4) (withEntry ((at2000 8#32).setX 4 0x23#32) 35 entry403)
        (fun t => (t.mr.tlbVpn, t.mr.tlbData, t.mr.tlbMisc)) = some (0x00403000#32, 0x00100237#32, 0x10#32) := by
  decide

/-- Ways 0, 1 and 2 of set 3 locked: RWR and RWLK take way 3 (V-TLB-3, V-TLB-4). -/
def threeLocked : State :=
  [3, 35, 67].foldl (fun s k => withEntry s k { entry403 with vpn := 0x01003#20, l := true })
    (withMr ((at2000 8#32).setX 3 0x00100237#32) fun m => { m with tlbVpn := 0x00403000#32 })

theorem test_tlb_random_write :
    after (.tlbopRwr 3) threeLocked (·.tlb.read 99) = some entry403
      ∧ after (.tlbopRwlk 3) threeLocked (·.tlb.read 99) = some { entry403 with l := true } := by decide

/-- V-TLB-5, V-TLB-6, V-TLB-6b. -/
theorem test_tlb_unlock_and_probe :
    after (.tlbopUnlk 3) (withEntry ((at2000 8#32).setX 3 0x00403ABC#32) 99 { entry403 with l := true })
        (·.tlb.read 99) = some entry403
      ∧ after (.tlbopPb 4 3) (withEntry ((at2000 8#32).setX 3 0x00403123#32) 67 entry403) (·.x 4)
        = some 0x20000043#32
      ∧ after (.tlbopPb 4 3) ((at2000 8#32).setX 3 0x5123#32) (·.x 4) = some 0x80000000#32 := by decide

/-- V-TLB-7, V-TLB-8, V-TLB-8b. -/
theorem test_tlb_invalidate_and_flush :
    after (.tlbopInv 3) (withEntry ((at2000 8#32).setX 3 0x00403FFF#32) 35 entry403) (fun t => (t.tlb.read 35).v)
        = some false
      ∧ after (.tlbopInv 3) (withEntry ((at2000 8#32).setX 3 0x00403FFF#32) 35 { entry403 with l := true })
        (·.tlb.read 35) = some { entry403 with l := true }
      ∧ after .tlbopFlua (withEntry (withEntry (at2000 8#32) 3 entry403) 99 { entry403 with l := true })
        (fun t => ((t.tlb.read 3).v, t.tlb.read 99)) = some (false, { entry403 with l := true }) := by decide

/-- V-MMU-1 (a translated load), V-MMU-2 (TLB fill), V-MMU-23 (alignment first); LW_VLPT (R630) loads with PSW.DT 0. -/
theorem test_translated_load :
    after (.lwi 1 2 0#15) (withBytes (withEntry ((at2000 0x88#32).setX 2 0x00403ABC#32) 3 entry403) 0x00100ABC
        [0x78, 0x56, 0x34, 0x12]) (·.x 1) = some 0x12345678#32
      ∧ after (.lwi 1 2 0#15) (withEntry ((at2000 0x88#32).setX 2 0x00404ABC#32) 3 entry403)
        (fun t => (t.pc, t.ir.eva, t.mr.tlbVpn)) = some (0x10#32, 0x00404ABC#32, 0x00404000#32)
      ∧ after (.swi 1 2 0#15) ((at2000 8#32).setX 2 0x20001236#32) (fun t => (t.pc, t.ir.eva))
        = some (0x70#32, 0x2000#32)
      ∧ after (.lwVlpt 1 2 0#15) (State.withCfg (withBytes (withEntry ((at2000 8#32).setX 2 0x00403ABC#32) 3 entry403)
        0x00100ABC [0x78, 0x56, 0x34, 0x12]) vlptCfg) (·.x 1) = some 0x12345678#32 := by decide

/-! ## Witnesses of the statements' hypotheses -/

/-- An LWI or SWI at an address, from a state: x[2] holds it. -/
def ptr (s : State) (a : Word) : State := s.setX 2 a

/-- A state of CFG_EX whose platform serves addresses by other regions. -/
def mapOf (regions : List MemRegion) (s : State) : State := State.withCfg s { Config.ex with memMap := regions }

/-- A device at 0 to 3, memory from 4 to 15, nothing elsewhere. -/
def scarce : State → State := mapOf [⟨0, 4, .device⟩, ⟨4, 12, .ram⟩]

/-- How a load or store of `x[2]` is translated: its physical address, or the entry of the exception, or nothing for a
stop. -/
def translated (acc : Acc) (s : State) : Option (Nat ⊕ Nat) :=
  match translate s (effectiveAddress s 2 0#15) acc false with
  | .ok x _ => some (.inl x.pa.toNat)
  | .raise c _ => some (.inr c.entry)
  | _ => none

/-- Where an access of `x[2]`, untranslated, is routed: a place, an exception, or nothing for a stop. -/
def routed (acc : Acc) (s : State) : Option (Place ⊕ Nat) :=
  match route s (nonTranslated s (s.cfg.addr (effectiveAddress s 2 0#15))).pa acc with
  | .ok p _ => some (.inl p)
  | .raise c _ => some (.inr c.entry)
  | _ => none

/-- Translation on (PSW.DT), one entry, the walker off (L1_PPTB.NV = 1 after reset). -/
def mapped : State := withEntry (at2000 0x88#32) 3 entry403

/-- An N1213 hard core; a core with the COP extension and idr registers. -/
def hardCore : Config := { Config.ex with cpuVer := 0x0C010003#32 }

def copCore : Config := { Config.ex with cpuVer := 0x0C10000B#32, idrExists := true }

/-- HSMP_SADDR.EN with a RANGE that is no mask of high bits. -/
def badRange : State := withMr (at2000 8#32) fun m => { m with hsmpSaddr := 0x0000000B#32 }

/-- ILM at 0x00100000 and DLM at 0x00200000, 16KB each, enabled. -/
def localOn : State := withMr (at2000 8#32) fun m => { m with ilmb := 0x00100001#32, dlmb := 0x00200001#32 }

/-- An access of `x[2]` meets the clauses: untranslated; translated by an entry; refused by translation (TLB fill) and
stopped by it (a reserved PTE of a hard core); routed to a Nonexistent local memory, to a stop and to the bus, with the
local memories off and beside their windows; at memory (up to the top of the address space), at a device, and where
nothing serves the last byte only. -/
def accessClauses (acc : Acc) : Prop :=
  (let s := ptr (at2000 8#32) 0xFFFFFFFC#32
   s.memoryOk ∧ (effectiveAddress s 2 0#15).toNat % 4 = 0 ∧ transEnabled s acc false = false ∧ s.busOnly
      ∧ s.ramAt 0xFFFFFFFC 4 ∧ translated acc s = some (.inl 0xFFFFFFFC))
    ∧ translated acc (ptr mapped 0x00403ABC#32) = some (.inl 0x00100ABC)
    ∧ translated acc (ptr mapped 0x00404ABC#32) = some (.inr 1)
    ∧ translated acc (State.withCfg (ptr (withEntry mapped 3 { entry403 with c := 3#3 }) 0x00403ABC#32) hardCore) = none
    ∧ routed acc (ptr localOn 0x00104000#32) = some (.inr 7)
    ∧ routed acc (ptr badRange 0#32) = none
    ∧ routed acc (ptr (at2000 8#32) 0#32) = some (.inl (.bus 0))
    ∧ routed acc (ptr localOn 0x00300000#32) = some (.inl (.bus 0x00300000))
    ∧ (let c := (scarce (at2000 8#32)).cfg
      (scarce (at2000 8#32)).busOnly ∧ c.regionOf 0 = .device ∧ c.regionOf 3 = .device ∧ c.regionOf 4 = .ram
        ∧ c.regionOf 15 = .ram ∧ c.regionOf 16 = .unserved)

theorem witness_LwiLoadsFromMemory : accessClauses .load := by unfold accessClauses; decide

theorem witness_SwiStoresToMemory : accessClauses .store := by unfold accessClauses; decide

/-- At the overflow level (INTL 3) PSW.DT and PSW.BE are not in force: the load is untranslated and little endian
(R790). -/
theorem test_load_at_overflow_level :
    after (.lwi 1 2 0#15) (withBytes (ptr (withIr mapped fun r => { r with psw := 0xAE#32 }) 0x00403ABC#32) 0x00403ABC
        [0x11, 0x22, 0x33, 0x44]) (·.x 1) = some 0x44332211#32 := by decide

/-- LWI and SWI where nothing is served: precise bus error (entry 7, ITYPE 4), MERR.BUSERR of the load only, EVA the
address, nothing stored (R835); LWI of a device is recorded. -/
theorem test_bus_error_and_device :
    after (.lwi 1 2 0#15) (ptr (scarce (at2000 8#32)) 16#32)
        (fun t => (t.pc, t.ir.eva, t.ir.merr)) = some (0x70#32, 16#32, 0x80000000#32)
      ∧ after (.swi 2 2 0#15) (ptr (scarce (at2000 8#32)) 16#32)
        (fun t => (t.ir.itype, t.ir.merr, t.mem)) = some (4#32, 0#32, (at2000 8#32).mem)
      ∧ after (.lwi 1 2 0#15) (scarce (at2000 8#32)) (fun t => (t.pc, t.devLog)) = some (0x2004#32, [.read 0 4]) := by
  decide

/-- The hypotheses about a local memory access, by the address. -/
def inIlm (s : State) (a : Nat) : Prop :=
  s.ilmOn = true ∧ lmWindow s.cfg.ilmBsav1 s.ilmBase s.cfg.ilmSize a = true

def inDlm (s : State) (a : Nat) : Prop :=
  s.dlmOn = true ∧ lmWindow s.cfg.dlmBsav1 s.dlmBase s.dlmView a = true

/-- Translation into the windows of the local memories: page 0x00403 is in the ILM, page 0x00503 in the DLM. -/
def mappedLocal : State :=
  withEntry (withEntry (withMr mapped fun m => { m with ilmb := 0x00100001#32, dlmb := 0x00200001#32 }) 3 entry403)
    35 { entry403 with vpn := 0x00503#20, ppn := 0x00200#20 }

/-- A translated access in the window of the ILM, and one in that of the DLM. -/
def localClauses (acc : Acc) : Prop :=
  mappedLocal.memoryOk
    ∧ (translated acc (ptr mappedLocal 0x00403ABC#32) = some (.inl 0x00100ABC) ∧ inIlm mappedLocal 0x00100ABC
      ∧ 0x00100ABC - mappedLocal.ilmBase < mappedLocal.cfg.ilmSize)
    ∧ (translated acc (ptr mappedLocal 0x00503ABC#32) = some (.inl 0x00200ABC) ∧ ¬inIlm mappedLocal 0x00200ABC
      ∧ inDlm mappedLocal 0x00200ABC ∧ 0x00200ABC - mappedLocal.dlmBase < mappedLocal.dlmView)

theorem witness_LwiLoadsFromLocalMemory_translated : localClauses .load := by
  unfold localClauses inIlm inDlm; decide

theorem witness_SwiStoresToDlm_translated : localClauses .store := by
  unfold localClauses inIlm inDlm; decide

/-- A translated SWI stores in the ILM. -/
theorem test_translated_store_to_ilm :
    after (.swi 2 2 0#15) (ptr mappedLocal 0x00403ABC#32) (fun t => (t.ilm.read 0xABC, t.mem, t.pc))
      = some (0xBC#8, mappedLocal.mem, 0x2004#32) := by decide

theorem witness_LwiLoadsFromLocalMemory :
    (inIlm localOn 0x00103FFC ∧ 0x00103FFC - localOn.ilmBase < localOn.cfg.ilmSize)
      ∧ (¬inIlm localOn 0x00203FFC ∧ inDlm localOn 0x00203FFC ∧ 0x00203FFC - localOn.dlmBase < localOn.dlmView)
      ∧ (nonTranslated localOn 0x00203FFC#32).pa = 0x00203FFC#32
      ∧ transEnabled localOn .load false = false := by
  unfold inIlm inDlm; decide

theorem witness_SwiStoresToDlm :
    localOn.memoryOk ∧ transEnabled localOn .store false = false
      ∧ (inIlm localOn 0x00103FFC ∧ 0x00103FFC - localOn.ilmBase < localOn.cfg.ilmSize)
      ∧ (¬inIlm localOn 0x00203FFC ∧ inDlm localOn 0x00203FFC ∧ 0x00203FFC - localOn.dlmBase < localOn.dlmView)
      ∧ (nonTranslated localOn 0x00103FFC#32).pa = 0x00103FFC#32 := by
  unfold inIlm inDlm; decide

theorem witness_MisalignedDataAccessTraps :
    (effectiveAddress (State.withCfg (ptr (at2000 8#32) 1#32) vlptCfg) 2 0#15).toNat % 4 ≠ 0
      ∧ vlptCfg.vlpt = true ∧ (at2000 8#32).superuser = true := by decide

/-- LW_VLPT with one entry that maps its address, and with none. -/
def vlptState (a : Word) : State := State.withCfg (withEntry (ptr (at2000 8#32) a) 3 entry403) vlptCfg

theorem witness_LwVlptLoadsOrMisses_hit :
    let s := vlptState 0x00403ABC#32
    s.cfg.vlpt = true ∧ s.superuser = true ∧ s.cfg.hasMmu = true ∧ (effectiveAddress s 2 0#15).toNat % 4 = 0
      ∧ s.visibleHits 0x00403ABC#32 = [(3, entry403)] ∧ s.invisibleHits 0x00403ABC#32 = []
      ∧ reservedAttribute s.cfg.mmuVersion2 true entry403 .load = false
      ∧ permissionCause s.cfg.mmuVersion2 true entry403 0x00403ABC#32 .load = none
      ∧ s.busOnly ∧ s.ramAt (entryPa entry403 0x00403ABC#32).toNat 4 := by decide

theorem witness_LwVlptLoadsOrMisses_miss :
    let s := vlptState 0x00404ABC#32
    s.visibleHits 0x00404ABC#32 = [] ∧ s.invisibleHits 0x00404ABC#32 = []
      ∧ (effectiveAddress s 2 0#15).toNat % 4 = 0 := by decide

/-- LW_VLPT of an address that some entries map, x[2] holding it. -/
def vlptServed (cfg : Config) (entries : List (Nat × TlbEntry)) (s : State) : State :=
  State.withCfg (entries.foldl (fun t p => withEntry t p.1 p.2) (ptr s 0x00403ABC#32)) cfg

/-- The other clauses of a hit: a reserved attribute (a stop of a hard core), a refused permission, an address routed to
the ILM, to the DLM, to a Nonexistent local memory, to a stop, to a device and to nothing served; and several hits. -/
theorem witness_LwVlptLoadsOrMisses_others :
    let place := fun (ppn : BitVec 20) (s : State) =>
      (match route (vlptServed vlptCfg [] s).drawn (entryPa { entry403 with ppn := ppn } 0x00403ABC#32) .load with
        | .ok p _ => some (.inl p)
        | .raise c _ => some (.inr c.entry)
        | _ => none : Option (Place ⊕ Nat))
    reservedAttribute vlptCfg.mmuVersion2 true { entry403 with c := 3#3 } .load = true
      ∧ (vlptCfg.hardCore = false ∧ ({ vlptCfg with cpuVer := 0x0C010003#32 } : Config).hardCore = true)
      ∧ permissionCause vlptCfg.mmuVersion2 true { entry403 with a := true } 0x00403ABC#32 .load
        = some (.accessBit false 0x00403ABC#32)
      ∧ (place 0x00100#20 localOn = some (.inl (.ilm 0xABC)) ∧ place 0x00200#20 localOn = some (.inl (.dlm 0xABC))
        ∧ place 0x00104#20 localOn = some (.inr 7) ∧ place 0x00300#20 badRange = none
        ∧ place 0x00300#20 localOn = some (.inl (.bus 0x00300ABC)))
      ∧ (let c := { vlptCfg with memMap := [⟨0x00100000, 0x1000, .device⟩] }
        c.regionOf 0x00100ABC = .device ∧ c.regionOf 0x00101ABC = .unserved)
      ∧ 2 ≤ ((vlptServed vlptCfg [(3, entry403), (35, entry403)] (at2000 8#32)).visibleHits 0x00403ABC#32).length := by
  decide

/-- LW_VLPT of an entry with A set: Access bit (entry 3, ITYPE 4); of one with a reserved C: ITYPE 5. -/
theorem test_lw_vlpt_refused :
    after (.lwVlpt 1 2 0#15) (vlptServed vlptCfg [(3, { entry403 with a := true })] (at2000 8#32))
        (fun t => (t.pc, t.ir.itype)) = some (0x30#32, 4#32)
      ∧ after (.lwVlpt 1 2 0#15) (vlptServed vlptCfg [(3, { entry403 with c := 3#3 })] (at2000 8#32))
        (fun t => (t.pc, t.ir.itype)) = some (0x30#32, 5#32) := by decide

theorem witness_UntranslatedAddress :
    (∀ c ∈ [mmuCfg 0x0B081B06#32, mmuCfg 0x03081B06#32, mmuCfg 0x4B081B06#32, mmuCfg 0x43081B06#32], c.adr24 = false
        ∧ transEnabled (State.withCfg (at2000 8#32) c) .fetch false = false)
      ∧ ((mmuCfg 0x0B081B06#32).ntme = false ∧ (mmuCfg 0x0B081B06#32).ntpt = true)
      ∧ ((mmuCfg 0x03081B06#32).ntme = false ∧ (mmuCfg 0x03081B06#32).ntpt = false)
      ∧ ((mmuCfg 0x4B081B06#32).ntme = true ∧ (mmuCfg 0x4B081B06#32).ntpt = true)
      ∧ ((mmuCfg 0x43081B06#32).ntme = true ∧ (mmuCfg 0x43081B06#32).ntpt = false) := by decide

theorem witness_TlbLookup :
    mapped.cfg.hasMmu = true ∧ transEnabled mapped .load false = true
      ∧ (mapped.visibleHits 0x00403ABC#32).map Prod.snd ++ mapped.invisibleHits 0x00403ABC#32 = [entry403]
      ∧ (mapped.visibleHits 0x00404000#32 = [] ∧ mapped.invisibleHits 0x00404000#32 = []
        ∧ mapped.walkerEnabled = false)
      ∧ 2 ≤ ((withEntry mapped 35 entry403).visibleHits 0x00403ABC#32).length
      ∧ (let s := withMr mapped fun m => { m with l1Pptb := 0x00080000#32 }
        s.visibleHits 0x00404000#32 = [] ∧ s.invisibleHits 0x00404000#32 = [] ∧ s.walkerEnabled = true) := by
  decide

/-- The three ways a hit is served, and entries of the minimum page size in their own set (4KB and 8KB pages). -/
theorem witness_TlbLookup_served :
    (reservedAttribute true true entry403 .load = false
        ∧ permissionCause true true entry403 0x00403ABC#32 .load = none)
      ∧ (mapped.cfg.hardCore = false ∧ reservedAttribute true true { entry403 with c := 3#3 } .load = true)
      ∧ permissionCause true true { entry403 with a := true } 0x00403ABC#32 .load
        = some (.accessBit false 0x00403ABC#32)
      ∧ ((3, entry403) ∈ mapped.tlbListed ∧ mapped.page8k = false ∧ entry403.psz = 0#4
        ∧ (entry403.vpn ++ 0#12 : Word).toNat / 2 ^ 12 % mapped.cfg.tlbSets = 3 % mapped.cfg.tlbSets)
      ∧ (let e := { entry403 with vpn := 0x00404#20, psz := 1#4 }
        let s := withMr (withEntry mapped 2 e) fun m => { m with mmuCtl := 1#32 }
        (2, e) ∈ s.tlbListed ∧ s.page8k = true
          ∧ (e.vpn ++ 0#12 : Word).toNat / 2 ^ 13 % s.cfg.tlbSets = 2 % s.cfg.tlbSets) := by decide

/-- A 1MB page (size code 5, which CFG_EX implements) in its own set, visible and invisible, with MMU_CTL.MPZIU. -/
def mappedLarge : State :=
  { withMr (withEntry mapped 4 { entry403 with vpn := 0x00400#20, ppn := 0x00100#20, psz := 5#4 })
      (fun m => { m with mmuCtl := 0x400#32 }) with itlb := [{ entry403 with vpn := 0x00500#20, psz := 5#4 }] }

theorem witness_TlbLookup_large :
    let e := { entry403 with vpn := 0x00400#20, ppn := 0x00100#20, psz := 5#4 }
    (4, e) ∈ mappedLarge.tlbListed ∧ mappedLarge.mr.mmuCtl.getLsbD 10 = true
      ∧ mappedLarge.cfg.mmuCfg.getLsbD (14 + (5#4).toNat) = true
      ∧ (e.vpn ++ 0#12 : Word).toNat / 2 ^ pageShift 5#4 % mappedLarge.cfg.tlbSets = 4 % mappedLarge.cfg.tlbSets
      ∧ { entry403 with vpn := 0x00500#20, psz := 5#4 } ∈ mappedLarge.itlb ∧ mappedLarge.tlbOk
      ∧ 4 < Config.tlbEntries mappedLarge.cfg ∧ (mappedLarge.tlb.read 4).v = true
      ∧ mappedLarge.invisibleHits 0x005FFFFC#32 ≠ [] := by decide

/-- A load through a 1MB page with MPZIU; PB of its last byte (R607: entry number 4). -/
theorem test_large_page :
    after (.lwi 1 2 0#15) (withBytes (ptr mappedLarge 0x004FFFFC#32) 0x001FFFFC [0x78, 0x56, 0x34, 0x12]) (·.x 1)
        = some 0x12345678#32
      ∧ after (.tlbopPb 1 2) (ptr mappedLarge 0x004FFFFF#32) (·.x 1) = some 0x20000004#32 := by decide

/-- The page table of V-WALK-1: L1 PTE at 0x00080200, L2 PTE at 0x00090004. -/
def walking (l1 l2 : List Byte) : State :=
  withBytes (withBytes (withMr (at2000 0xC1#32) fun m => { m with l1Pptb := 0x00080000#32, tlbMisc := 0x10#32 })
    0x00080200 l1) 0x00090004 l2

theorem witness_WalkerInsertsThePage :
    let s := walking [0x00, 0x00, 0x09, 0x00] [0x37, 0x02, 0x50, 0x00]
    s.hsmpBroken = false ∧ s.cfg.hptwkInvisible = false ∧ 0 < s.cfg.tlbWays
      ∧ l1Address s 0x20001234#32 = 0x00080200#32 ∧ l2Address s 0x00090000#32 0x20001234#32 = 0x00090004#32
      ∧ s.ramAt 0x00080200 4 ∧ s.ramAt 0x00090004 4
      ∧ wordOf s.cfg.de (s.mem.read 0x00080200) (s.mem.read 0x00080201) (s.mem.read 0x00080202) (s.mem.read 0x00080203)
        = 0x00090000#32
      ∧ wordOf s.cfg.de (s.mem.read 0x00090004) (s.mem.read 0x00090005) (s.mem.read 0x00090006) (s.mem.read 0x00090007)
        = 0x00500237#32
      ∧ ¬(∀ k < s.cfg.tlbSets * s.cfg.tlbWays, k % s.cfg.tlbSets = 1 → (s.tlb.read k).l = true) := by decide

/-- The other clauses: NP = 1 in the L1 PTE, V = 0 in the L2 PTE, LP = 1 without MPZIU, every way of the set locked
without TBALCK, the invisible TLB. -/
theorem witness_WalkerInsertsThePage_others :
    (walking [0x01, 0x00, 0x09, 0x00] []).mem.read 0x00080200 = 0x01#8
      ∧ (walking [0x00, 0x00, 0x09, 0x00] [0x36, 0x02, 0x50, 0x00]).mem.read 0x00090004 = 0x36#8
      ∧ (let s := walking [0x00, 0x00, 0x09, 0x00] [0x37, 0x0A, 0x50, 0x00]
        s.mem.read 0x00090005 = 0x0A#8 ∧ s.mr.mmuCtl.getLsbD 10 = false)
      ∧ (let s := [1, 33, 65, 97].foldl (fun s k => withEntry s k { entry403 with l := true })
          (walking [0x00, 0x00, 0x09, 0x00] [0x37, 0x02, 0x50, 0x00])
        (∀ k < s.cfg.tlbSets * s.cfg.tlbWays, k % s.cfg.tlbSets = 1 → (s.tlb.read k).l = true)
          ∧ s.mr.mmuCtl.getLsbD 9 = false)
      ∧ (State.withCfg (walking [0x00, 0x00, 0x09, 0x00] [0x37, 0x02, 0x50, 0x00])
          { Config.ex with hptwkInvisible := true }).cfg.hptwkInvisible = true := by decide

/-- The clauses of a walk that the bus refuses: an undefined HSMP range; the L1 PTE, then only the L2 PTE, where nothing
is served. -/
theorem witness_WalkerInsertsThePage_refused :
    let w := walking [0x00, 0x00, 0x09, 0x00] []
    (withMr w fun m => { m with hsmpSaddr := 0x0000000B#32 }).hsmpBroken = true
      ∧ (let s := mapOf [⟨0, 0x1000, .ram⟩] w
        s.hsmpBroken = false ∧ l1Address s 0x20001234#32 = 0x00080200#32 ∧ s.cfg.regionOf 0x00080200 = .unserved)
      ∧ (let s := mapOf [⟨0x00080000, 0x1000, .ram⟩] w
        s.hsmpBroken = false ∧ s.ramAt 0x00080200 4 ∧ (s.mem.read 0x00080200).getLsbD 0 = false
          ∧ l2Address s 0x00090000#32 0x20001234#32 = 0x00090004#32 ∧ s.cfg.regionOf 0x00090004 = .unserved) := by
  decide

/-- A walk whose L1 PTE nothing serves: precise bus error of the load (entry 7, ITYPE 4, EVA its address; D61). -/
theorem test_walker_bus_error :
    after (.lwi 1 2 0#15) ((mapOf [⟨0, 0x1000, .ram⟩] (walking [] [])).setX 2 0x20001234#32)
        (fun t => (t.pc, t.ir.itype, t.ir.eva)) = some (0x70#32, 4#32, 0x20001234#32) := by decide

/-- A walked PTE with LP = 1 and MPZIU = 0: MPZIU control, entry 7; with a reserved C too: Reserved PTE attribute,
entry 3 (R456, log 57). -/
theorem test_walker_reports_reserved_first :
    after (.lwi 1 2 0#15) ((walking [0x00, 0x00, 0x09, 0x00] [0x37, 0x0A, 0x50, 0x00]).setX 2 0x20001234#32)
        (fun t => (t.pc, t.ir.itype)) = some (0x70#32, 10#32)
      ∧ after (.lwi 1 2 0#15) ((walking [0x00, 0x00, 0x09, 0x00] [0x37, 0x0B, 0x50, 0x00]).setX 2 0x20001234#32)
        (fun t => (t.pc, t.ir.itype)) = some (0x30#32, 5#32) := by decide

theorem witness_MpuTranslates :
    mpuCfg.hasMpu = true ∧ mpuCfg.adr24 = false
      ∧ transEnabled (State.withCfg (at2000 0x88#32) mpuCfg) .load false = true
      ∧ transEnabled (State.withCfg (at2000 0x48#32) mpuCfg) .fetch false = true := by decide

/-- LW_VLPT under the MPU with MMU_CFG.VLPT (log 55). -/
def mpuVlpt : Config := mmuCfg 0x6B081B05#32

theorem witness_MpuTranslates_vlpt :
    mpuVlpt.hasMpu = true ∧ mpuVlpt.adr24 = false ∧ mpuVlpt.vlpt = true
      ∧ transEnabled (State.withCfg (at2000 8#32) mpuVlpt) .load true = true := by decide

/-- LW_VLPT through an MPU entry with V = 0: TLB fill (entry 1, EVA the address; log 55). -/
theorem test_lw_vlpt_under_mpu :
    after (.lwVlpt 1 2 0#15) (State.withCfg (ptr (at2000 8#32) 0x40003ABC#32) mpuVlpt) (fun t => (t.pc, t.ir.eva))
      = some (0x10#32, 0x40003ABC#32) := by decide

/-- The second clause: BSAV 0 and 1, double-buffer mode on and off, an undefined range and none. -/
theorem witness_RoutingOrder_windows :
    Config.ex.ilmBsav1 = false ∧ Config.ex.dlmBsav1 = false
      ∧ (let c := { Config.ex with
          icmCfg := Config.ex.icmCfg ||| 0x2000#32
          dcmCfg := Config.ex.dcmCfg ||| 0x2000#32 }
        c.ilmBsav1 = true ∧ c.dlmBsav1 = true ∧ 0 < c.ilmSize ∧ 0 < c.dlmSize)
      ∧ Config.ex.dcmCfg.extractLsb' 10 3 = 2#3
      ∧ (withMr localOn fun m => { m with dlmb := 0x00200021#32 }).mr.dlmb.getLsbD 5 = true
      ∧ badRange.hsmpBroken = true ∧ localOn.hsmpBroken = false := by decide

theorem witness_RoutingOrder :
    (inIlm localOn 0x00103FFF ∧ 0x00103FFF - localOn.ilmBase < localOn.cfg.ilmSize)
      ∧ (inIlm localOn 0x00104000 ∧ localOn.cfg.ilmSize ≤ 0x00104000 - localOn.ilmBase)
      ∧ (¬inIlm localOn 0x00203FFF ∧ inDlm localOn 0x00203FFF ∧ 0x00203FFF - localOn.dlmBase < localOn.dlmView)
      ∧ (¬inIlm localOn 0x00204000 ∧ inDlm localOn 0x00204000 ∧ localOn.dlmView ≤ 0x00204000 - localOn.dlmBase)
      ∧ (¬inIlm badRange 0 ∧ ¬inDlm badRange 0 ∧ badRange.hsmpBroken = true)
      ∧ (¬inIlm localOn 0x00300000 ∧ ¬inDlm localOn 0x00300000 ∧ localOn.hsmpBroken = false) := by
  unfold inIlm inDlm; decide

/-- An index names a register that exists and may be accessed in a state. -/
def reaches (s : State) (idx : BitVec 10) (r : Sr) : Prop :=
  (srAccessAllowed s idx && srOf idx == some r && srExists s.cfg r) = true

def allReach (s : State) (l : List (BitVec 10 × Sr)) : Bool :=
  l.all fun p => srAccessAllowed s p.1 && srOf p.1 == some p.2 && srExists s.cfg p.2

/-- Superuser and granted user access; both modes of the interrupt controller, with and without a request. -/
theorem witness_MfsrReadsTheRegister :
    reaches (at2000 8#32) 0x080#10 .psw
      ∧ reaches { at2000 1#32 with misc := ⟨1#32, 0#32, 0#32, 0#32⟩ } 0x2C0#10 .dmaStatus
      ∧ (at2000 8#32).ir.ivb.getLsbD 13 = false
      ∧ (let s := withIr (at2000 8#32) fun r => { r with ivb := 0x6000#32 }
        s.ir.ivb.getLsbD 13 = true ∧ s.env.evicReq = none
          ∧ ({ s with env := ⟨0#6, some (5#6, 3#6), false, []⟩ } : State).env.evicReq = some (5#6, 3#6)) := by
  unfold reaches; decide

/-- What IPSW (no AUDIO: bit 13 reserved) and ITYPE read in the bits that exist, and DMA_TCNT with channel 1 selected. -/
theorem test_reads_of_implemented_bits :
    readSr (withIr (at2000 8#32) fun r => { r with ipsw := 0xFFFFFFFF#32 }) .ipsw = 0x5FFF#32
      ∧ readSr (withIr (at2000 8#32) fun r => { r with itype := 0xFFFFFFFF#32 }) .itype = 0x7FFF001F#32
      ∧ readSr { at2000 8#32 with dma := { DmaEngine.reset with
          chan := 1#2, ch1 := { DmaChan.reset with tcnt := 5#18 } } } .dmaTcnt = 5#32 := by decide

/-- INT_PEND in IVIC mode (the lines and SWI) and in EVIC mode (the requested level); DMA_GCSW, DMA_STATUS and DMA_ACT
with channel 0 in Stop/Error. -/
theorem test_registers_without_storage :
    readSr (withIr { at2000 8#32 with env := ⟨5#6, none, false, []⟩ } fun r => { r with swi := true }) .intPend
        = 0x00010005#32
      ∧ readSr (withIr { at2000 8#32 with env := ⟨5#6, some (1#6, 3#6), false, []⟩ } fun r =>
        { r with ivb := 0x6000#32 }) .intPend = 3#32
      ∧ (let s := { at2000 8#32 with dma := { DmaEngine.reset with
            en := true
            ch0 := { DmaChan.reset with stat := .stopError, int := true, err := { DmaErr.none with ebus := true } } } }
        (readSr s .dmaGcsw, readSr s .dmaStatus, readSr s .dmaAct) = (0x80001003#32, 0x103#32, 0#32)) := by decide

theorem witness_MtsrWritesPlainRegisters :
    allReach (at2000 8#32) [
        (0x092#10, .pEva), (0x0A9#10, .ipc), (0x0AA#10, .pIpc), (0x0AB#10, .oipc), (0x0B2#10, .pP0),
        (0x0BA#10, .pP1), (0x200#10, .pfmc0), (0x201#10, .pfmc1), (0x202#10, .pfmc2),
        (0x09A#10, .pItype), (0x0C0#10, .intMask), (0x100#10, .mmuCtl), (0x108#10, .l1Pptb),
        (0x110#10, .tlbVpn), (0x118#10, .tlbData), (0x140#10, .cacheCtl), (0x148#10, .hsmpSaddr),
        (0x220#10, .prusrAccCtl)] = true
      ∧ allReach (State.withCfg (at2000 8#32) hardCore) [
        (0x149#10, .hsmpEaddr)] = true
      ∧ allReach (State.withCfg (at2000 8#32) copCore) [
        (0x179#10, .miscCtl), (0x228#10, .fucopCtl)] = true := by decide

/-- CFG_EX with an EDM of one set of breakpoint registers. -/
def edmCore : Config := { mscCfg 0x0000206F#32 with edmBc := 1 }

theorem witness_MtsrByFieldType :
    allReach (at2000 8#32) [
        (0x080#10, .psw), (0x081#10, .ipsw), (0x082#10, .pIpsw), (0x089#10, .ivb), (0x091#10, .eva),
        (0x099#10, .itype), (0x000#10, .cpuVer), (0x008#10, .icmCfg), (0x010#10, .dcmCfg), (0x018#10, .mmuCfg),
        (0x020#10, .mscCfg), (0x001#10, .coreId), (0x0A1#10, .merr), (0x0C8#10, .intPend), (0x120#10, .tlbMisc),
        (0x130#10, .ilmb), (0x138#10, .dlmb), (0x208#10, .pfmCtl), (0x280#10, .dmaCfg), (0x288#10, .dmaGcsw),
        (0x290#10, .dmaChnsel), (0x2A0#10, .dmaSetup), (0x2A8#10, .dmaIsaddr), (0x2B0#10, .dmaEsaddr),
        (0x2B8#10, .dmaTcnt), (0x2C0#10, .dmaStatus), (0x2C8#10, .dma2dset), (0x2C9#10, .dma2dsctl)] = true
      ∧ allReach (State.withCfg (at2000 8#32) copCore) [(0x028#10, .fucopExist), (0x178#10, .sdzCtl)] = true
      ∧ allReach (State.withCfg (at2000 8#32) vlptCfg) [(0x128#10, .vlptIdx)] = true
      ∧ allReach (State.withCfg (at2000 8#32) edmCore) [(0x180#10, .edm 0), (0x1A8#10, .edm 40), (0x1F1#10, .edm 47)]
        = true := by decide

/-- The values: not reserved, of an implemented size; both bases programmed and apart; DBM changed; MTBDZ 0 and 1. -/
theorem witness_MtsrByFieldType_values :
    (0x0009#32).getLsbD 4 = false ∧ (0x0009#32).extractLsb' 1 2 ≠ 3#2 ∧ (at2000 8#32).interruptionReservedOk
      ∧ (at2000 8#32).sizeImplemented 5#4 = true
      ∧ ((at2000 8#32).mr.dlmbSet = false ∧ (at2000 8#32).mr.ilmbSet = false)
      ∧ (let s := withMr (at2000 8#32) fun m => { m with ilmb := 0x00100000#32, ilmbSet := true, dlmb := 0x00200060#32 }
        s.mr.ilmbSet = true ∧ s.dlmBase ≠ s.ilmBase ∧ s.dbm = true)
      ∧ ((0x40#32 &&& sdzMask copCore).extractLsb' 6 3 = 1#3 ∧ (0x07#32 &&& sdzMask copCore).extractLsb' 6 3 = 0#3)
      ∧ ((0x49#32).extractLsb' 2 2 ≠ 3#2 ∧ (0x49#32).extractLsb' 21 3 ≠ 3#3)
      ∧ ((at2000 8#32).chan (at2000 8#32).selected).stat = .idle ∧ Config.ex.dmaTwoChannels = true := by decide

/-- TECR0 and TECR1 exist with MSC_CFG.EDM, with or without TRACE, and not with TRACE alone (R250; log 39). -/
theorem test_trace_control_registers :
    srExists edmCore (.edm 46) = true ∧ srExists edmCore (.edm 47) = true
      ∧ srExists (mscCfg 0x0000207E#32) (.edm 46) = false := by decide

/-- ILMB written with the base that DLMB holds, neither memory enabled: the stop of U16. -/
theorem test_equal_bases_stop :
    exec (.mtsr 1 0x130#10)
        (withMr ((at2000 8#32).setX 1 0x00200000#32) fun m => { m with dlmb := 0x00200000#32, dlmbSet := true })
      = .fault .equalLocalMemoryBases := by rfl

theorem witness_MtsrOfReservedValueTraps :
    reaches (at2000 8#32) 0x080#10 .psw ∧ (0x10#32).getLsbD 4 = true
      ∧ (twoLevels.intlc = true ∧ (6#32).extractLsb' 1 2 = 3#2)
      ∧ reaches (at2000 8#32) 0x290#10 .dmaChnsel ∧ (2#32).getLsbD 1 = true
      ∧ ({ Config.ex with dmaCfg := 0x0011000C#32 } : Config).dmaTwoChannels = false
      ∧ reaches (at2000 8#32) 0x2A0#10 .dmaSetup ∧ (0xC#32).extractLsb' 2 2 = 3#2 ∧ Config.ex.dmaTes8 = false
      ∧ (0x00600000#32).extractLsb' 21 3 = 3#3
      ∧ reaches (at2000 8#32) 0x120#10 .tlbMisc ∧ (at2000 8#32).sizeImplemented 10#4 = false := by
  unfold reaches; decide

/-- CA 3 written to DMA_SETUP: Reserved value (entry 7, ITYPE 8). -/
theorem test_mtsr_reserved_cacheability :
    after (.mtsr 1 0x2A0#10) ((at2000 8#32).setX 1 0x00600000#32) (fun t => (t.pc, t.ir.itype))
      = some (0x70#32, 8#32) := by decide

theorem witness_PrivilegedInstructionsTrapInUserMode :
    (at2000 1#32).superuser = false ∧ srAccessAllowed (at2000 1#32) 0x080#10 = false
      ∧ Config.ex.hasMmu = true ∧ Config.ex.tblck = true ∧ mpuCfg.hasMpu = true ∧ vlptCfg.vlpt = true := by decide

/-- User mode with both bits of PRUSR_ACC_CTL. -/
def granted : State := { at2000 1#32 with misc := ⟨3#32, 0#32, 0#32, 0#32⟩ }

/-- The grants: DMA_ACT, an index of major 5 that no register has, PFM_CTL; and with neither bit none. -/
theorem witness_PrivilegedInstructionsTrapInUserMode_grants :
    granted.superuser = false ∧ srAccessAllowed granted 0x298#10 = true ∧ srAccessAllowed granted 0x288#10 = true
      ∧ srAccessAllowed granted 0x208#10 = true ∧ srAccessAllowed granted 0x080#10 = false
      ∧ srAccessAllowed (at2000 1#32) 0x298#10 = false ∧ granted.cfg.hasDma = true := by decide

theorem witness_AbsentFeaturesAreReserved :
    (srAccessAllowed (at2000 8#32) 0x3FF#10 = true ∧ srOf 0x3FF#10 = none)
      ∧ (srOf 0x128#10 = some .vlptIdx ∧ srExists Config.ex .vlptIdx = false)
      ∧ mpuCfg.hasMmu = false
      ∧ ((mmuCfg 0x4B081B04#32).hasMmu = false ∧ (mmuCfg 0x4B081B04#32).hasMpu = false)
      ∧ (mmuCfg 0x4A081B06#32).tblck = false ∧ Config.ex.vlpt = false
      ∧ ({ Config.ex with cpuVer := 0x0C100001#32 } : Config).ext16 = false
      ∧ (mscCfg 0x0000204E#32).hasDiv = false ∧ (mscCfg 0x0001206E#32).nod = true := by decide

theorem witness_TrapInstructionsEnter : (at2000 8#32).cfg.ext16 = true := by decide

/-- Levels 0, 1, 2 and 3, and both numbers of levels. -/
theorem witness_entry_levels :
    (at2000 8#32).level = 0#2 ∧ ((at2000 0xA#32).level = 1#2 ∧ Config.ex.intlc = false)
      ∧ (at2000 0xA#32).level.toNat + 1 < Config.ex.maxLevel
      ∧ Config.ex.maxLevel ≤ (at2000 0xC#32).level.toNat + 1 ∧ Config.ex.maxLevel ≤ (at2000 0xE#32).level.toNat + 1
      ∧ twoLevels.maxLevel ≤ (at2000 0xA#32).level.toNat + 1 := by decide

theorem witness_EntryWritesItype :
    (at2000 8#32).level.toNat + 1 < Config.ex.maxLevel ∧ (Cause.trap 1#15).etype = some 2#4
      ∧ (∀ n, Cause.nmi ≠ .brk n ∧ Cause.nmi ≠ .break16 n ∧ Cause.nmi ≠ .trap n ∧ Cause.nmi ≠ .systemCall n)
      ∧ ∀ k, Cause.nmi ≠ .arithmetic k :=
  ⟨by decide, rfl, fun _ => ⟨nofun, nofun, nofun, nofun⟩, nofun⟩

/-- Levels 0 and 1; the MMU with and without VLPT, the MPU; both minimum pages. -/
theorem witness_EntryWritesFaultAddress :
    ((at2000 8#32).level.toNat + 1 < vlptCfg.maxLevel ∧ (at2000 0xA#32).level.toNat + 1 < vlptCfg.maxLevel)
      ∧ (vlptCfg.hasMmu = true ∧ vlptCfg.vlpt = true) ∧ (Config.ex.hasMmu = true ∧ Config.ex.vlpt = false)
      ∧ (mpuCfg.hasMmu = false ∧ (at2000 8#32).level.toNat + 1 < mpuCfg.maxLevel)
      ∧ (at2000 8#32).page8k = false ∧ (withMr (at2000 8#32) fun m => { m with mmuCtl := 1#32 }).page8k = true := by
  decide

theorem witness_iret :
    ((at2000 0xA#32).superuser = true ∧ (at2000 0xA#32).level = 1#2)
      ∧ ((at2000 0xC#32).superuser = true ∧ (at2000 0xC#32).level = 2#2 ∧ Config.ex.intlc = false)
      ∧ ((at2000 0xE#32).superuser = true ∧ (at2000 0xE#32).level.toNat = Config.ex.maxLevel)
      ∧ (at2000 0xC#32).level.toNat = twoLevels.maxLevel
      ∧ ((at2000 8#32).superuser = true ∧ (at2000 8#32).level = 0#2) := by decide

theorem witness_divide :
    Config.ex.hasDiv = true ∧ Config.ex.nod = false ∧ ((at2000 8#32).setX 2 2#32).x 2 ≠ 0#32
      ∧ ((at2000 8#32).x 2 = 0#32 ∧ (at2000 8#32).ir.intMask.getLsbD 30 = true)
      ∧ (withIr (at2000 8#32) fun r => { r with intMask := 0x80000000#32 }).ir.intMask.getLsbD 30 = false := by decide

/-- The TLB statements: the MMU, superuser mode, canonical TLB; ways at both ends of the range; both forms of the lock
condition; RWLK exists. -/
theorem witness_tlb :
    mapped.cfg.hasMmu = true ∧ mapped.superuser = true ∧ mapped.tlbOk ∧ mapped.mmuReservedOk ∧ 0 < mapped.cfg.tlbWays
      ∧ mapped.cfg.tblck = true ∧ entryWay mapped.cfg 0x60#32 < mapped.cfg.tlbWays
      ∧ (let s := mapped
        ¬(∀ k < s.cfg.tlbSets * s.cfg.tlbWays, k % s.cfg.tlbSets = 3 → (s.tlb.read k).l = true))
      ∧ (let s := withEntry threeLocked 99 { entry403 with l := true }
        (∀ k < s.cfg.tlbSets * s.cfg.tlbWays, k % s.cfg.tlbSets = 3 → (s.tlb.read k).l = true)
          ∧ s.mr.mmuCtl.getLsbD 9 = false) := by decide

/-- A fully associative TLB of 5 entries (MMU_CFG.FATB and FATBSZ, R612): entry number 12 is way 4, its high bits
ignored; and an entry that matches an address and one that does not. -/
theorem test_tlb_geometry :
    (let c := mmuCfg 0x4B080586#32
     c.mmuCfg.getLsbD 7 = true ∧ c.tlbSets = 1 ∧ c.tlbWays = 5 ∧ entryNumber c 12#32 = 4)
      ∧ (Config.ex.mmuCfg.getLsbD 7 = false ∧ entryNumber Config.ex 0xF0000063#32 = 99)
      ∧ mapped.tlbMatches entry403 0x00403FFF#32 = true ∧ mapped.tlbMatches entry403 0x00404000#32 = false := by decide

/-- CFG_EX with three ways: way 3 is no way. -/
def threeWays : Config := mmuCfg 0x0B081A06#32

theorem witness_TlbTargetReadAndWrite_absent :
    threeWays.hasMmu = true ∧ threeWays.tlbWays = 3 ∧ entryWay threeWays 0x60#32 = 3 := by decide

/-- TWR of a way that is none writes nothing; TRD of it completes (U18). -/
theorem test_tlb_absent_way :
    after (.tlbopTwr 4) (State.withCfg ((at2000 8#32).setX 4 0x60#32) threeWays) (fun t => (t.tlb, t.pc))
        = some ((at2000 8#32).tlb, 0x2004#32)
      ∧ after (.tlbopTrd 4) (State.withCfg ((at2000 8#32).setX 4 0x60#32) threeWays) (·.pc) = some 0x2004#32 := by
  decide

/-- What FLUA meets: an entry written and locked, one never written since a reset, one left unknown by MTBDZ. -/
theorem witness_TlbFlushAll :
    mapped.tlbOk
      ∧ (let s := withEntry mapped 35 { entry403 with l := true }
        s.tlb.fill = .flushed 0 ∧ (s.tlb.read 35).l = true ∧ (cellGet s.tlb.cells 36).isSome = false)
      ∧ (let s := { mapped with tlb := ⟨[(35, { entry403 with l := true })], .unknown 7⟩ }
        s.tlbOk ∧ (cellGet s.tlb.cells 35).isSome = true ∧ (cellGet s.tlb.cells 36).isSome = false
          ∧ ∀ d, s.tlb.fill ≠ .flushed d) :=
  ⟨by decide, by decide, by decide, by decide, by decide, nofun⟩

theorem witness_TlbProbe :
    (probeVisible mapped 0x00404000#32 = [] ∧ probeInvisible mapped 0x00404000#32 = [])
      ∧ probeVisible mapped 0x00403000#32 = [(3, entry403)]
      ∧ probeInvisible { mapped with itlb := [{ entry403 with vpn := 0x00500#20 }] } 0x00500000#32
        = [{ entry403 with vpn := 0x00500#20 }]
      ∧ probeVisible { mapped with itlb := [{ entry403 with vpn := 0x00500#20 }] } 0x00500000#32 = []
      ∧ 2 ≤ (probeVisible (withEntry mapped 35 entry403) 0x00403000#32).length := by decide

theorem witness_MpuTargetWriteThenRead :
    (State.withCfg (at2000 8#32) mpuCfg).cfg.hasMpu = true ∧ (at2000 8#32).superuser = true
      ∧ (State.withCfg (at2000 8#32) mpuCfg).mmuReservedOk := by decide

/-- TLBOP TWR under the MPU: Hrange from TLB_VPN[28:12], PSB, C, X, M and V from TLB_DATA[31:12], [8:6], [5:4], [3:1]
and [0], to the entry that x[Rx][31:29] names (R488, R489). -/
theorem test_mpu_write :
    after (.tlbopTwr 4) (State.withCfg (withMr ((at2000 8#32).setX 4 0x60000000#32) fun m =>
        { m with tlbVpn := 0x00123000#32, tlbData := 0x456780A5#32 }) mpuCfg) (fun t => t.mpu[(3 : Fin 8)])
      = some { psb := 0x45678#20, hrange := 0x123#17, c := 2#3, x := 2#2, m := 2#3, v := true } := by decide

/-- MOVI at pc 0x2000 in memory. -/
def moviAt2000 : State := withBytes (at2000 8#32) 0x2000 [0x44, 0x10, 0x00, 0x05]

/-- CFG_EX with MSC_CFG.RDREG: 16 general registers. -/
def rdregCore : Config := mscCfg 0x0000246E#32

theorem witness_StepRunsTheDecodedInstruction :
    moviAt2000.calm ∧ transEnabled moviAt2000 .fetch false = false ∧ moviAt2000.pc.getLsbD 0 = false
      ∧ moviAt2000.busOnly ∧ moviAt2000.ramAt 0x2000 4
      ∧ (nonTranslated moviAt2000 0x2000#32).pa = 0x2000#32
      ∧ decode [moviAt2000.mem.read 0x2000, moviAt2000.mem.read 0x2001, moviAt2000.mem.read 0x2002,
        moviAt2000.mem.read 0x2003] = .ok (.movi 1 5#20, [])
      ∧ WellFormed (.movi 1 5#20) = true
      ∧ moviAt2000.cfg.rdreg = false ∧ (rdregCore.rdreg = true ∧ (1 : Reg) ∈ rdregCore.reducedRegs.toList) := by decide

/-- A calm state with another pc. -/
def State.atPc (s : State) (pc : Word) : State := { s with pc := pc }

/-- How the fetch at pc is translated: the physical address, or the entry of the exception, or nothing for a stop. -/
def fetched (s : State) : Option (Nat ⊕ Nat) :=
  match translate s.started s.pc .fetch false with
  | .ok x _ => some (.inl x.pa.toNat)
  | .raise c _ => some (.inr c.entry)
  | _ => none

/-- PSW.IT and the entry of `mapped`, with MOVI at a place of its page. -/
def fetchMapped : State :=
  withBytes (withIr mapped fun r => { r with psw := 0x48#32 }) 0x00100ABC [0x44, 0x10, 0x00, 0x05]

/-- The clauses of an untranslated fetch: pc in the ILM beyond its size; the first and the second halfword where nothing
is served; an odd pc. -/
theorem witness_StepRunsTheDecodedInstruction_bus :
    (let s := State.atPc localOn 0x00104000#32
     s.calm ∧ transEnabled s .fetch false = false ∧ s.ilmOn = true
        ∧ lmWindow s.cfg.ilmBsav1 s.ilmBase s.cfg.ilmSize 0x00104000 = true
        ∧ s.cfg.ilmSize ≤ 0x00104000 - s.ilmBase)
      ∧ (let s := State.atPc (scarce (at2000 8#32)) 16#32
        s.calm ∧ s.busOnly ∧ s.cfg.regionOf 16 = .unserved)
      ∧ (let s := State.atPc (scarce (at2000 8#32)) 14#32
        s.calm ∧ s.busOnly ∧ s.ramAt 14 2 ∧ isShort (s.mem.read 14 ++ s.mem.read 15) = false
          ∧ s.cfg.regionOf 16 = .unserved ∧ crossesPage s.pc = false)
      ∧ (State.atPc (at2000 8#32) 0x2001#32).calm ∧ (State.atPc (at2000 8#32) 0x2001#32).pc.getLsbD 0 = true := by
  decide

/-- The clauses of a translated fetch: it is served; TLB fill; the stop of a hard core; a second halfword on an unmapped
page. -/
theorem witness_StepRunsTheDecodedInstruction_translated :
    (let s := State.atPc fetchMapped 0x00403ABC#32
     s.calm ∧ s.busOnly ∧ fetched s = some (.inl 0x00100ABC) ∧ s.ramAt 0x00100ABC 4 ∧ crossesPage s.pc = false
        ∧ decode [s.mem.read 0x00100ABC, s.mem.read 0x00100ABD, s.mem.read 0x00100ABE, s.mem.read 0x00100ABF]
          = .ok (.movi 1 5#20, []))
      ∧ (let s := State.atPc fetchMapped 0x00404ABC#32
        s.calm ∧ fetched s = some (.inr 1))
      ∧ (let s := State.withCfg (State.atPc (withEntry fetchMapped 3 { entry403 with c := 3#3 }) 0x00403ABC#32) hardCore
        s.calm ∧ fetched s = none)
      ∧ (let s := State.atPc fetchMapped 0x00403FFE#32
        s.calm ∧ s.busOnly ∧ fetched s = some (.inl 0x00100FFE) ∧ crossesPage s.pc = true ∧ s.ramAt 0x00100FFE 2
          ∧ isShort (s.mem.read 0x00100FFE ++ s.mem.read 0x00100FFF) = false
          ∧ fetched (State.atPc s 0x00404000#32) = some (.inr 1)) := by decide

/-- The state at the boundary of the next step, if the step goes on to fetch there. -/
def fetches (s : State) : Option (Res (Half × Option Half)) :=
  if (sample s).2 = none && !dmaBlocked (sample s).1 && (boundary s.atBoundary).isNone then
    some (fetchInsn s.atBoundary)
  else none

/-- What a fetch reads, or the entry of the exception, or nothing for a stop. -/
def fetchedHalves (s : State) : Option ((Half × Option Half) ⊕ Nat) :=
  match fetches s with
  | some (.ok h _) => some (.inl h)
  | some (.raise c _) => some (.inr c.entry)
  | _ => none

/-- MOVI in the ILM, at its first bytes. -/
def moviInIlm : State :=
  { State.atPc localOn 0x00100000#32 with ilm := ⟨[(0, 0x44), (1, 0x10), (2, 0x00), (3, 0x05)], none⟩ }

/-- MOVI of the last halfword of a page and the first of another: PSW.IT, pages 0x00403 and 0x00404. -/
def moviAcrossPages : State :=
  withBytes (withBytes (withEntry (State.atPc fetchMapped 0x00403FFE#32) 4
    { entry403 with vpn := 0x00404#20, ppn := 0x00300#20 }) 0x00100FFE [0x44, 0x10]) 0x00300000 [0x00, 0x05]

/-- Every way of fetching: from the ILM; on the bus beside enabled local memories; over two mapped pages; from a device;
an exception; a stop; and a boundary after a sampled input. -/
theorem witness_StepRunsTheDecodedInstruction_fetch :
    fetchedHalves moviInIlm = some (.inl (0x4410#16, some 5#16))
      ∧ (let s := withMr moviAt2000 fun m => { m with ilmb := 0x00100001#32, dlmb := 0x00200001#32 }
        s.ilmOn = true ∧ fetchedHalves s = some (.inl (0x4410#16, some 5#16)))
      ∧ fetchedHalves moviAcrossPages = some (.inl (0x4410#16, some 5#16))
      ∧ (scarce (at2000 8#32)).cfg.regionOf 0 = .device ∧ (fetches (State.atPc (scarce (at2000 8#32)) 0#32)).isSome
      ∧ fetchedHalves (State.atPc (at2000 8#32) 0x2001#32) = some (.inr 7)
      ∧ (let s := State.atPc badRange 0x2000#32
        (fetches s).isSome = true ∧ fetchedHalves s = none)
      ∧ (let s := { moviAt2000 with env := ⟨0#6, none, false, [⟨1#6, none, false, none, none⟩]⟩ }
        fetchedHalves s = some (.inl (0x4410#16, some 5#16)) ∧ s.atBoundary.env.extIrq = 1#6) := by decide

/-- A step of each: MOVI in the ILM, MOVI of two pages. -/
theorem test_fetch_from_ilm_and_two_pages :
    (nextOf (step moviInIlm)).map (fun t => (t.x 1, t.pc)) = some (5#32, 0x00100004#32)
      ∧ (nextOf (step moviAcrossPages)).map (fun t => (t.x 1, t.pc)) = some (5#32, 0x00404002#32) := by decide

/-- An odd pc (R832: entry 7, the pc saved); MOVI of a mapped page; a TLB fill of a fetch (entry 1, EVA its page); a
fetch where nothing is served (R835: entry 7, ITYPE: code 4 and INST); a TLB fill of a second halfword (R447: the pc of
the instruction is saved). -/
theorem test_fetch_exceptions :
    (nextOf (step (State.atPc (at2000 8#32) 0x2001#32))).map (fun t => (t.pc, t.ir.ipc)) = some (0x70#32, 0x2001#32)
      ∧ (nextOf (step (State.atPc fetchMapped 0x00403ABC#32))).map (fun t => (t.x 1, t.pc))
        = some (5#32, 0x00403AC0#32)
      ∧ (nextOf (step (State.atPc fetchMapped 0x00404ABC#32))).map (fun t => (t.pc, t.ir.eva))
        = some (0x10#32, 0x00404000#32)
      ∧ (nextOf (step (State.atPc (scarce (at2000 8#32)) 16#32))).map (fun t => (t.pc, t.ir.itype))
        = some (0x70#32, 0x14#32)
      ∧ (nextOf (step (State.atPc fetchMapped 0x00403FFE#32))).map (fun t => (t.pc, t.ir.ipc, t.ir.eva))
        = some (0x10#32, 0x00403FFE#32, 0x00404000#32) := by decide

/-- With RDREG: MOVI to x[1] runs, MOVI to x[11] is a Reserved instruction (entry 7). -/
theorem test_reduced_registers :
    ((nextOf (step ((State.withCfg State.reset rdregCore).withFetchWord 32 0x44100005))).map fun t => (t.x 1, t.pc))
        = some (5#32, 4#32)
      ∧ ((nextOf (step ((State.withCfg State.reset rdregCore).withFetchWord 32 0x44B00005))).map
        fun t => (t.ir.itype, t.pc)) = some (1#32, 0x70#32) := by decide

theorem witness_UndecodedWordsAreReserved :
    decode (fetchedBytes (0x7E00#16, some 0#16)) = .error (.unassigned32 0x7E000000#32)
      ∧ decode (fetchedBytes (0#16, some 0#16)) = .error (.unassigned32 0#32)
      ∧ Config.ex.baseV2 = true
      ∧ (withIr (at2000 8#32) fun r => { r with intMask := 0x20000000#32 }).ir.intMask.getLsbD 29 = true
      ∧ (at2000 8#32).ir.intMask.getLsbD 29 = false ∧ transEnabled (at2000 8#32) .load false = false
      ∧ (at2000 8#32).busOnly ∧ (at2000 8#32).ramAt 0 1 ∧ (at2000 8#32).cfg.rdreg = false
      ∧ (decode (fetchedBytes (0x44B0#16, some 5#16)) = .ok (.movi 11 5#20, []) ∧ rdregCore.rdreg = true
        ∧ (11 : Reg) ∉ rdregCore.reducedRegs.toList ∧ (0 : Reg) ∈ rdregCore.reducedRegs.toList)
      ∧ (0 : Reg) ∉ ({ rdregCore with reducedRegs := Vector.replicate 16 1 } : Config).reducedRegs.toList := by decide

/-- V-IRQ-1: HW1 and SW0 pending and enabled, GIE 1. -/
def requested (mask : Word) (lines : BitVec 6) : State :=
  { withIr (at2000 1#32) (fun r => { r with intMask := mask, swi := true }) with env := ⟨lines, none, false, []⟩ }

/-- EVIC mode (IVB bit 13) with a request of entry 9 + 63, at GIE 1. -/
def vectored (mask : Word) (req : Option (BitVec 6 × BitVec 6)) : State :=
  { withIr (at2000 1#32) (fun r => { r with intMask := mask, ivb := 0x6000#32 }) with env := ⟨0#6, req, false, []⟩ }

theorem witness_InterruptsAreTakenByPriority :
    (let s := requested 0x00010003#32 2#6
     s.env.inputs = [] ∧ s.running = none ∧ s.stepEvt = false ∧ s.env.nmi = false ∧ s.ir.ivb.getLsbD 13 = false
        ∧ s.effGie = true
        ∧ (s.hwIrq.getLsbD 1 && s.ir.intMask.getLsbD 1) = true ∧ (s.hwIrq.getLsbD 0 && s.ir.intMask.getLsbD 0) = false)
      ∧ ((requested 0x00010000#32 0#6).ir.swi && (requested 0x00010000#32 0#6).ir.intMask.getLsbD 16) = true
      ∧ (at2000 8#32).effGie = false
      ∧ (let s := vectored 0#32 (some (63#6, 1#6))
        s.env.inputs = [] ∧ s.running = none ∧ s.stepEvt = false ∧ s.env.nmi = false ∧ s.ir.ivb.getLsbD 13 = true
          ∧ s.effGie = true ∧ s.env.evicReq = some (63#6, 1#6))
      ∧ (vectored 0#32 none).env.evicReq = none := by decide

/-- In EVIC mode the request is taken whatever INT_MASK: entry 9 + 63, 16 bytes each where ESZ is 1 (R776, R845). -/
theorem test_vectored_interrupt :
    (nextOf (step (vectored 0#32 (some (63#6, 1#6))))).map (fun t => (t.pc, t.ir.ipc))
      = some (0x480#32, 0x2000#32) := by decide

theorem witness_SingleStepAndNmiComeFirst :
    (at2000 8#32).env.inputs = [] ∧ (at2000 8#32).running = none
      ∧ ({ at2000 8#32 with stepEvt := true } : State).stepEvt = true
      ∧ ({ at2000 8#32 with env := ⟨0#6, none, true, []⟩ } : State).env.nmi = true := by decide

/-- A step that samples an input: a line, the controller's request, NMI and an imprecise bus report of a fetch. -/
theorem witness_SingleStepAndNmiComeFirst_inputs :
    (let s := { at2000 8#32 with env := ⟨0#6, none, false, [⟨2#6, some (1#6, 2#6), true, none, some true⟩]⟩ }
     s.goesOn ∧ s.atBoundary.stepEvt = false ∧ s.atBoundary.env.nmi = true)
      ∧ ({ at2000 8#32 with stepEvt := true } : State).goesOn
      ∧ ({ at2000 8#32 with stepEvt := true } : State).atBoundary.stepEvt = true
      ∧ (requested 0x00010003#32 2#6).goesOn ∧ (vectored 0#32 (some (63#6, 1#6))).goesOn := by decide

/-- What that step samples (R815, R821, R841, R845): the report pends at level 0; an NMI is taken (entry 0). -/
theorem test_inputs_are_sampled :
    let s := { at2000 8#32 with env := ⟨0#6, none, false, [⟨2#6, some (1#6, 2#6), true, none, some true⟩]⟩ }
    ((sample s).1.env, (sample s).1.pendImp)
        = (⟨2#6, some (1#6, 2#6), true, []⟩, [⟨.impreciseBusError true, 0#2⟩])
      ∧ (nextOf (step s)).map (fun t => (t.pc, t.env.nmi, t.pendImp.length)) = some (0#32, false, 1) := by decide

theorem witness_ImpreciseExceptionsRespectTheLevel :
    let s := { at2000 8#32 with pendImp := [⟨.impreciseBusError true, 1#2⟩, ⟨.impreciseBusError false, 0#2⟩,
      ⟨.impreciseBusError false, 1#2⟩] }
    s.stepEvt = false ∧ s.env.nmi = false ∧ interruptCause s = none
      ∧ (boundary s).map (fun p => (p.1, p.2.pendImp))
        = some (.impreciseBusError false, [⟨.impreciseBusError true, 1#2⟩, ⟨.impreciseBusError false, 1#2⟩])
      ∧ boundary { s with ir := { s.ir with psw := 0xC#32 } } = none
      ∧ s.goesOn ∧ (boundary s.atBoundary).isSome = true := by decide

theorem witness_ResetEvent :
    ({ at2000 8#32 with env := ⟨0#6, none, false, [⟨0#6, none, false, some .warm, none⟩]⟩ } : State).env.inputs
      = [⟨0#6, none, false, some .warm, none⟩] := by decide

/-- Channel 0 set up as in V-DMA-1 (or with another SETUP, ISADDR, TCNT). -/
def channel (setup : Word) (isaddr : BitVec 20) (tcnt : BitVec 18) : DmaChan :=
  { DmaChan.reset with setup := setup, isaddr := isaddr, esaddr := 0x00800000#32, tcnt := tcnt }

def dmaState (c : DmaChan) : State := { at2000 8#32 with dma := { DmaEngine.reset with en := true, ch0 := c } }

/-- A command in x[1] to channel 0. -/
def commanded (c : DmaChan) (acmd : Word) : State := (dmaState c).setX 1 acmd

/-- Every command: the channel idle, disrupted, pended (the other in Run), in Run; the checks failing and passing; a
count of 0; an absent local memory. -/
theorem witness_DmaStart :
    let c := channel 0x49#32 0x100#20 4#18
    let s := commanded c 1#32
    srAccessAllowed s 0x298#10 = true ∧ s.cfg.hasDma = true ∧ s.dma.en = true ∧ s.selected = false
      ∧ [0#32, 1#32, 2#32, 3#32].map (fun v => ((commanded c v).x 1).extractLsb' 0 2) = [0#2, 1#2, 2#2, 3#2]
      ∧ (c.stat = .idle ∧ ({ c with stat := .stopError, err := { DmaErr.none with derr := true } } : DmaChan).err.ebus
        = false)
      ∧ (c.isaddr.toNat % 4 = 0 ∧ c.esaddr.toNat % 4 = 0 ∧ (c.setup.extractLsb' 4 12).toNat % 4 = 0
        ∧ c.setup.getLsbD 20 = false)
      ∧ (channel 0x49#32 0x102#20 4#18).isaddr.toNat % 4 ≠ 0
      ∧ ((channel 0x100049#32 0x100#20 4#18).setup.getLsbD 20 = true ∧ s.cfg.dma2det = true
        ∧ (channel 0x100049#32 0x100#20 4#18).wecnt = 0#16)
      ∧ c.tcnt ≠ 0#18 ∧ (channel 0x49#32 0x100#20 0#18).tcnt = 0#18 ∧ dmaLmPresent s c = true
      ∧ dmaLmPresent (State.withCfg s { Config.ex with dcmCfg := 0x000000C0#32 }) c = false
      ∧ s.hsmpBroken = false := by decide

/-- Start beside a running channel pends; Stop of the pended one; Reset of a running one starts the pended one. -/
theorem test_dma_commands_between_channels :
    let c := channel 0x49#32 0x100#20 4#18
    let both := fun (a b : DmaStat) (v : Word) =>
      { commanded { c with stat := a } v with
        dma := { DmaEngine.reset with en := true, ch0 := { c with stat := a }, ch1 := { c with stat := b } } }
    after (.mtsr 1 0x298#10) (both .idle .run 1#32) (fun t => ((t.chan false).stat, (t.chan true).stat))
        = some (.pended, .run)
      ∧ after (.mtsr 1 0x298#10) (both .pended .run 2#32) (fun t => ((t.chan false).stat, (t.chan true).stat))
        = some (.stopError, .run)
      ∧ after (.mtsr 1 0x298#10) (both .run .pended 3#32) (fun t => ((t.chan false).stat, (t.chan true).stat))
        = some (.idle, .run) := by decide

/-- Stop of a channel in Run, the other one pended or not, over a bus that is not and that is undefined. -/
theorem witness_DmaStart_stop :
    let c := { channel 0x49#32 0x100#20 4#18 with
      stat := .run, wIntOff := 0x100, wExtAddr := 0x00800000#32, wCount := 4 }
    let s := commanded c 2#32
    (s.x 1).extractLsb' 0 2 = 2#2 ∧ (s.chan s.selected).stat = .run ∧ s.hsmpBroken = false
      ∧ (s.chan !s.selected).stat ≠ .pended
      ∧ ({ s with dma := { s.dma with ch1 := { c with stat := .pended } } }.chan !s.selected).stat = .pended
      ∧ (withMr s fun m => { m with hsmpSaddr := 0x0000000B#32 }).hsmpBroken = true := by decide

/-- A channel leaves Run by Stop after one element: its restart values (R722), its interrupt by SIE, and the pended one
starts. -/
theorem test_dma_stop_in_run :
    let c := { channel 0x20049#32 0x100#20 4#18 with
      stat := .run, wIntOff := 0x110, wExtAddr := 0x00800010#32, wCount := 3 }
    let s := commanded c 2#32
    let t := finish { s with dma := { s.dma with ch1 := { c with stat := .pended } } } false .stopError c.err c.sie
    ((t.chan false).stat, (t.chan false).int, (t.chan false).isaddr, (t.chan false).esaddr, (t.chan false).tcnt,
      (t.chan true).stat) = (.stopError, true, 0x110#20, 0x00800010#32, 3#18, .run) := by decide

/-- V-DMA-6 in Run. -/
def sending : State :=
  dmaState { channel 0x1004B#32 0x100#20 4#18 with stat := .run, wIntOff := 0x100, wExtAddr := 0x00800000#32,
                                                   wCount := 4 }

/-- One element in Run: the SETUP word, the working values. -/
def moving (setup : Word) (off : Nat) (ext : Word) (count : Nat) : State :=
  dmaState { channel setup 0x100#20 4#18 with stat := .run, wIntOff := off, wExtAddr := ext, wCount := count }

/-- Outward and inward, more to come; the last word of the DLM; the last element; an unaligned element across
0xFFFFFFFF; an element whose last byte nothing serves; a set-up register of a channel in Run and in Pended. -/
theorem witness_DmaElementOutward :
    sending.memoryOk
      ∧ (let c := sending.chan false
        c.setup.getLsbD 1 = true ∧ sending.ramAt c.wExtAddr.toNat 4 ∧ 1 < c.wCount
        ∧ c.setup.extractLsb' 2 2 = 2#2 ∧ c.wIntOff + 4 < dmaLimit sending c)
      ∧ (let s := moving 0x10049#32 0x3FFC 0x00800000#32 1
        let c := s.chan false
        c.setup.getLsbD 1 = false ∧ c.wCount = 1 ∧ c.wIntOff + 4 = dmaLimit s c)
      ∧ (let s := moving 0x8004B#32 0x100 0xFFFFFFFE#32 2
        s.ramAt (s.chan false).wExtAddr.toNat 4 ∧ s.cfg.dmaUnea = true)
      ∧ (let s := scarce (moving 0x8004B#32 0x100 13#32 2)
        (s.chan false).wExtAddr.toNat + 3 = 16 ∧ s.cfg.regionOf 16 = .unserved)
      ∧ reaches { sending with dma := { sending.dma with ch0 := { sending.dma.ch0 with stat := .pended } } }
        0x2B8#10 .dmaTcnt := by
  unfold reaches; decide

/-- A step with a channel in Run and one without, over a bus that is and that is not undefined. -/
theorem witness_DmaElementOutward_burst :
    ((sample sending).2 = none ∧ (sample sending).1.running = some false ∧ (sample sending).1.hsmpBroken = false)
      ∧ (sample (at2000 8#32)).1.running = none
      ∧ (let s := withMr sending fun m => { m with hsmpSaddr := 0x0000000B#32 }
        (sample s).1.running = some false ∧ (sample s).1.hsmpBroken = true) := by decide

/-- The unaligned element across 0xFFFFFFFF goes on at address 0 (R21). -/
theorem test_dma_element_wraps :
    let s := { moving 0x8004B#32 0x100 0xFFFFFFFE#32 2 with
      dlm := ⟨[(0x100, 0x11), (0x101, 0x22), (0x102, 0x33), (0x103, 0x44)], none⟩ }
    (element s false).mem = [(0, 0x33), (1, 0x44), (0xFFFFFFFE, 0x11), (0xFFFFFFFF, 0x22)] := by decide

/-- An element the bus refuses: Stop/Error with EBUS, nothing stored (R723). -/
theorem test_dma_bus_error :
    let s := element (scarce (moving 0x8004B#32 0x100 13#32 2)) false
    ((s.chan false).stat, (s.chan false).err, s.mem)
      = (.stopError, { DmaErr.none with ebus := true }, (at2000 8#32).mem) := by decide

theorem witness_DmaDisabled :
    srAccessAllowed (at2000 8#32) 0x298#10 = true ∧ srAccessAllowed (at2000 8#32) 0x288#10 = true
      ∧ srAccessAllowed granted 0x288#10 = true ∧ (at2000 8#32).cfg.hasDma = true ∧ (at2000 8#32).dma.en = false
      ∧ ((at2000 8#32).x 1).getLsbD 31 = false := by decide

/-- A channel that leaves Run by EBUS, IOOR, its last element or DERR: the pended other one enters Run with its working
values, `w` being STWECNT (R701, R720, R722). -/
theorem test_dma_pended_channel_starts :
    let o := { DmaChan.reset with
      stat := .pended, isaddr := 0x20#20, esaddr := 0x1000#32, tcnt := 2#18, stwecnt := 9#16 }
    let beside := fun s : State => { s with dma := { s.dma with ch1 := o } }
    let entered := { o with stat := .run, wIntOff := 0x20, wExtAddr := 0x1000#32, wCount := 2, wRow := 9 }
    let ebus := element (beside (scarce (moving 0x8004B#32 0x100 13#32 2))) false
    let ioor := element (beside (moving 0x1004B#32 0x3FFC 0x00800000#32 2)) false
    let last := element (beside (moving 0x1004B#32 0x100 0x00800000#32 1)) false
    ((ebus.chan false).err.ebus, ebus.chan true) = (true, entered)
      ∧ ((ioor.chan false).err.ioor, ioor.chan true) = (true, entered)
      ∧ ((last.chan false).stat, last.chan true) = (.complete, entered)
      ∧ after (.mtsr 1 0x2B8#10) (beside sending) (fun t => ((t.chan false).err.derr, t.chan true, t.dma.en))
        = some (true, entered, true) := by decide

/-- With DMA_WECNT_MINUS1 a 1-D transfer starts with `w` = STWECNT and leaves it as it was; a 2-D one counts STWECNT + 1
(R720, R730). -/
theorem test_dma_start_row :
    let run := fun setup : Word =>
      let c := { channel setup 0x100#20 4#18 with stwecnt := 7#16 }
      let s := enterRun (State.withCfg (dmaState c) { Config.ex with dmaWecntMinus1 := true }) false
      ((s.chan false).wRow, ((finish s false .stopError .none false).chan false).stwecnt)
    run 0x49#32 = (7, 7#16) ∧ run 0x100049#32 = (8, 8#16) := by decide

/-- Start in user mode with DMA_USR_EN: the channel runs, its working values from its registers (R720, R730). -/
theorem test_dma_start_in_user_mode :
    let c := { channel 0x49#32 0x100#20 4#18 with stwecnt := 7#16 }
    after (.mtsr 1 0x298#10) { granted.setX 1 1#32 with dma := { DmaEngine.reset with en := true, ch0 := c } }
        (fun t => ((t.chan false).stat, (t.chan false).wRow, (t.chan false).wCount, t.dma.en, t.pc))
      = some (.run, 7, 4, true, 0x2004#32) := by decide

/-- PFM_CTL with all counters on and a SEL0, SEL1 and SEL2. -/
def counters (sel0 : Bool) (sel1 sel2 : BitVec 6) : State :=
  { at2000 8#32 with pfm := ⟨0#32, 0#32, 0xFFFFFFFF#32, 0#4 ++ sel2 ++ sel1 ++ BitVec.ofBool sel0 ++ 7#15⟩ }

/-- The selections of every clause. -/
theorem witness_CounterZeroCountsInstructions :
    (at2000 8#32).cfg.hasPfm = true
      ∧ (counters true 0#6 0#6).pfm.pfmCtl.getLsbD 15 = true
      ∧ (∀ n ∈ [1, 2, 3, 4, 9, 10, 11, 12, 13, 24, 29],
        ((counters false (BitVec.ofNat 6 n) 0#6).pfm.pfmCtl.extractLsb' 16 6).toNat = n)
      ∧ (∀ n ∈ [6, 7, 8, 12, 13, 24],
        ((counters false 0#6 (BitVec.ofNat 6 n)).pfm.pfmCtl.extractLsb' 22 6).toNat = n) := by decide

/-- A taken BEQZ is counted by counter 1, a J by counter 2, which wraps and sets OVF2 (bit 8); counter 0 counts both. -/
theorem test_counters_one_and_two :
    (let u := account (counters true 3#6 0#6) (.insn (.beqz 1 4#16))
       { counters true 3#6 0#6 with note := { StepNote.empty with completed := true } }
     (u.pfm.pfmc0, u.pfm.pfmc1) = (1#32, 1#32))
      ∧ (let u := account (counters true 1#6 6#6) (.insn (.j 4#24))
          { counters true 1#6 6#6 with note := { StepNote.empty with completed := true } }
        (u.pfm.pfmc1, u.pfm.pfmc2, u.pfm.pfmCtl.getLsbD 8) = (1#32, 0#32, true)) := by decide

theorem witness_DecodeOfEncode : WellFormed (.tlbopPb 4 3) = true := by decide

theorem witness_EncodeOfDecode : decode [0x64, 0x41, 0x80, 0xAE, 0x00] = .ok (.tlbopPb 4 3, [0x00]) := by decide

/-- The invariants hold at reset and a step follows: the hypotheses of the three invariants can be met together. -/
theorem witness_invariants :
    moviAt2000.memoryOk ∧ moviAt2000.tlbOk ∧ moviAt2000.modesOk ∧ moviAt2000.interruptionReservedOk
      ∧ moviAt2000.mmuReservedOk ∧ moviAt2000.dmaOk ∧ (nextOf (step moviAt2000)).isSome = true := by decide

end Sys2Proof.Tests
end

section
/-! PROOFS. Statement O59: every step keeps the modes legal and the reserved fields of majors 1 and 2 at 0. -/

namespace Sys2Proof.Machine

/-! ## Words within a mask, by the shapes the model builds them in -/

theorem within_and_left {mask v : Word} (w : Word) (h : within mask v) : within mask (v &&& w) := by
  rw [within_iff] at *
  intro i hi hvw
  rw [BitVec.getLsbD_and, Bool.and_eq_true] at hvw
  exact h i hi hvw.1

theorem within_ite_zero {mask v : Word} (b : Bool) (h : within mask v) : within mask (if b then v else 0#32) := by
  split
  · exact h
  · exact within_zero _

/-- A word is within a mask if it is 0 wherever the mask is. -/
theorem within_of_zeros {mask v : Word} (h : ∀ i < 32, mask.getLsbD i = false → v.getLsbD i = false) :
    within mask v := by
  rw [within_iff]
  intro i hi hv
  by_contra hm
  simp [h i hi (Bool.eq_false_iff.2 hm)] at hv

theorem within_fieldAt {mask : Word} {lo n : Nat} (x : BitVec n) (h : within mask (fieldMask lo n)) :
    within mask (fieldAt lo x) := by
  rw [within_iff] at *
  intro i hi hx
  rw [getLsbD_fieldAt] at hx
  refine h i hi ?_
  by_cases hn : i - lo < n
  · simp only [Bool.and_eq_true, decide_eq_true_eq] at hx
    simp only [getLsbD_fieldMask, Bool.and_eq_true, decide_eq_true_eq]
    omega
  · simp [BitVec.getLsbD_of_ge x (i - lo) (by omega)] at hx

theorem within_setField {mask v : Word} {lo n : Nat} (x : BitVec n) (hv : within mask v)
    (hm : within mask (fieldMask lo n)) : within mask (setField v lo x) :=
  within_or (within_and_left _ hv) (within_fieldAt x hm)

theorem within_bitAt {mask : Word} {i : Nat} (b : Bool) (h : mask.getLsbD i = true) : within mask (bitAt i b) := by
  rw [within_iff]
  intro j _ hj
  simp only [getLsbD_bitAt, Bool.and_eq_true, decide_eq_true_eq] at hj
  obtain ⟨⟨-, rfl⟩, -⟩ := hj
  exact h

/-! ## The masks -/

/-- Every bit but AEN (13) exists in a PSW-format register of every configuration (R101). -/
theorem within_pswMask (c : Config) : within (pswMask c) 0x5FFF#32 := by
  unfold pswMask; split <;> decide

theorem within_pswMask_of {c : Config} {v : Word} (h : within 0x5FFF#32 v) : within (pswMask c) v :=
  within_mono h (within_pswMask c)

theorem getLsbD_pswMask (c : Config) : ∀ i < 13, (pswMask c).getLsbD i = true := by
  unfold pswMask; split <;> decide

/-- The MMU and the MPU exclude each other (R49). -/
theorem hasMpu_of_hasMmu {c : Config} (h : c.hasMmu = true) : c.hasMpu = false := by
  simp only [Config.hasMmu, beq_iff_eq] at h
  simp [Config.hasMpu, h]

theorem tlbVpnMask_of_hasMmu {c : Config} (h : c.hasMmu = true) : tlbVpnMask c = 0xFFFFF000#32 := by
  simp [tlbVpnMask, hasMpu_of_hasMmu h]

theorem tlbDataMask_of_hasMmu {c : Config} (h : c.hasMmu = true) : tlbDataMask c = 0xFFFFF7FF#32 := by
  simp [tlbDataMask, hasMpu_of_hasMmu h]

theorem tlbVpnMask_of_hasMpu {c : Config} (h : c.hasMpu = true) : tlbVpnMask c = 0x1FFFF000#32 := by
  simp [tlbVpnMask, h]

theorem tlbDataMask_of_hasMpu {c : Config} (h : c.hasMpu = true) : tlbDataMask c = 0xFFFFF1FF#32 := by
  simp [tlbDataMask, h]

/-! ## Reserved values of the PSW format -/

/-- A PSW-format value is legal when POM is at most 1 and, with two levels, INTL is not 3 (R104, U5). -/
theorem pswReserved_eq_false {c : Config} {v : Word} :
    pswReserved c v = false ↔ v.getLsbD 4 = false ∧ (c.intlc = true → field v 1 2 ≠ 3#2) := by
  unfold pswReserved
  rw [bit_eq]
  cases v.getLsbD 4 <;> cases c.intlc <;> simp

/-- Whether a PSW-format value is reserved depends on its bits 4, 2 and 1 only. -/
theorem pswReserved_congr {c : Config} {v w : Word} (h4 : v.getLsbD 4 = w.getLsbD 4)
    (h2 : field v 1 2 = field w 1 2) : pswReserved c v = pswReserved c w := by
  unfold pswReserved
  rw [bit_eq, bit_eq, h4, h2]

/-- Reserved bits that are dropped do not matter. -/
theorem pswReserved_and_pswMask (c : Config) (v : Word) : pswReserved c (v &&& pswMask c) = pswReserved c v := by
  have hm := getLsbD_pswMask c
  have h4 : (v &&& pswMask c).getLsbD 4 = v.getLsbD 4 := by
    rw [BitVec.getLsbD_and, hm 4 (by decide), Bool.and_true]
  refine pswReserved_congr h4 (BitVec.eq_of_getLsbD_eq fun i hi => ?_)
  simp [hm (1 + i) (by omega)]

theorem pswReserved_setBe (c : Config) (v : Word) (be : Bool) :
    pswReserved c (setBit v 5 be) = pswReserved c v := by
  refine pswReserved_congr (by simp) (BitVec.eq_of_getLsbD_eq fun i hi => ?_)
  have : 1 + i ≠ 5 := by omega
  simp [this]

/-- INTL replaced: legal if the mode was, and the new level is. -/
theorem pswReserved_setLevel {c : Config} {v : Word} {l : BitVec 2} (hv : pswReserved c v = false)
    (hl : c.intlc = true → l ≠ 3#2) : pswReserved c (setField v 1 l) = false := by
  rw [pswReserved_eq_false] at *
  have hf : field (setField v 1 l) 1 2 = l := BitVec.eq_of_getLsbD_eq fun i hi => by
    have h1 : 1 + i < 1 + 2 ∧ 1 + i < 32 := by omega
    simp [hi, h1]
  exact ⟨by simpa using hv.1, fun h => by rw [hf]; exact hl h⟩

/-- The PSW of an entry to level 1 or 2 is in superuser mode at its new level (R784). -/
theorem pswReserved_entryPsw {c : Config} (intMask old : Word) {l : BitVec 2} (ime dme dbg : Bool)
    (hl : c.intlc = true → l ≠ 3#2) : pswReserved c (entryPsw c intMask old l ime dme dbg) = false := by
  rw [pswReserved_eq_false]
  have hf : field (entryPsw c intMask old l ime dme dbg) 1 2 = l := BitVec.eq_of_getLsbD_eq fun i hi => by
    interval_cases i <;> simp [entryPsw]
  refine ⟨?_, fun h => by rw [hf]; exact hl h⟩
  simp [entryPsw]

/-- The PSW of an entry to the overflow level keeps the mode and stands at the maximum level (R789). -/
theorem pswReserved_overflowPsw {c : Config} {old : Word} (ime dme dbg : Bool) (h : pswReserved c old = false) :
    pswReserved c (overflowPsw c old ime dme dbg) = false := by
  have hmax : c.intlc = true → BitVec.ofNat 2 c.maxLevel ≠ 3#2 := fun hc => by
    rw [Config.maxLevel, if_pos hc]; decide
  rw [← pswReserved_setLevel h hmax]
  refine pswReserved_congr (by simp [overflowPsw]) (BitVec.eq_of_getLsbD_eq fun i hi => ?_)
  interval_cases i <;> simp [overflowPsw]

/-! ## Which operations change the registers of majors 1 and 2 -/

/-- Two states hold the same parameters and the same registers of majors 1 and 2. -/
def State.sameRegs (s t : State) : Prop := t.cfg = s.cfg ∧ t.ir = s.ir ∧ t.mr = s.mr

theorem State.sameRegs_of_sameCore {s t : State} (h : s.sameCore t) : s.sameRegs t := by
  obtain ⟨hcfg, hir, hmr, -⟩ := h
  exact ⟨hcfg, hir, hmr⟩

theorem State.sameRegs_of_dmaMoved {s t : State} (h : s.dmaMoved t) : s.sameRegs t := by
  obtain ⟨hcfg, -, -, -, -, -, hir, hmr, -⟩ := State.sansDma_keeps h.1
  exact ⟨hcfg, hir, hmr⟩

theorem State.sameRegs_of_stored {s t : State} (h : s.stored t) : s.sameRegs t := by
  obtain ⟨hcfg, -, -, -, -, -, hir, hmr, -⟩ := State.sansStore_keeps h.1
  exact ⟨hcfg, hir, hmr⟩

theorem randomWriteOp_sameRegs (s : State) (pte : Word) (lock : Bool) : s.sameRegs (randomWriteOp s pte lock) := by
  unfold randomWriteOp
  split
  · next t ht =>
    obtain ⟨k, -, rfl⟩ := randomWrite_spec ht
    exact ⟨rfl, rfl, rfl⟩
  · exact ⟨rfl, rfl, rfl⟩

/-- A property of the parameters and the registers of majors 1 and 2 is kept by every step if the operations that
change those registers keep it: taking an interruption and returning from one, a reset, MTSR, SETEND, TRD. -/
theorem step_keeps_regs {P : State → Prop} (hregs : ∀ s t, s.sameRegs t → P s → P t)
    (hent : ∀ c pc s, P s → P (enter c pc s)) (hret : ∀ s, P s → P (returnState s))
    (hreset : ∀ s kind, P s → P (resetState s kind)) (hsr : ∀ s sr v, P s → (writeSr s sr v).Sat P)
    (hbe : ∀ s b, P s → P (s.setBe b)) (htrd : ∀ s x, s.cfg.hasMmu = true → P s → P (tlbTargetRead s x))
    (hmpu : ∀ s x, s.cfg.hasMpu = true → P s → P (mpuTargetRead s x)) {s u : State} (h : step s = .next u)
    (hs : P s) : P u := by
  have hcore : ∀ s t, s.sameCore t → P s → P t := fun s t h => hregs s t (State.sameRegs_of_sameCore h)
  have hsto : ∀ s t, s.stored t → P s → P t := fun s t h => hregs s t (State.sameRegs_of_stored h)
  have hacc : ∀ s t, s.accessed t → P s → P t := fun s t h => hsto s t (State.stored_of_accessed h)
  refine step_keeps hcore hent hreset (fun s => hregs _ _ (State.sameRegs_of_dmaMoved (dmaBurst_moved s))) hacc
    (fun _ _ => zeroWord_keeps hcore hent hacc) (fun _ _ _ => ?_) h hs
  refine exec_keeps hcore hent hsto hsr hbe hret htrd hmpu (fun s x => hregs _ _ ?_)
    (fun s x b => hregs _ _ (randomWriteOp_sameRegs s x b)) (fun s x => hregs _ _ ⟨rfl, rfl, rfl⟩)
    (fun s x => hregs _ _ ⟨rfl, rfl, rfl⟩) (fun s => hregs _ _ ⟨rfl, rfl, rfl⟩)
  unfold tlbTargetWrite
  split <;> exact ⟨rfl, rfl, rfl⟩

/-- The registers of major 1. -/
def Sr.inMajor1 : Sr → Bool
  | .psw | .ipsw | .pIpsw | .ivb | .eva | .pEva | .itype | .pItype | .merr | .ipc | .pIpc | .oipc | .pP0 | .pP1
  | .intMask | .intPend => true
  | _ => false

/-- The registers of major 2. -/
def Sr.inMajor2 : Sr → Bool
  | .mmuCtl | .l1Pptb | .tlbVpn | .tlbData | .tlbMisc | .vlptIdx | .ilmb | .dlmb | .cacheCtl | .hsmpSaddr
  | .hsmpEaddr => true
  | _ => false

/-- Of the parameters and the registers of majors 1 and 2, only those of the major of `sr` may differ. -/
def State.sameOtherRegs (sr : Sr) (s t : State) : Prop :=
  t.cfg = s.cfg ∧ (sr.inMajor1 = false → t.ir = s.ir) ∧ (sr.inMajor2 = false → t.mr = s.mr)

theorem State.sameOtherRegs_of_sameRegs {sr : Sr} {s t : State} (h : s.sameRegs t) : s.sameOtherRegs sr t :=
  ⟨h.1, fun _ => h.2.1, fun _ => h.2.2⟩

theorem setIr_sameOtherRegs {sr : Sr} (h : sr.inMajor1 = true) (s : State) (r : IntRegs) :
    State.sameOtherRegs sr s (s.setIr r) :=
  ⟨rfl, fun h' => absurd h' (by simp [h]), fun _ => rfl⟩

theorem setMr_sameOtherRegs {sr : Sr} (h : sr.inMajor2 = true) (s : State) (r : MmuRegs) :
    State.sameOtherRegs sr s (s.setMr r) :=
  ⟨rfl, fun _ => rfl, fun h' => absurd h' (by simp [h])⟩

/-- A write to a system register changes, of the registers of majors 1 and 2, only those of its own major. -/
theorem writeSr_sameOtherRegs (s : State) (sr : Sr) (v : Word) : (writeSr s sr v).Sat (State.sameOtherRegs sr s) := by
  have hsame : State.sameOtherRegs sr s s := ⟨rfl, fun _ => rfl, fun _ => rfl⟩
  have hdma : ∀ t, s.dmaMoved t → State.sameOtherRegs sr s t := fun t h =>
    State.sameOtherRegs_of_sameRegs (State.sameRegs_of_dmaMoved h)
  cases sr
  case psw | ipsw | pIpsw =>
    simp only [writeSr]
    split
    · exact hsame
    · exact setIr_sameOtherRegs rfl _ _
  case ivb | pEva | pItype | merr | ipc | pIpc | oipc | pP0 | pP1 | intMask | intPend =>
    exact setIr_sameOtherRegs rfl _ _
  case mmuCtl | l1Pptb | tlbVpn | tlbData | vlptIdx | cacheCtl | hsmpSaddr | hsmpEaddr =>
    exact setMr_sameOtherRegs rfl _ _
  case tlbMisc =>
    simp only [writeSr]
    split
    · exact setMr_sameOtherRegs rfl _ _
    · exact hsame
  case ilmb => exact lmWritten_sat (setMr_sameOtherRegs (sr := .ilmb) rfl _ _)
  case dlmb =>
    refine lmWritten_sat ?_
    simp only [writeDlmb]
    split <;> exact ⟨rfl, fun _ => rfl, nofun⟩
  case sdzCtl =>
    simp only [writeSr, writeSdz]
    split <;> exact hsame
  case edm n =>
    simp only [writeSr]
    split <;> exact hsame
  case dmaChnsel =>
    simp only [writeSr]
    split <;> exact hsame
  case dmaGcsw => exact hdma _ (dmaEnable_moved _ _)
  case dmaAct => exact (dmaCommand_moved _ _).mono hdma
  case dmaSetup =>
    simp only [writeSr]
    split
    · exact hsame
    · exact hdma _ (dmaSetupWrite_moved _ _)
  case dmaIsaddr | dmaEsaddr | dmaTcnt | dma2dset | dma2dsctl => exact hdma _ (dmaSetupWrite_moved _ _)
  all_goals exact hsame

/-! ## Legal modes and levels -/

theorem modesOk_of_sameRegs {s t : State} (h : s.sameRegs t) (hs : s.modesOk) : t.modesOk := by
  obtain ⟨hcfg, hir, -⟩ := h
  rw [State.modesOk, hcfg, hir]
  exact hs

/-- With two levels, an entry that does not go to the overflow level goes to level 1. -/
theorem entry_level_ne_three {s : State} (h : s.level.toNat + 1 < s.cfg.maxLevel) (hc : s.cfg.intlc = true) :
    s.level + 1#2 ≠ 3#2 := by
  rw [Config.maxLevel, if_pos hc] at h
  generalize s.level = l at *
  bv_omega

theorem enter_modesOk (c : Cause) (pc : Word) {s : State} (hs : s.modesOk) : (enter c pc s).modesOk := by
  obtain ⟨hpsw, hipsw, hpIpsw⟩ := hs
  rw [State.modesOk, enter_cfg]
  by_cases hl : s.level.toNat + 1 < s.cfg.maxLevel
  · rw [(enter_level hl).1]
    refine ⟨pswReserved_entryPsw _ _ _ _ _ (entry_level_ne_three hl), hpsw, ?_⟩
    simp only [entryRegs]
    split
    · exact hipsw
    · exact hpIpsw
  · rw [(enter_overflow hl).1]
    exact ⟨pswReserved_overflowPsw _ _ _ hpsw, hipsw, hpIpsw⟩

/-- With two levels, a return from the overflow level, 2, goes to level 1. -/
theorem return_level_ne_three {s : State} (h : s.atOverflow = true) (hc : s.cfg.intlc = true) :
    s.level - 1#2 ≠ 3#2 := by
  simp only [State.atOverflow, Config.maxLevel, if_pos hc, decide_eq_true_eq] at h
  generalize s.level = l at *
  bv_omega

theorem returnState_modesOk {s : State} (hs : s.modesOk) : (returnState s).modesOk := by
  obtain ⟨hpsw, hipsw, hpIpsw⟩ := hs
  unfold returnState
  split
  · next hover => exact ⟨pswReserved_setLevel hpsw (return_level_ne_three hover), hipsw, hpIpsw⟩
  · split
    · exact ⟨hipsw, hpIpsw, hpIpsw⟩
    · exact ⟨hipsw, hipsw, hpIpsw⟩

/-- After a reset PSW stands at level 1 in superuser mode (R921). -/
theorem pswReserved_resetPsw (c : Config) : pswReserved c (resetPsw c) = false := by
  rw [pswReserved_eq_false]
  have hf : field (resetPsw c) 1 2 = 1#2 := BitVec.eq_of_getLsbD_eq fun i hi => by
    interval_cases i <;> simp [resetPsw]
  exact ⟨by simp [resetPsw], fun _ => by rw [hf]; decide⟩

theorem pswReserved_zero (c : Config) : pswReserved c 0#32 = false :=
  pswReserved_eq_false.2 ⟨rfl, fun _ => by decide⟩

theorem resetState_modesOk (kind : ResetKind) {s : State} (hs : s.modesOk) : (resetState s kind).modesOk := by
  obtain ⟨-, hipsw, hpIpsw⟩ := hs
  show pswReserved s.cfg (resetIr s kind).psw = false ∧ pswReserved s.cfg (resetIr s kind).ipsw = false
    ∧ pswReserved s.cfg (resetIr s kind).pIpsw = false
  unfold resetIr
  split
  · exact ⟨pswReserved_resetPsw _, hipsw, hpIpsw⟩
  · exact ⟨pswReserved_resetPsw _, pswReserved_zero _, pswReserved_zero _⟩

theorem writeSr_modesOk (sr : Sr) (v : Word) {s : State} (hs : s.modesOk) : (writeSr s sr v).Sat State.modesOk := by
  have hv : ¬ pswReserved s.cfg v = true → pswReserved s.cfg (v &&& pswMask s.cfg) = false := fun h => by
    rw [pswReserved_and_pswMask, Bool.eq_false_iff]; exact h
  cases hsr : sr.inMajor1
  case false =>
    refine (writeSr_sameOtherRegs s sr v).mono fun t ⟨hcfg, hir, _⟩ => ?_
    rw [State.modesOk, hcfg, hir hsr]
    exact hs
  case true =>
    obtain ⟨hpsw, hipsw, hpIpsw⟩ := hs
    cases sr
    case psw =>
      simp only [writeSr]
      split
      · exact ⟨hpsw, hipsw, hpIpsw⟩
      · next h => exact ⟨hv h, hipsw, hpIpsw⟩
    case ipsw =>
      simp only [writeSr]
      split
      · exact ⟨hpsw, hipsw, hpIpsw⟩
      · next h => exact ⟨hpsw, hv h, hpIpsw⟩
    case pIpsw =>
      simp only [writeSr]
      split
      · exact ⟨hpsw, hipsw, hpIpsw⟩
      · next h => exact ⟨hpsw, hipsw, hv h⟩
    case eva | itype | ivb | pEva | pItype | merr | ipc | pIpc | oipc | pP0 | pP1 | intMask | intPend =>
      exact ⟨hpsw, hipsw, hpIpsw⟩
    all_goals cases hsr

theorem setBe_modesOk (be : Bool) {s : State} (hs : s.modesOk) : (s.setBe be).modesOk := by
  obtain ⟨hpsw, hipsw, hpIpsw⟩ := hs
  exact ⟨(pswReserved_setBe _ _ _).trans hpsw, hipsw, hpIpsw⟩

theorem step_modesOk {s t : State} (h : step s = .next t) (hs : s.modesOk) : t.modesOk :=
  step_keeps_regs (fun _ _ => modesOk_of_sameRegs) (fun c pc _ => enter_modesOk c pc)
    (fun _ => returnState_modesOk) (fun _ kind => resetState_modesOk kind) (fun _ sr v => writeSr_modesOk sr v)
    (fun _ be => setBe_modesOk be)
    (fun _ _ _ => by unfold tlbTargetRead; split <;> exact id) (fun _ _ _ => id) h hs

/-! ## Reserved fields of major 1 -/

theorem interruptionReservedOk_of_sameRegs {s t : State} (h : s.sameRegs t) (hs : s.interruptionReservedOk) :
    t.interruptionReservedOk := by
  obtain ⟨hcfg, hir, -⟩ := h
  rw [State.interruptionReservedOk, hcfg, hir]
  exact hs

theorem entryPsw_within (c : Config) (intMask old : Word) (l : BitVec 2) (ime dme dbg : Bool) :
    within (pswMask c) (entryPsw c intMask old l ime dme dbg) := by
  refine within_pswMask_of ?_
  unfold entryPsw
  repeat' apply within_or
  all_goals first
    | exact within_bitAt _ rfl
    | exact within_fieldAt _ rfl

theorem overflowPsw_within {c : Config} {old : Word} (ime dme dbg : Bool) (h : within (pswMask c) old) :
    within (pswMask c) (overflowPsw c old ime dme dbg) := by
  have hm := getLsbD_pswMask c
  have hlevel := within_setField (BitVec.ofNat 2 c.maxLevel) h (lo := 1) (within_pswMask_of rfl)
  exact within_or (within_or (within_or hlevel (within_bitAt _ (hm 8 (by decide)))) (within_bitAt _ (hm 9 (by decide))))
    (within_bitAt _ (hm 10 (by decide)))

theorem Cause.itypeHigh_within (c : Cause) : within itypeMask c.itypeHigh := by
  unfold Cause.itypeHigh
  split <;> first | exact within_fieldAt _ rfl | exact within_zero _

theorem itypeOf_within (s : State) (c : Cause) : within itypeMask (itypeOf s c) :=
  within_or (within_or (within_fieldAt _ rfl) (within_bitAt _ rfl)) (Cause.itypeHigh_within c)

theorem merrAfter_within {s : State} (c : Cause) (h : within 0x80000000#32 s.ir.merr) :
    within 0x80000000#32 (merrAfter s c) := by
  unfold merrAfter
  split
  · exact within_or h rfl
  · exact h

theorem enter_interruptionReservedOk (c : Cause) (pc : Word) {s : State} (hs : s.interruptionReservedOk) :
    (enter c pc s).interruptionReservedOk := by
  obtain ⟨hpsw, hipsw, hpIpsw, hivb, hitype, hpItype, hmerr, hmask⟩ := hs
  rw [State.interruptionReservedOk, enter_cfg]
  by_cases hl : s.level.toNat + 1 < s.cfg.maxLevel
  · rw [(enter_level hl).1]
    refine ⟨entryPsw_within _ _ _ _ _ _ _, hpsw, ?_, hivb, itypeOf_within _ _, ?_, merrAfter_within _ hmerr, hmask⟩
    · simp only [entryRegs]
      split
      · exact hipsw
      · exact hpIpsw
    · simp only [entryRegs]
      split
      · exact hitype
      · exact hpItype
  · rw [(enter_overflow hl).1]
    exact ⟨overflowPsw_within _ _ _ hpsw, hipsw, hpIpsw, hivb, hitype, hpItype, merrAfter_within _ hmerr, hmask⟩

theorem returnState_interruptionReservedOk {s : State} (hs : s.interruptionReservedOk) :
    (returnState s).interruptionReservedOk := by
  obtain ⟨hpsw, hipsw, hpIpsw, hivb, hitype, hpItype, hmerr, hmask⟩ := hs
  unfold returnState
  split
  · exact ⟨within_setField _ hpsw (within_pswMask_of rfl), hipsw, hpIpsw, hivb, hitype, hpItype, hmerr, hmask⟩
  · split
    · exact ⟨hipsw, hpIpsw, hpIpsw, hivb, hpItype, hpItype, hmerr, hmask⟩
    · exact ⟨hipsw, hipsw, hpIpsw, hivb, hitype, hpItype, hmerr, hmask⟩

theorem resetPsw_within (c : Config) : within (pswMask c) (resetPsw c) :=
  within_pswMask_of (within_or (within_or rfl (within_bitAt _ rfl)) (within_bitAt _ rfl))

theorem resetIvb_within (c : Config) : within 0xFFFFE000#32 (resetIvb c) := by
  refine within_or (within_of_zeros fun i hi hm => ?_) (within_bitAt _ rfl)
  have hlow : ∀ i < 32, (0xFFFFE000#32).getLsbD i = false → i < 16 ∧ (0x4000#16).getLsbD i = false := by decide
  obtain ⟨h16, hzero⟩ := hlow i hi hm
  rw [BitVec.getLsbD_append, if_pos h16, hzero]

theorem intMaskReset_within (c : Config) : within (intMaskMask c) 0xC0000000#32 :=
  within_of_zeros fun i hi hm => by
    simp only [intMaskMask, BitVec.getLsbD_or, Bool.or_eq_false_iff] at hm
    have hsub : ∀ i < 32, (0xC001003F#32).getLsbD i = false → (0xC0000000#32).getLsbD i = false := by decide
    exact hsub i hi hm.1

theorem resetItype_within (c : Config) (kind : ResetKind) : within itypeMask (IntRegs.reset c kind).itype := by
  cases kind
  · exact within_zero _
  · exact (rfl : within itypeMask 1#32)

theorem resetState_interruptionReservedOk (kind : ResetKind) {s : State} (hs : s.interruptionReservedOk) :
    (resetState s kind).interruptionReservedOk := by
  obtain ⟨-, hipsw, hpIpsw, -, -, hpItype, -, -⟩ := hs
  show within (pswMask s.cfg) (resetIr s kind).psw ∧ within (pswMask s.cfg) (resetIr s kind).ipsw
    ∧ within (pswMask s.cfg) (resetIr s kind).pIpsw ∧ within 0xFFFFE000#32 (resetIr s kind).ivb
    ∧ within itypeMask (resetIr s kind).itype ∧ within itypeMask (resetIr s kind).pItype
    ∧ within 0x80000000#32 (resetIr s kind).merr ∧ within (intMaskMask s.cfg) (resetIr s kind).intMask
  unfold resetIr
  split
  · exact ⟨resetPsw_within _, hipsw, hpIpsw, resetIvb_within _, resetItype_within s.cfg kind, hpItype,
      within_zero _, intMaskReset_within _⟩
  · exact ⟨resetPsw_within _, within_zero _, within_zero _, resetIvb_within _, resetItype_within s.cfg kind,
      within_zero _, within_zero _, intMaskReset_within _⟩

theorem writeSr_interruptionReservedOk (sr : Sr) (v : Word) {s : State} (hs : s.interruptionReservedOk) :
    (writeSr s sr v).Sat State.interruptionReservedOk := by
  cases hsr : sr.inMajor1
  case false =>
    refine (writeSr_sameOtherRegs s sr v).mono fun t ⟨hcfg, hir, _⟩ => ?_
    rw [State.interruptionReservedOk, hcfg, hir hsr]
    exact hs
  case true =>
    have ⟨hpsw, hipsw, hpIpsw, hivb, hitype, hpItype, hmerr, hmask⟩ := hs
    cases sr
    case psw =>
      simp only [writeSr]
      split
      · exact hs
      · exact ⟨within_and _ _, hipsw, hpIpsw, hivb, hitype, hpItype, hmerr, hmask⟩
    case ipsw =>
      simp only [writeSr]
      split
      · exact hs
      · exact ⟨hpsw, within_and _ _, hpIpsw, hivb, hitype, hpItype, hmerr, hmask⟩
    case pIpsw =>
      simp only [writeSr]
      split
      · exact hs
      · exact ⟨hpsw, hipsw, within_and _ _, hivb, hitype, hpItype, hmerr, hmask⟩
    case ivb => exact ⟨hpsw, hipsw, hpIpsw, within_and _ _, hitype, hpItype, hmerr, hmask⟩
    case pItype => exact ⟨hpsw, hipsw, hpIpsw, hivb, hitype, within_and _ _, hmerr, hmask⟩
    case merr => exact ⟨hpsw, hipsw, hpIpsw, hivb, hitype, hpItype, within_and_left _ hmerr, hmask⟩
    case intMask => exact ⟨hpsw, hipsw, hpIpsw, hivb, hitype, hpItype, hmerr, within_and _ _⟩
    case eva | itype | pEva | ipc | pIpc | oipc | pP0 | pP1 | intPend => exact hs
    all_goals cases hsr

theorem setBe_interruptionReservedOk (be : Bool) {s : State} (hs : s.interruptionReservedOk) :
    (s.setBe be).interruptionReservedOk := by
  obtain ⟨hpsw, hrest⟩ := hs
  exact ⟨within_setField _ hpsw (within_pswMask_of rfl), hrest⟩

theorem step_interruptionReservedOk {s t : State} (h : step s = .next t) (hs : s.interruptionReservedOk) :
    t.interruptionReservedOk :=
  step_keeps_regs (fun _ _ => interruptionReservedOk_of_sameRegs) (fun c pc _ => enter_interruptionReservedOk c pc)
    (fun _ => returnState_interruptionReservedOk) (fun _ kind => resetState_interruptionReservedOk kind)
    (fun _ sr v => writeSr_interruptionReservedOk sr v) (fun _ be => setBe_interruptionReservedOk be)
    (fun _ _ _ => by unfold tlbTargetRead; split <;> exact id) (fun _ _ _ => id) h hs

/-! ## Reserved fields of major 2 -/

theorem mmuReservedOk_of_sameRegs {s t : State} (h : s.sameRegs t) (hs : s.mmuReservedOk) : t.mmuReservedOk := by
  obtain ⟨hcfg, -, hmr⟩ := h
  rw [State.mmuReservedOk, hcfg, hmr]
  exact hs

theorem enter_mmuReservedOk (c : Cause) (pc : Word) {s : State} (hs : s.mmuReservedOk) :
    (enter c pc s).mmuReservedOk := by
  have ⟨hmmuCtl, hl1, hvpn, hdata, hmisc, hvlpt, hrest⟩ := hs
  rw [State.mmuReservedOk, enter_cfg]
  by_cases hl : s.level.toNat + 1 < s.cfg.maxLevel
  · rw [(enter_level hl).2]
    refine ⟨hmmuCtl, hl1, ?_, hdata, hmisc, ?_, hrest⟩
    · simp only [entryMmu]
      split
      · split
        · next hmmu =>
          rw [tlbVpnMask_of_hasMmu hmmu]
          exact within_and _ _
        · exact hvpn
      · exact hvpn
    · simp only [entryMmu]
      split
      · split
        · exact within_setField _ hvlpt rfl
        · exact hvlpt
      · exact hvlpt
  · rw [(enter_overflow hl).2.1]
    exact hs

theorem resetMmuCtl_within (c : Config) : within (mmuCtlMask c) (resetMmuCtl c) := by
  have hdree : (mmuCtlMask c).getLsbD 19 = true := by
    rw [mmuCtlMask, BitVec.getLsbD_or, BitVec.getLsbD_or]; rfl
  refine within_or (within_of_zeros fun i hi hm => ?_) (within_bitAt _ hdree)
  simp only [mmuCtlMask, BitVec.getLsbD_or, Bool.or_eq_false_iff] at hm
  obtain ⟨⟨-, hntm⟩, -⟩ := hm
  split
  · next hn =>
    rw [Config.ntme, if_pos hn] at hntm
    have hsub : ∀ i < 32, (0x0007F800#32).getLsbD i = false → (0x00072000#32).getLsbD i = false := by decide
    exact hsub i hi hntm
  · exact BitVec.getLsbD_zero

theorem resetState_mmuReservedOk (kind : ResetKind) {s : State} (hs : s.mmuReservedOk) :
    (resetState s kind).mmuReservedOk := by
  obtain ⟨-, -, hvpn, hdata, hmisc, -, hilmb, hdlmb, -, hsaddr, headdr⟩ := hs
  have hl1 : within 0xFFFFF001#32 1#32 := rfl
  have hcache : within 0x3F#32 0x30#32 := rfl
  exact ⟨resetMmuCtl_within _, hl1, within_ite_zero _ hvpn, within_ite_zero _ hdata, within_ite_zero _ hmisc,
    within_zero _, within_ite_zero _ (within_and_left _ hilmb), within_ite_zero _ (within_and_left _ hdlmb), hcache,
    within_ite_zero _ (within_and_left _ hsaddr), within_ite_zero _ headdr⟩

theorem writeDlmb_mmuReservedOk (v : Word) {s : State} (hs : s.mmuReservedOk) : (writeDlmb s v).mmuReservedOk := by
  obtain ⟨hmmuCtl, hl1, hvpn, hdata, hmisc, hvlpt, hilmb, -, hrest⟩ := hs
  simp only [writeDlmb]
  split <;> exact ⟨hmmuCtl, hl1, hvpn, hdata, hmisc, hvlpt, hilmb, within_and _ _, hrest⟩

theorem writeSr_mmuReservedOk (sr : Sr) (v : Word) {s : State} (hs : s.mmuReservedOk) :
    (writeSr s sr v).Sat State.mmuReservedOk := by
  cases hsr : sr.inMajor2
  case false =>
    refine (writeSr_sameOtherRegs s sr v).mono fun t ⟨hcfg, _, hmr⟩ => ?_
    rw [State.mmuReservedOk, hcfg, hmr hsr]
    exact hs
  case true =>
    have ⟨hmmuCtl, hl1, hvpn, hdata, hmisc, hvlpt, hilmb, hdlmb, hcache, hsaddr, headdr⟩ := hs
    cases sr
    case mmuCtl => exact ⟨within_and _ _, hl1, hvpn, hdata, hmisc, hvlpt, hilmb, hdlmb, hcache, hsaddr, headdr⟩
    case l1Pptb => exact ⟨hmmuCtl, within_and _ _, hvpn, hdata, hmisc, hvlpt, hilmb, hdlmb, hcache, hsaddr, headdr⟩
    case tlbVpn => exact ⟨hmmuCtl, hl1, within_and _ _, hdata, hmisc, hvlpt, hilmb, hdlmb, hcache, hsaddr, headdr⟩
    case tlbData => exact ⟨hmmuCtl, hl1, hvpn, within_and _ _, hmisc, hvlpt, hilmb, hdlmb, hcache, hsaddr, headdr⟩
    case tlbMisc =>
      simp only [writeSr]
      split
      · exact ⟨hmmuCtl, hl1, hvpn, hdata, within_and _ _, hvlpt, hilmb, hdlmb, hcache, hsaddr, headdr⟩
      · exact hs
    case vlptIdx =>
      refine ⟨hmmuCtl, hl1, hvpn, hdata, hmisc, ?_, hilmb, hdlmb, hcache, hsaddr, headdr⟩
      exact within_or (within_and_left _ hvlpt) (within_mono (within_and _ _) rfl)
    case ilmb =>
      exact lmWritten_sat
        ⟨hmmuCtl, hl1, hvpn, hdata, hmisc, hvlpt, within_and _ _, hdlmb, hcache, hsaddr, headdr⟩
    case dlmb => exact lmWritten_sat (writeDlmb_mmuReservedOk v hs)
    case cacheCtl => exact ⟨hmmuCtl, hl1, hvpn, hdata, hmisc, hvlpt, hilmb, hdlmb, within_and _ _, hsaddr, headdr⟩
    case hsmpSaddr => exact ⟨hmmuCtl, hl1, hvpn, hdata, hmisc, hvlpt, hilmb, hdlmb, hcache, within_and _ _, headdr⟩
    case hsmpEaddr => exact ⟨hmmuCtl, hl1, hvpn, hdata, hmisc, hvlpt, hilmb, hdlmb, hcache, hsaddr, within_and _ _⟩
    all_goals cases hsr

/-- A page number above 12 zeros (R198). -/
theorem vpnWord_within (vpn : BitVec 20) : within 0xFFFFF000#32 (vpn ++ 0#12) :=
  within_of_zeros fun i hi hm => by
    have hlow : ∀ i < 32, (0xFFFFF000#32).getLsbD i = false → i < 12 := by decide
    rw [BitVec.getLsbD_append, if_pos (hlow i hi hm), BitVec.getLsbD_zero]

/-- Bit 11 of a PTE word is reserved (R202). -/
theorem TlbEntry.pte_within (e : TlbEntry) : within 0xFFFFF7FF#32 e.pte :=
  within_of_zeros fun i hi hm => by
    have h11 : ∀ i < 32, (0xFFFFF7FF#32).getLsbD i = false → i = 11 := by decide
    obtain rfl := h11 i hi hm
    rw [TlbEntry.pte]
    repeat rw [BitVec.getLsbD_append]
    simp

theorem miscWord_within (x : BitVec 13) : within 0x1FFF#32 (zext x) :=
  within_of_zeros fun i hi hm => by
    have h13 : ∀ i < 32, (0x1FFF#32).getLsbD i = false → 13 ≤ i := by decide
    rw [zext, BitVec.getLsbD_setWidth, BitVec.getLsbD_of_ge x i (h13 i hi hm), Bool.and_false]

theorem tlbTargetRead_mmuReservedOk (x : Word) {s : State} (hmmu : s.cfg.hasMmu = true) (hs : s.mmuReservedOk) :
    (tlbTargetRead s x).mmuReservedOk := by
  obtain ⟨hmmuCtl, hl1, -, -, -, hrest⟩ := hs
  unfold tlbTargetRead
  split
  · refine ⟨hmmuCtl, hl1, ?_, ?_, miscWord_within _, hrest⟩
    · rw [tlbVpnMask_of_hasMmu hmmu]
      exact vpnWord_within _
    · rw [tlbDataMask_of_hasMmu hmmu]
      exact TlbEntry.pte_within _
  · refine ⟨hmmuCtl, hl1, ?_, ?_, within_and _ _, hrest⟩
    · rw [State.drawn_cfg, tlbVpnMask_of_hasMmu hmmu]
      exact within_and _ _
    · rw [State.drawn_cfg, tlbDataMask_of_hasMmu hmmu]
      exact within_and _ _

/-- Hrange stands in bits 28:12 (R200). -/
theorem hrangeWord_within (h : BitVec 17) : within 0x1FFFF000#32 (0#3 ++ h ++ 0#12) :=
  within_of_zeros fun i hi hm => by
    have hout : ∀ i < 32, (0x1FFFF000#32).getLsbD i = false → i < 12 ∨ 29 ≤ i := by decide
    rw [BitVec.getLsbD_append, BitVec.getLsbD_append]
    obtain hlow | hhigh := hout i hi hm
    · simp [hlow]
    · simp [show ¬ i < 12 by omega, show ¬ i - 12 < 17 by omega]

/-- Bits 11:9 of an MPU entry's word are reserved (R205). -/
theorem mpuWord_within (psb : BitVec 20) (c : BitVec 3) (x : BitVec 2) (m : BitVec 3) (v : Bool) :
    within 0xFFFFF1FF#32 (psb ++ 0#3 ++ c ++ x ++ m ++ BitVec.ofBool v) :=
  within_of_zeros fun i hi hm => by
    have hmid : ∀ i < 32, (0xFFFFF1FF#32).getLsbD i = false → i = 9 ∨ i = 10 ∨ i = 11 := by decide
    repeat rw [BitVec.getLsbD_append]
    obtain rfl | rfl | rfl := hmid i hi hm <;> simp

theorem mpuTargetRead_mmuReservedOk (x : Word) {s : State} (hmpu : s.cfg.hasMpu = true) (hs : s.mmuReservedOk) :
    (mpuTargetRead s x).mmuReservedOk := by
  obtain ⟨hmmuCtl, hl1, -, -, hrest⟩ := hs
  refine ⟨hmmuCtl, hl1, ?_, ?_, hrest⟩
  · show within (tlbVpnMask s.cfg) _
    rw [tlbVpnMask_of_hasMpu hmpu]
    exact hrangeWord_within _
  · show within (tlbDataMask s.cfg) _
    rw [tlbDataMask_of_hasMpu hmpu]
    exact mpuWord_within _ _ _ _ _

theorem step_mmuReservedOk {s t : State} (h : step s = .next t) (hs : s.mmuReservedOk) : t.mmuReservedOk :=
  step_keeps_regs (fun _ _ => mmuReservedOk_of_sameRegs) (fun c pc _ => enter_mmuReservedOk c pc)
    (fun s hs => by rw [returnState_frame]; exact hs) (fun _ kind => resetState_mmuReservedOk kind)
    (fun _ sr v => writeSr_mmuReservedOk sr v) (fun _ _ => id)
    (fun _ x => tlbTargetRead_mmuReservedOk x) (fun _ x => mpuTargetRead_mmuReservedOk x) h hs

/-- Settles O59: each of the three properties is kept by every operation that changes a register of majors 1
and 2. -/
theorem stepKeepsRegistersLegal : Obligations.StepKeepsRegistersLegal := fun _ _ h =>
  ⟨step_modesOk h, step_interruptionReservedOk h, step_mmuReservedOk h⟩

end Sys2Proof.Machine
end

section
/-! PROOFS. Statement O17: MTSR to a register whose fields are all plain. -/

namespace Sys2Proof.Machine

/-- The bits that exist in a register all of whose fields are RW or reserved; none for the other registers. -/
def plainMask (c : Config) : Sr → Option Word
  | .pEva | .ipc | .pIpc | .oipc | .pP0 | .pP1 | .pfmc0 | .pfmc1 | .pfmc2 => some 0xFFFFFFFF#32
  | .pItype => some itypeMask
  | .intMask => some (intMaskMask c)
  | .mmuCtl => some (mmuCtlMask c)
  | .l1Pptb => some 0xFFFFF001#32
  | .tlbVpn => some (tlbVpnMask c)
  | .tlbData => some (tlbDataMask c)
  | .cacheCtl => some 0x3F#32
  | .hsmpSaddr => some (hsmpSaddrMask c)
  | .hsmpEaddr => some 0xFFF00000#32
  | .miscCtl => some (miscMask c)
  | .prusrAccCtl => some 3#32
  | .fucopCtl => some 0x8000000F#32
  | _ => none

/-- A write to a plain register is done, and replaces one of the register files. -/
theorem writeSr_plain {s : State} {r : Sr} {mask : Word} (h : plainMask s.cfg r = some mask) (v : Word) :
    ∃ t, writeSr s r v = .ok () t ∧ t = { s with ir := t.ir, mr := t.mr, pfm := t.pfm, misc := t.misc } := by
  cases r
  all_goals first | exact ⟨_, rfl, rfl⟩ | cases h

/-- A plain register reads the value written, in the bits that exist. -/
theorem readSr_writeSr_plain {s t : State} {r : Sr} {v mask : Word} (h : plainMask s.cfg r = some mask)
    (ht : writeSr s r v = .ok () t) : readSr t r = v &&& mask := by
  have hmasked : ∀ m : Word, v &&& m &&& m = v &&& m := fun m => by rw [BitVec.and_assoc, BitVec.and_self]
  have hwhole : v = v &&& 0xFFFFFFFF#32 := (BitVec.and_allOnes (x := v)).symm
  cases r <;> cases h <;> cases ht
  case pEva | ipc | pIpc | oipc | pP0 | pP1 | pfmc0 | pfmc1 | pfmc2 => exact hwhole
  all_goals exact hmasked _

/-- A write to a plain register changes what no other register reads. -/
theorem readSr_writeSr_plain_of_ne {s t : State} {r r' : Sr} {v mask : Word} (h : plainMask s.cfg r = some mask)
    (ht : writeSr s r v = .ok () t) (hne : r' ≠ r) : readSr t r' = readSr s r' := by
  cases r <;> cases h <;> cases ht
  all_goals
    cases r'
    all_goals first | exact absurd rfl hne | rfl

/-- What a register reads does not depend on what completing an instruction changes. -/
@[simp] theorem readSr_retire (t : State) (pc0 next : Word) (r : Sr) :
    readSr (t.retire pc0 next) r = readSr t r := by
  cases r <;> rfl

/-! ## MISC_CTL's mask as the statement writes it -/

/-- MISC_CTL: three fields on the N12, on the N10 and N9 those of a configured feature (R302, R304, R306). -/
theorem miscMask_eq (c : Config) :
    miscMask c =
      (let cpuid := c.cpuVer.extractLsb' 24 8
      let n10 := cpuid = 0x0A#8 ∧ c.n1003 = false
      if cpuid = 0x0C#8 then 0x7#32
      else (if n10 ∧ c.idrBtb = true then 1#32 else 0#32) ||| (if c.idrRtp = true then 2#32 else 0#32)
        ||| (if n10 ∧ c.idrTcm = true then 8#32 else 0#32)) := by
  have hbit : ∀ (i : Nat) (b : Bool) (p : Prop) [Decidable p], (b = true ↔ p) →
      bitAt i b = if p then 1#32 <<< i else 0#32 := fun i b p _ h => by
    simp only [bitAt, h]
  have hn10 : ∀ b : Bool,
      (fullN10 c && b) = true ↔ (c.cpuVer.extractLsb' 24 8 = 0x0A#8 ∧ c.n1003 = false) ∧ b = true := fun b => by
    simp [fullN10, field]
  rw [miscMask, hbit 0 _ _ (hn10 c.idrBtb), hbit 1 _ _ Iff.rfl, hbit 3 _ _ (hn10 c.idrTcm)]
  rfl

/-- Settles O17: the write is done at once (`writeSr_plain`), MTSR completes where its write does, and only the
register itself reads differently afterwards. -/
theorem mtsrWritesPlainRegisters : Obligations.MtsrWritesPlainRegisters := by
  intro s ra idx r mask ha hn he cpuid n10 miscBits hr
  have hmisc : miscMask s.cfg = miscBits := miscMask_eq s.cfg
  have hmask : plainMask s.cfg r = some mask := by
    rw [← hmisc] at hr
    obtain ⟨rfl | rfl | rfl | rfl | rfl | rfl | rfl | rfl | rfl, rfl⟩ | ⟨rfl, rfl⟩ | ⟨rfl, rfl⟩ | ⟨rfl, rfl⟩
      | ⟨rfl, rfl⟩ | ⟨rfl, rfl⟩ | ⟨rfl, rfl⟩ | ⟨rfl, rfl⟩ | ⟨rfl, rfl⟩ | ⟨rfl, rfl⟩ | ⟨rfl, rfl⟩ | ⟨rfl, rfl⟩
      | ⟨rfl, rfl⟩ := hr <;> rfl
  obtain ⟨t, hw, hframe⟩ := writeSr_plain hmask (s.x ra)
  refine ⟨t.retire s.pc s.next4, mtsr_ok ha hn he hw, ?_, fun r' hne => ?_, ?_⟩
  · rw [readSr_retire, readSr_writeSr_plain hmask hw]
  · rw [readSr_retire, readSr_writeSr_plain_of_ne hmask hw hne]
  · rw [hframe]
    rfl

end Sys2Proof.Machine
end

section
/-! PROOFS. Statement O3: SETEND writes PSW.BE. -/

namespace Sys2Proof.Machine

/-- SETEND in either direction (R652): PSW.BE is written and the instruction completes. -/
theorem exec_setend (s : State) (big : Bool) :
    exec (if big then .setendB else .setendL) s = .next ((s.setBe big).retire s.pc s.next4) := by
  cases big <;> rfl

/-- Settles O3: SETEND completes with `State.setBe`, which replaces bit 5 of PSW only. -/
theorem setendChangesOnlyBe : Obligations.SetendChangesOnlyBe := by
  intro s big
  refine ⟨_, exec_setend s big, fun i hi => ?_, rfl⟩
  show (setBit s.ir.psw 5 big).getLsbD i = _
  rw [getLsbD_setBit]
  simp only [hi, and_true]

end Sys2Proof.Machine
end

section
/-! PROOFS. Statement O27: an entry to the overflow level. -/

namespace Sys2Proof.Machine

/-! ## The vector (R775, R776) -/

/-- The last of the entry points is that of the vectored interrupt 63 (R775). -/
theorem Cause.entry_le (c : Cause) : c.entry ≤ 72 := by
  cases c
  case hardwareInterrupt n => exact Nat.add_le_add_left (by omega : n.val ≤ 63) 9
  case vectoredInterrupt n => exact Nat.add_le_add_left (by omega : n.toNat ≤ 63) 9
  all_goals exact of_decide_eq_true rfl

/-- The address bits below IVBASE are 0 in the base of the vectors. -/
theorem toNat_and_ivbase (ivb : Word) :
    (ivb &&& 0xFFFF0000#32).toNat = (ivb.extractLsb' 16 16).toNat * 65536 := by
  have h : ivb &&& 0xFFFF0000#32 = ivb.extractLsb' 16 16 ++ 0#16 := BitVec.eq_of_getLsbD_eq fun i hi => by
    rw [BitVec.getLsbD_append]
    interval_cases i <;> simp
  rw [h, BitVec.toNat_append]
  simp [Nat.shiftLeft_eq]

/-- No entry point lies beyond the 64KB block of the base. -/
theorem Cause.entry_offset_lt (c : Cause) (esz : BitVec 2) : c.entry * (4 * 4 ^ esz.toNat) < 65536 :=
  calc c.entry * (4 * 4 ^ esz.toNat)
    _ ≤ 72 * (4 * 4 ^ 3) :=
      Nat.mul_le_mul c.entry_le (Nat.mul_le_mul_left 4 (Nat.pow_le_pow_right (by decide) (by omega)))
    _ < 65536 := by decide

/-- The vector address as a number: base plus entry number times entry size, without a carry (R776). -/
theorem toNat_vectorAddress (ivb : Word) (c : Cause) :
    (vectorAddress ivb c.entry).toNat =
      (ivb.extractLsb' 16 16).toNat * 65536 + c.entry * (4 * 4 ^ (ivb.extractLsb' 14 2).toNat) := by
  have hsize : 4 <<< (2 * (field ivb 14 2).toNat) = 4 * 4 ^ (ivb.extractLsb' 14 2).toNat := by
    rw [Nat.shiftLeft_eq, Nat.pow_mul]
    rfl
  have hoff := c.entry_offset_lt (ivb.extractLsb' 14 2)
  rw [vectorAddress, hsize, BitVec.toNat_add, toNat_and_ivbase, BitVec.toNat_ofNat]
  omega

/-! ## The overflow level (R789) -/

/-- The PSW of an entry to the overflow level, bit by bit: INTL is 2 with two levels and 3 with three. -/
theorem getLsbD_overflowPsw (c : Config) (old : Word) (ime dme dbg : Bool) {i : Nat} (hi : i < 32) :
    (overflowPsw c old ime dme dbg).getLsbD i =
      if i = 1 then !c.intlc
      else if i = 2 then true
      else if i = 8 then ime || old.getLsbD 8
      else if i = 9 then dme || old.getLsbD 9
      else if i = 10 then (dbg && c.edmVerOld) || old.getLsbD 10
      else old.getLsbD i := by
  have hlevel : (BitVec.ofNat 2 c.maxLevel).getLsbD 0 = !c.intlc ∧ (BitVec.ofNat 2 c.maxLevel).getLsbD 1 = true := by
    unfold Config.maxLevel
    cases c.intlc <;> decide
  obtain ⟨hlow, hhigh⟩ := hlevel
  simp only [overflowPsw, BitVec.getLsbD_or, getLsbD_setField, getLsbD_bitAt]
  by_cases h : i = 1 ∨ i = 2 ∨ i = 8 ∨ i = 9 ∨ i = 10
  · obtain rfl | rfl | rfl | rfl | rfl := h
    · simpa using hlow
    · simpa using hhigh
    all_goals simp [Bool.or_comm]
  · have hfield : ¬(1 ≤ i ∧ i < 1 + 2 ∧ i < 32) := by omega
    push Not at h
    obtain ⟨h1, h2, h8, h9, h10⟩ := h
    simp [hfield, h1, h2, h8, h9, h10, Ne.symm h8, Ne.symm h9, Ne.symm h10]

/-- An entry to the overflow level changes OIPC, PSW, MERR, pc and the step's note. -/
theorem enter_overflow_frame {c : Cause} {pc : Word} {s : State} (h : ¬ s.level.toNat + 1 < s.cfg.maxLevel) :
    enter c pc s =
      { s with
        ir :=
          { s.ir with
            oipc := pc
            psw := overflowPsw s.cfg s.ir.psw c.ime c.dme c.dbg
            merr := merrAfter s c }
        pc := vectorAddress s.ir.ivb c.entry
        note := noteEntry s.note c } := by
  rw [enter, if_neg h]
  rfl

/-- Settles O27: the entry's frame, the PSW bit by bit and the vector's number. -/
theorem entryToOverflowLevel : Obligations.EntryToOverflowLevel := by
  intro c pc s h t
  have ht : t = _ := enter_overflow_frame (Nat.not_lt.2 h)
  rw [ht]
  exact ⟨fun i hi => getLsbD_overflowPsw _ _ _ _ _ hi, rfl, toNat_vectorAddress _ c, rfl, rfl⟩

end Sys2Proof.Machine
end

section
/-! PROOFS. Statements O28 and O29: what an entry to level 1 or 2 leaves in ITYPE, EVA, TLB_VPN and VLPT_IDX. -/

namespace Sys2Proof.Machine

/-! ## ITYPE (R120 to R123, R787) -/

/-- ITYPE bits 30:16 of an interruption: SWID (R122), or SUB_TYPE in the low four of them (R123). -/
def Cause.itypeSub : Cause → BitVec 15
  | .brk swid | .break16 swid | .trap swid | .systemCall swid => swid
  | .arithmetic sub => 0#11 ++ sub
  | _ => 0#15

theorem Cause.itypeHigh_eq (c : Cause) : c.itypeHigh = fieldAt 16 c.itypeSub := by
  have hzero : 0#32 = fieldAt 16 0#15 := rfl
  cases c
  case arithmetic k =>
    have hsub : 0#11 ++ k = k.setWidth 15 := (BitVec.setWidth_eq_append (by decide)).symm
    show k.setWidth 32 <<< 16 = (0#11 ++ k).setWidth 32 <<< 16
    rw [hsub, BitVec.setWidth_setWidth (by decide)]
  case brk | break16 | trap | systemCall => rfl
  all_goals exact hzero

/-- Every cause but the four with a SWID and the arithmetic exception has zeros in bits 30:16. -/
theorem Cause.itypeSub_eq_zero {c : Cause}
    (hswid : ∀ n, c ≠ .brk n ∧ c ≠ .break16 n ∧ c ≠ .trap n ∧ c ≠ .systemCall n) (hsub : ∀ k, c ≠ .arithmetic k) :
    c.itypeSub = 0#15 := by
  cases c
  case brk n => exact absurd rfl (hswid n).1
  case break16 n => exact absurd rfl (hswid n).2.1
  case trap n => exact absurd rfl (hswid n).2.2.1
  case systemCall n => exact absurd rfl (hswid n).2.2.2
  case arithmetic k => exact absurd rfl (hsub k)
  all_goals rfl

/-- ITYPE bit by bit: the three fields lie beside each other. -/
theorem getLsbD_itypeOf (s : State) (c : Cause) {i : Nat} (hi : i < 32) :
    (itypeOf s c).getLsbD i =
      if i < 4 then (c.etype.getD (field (Config.freeWord s.draws 0) 0 4)).getLsbD i
      else if i = 4 then c.inst
      else decide (16 ≤ i) && c.itypeSub.getLsbD (i - 16) := by
  rw [itypeOf, Cause.itypeHigh_eq]
  simp only [BitVec.getLsbD_or, getLsbD_fieldAt, getLsbD_bitAt, hi, decide_true, Bool.true_and, Bool.and_true]
  by_cases h4 : i < 4
  · have hinst : 4 ≠ i := by omega
    have hsub : ¬ 16 ≤ i := by omega
    simp [h4, hinst, hsub]
  · rw [BitVec.getLsbD_of_ge _ (i - 0) (by omega), if_neg h4]
    by_cases hinst : i = 4
    · simp [hinst]
    · simp [hinst, Ne.symm hinst]

theorem itypeOf_etype (s : State) (c : Cause) :
    (itypeOf s c).extractLsb' 0 4 = c.etype.getD (field (Config.freeWord s.draws 0) 0 4) :=
  BitVec.eq_of_getLsbD_eq fun i hi => by
    rw [BitVec.getLsbD_extractLsb', getLsbD_itypeOf s c (by omega)]
    simp [hi]

theorem itypeOf_sub (s : State) (c : Cause) : (itypeOf s c).extractLsb' 16 15 = c.itypeSub :=
  BitVec.eq_of_getLsbD_eq fun i hi => by
    have h4 : ¬ 16 + i < 4 := by omega
    have hinst : 16 + i ≠ 4 := by omega
    rw [BitVec.getLsbD_extractLsb', getLsbD_itypeOf s c (by omega), if_neg h4, if_neg hinst]
    simp [hi]

/-- Bits 15:5 of ITYPE are reserved (R120). -/
theorem itypeOf_reserved (s : State) (c : Cause) {i : Nat} (h5 : 5 ≤ i) (h16 : i < 16) :
    (itypeOf s c).getLsbD i = false := by
  rw [getLsbD_itypeOf s c (by omega), if_neg (by omega), if_neg (by omega), decide_eq_false (by omega),
    Bool.false_and]

/-- Settles O28: an entry to level 1 or 2 writes `itypeOf`, read field by field; the rows of the table are those of
the model. -/
theorem entryWritesItype : Obligations.EntryWritesItype := by
  constructor
  · intro c pc s h y
    have hy : y = itypeOf s c := congrArg IntRegs.itype (enter_level h).1
    rw [hy]
    refine ⟨fun k hk => ?_, ?_, fun i => itypeOf_reserved s c, ?_, fun n hn => ?_, fun k hk => ?_,
      fun hswid harith => ?_⟩
    · rw [itypeOf_etype, hk, Option.getD_some]
    · exact getLsbD_itypeOf s c (by decide)
    · rw [getLsbD_itypeOf s c (by decide)]
      exact BitVec.getLsbD_of_ge _ _ (by decide)
    · rw [itypeOf_sub]
      obtain rfl | rfl | rfl | rfl := hn <;> rfl
    · rw [itypeOf_sub, hk]
      rfl
    · rw [itypeOf_sub, Cause.itypeSub_eq_zero hswid harith]
  · intro f va eva n k acc line vep row
    and_intros <;> rfl

/-! ## EVA, TLB_VPN and VLPT_IDX (R118, R199, R211, R788) -/

theorem pageOf_eq (va : Word) : pageOf va = va.extractLsb' 12 20 ++ 0#12 := by
  unfold pageOf
  refine BitVec.eq_of_getLsbD_eq fun i hi => ?_
  rw [BitVec.getLsbD_append]
  interval_cases i <;> simp

/-- A 20-bit field written at bit 2, as the concatenation of what is kept and what is written. -/
theorem setField_two_twenty (v : Word) (x : BitVec 20) :
    setField v 2 x = v.extractLsb' 22 10 ++ x ++ v.extractLsb' 0 2 := by
  refine BitVec.eq_of_getLsbD_eq fun i hi => ?_
  rw [getLsbD_setField, BitVec.getLsbD_append, BitVec.getLsbD_append]
  by_cases hlow : i < 2
  · have h : ¬ 2 ≤ i := by omega
    simp [hlow, h]
  · by_cases hmid : i - 2 < 20
    · have h : 2 ≤ i ∧ i < 2 + 20 ∧ i < 32 := by omega
      simp [hlow, hmid, h]
    · have h : ¬(2 ≤ i ∧ i < 2 + 20 ∧ i < 32) := by omega
      have hi' : 22 + (i - 2 - 20) = i := by omega
      have h10 : i - 2 - 20 < 10 := by omega
      simp only [hlow, hmid, h, if_false, BitVec.getLsbD_extractLsb', h10, hi', decide_true, Bool.true_and]

/-- The registers of major 2 with the page of `va` in TLB_VPN, under the MMU (R199, R486). -/
def vpnWritten (s : State) (va : Word) : MmuRegs :=
  if s.cfg.hasMmu then { s.mr with tlbVpn := va.extractLsb' 12 20 ++ 0#12 } else s.mr

theorem entryMmu_of_neither {s : State} {c : Cause} (hv : c.vpnUpdate = none) (he : c.evpnUpdate = none) :
    entryMmu s c = s.mr := by
  simp only [entryMmu, hv, he]

theorem entryMmu_of_vpn {s : State} {c : Cause} {va : Word} (hv : c.vpnUpdate = some va)
    (he : c.evpnUpdate = none) : entryMmu s c = vpnWritten s va := by
  simp only [entryMmu, vpnWritten, hv, he, pageOf_eq]
  split <;> rfl

theorem entryMmu_of_both {s : State} {c : Cause} {va : Word} (hv : c.vpnUpdate = some va)
    (he : c.evpnUpdate = some va) :
    entryMmu s c =
      if s.cfg.hasMmu && s.cfg.vlpt then
        { vpnWritten s va with
          vlptIdx := s.mr.vlptIdx.extractLsb' 22 10
            ++ (if s.page8k then 0#1 ++ va.extractLsb' 13 19 else va.extractLsb' 12 20)
            ++ s.mr.vlptIdx.extractLsb' 0 2 }
      else vpnWritten s va := by
  simp only [entryMmu, vpnWritten, hv, he, pageOf_eq, setField_two_twenty, Config.vlptIdxExists, field]
  cases s.cfg.hasMmu <;> cases s.cfg.vlpt <;> rfl

/-- EVA and the registers of major 2 after an entry to level 1 or 2, by what the cause says of them (R788). -/
theorem enter_faultAddress {c : Cause} {pc : Word} {s : State} {a : Word} {m : MmuRegs}
    (h : s.level.toNat + 1 < s.cfg.maxLevel) (ha : c.eva.getD s.ir.eva = a) (hm : entryMmu s c = m) :
    (enter c pc s).ir.eva = a ∧ (enter c pc s).mr = m :=
  ⟨(congrArg IntRegs.eva (enter_level h).1).trans ha, (enter_level h).2.trans hm⟩

/-- Settles O29: each cause's row gives what it writes to EVA, and whether TLB_VPN and VLPT_IDX are written. -/
theorem entryWritesFaultAddress : Obligations.EntryWritesFaultAddress := by
  intro c pc va s f n k line vep h t page address evpn vpn both
  have hpage : pageOf va = page := pageOf_eq va
  have haddress : (if f then pageOf va else va) = address := by rw [hpage]
  refine ⟨fun hc => ?_, fun hc => ?_, fun hc => ?_, fun hc => ?_, fun hc => ?_, fun hc => ?_, fun hc => ?_,
    fun hc => ?_⟩
  · obtain rfl | rfl | rfl := hc <;> exact enter_faultAddress h haddress (entryMmu_of_both rfl rfl)
  · subst hc
    exact enter_faultAddress h rfl (entryMmu_of_both rfl rfl)
  · obtain rfl | rfl := hc <;> exact enter_faultAddress h rfl (entryMmu_of_vpn rfl rfl)
  · subst hc
    exact enter_faultAddress h hpage (entryMmu_of_neither rfl rfl)
  · obtain rfl | rfl := hc <;> exact enter_faultAddress h haddress (entryMmu_of_neither rfl rfl)
  · obtain rfl | rfl | rfl := hc <;> exact enter_faultAddress h rfl (entryMmu_of_neither rfl rfl)
  · obtain rfl | rfl | rfl | rfl := hc <;> exact enter_faultAddress h rfl (entryMmu_of_neither rfl rfl)
  · obtain rfl | rfl | rfl | rfl | rfl | rfl | rfl | rfl | rfl | rfl | rfl | rfl | rfl | rfl | rfl | rfl | rfl | rfl
      | rfl := hc <;> exact enter_faultAddress h rfl (entryMmu_of_neither rfl rfl)

end Sys2Proof.Machine
end

section
/-! PROOFS. Statement O18: MTSR to a register whose fields are not all plain. -/

namespace Sys2Proof.Machine

/-! ## The written words -/

/-- A PSW-format value that the statement calls legal is not reserved (R104, U5). -/
theorem pswReserved_ne_true {c : Config} {v : Word}
    (h : v.getLsbD 4 = false ∧ (c.intlc = true → v.extractLsb' 1 2 ≠ 3#2)) : ¬ pswReserved c v = true :=
  Bool.eq_false_iff.1 (pswReserved_eq_false.2 h)

/-- BUSERR, the only bit of MERR, is cleared by 1 (R133). -/
theorem merr_w1c {old v : Word} (h : within 0x80000000#32 old) :
    old &&& ~~~(v &&& 0x80000000#32) = if v.getLsbD 31 then 0#32 else old := by
  rw [within_iff] at h
  refine BitVec.eq_of_getLsbD_eq fun i hi => ?_
  by_cases htop : i = 31
  · subst htop
    cases hv : v.getLsbD 31 <;> simp_all
  · have hmask : ∀ i < 32, i ≠ 31 → (0x80000000#32).getLsbD i = false := by decide
    have hold : old.getLsbD i = false := Bool.eq_false_iff.2 fun hbit =>
      Bool.false_ne_true ((hmask i hi htop).symm.trans (h i hi hbit))
    split <;> simp [hold]

/-- PFM_CTL: OVF2-0 are cleared by 1, the other bits take the value (R257). -/
theorem getLsbD_pfmCtl_written (old v : Word) {i : Nat} (hi : i < 28) :
    ((v &&& pfmCtlRw) ||| (old &&& pfmCtlW1c &&& ~~~v)).getLsbD i =
      if 6 ≤ i ∧ i ≤ 8 then old.getLsbD i && !v.getLsbD i else v.getLsbD i := by
  have hrw : ∀ i < 28, pfmCtlRw.getLsbD i = !decide (6 ≤ i ∧ i ≤ 8) := by decide
  have hw1c : ∀ i < 28, pfmCtlW1c.getLsbD i = decide (6 ≤ i ∧ i ≤ 8) := by decide
  have hi' : i < 32 := by omega
  simp only [BitVec.getLsbD_or, BitVec.getLsbD_and, BitVec.getLsbD_not, hrw i hi, hw1c i hi, hi']
  by_cases hovf : 6 ≤ i ∧ i ≤ 8 <;> simp [hovf]

/-- VLPT_IDX: VLPTB takes the value, EVPN is read only (R210). -/
theorem vlptIdx_written (old v : Word) :
    (old &&& 0x003FFFFC#32) ||| (v &&& 0xFFC00000#32) = v.extractLsb' 22 10 ++ old.extractLsb' 2 20 ++ 0#2 := by
  refine BitVec.eq_of_getLsbD_eq fun i hi => ?_
  rw [BitVec.getLsbD_append, BitVec.getLsbD_append]
  interval_cases i <;> simp

/-- SDZ_CTL's mask as the statement writes it (R301, R303, R305). -/
theorem sdzMask_eq (c : Config) :
    sdzMask c =
      (let cpuid := c.cpuVer.extractLsb' 24 8
      let n10 := cpuid = 0x0A#8 ∧ c.n1003 = false
      if cpuid = 0x0C#8 then 0xFFF#32
      else (if c.icmCfg.extractLsb' 6 3 ≠ 0#3 then 0x7#32 else 0#32)
        ||| (if c.dcmCfg.extractLsb' 6 3 ≠ 0#3 then 0x38#32 else 0#32)
        ||| (if n10 ∧ c.mmuCfg.extractLsb' 0 2 = 2#2 then 0x1C0#32 else 0#32)
        ||| (if n10 ∧ c.idrBtb = true then 0xE00#32 else 0#32)) := by
  have hn10 : fullN10 c = true ↔ c.cpuVer.extractLsb' 24 8 = 0x0A#8 ∧ c.n1003 = false := by
    simp [fullN10, field]
  simp only [sdzMask, hn10]
  rfl

/-! ## Writes that complete -/

/-- A write to ILMB or DLMB completes unless both bases are then programmed to one address (R525). -/
theorem lmWritten_ok {t : State} (h : t.mr.ilmbSet = false ∨ t.mr.dlmbSet = false ∨ t.ilmBase ≠ t.dlmBase) :
    lmWritten t = .ok () t := by
  have hne : t.equalBases = false := by
    unfold State.equalBases
    obtain h | h | h := h <;> simp [h]
  rw [lmWritten, hne]
  rfl

/-- SDZ_CTL written with MTBDZ 0 before and after: the TLB keeps its content. -/
theorem writeSdz_of_zero {s : State} {v mask : Word} (hm : sdzMask s.cfg = mask)
    (h : (v &&& mask).extractLsb' 6 3 = 0#3 ∧ s.misc.sdzCtl.extractLsb' 6 3 = 0#3) :
    writeSdz s v = { s with misc := { s.misc with sdzCtl := v &&& mask } } := by
  subst hm
  exact if_pos h

/-- SDZ_CTL written with MTBDZ other than 0 before or after: the TLB's content is lost (R301, R307). -/
theorem writeSdz_of_nonzero {s : State} {v mask : Word} (hm : sdzMask s.cfg = mask)
    (h : ¬((v &&& mask).extractLsb' 6 3 = 0#3 ∧ s.misc.sdzCtl.extractLsb' 6 3 = 0#3)) :
    writeSdz s v =
      { s with
        misc := { s.misc with sdzCtl := v &&& mask }
        tlb := ⟨[], .unknown s.draws⟩
        draws := s.draws + 1 } := by
  subst hm
  exact if_neg h

/-- A set-up register of a channel that is neither in Run nor Pended is written (R278, R701). -/
theorem dmaSetupWrite_ok {s : State} (f : DmaChan → DmaChan) (hrun : (s.chan s.selected).stat ≠ .run)
    (hpended : (s.chan s.selected).stat ≠ .pended) :
    dmaSetupWrite s f = s.setChan s.selected (f (s.chan s.selected)) := by
  simp only [dmaSetupWrite, hrun, hpended, or_self, if_false]

theorem chanReserved_ne_true {c : Config} {v : Word} (h1 : v.getLsbD 1 = false)
    (h0 : v.getLsbD 0 = true → c.dmaTwoChannels = true) : ¬ chanReserved c v = true := by
  unfold chanReserved
  rw [bit_eq, bit_eq, h1]
  cases hv : v.getLsbD 0 <;> simp_all

theorem dmaSetupReserved_ne_true {c : Config} {v : Word} (htes : v.extractLsb' 2 2 = 3#2 → c.dmaTes8 = true)
    (hca : v.extractLsb' 21 3 ≠ 3#3) : ¬ dmaSetupReserved c v = true := by
  have ht : ¬(field v 2 2 = 3#2 ∧ c.dmaTes8 = false) := fun ⟨h3, h8⟩ => by simp [htes h3] at h8
  have hc : ¬ field v 21 3 = 3#3 := hca
  simpa [dmaSetupReserved, hc] using ht

/-- A register of the list has nothing to write: it is read-only (R640), or it is EDM_CFG. -/
theorem writeSr_readOnly {s : State} {r : Sr} (h : r = .eva ∨ r = .itype ∨ r = .cpuVer ∨ r = .icmCfg ∨ r = .dcmCfg
    ∨ r = .mmuCfg ∨ r = .mscCfg ∨ r = .coreId ∨ r = .fucopExist ∨ r = .dmaCfg ∨ r = .dmaStatus ∨ r = .edm 40)
    (v : Word) : writeSr s r v = .ok () s := by
  obtain rfl | rfl | rfl | rfl | rfl | rfl | rfl | rfl | rfl | rfl | rfl | rfl := h <;> rfl

/-- Settles O18: MTSR completes where its write does (`mtsr_ok`), so each register needs what its write gives. -/
theorem mtsrByFieldType : Obligations.MtsrByFieldType := by
  intro s ra idx r ha hn he v goes done doneMr legal c setUp cpuid n10 sdzBits pswBits baseBits dlmbBits setupBits
    tIlm tDlm sdz mtbdz0
  have hgoes : ∀ {r' : Sr} {t : State}, r = r' → writeSr s r' v = .ok () t → goes t := fun hr hw =>
    mtsr_ok ha hn he (by rw [hr]; exact hw)
  have hsetUp : ∀ {r' : Sr} (f : DmaChan → DmaChan), r = r' → writeSr s r' v = .ok () (dmaSetupWrite s f) →
      setUp (f c) := fun f hr hw hrun hpended =>
    hgoes hr (hw.trans (congrArg (Res.ok ()) (dmaSetupWrite_ok f hrun hpended)))
  have hsdz : sdzMask s.cfg = sdzBits := sdzMask_eq s.cfg
  refine ⟨?psw, ?ipsw, ?pIpsw, ?readOnly, ?merr, ?pfmCtl, ?ivb, ?intPend, ?tlbMisc, ?vlptIdx, ?ilmb, ?dlmb, ?sdzCtl,
    ?edm, ?dmaGcsw, ?dmaChnsel, ?dmaSetup, ?dmaIsaddr, ?dmaEsaddr, ?dmaTcnt, ?dma2dset, ?dma2dsctl⟩
  case psw | ipsw | pIpsw => exact fun hr hlegal => hgoes hr (if_neg (pswReserved_ne_true hlegal))
  case readOnly => exact fun hr => hgoes rfl (writeSr_readOnly hr v)
  case merr =>
    intro hr ⟨_, _, _, _, _, _, hmerr, _⟩
    exact hgoes hr (congrArg (fun w => Res.ok () { s with ir := { s.ir with merr := w } }) (merr_w1c hmerr))
  case pfmCtl => exact fun hr => ⟨_, hgoes hr rfl, fun i hi => getLsbD_pfmCtl_written _ _ hi, rfl⟩
  case ivb | intPend => exact fun hr => hgoes hr rfl
  case tlbMisc => exact fun hr hsize => hgoes hr (if_pos hsize)
  case vlptIdx =>
    exact fun hr =>
      hgoes hr (congrArg (fun w => Res.ok () { s with mr := { s.mr with vlptIdx := w } }) (vlptIdx_written _ _))
  case ilmb => exact fun hr hbase => hgoes hr (lmWritten_ok (.inr hbase))
  case dlmb =>
    intro hr hbase
    have hok : tDlm.mr.ilmbSet = false ∨ tDlm.mr.dlmbSet = false ∨ tDlm.ilmBase ≠ tDlm.dlmBase :=
      hbase.imp_right fun h => .inr h.symm
    exact ⟨fun hdbm => hgoes hr ((congrArg lmWritten (if_pos hdbm)).trans (lmWritten_ok hok)),
      fun hdbm => hgoes hr ((congrArg lmWritten (if_neg hdbm)).trans (lmWritten_ok hok))⟩
  case sdzCtl =>
    exact fun hr => ⟨fun h0 => hgoes hr (congrArg (Res.ok ()) (writeSdz_of_zero hsdz h0)),
      fun h0 => hgoes hr (congrArg (Res.ok ()) (writeSdz_of_nonzero hsdz h0))⟩
  case edm => exact fun n hn40 hr => hgoes hr (if_neg hn40)
  case dmaGcsw => exact fun hr hen => hgoes hr (congrArg (fun en => Res.ok () (dmaEnable s en)) hen)
  case dmaChnsel => exact fun hr h1 h0 => hgoes hr (if_neg (chanReserved_ne_true h1 h0))
  case dmaSetup =>
    exact fun hr htes hca => hsetUp (fun c => { c with setup := v &&& dmaSetupMask s.cfg }) hr
      (if_neg (dmaSetupReserved_ne_true htes hca))
  case dmaIsaddr | dmaEsaddr | dmaTcnt | dma2dset | dma2dsctl => exact fun hr => hsetUp _ hr rfl

end Sys2Proof.Machine
end

section
/-! PROOFS. Statement O60: every step keeps the DMA channels in order. -/

namespace Sys2Proof.Machine

/-! ## The order of the channels, by their states -/

/-- A channel in neither Run nor Pended: it neither runs nor waits. -/
def DmaStat.atRest (a : DmaStat) : Prop := a ≠ .run ∧ a ≠ .pended

/-- `State.dmaOk` as a relation of the states of a channel and of the other one. -/
def DmaStat.inOrder (en : Bool) (a b : DmaStat) : Prop :=
  ¬(a = .run ∧ b = .run) ∧ (a = .pended → b = .run) ∧ (b = .pended → a = .run)
    ∧ (en = false → a = .idle ∧ b = .idle)

/-- The order of the channels can be read from either of them. -/
theorem dmaOk_iff (s : State) (i : Bool) :
    s.dmaOk ↔ DmaStat.inOrder s.dma.en (s.chan i).stat (s.chan !i).stat := by
  cases i
  · exact Iff.rfl
  · constructor
    all_goals
      rintro ⟨hrun, h0, h1, hen⟩
      exact ⟨fun h => hrun h.symm, h1, h0, fun h => (hen h).symm⟩

theorem dmaOk_of_dma_eq {s t : State} (h : t.dma = s.dma) (hs : s.dmaOk) : t.dmaOk := by
  rw [State.dmaOk, h]
  exact hs

/-- A channel at rest lets the other one do anything but wait. -/
theorem DmaStat.atRest.inOrder {en : Bool} {a b : DmaStat} (ha : a.atRest) (hen : en = true) (hb : b ≠ .pended) :
    DmaStat.inOrder en a b :=
  ⟨fun h => ha.1 h.1, fun h => absurd h ha.2, fun h => absurd h hb, fun h => by simp [hen] at h⟩

/-- A channel in Run or Pended shows that the engine is enabled. -/
theorem dmaOk_enabled {s : State} {i : Bool} (hs : s.dmaOk) (h : (s.chan i).stat ≠ .idle) : s.dma.en = true := by
  obtain ⟨-, -, -, hen⟩ := (dmaOk_iff s i).1 hs
  by_contra hoff
  exact h (hen (Bool.eq_false_iff.2 hoff)).1

theorem setChan_dmaOk {s : State} {i : Bool} {c : DmaChan}
    (h : DmaStat.inOrder s.dma.en c.stat (s.chan !i).stat) : (s.setChan i c).dmaOk := by
  rw [dmaOk_iff _ i]
  simpa using h

/-- A channel replaced by one in the same state. -/
theorem setChan_dmaOk_of_stat {s : State} {i : Bool} {c : DmaChan} (hs : s.dmaOk) (h : c.stat = (s.chan i).stat) :
    (s.setChan i c).dmaOk :=
  setChan_dmaOk (h ▸ (dmaOk_iff s i).1 hs)

/-! ## Leaving and entering Run -/

/-- A channel may enter Run beside one at rest. -/
theorem enterRun_dmaOk {s : State} {i : Bool} (hen : s.dma.en = true) (hother : (s.chan !i).stat.atRest) :
    (enterRun s i).dmaOk :=
  setChan_dmaOk ⟨fun h => hother.1 h.2, nofun, fun _ => rfl, fun h => by simp [hen] at h⟩

/-- Whatever the other channel does, it is in order beside a channel at rest once a wait of its own has ended. -/
theorem startPended_dmaOk {s : State} {i : Bool} (hen : s.dma.en = true) (hi : (s.chan i).stat.atRest) :
    (startPended s i).dmaOk := by
  unfold startPended
  split
  · exact enterRun_dmaOk hen (by rw [Bool.not_not]; exact hi)
  · next h => exact (dmaOk_iff s i).2 (hi.inOrder hen h)

theorem finish_dmaOk {s : State} (i : Bool) {new : DmaStat} (err : DmaErr) (irq : Bool) (hen : s.dma.en = true)
    (hnew : new.atRest) : (finish s i new err irq).dmaOk := by
  unfold finish
  dsimp only
  split
  all_goals exact startPended_dmaOk (by simpa using hen) (by simpa [State.chan] using hnew)

theorem stopError_atRest : DmaStat.stopError.atRest := ⟨nofun, nofun⟩

theorem complete_atRest : DmaStat.complete.atRest := ⟨nofun, nofun⟩

theorem idle_atRest : DmaStat.idle.atRest := ⟨nofun, nofun⟩

/-! ## Elements -/

/-- The channel that moves an element stays in Run or leaves it. -/
theorem element_dmaOk {s : State} {i : Bool} (hs : s.dmaOk) (hr : (s.chan i).stat = .run) : (element s i).dmaOk := by
  have hen : s.dma.en = true := dmaOk_enabled (i := i) hs (by simp [hr])
  have hdma := (copyElement_moved s (s.chan i)).2
  unfold element
  dsimp only
  split
  · next t ht =>
    rw [ht] at hdma
    exact finish_dmaOk _ _ _ (by rw [hdma]; exact hen) stopError_atRest
  · next t ht =>
    rw [ht] at hdma
    have hent : t.dma.en = true := by rw [hdma]; exact hen
    split
    · exact finish_dmaOk _ _ _ (by simpa using hent) complete_atRest
    · split
      · refine finish_dmaOk _ _ _ ?_ stopError_atRest
        split
        · simpa using hent
        · rw [(corruptLm_moved _ _).2]
          simpa using hent
      · exact setChan_dmaOk_of_stat (dmaOk_of_dma_eq hdma hs) (by rw [State.chan, State.chan, hdma])

theorem running_eq_some {s : State} {i : Bool} (h : s.running = some i) : (s.chan i).stat = .run := by
  unfold State.running at h
  split at h
  · cases h
  · split at h
    · next hr => cases h; exact hr
    · split at h
      · next hr => cases h; exact hr
      · cases h

theorem dmaRun_dmaOk (n : Nat) {s : State} (hs : s.dmaOk) : (dmaRun n s).dmaOk := by
  induction n generalizing s with
  | zero => exact hs
  | succ n ih =>
    unfold dmaRun
    split
    · exact hs
    · next i hi => exact ih (element_dmaOk hs (running_eq_some hi))

theorem dmaBurst_dmaOk {s : State} (hs : s.dmaOk) : (dmaBurst s).dmaOk := by
  unfold dmaBurst
  split
  · exact hs
  · exact dmaRun_dmaOk _ hs

theorem drain_dmaOk (i : Bool) (n : Nat) {s : State} (hs : s.dmaOk) : (drain i n s).dmaOk := by
  induction n generalizing s with
  | zero => exact hs
  | succ n ih =>
    unfold drain
    split
    · next hr => exact ih (element_dmaOk hs hr)
    · exact hs

/-! ## Commands and set-up writes -/

/-- A channel that leaves Pended, where the other one is in Run, for a state at rest. -/
theorem setChan_dmaOk_of_pended {s : State} {i : Bool} {c : DmaChan} (hs : s.dmaOk) (hp : (s.chan i).stat = .pended)
    (hc : c.stat.atRest) : (s.setChan i c).dmaOk := by
  obtain ⟨-, hwait, -, -⟩ := (dmaOk_iff s i).1 hs
  exact setChan_dmaOk (hc.inOrder (dmaOk_enabled (i := i) hs (by simp [hp])) (by simp [hwait hp]))

/-- Beside a channel that is not in Run the other one does not wait. -/
theorem other_ne_pended {s : State} {i : Bool} (hs : s.dmaOk) (hr : (s.chan i).stat ≠ .run) :
    (s.chan !i).stat ≠ .pended :=
  fun hp => hr (((dmaOk_iff s i).1 hs).2.2.1 hp)

/-- A channel may wait for one in Run. -/
theorem waitBehind_dmaOk {s : State} {i : Bool} {c : DmaChan} (n : Nat) (hen : s.dma.en = true)
    (hc : c.stat = .pended) (hother : (s.chan !i).stat = .run) :
    State.dmaOk { s with dma := { s.dma.put i c with nextSeq := n } } :=
  setChan_dmaOk (s := s) (i := i) (c := c)
    ⟨by simp [hc], fun _ => hother, by simp [hother], fun h => by simp [hen] at h⟩

/-- Start goes from Idle or Stop/Error to Stop/Error, Complete, Pended beside a channel in Run, or Run beside one that
is not. -/
theorem dmaStart_dmaOk {s : State} (i : Bool) (hen : s.dma.en = true) (hs : s.dmaOk) :
    (dmaStart s i).Sat State.dmaOk := by
  unfold dmaStart
  dsimp only
  split
  · next hstart =>
    have hother : (s.chan !i).stat ≠ .pended := by
      refine other_ne_pended hs fun hr => ?_
      simp [hr] at hstart
    split
    · exact setChan_dmaOk (stopError_atRest.inOrder hen hother)
    · split
      · exact setChan_dmaOk (complete_atRest.inOrder hen hother)
      · split
        · trivial
        · split
          · next hrun => exact waitBehind_dmaOk _ hen rfl hrun
          · next hrun => exact enterRun_dmaOk (by simpa using hen) (by simpa using ⟨hrun, hother⟩)
  · exact hs

theorem dmaStop_dmaOk {s : State} (i : Bool) (hs : s.dmaOk) : (dmaStop s i).dmaOk := by
  unfold dmaStop
  dsimp only
  split
  · have hdrain : (drain i (stopCount s i) s.drawn).dmaOk := drain_dmaOk _ _ hs
    split
    · next hr =>
      exact finish_dmaOk _ _ _ (dmaOk_enabled (i := i) hdrain (by simp [hr])) stopError_atRest
    · exact hdrain
  · split
    · next hp => exact setChan_dmaOk_of_pended hs hp stopError_atRest
    · exact hs

theorem dmaReset_dmaOk {s : State} (i : Bool) (hen : s.dma.en = true) (hs : s.dmaOk) : (dmaReset s i).dmaOk := by
  unfold dmaReset
  dsimp only
  split
  · exact startPended_dmaOk (by simpa using hen) (by simpa [DmaChan.cleared] using idle_atRest)
  · next hr => exact setChan_dmaOk (idle_atRest.inOrder hen (other_ne_pended hs hr))

theorem dmaCommand_dmaOk {s : State} (acmd : BitVec 2) (hs : s.dmaOk) : (dmaCommand s acmd).Sat State.dmaOk := by
  unfold dmaCommand
  split
  · exact hs
  · next hen =>
    rw [Bool.not_eq_false] at hen
    split
    · exact dmaStart_dmaOk _ hen hs
    · split
      · split
        · trivial
        · exact dmaStop_dmaOk _ hs
      · split
        · exact dmaReset_dmaOk _ hen hs
        · exact hs

theorem dmaEnable_dmaOk {s : State} (en : Bool) (hs : s.dmaOk) : (dmaEnable s en).dmaOk := by
  obtain ⟨hrun, h0, h1, -⟩ := hs
  cases en
  · exact ⟨nofun, nofun, nofun, fun _ => ⟨rfl, rfl⟩⟩
  · exact ⟨hrun, h0, h1, nofun⟩

theorem dmaSetupWrite_dmaOk {s : State} {f : DmaChan → DmaChan} (hf : ∀ c, (f c).stat = c.stat) (hs : s.dmaOk) :
    (dmaSetupWrite s f).dmaOk := by
  unfold dmaSetupWrite
  dsimp only
  split
  · next hbusy =>
    unfold disrupt
    dsimp only
    split
    · next hr => exact finish_dmaOk _ _ _ (dmaOk_enabled (i := s.selected) hs (by simp [hr])) stopError_atRest
    · next hr => exact setChan_dmaOk_of_pended hs (hbusy.resolve_left hr) stopError_atRest
  · exact setChan_dmaOk_of_stat hs (hf _)

/-- Of the system registers only those of the DMA engine reach its channels. -/
theorem writeSr_dmaOk (sr : Sr) (v : Word) {s : State} (hs : s.dmaOk) : (writeSr s sr v).Sat State.dmaOk := by
  cases sr
  case psw | ipsw | pIpsw | tlbMisc | edm | dmaChnsel =>
    simp only [writeSr]
    split <;> exact hs
  case ilmb => exact lmWritten_sat hs
  case dlmb =>
    refine lmWritten_sat ?_
    simp only [writeDlmb]
    split <;> exact hs
  case sdzCtl =>
    simp only [writeSr, writeSdz]
    split <;> exact hs
  case dmaGcsw => exact dmaEnable_dmaOk _ hs
  case dmaAct => exact dmaCommand_dmaOk _ hs
  case dmaSetup =>
    simp only [writeSr]
    split
    · exact hs
    · exact dmaSetupWrite_dmaOk (fun _ => rfl) hs
  case dmaIsaddr | dmaEsaddr | dmaTcnt | dma2dset | dma2dsctl => exact dmaSetupWrite_dmaOk (fun _ => rfl) hs
  all_goals exact hs

/-! ## The step -/

/-- A reset, even one that keeps the DMA registers, disables the engine and puts both channels in Idle (R921, R923). -/
theorem resetState_dmaOk (s : State) (kind : ResetKind) : (resetState s kind).dmaOk := by
  have hidle : ∀ (keep : Bool) (c : DmaChan), (resetChan keep c).stat = .idle := fun keep c => by
    cases keep <;> rfl
  simp [State.dmaOk, resetState, hidle]

theorem stored_dma {s t : State} (h : s.stored t) : t.dma = s.dma := by
  have hk := State.sansStore_keeps h.1
  tauto

theorem randomWriteOp_dma (s : State) (pte : Word) (lock : Bool) : (randomWriteOp s pte lock).dma = s.dma := by
  unfold randomWriteOp
  split
  · next t ht =>
    obtain ⟨k, -, rfl⟩ := randomWrite_spec ht
    rfl
  · rfl

theorem returnState_dma (s : State) : (returnState s).dma = s.dma := by
  unfold returnState
  split
  · rfl
  · split <;> rfl

/-- Settles O60: outside reset, bursts and MTSR no part of a step touches the DMA engine (`dmaOk_of_dma_eq`), and those
three keep its channels in order. -/
theorem stepKeepsDmaChannelsInOrder : Obligations.StepKeepsDmaChannelsInOrder := by
  intro s t hs h
  have hcore : ∀ s t : State, s.sameCore t → s.dmaOk → t.dmaOk := fun s t ⟨_, _, _, _, hdma, _⟩ =>
    dmaOk_of_dma_eq hdma
  have hent : ∀ c pc (s : State), s.dmaOk → (enter c pc s).dmaOk := fun c pc s =>
    dmaOk_of_dma_eq (enter_dma c pc s)
  have hsto : ∀ s t : State, s.stored t → s.dmaOk → t.dmaOk := fun s t h => dmaOk_of_dma_eq (stored_dma h)
  have hacc : ∀ s t : State, s.accessed t → s.dmaOk → t.dmaOk := fun s t h => hsto s t (State.stored_of_accessed h)
  refine step_keeps hcore hent (fun s kind _ => resetState_dmaOk s kind) (fun _ => dmaBurst_dmaOk) hacc
    (fun _ _ => zeroWord_keeps hcore hent hacc) (fun _ _ _ => ?_) h hs
  refine exec_keeps hcore hent hsto (fun _ sr v => writeSr_dmaOk sr v) (fun _ _ h => h)
    (fun s => dmaOk_of_dma_eq (returnState_dma s)) (fun s x _ => dmaOk_of_dma_eq ?trd) (fun _ _ _ h => h)
    (fun s x => dmaOk_of_dma_eq ?twr) (fun s x b => dmaOk_of_dma_eq (randomWriteOp_dma s x b)) (fun _ _ h => h)
    (fun _ _ h => h) (fun _ h => h)
  case trd => unfold tlbTargetRead; split <;> rfl
  case twr => unfold tlbTargetWrite; split <;> rfl

end Sys2Proof.Machine
end

section
/-! PROOFS. Statement O40: TLBOP FLUA. -/

namespace Sys2Proof.Machine

/-- FLUA under the MMU in superuser mode completes (R600, R608). -/
theorem exec_tlbopFlua {s : State} (hmmu : s.cfg.hasMmu = true) (hsuper : s.superuser = true) :
    exec .tlbopFlua s = .next ((flushAll s).retire s.pc s.next4) := by
  show complete s (mmuOnly s (.ok s.next4 (flushAll s))) = _
  rw [mmuOnly, if_pos hmmu, privileged, if_pos hsuper, complete_ok]

/-- What FLUA leaves of the listed entries: the locked ones (R608). -/
theorem flushAll_cellGet {s : State} (htlb : s.tlbOk) (k : Nat) :
    cellGet (flushAll s).tlb.cells k = (cellGet s.tlb.cells k).filter (fun e => e.l) :=
  cellGet_filter htlb.1 _ k

/-- A listed entry that is locked survives FLUA. -/
theorem flushAll_read_locked {s : State} (htlb : s.tlbOk) {k : Nat} {e : TlbEntry}
    (hcell : cellGet s.tlb.cells k = some e) (hl : e.l = true) : (flushAll s).tlb.read k = e := by
  rw [Tlb.read, flushAll_cellGet htlb, hcell, Option.filter_some_pos hl]
  rfl

/-- Every other entry is flushed by FLUA (R608, D28). -/
theorem flushAll_read_flushed {s : State} (htlb : s.tlbOk) {k : Nat}
    (h : ∀ e, cellGet s.tlb.cells k = some e → e.l = false) :
    (flushAll s).tlb.read k = flushedEntry s.draws k := by
  have hnone : (cellGet s.tlb.cells k).filter (fun e => e.l) = none :=
    Option.filter_eq_none_iff.2 fun e he => by simp [h e he]
  rw [Tlb.read, flushAll_cellGet htlb, hnone]
  rfl

/-- Settles O40: a listed entry is kept or flushed by its lock; an entry that is not listed is flushed, and where it was
flushed already it had no lock. -/
theorem tlbFlushAll : Obligations.TlbFlushAll := by
  intro s hmmu hsuper htlb
  refine ⟨_, exec_tlbopFlua hmmu hsuper, fun k _ => ?_, rfl⟩
  have hflushed : (∀ e, cellGet s.tlb.cells k = some e → e.l = false) →
      ((flushAll s).tlb.read k).v = false ∧ ((flushAll s).tlb.read k).l = false := fun h => by
    rw [flushAll_read_flushed htlb h]
    exact ⟨rfl, rfl⟩
  cases hcell : cellGet s.tlb.cells k with
  | none =>
    refine ⟨fun hknown hlock => ?_, fun _ => hflushed (by simp [hcell])⟩
    obtain ⟨d, hfill⟩ | hlisted := hknown
    · have hfree : (s.tlb.read k).l = false := by rw [Tlb.read, hcell, hfill]; rfl
      simp [hfree] at hlock
    · cases hlisted
  | some e =>
    have hread : s.tlb.read k = e := by rw [Tlb.read, hcell]; rfl
    rw [hread]
    cases hl : e.l with
    | true => exact ⟨fun _ _ => flushAll_read_locked htlb hcell hl, fun hfree => absurd ⟨.inr rfl, rfl⟩ hfree⟩
    | false => exact ⟨nofun, fun _ => hflushed (by simp [hcell, hl])⟩

end Sys2Proof.Machine
end

section
/-! PROOFS. Statement O53: the three performance counters. -/

namespace Sys2Proof.Machine

/-! ## What a step worked on -/

theorem Work.condBranch_iff (w : Work) :
    w.condBranch = true ↔ ∃ rt i, w = .insn (.beqz rt i) ∨ w = .insn (.bnez rt i) := by
  unfold Work.condBranch
  split <;> simp_all

theorem Work.takenBranch_iff (s : State) (w : Work) :
    w.takenBranch s = true ↔
      ∃ rt i, (w = .insn (.beqz rt i) ∧ s.x rt = 0#32) ∨ (w = .insn (.bnez rt i) ∧ s.x rt ≠ 0#32) := by
  unfold Work.takenBranch
  split <;> simp_all

theorem Work.jump_iff (w : Work) : w.jump = true ↔ ∃ i, w = .insn (.j i) := by
  unfold Work.jump
  split <;> simp_all

theorem Work.barrier_iff (w : Work) : w.barrier = true ↔ w = .insn .isb ∨ w = .insn .dsb := by
  unfold Work.barrier
  split <;> simp_all

theorem Work.cctl_iff (w : Work) : w.cctl = true ↔ ∃ ra, w = .insn (.cctlL1dVaWb ra) := by
  unfold Work.cctl
  split <;> simp_all

theorem Work.load_iff (w : Work) :
    w.load = true ↔ ∃ rt ra i, w = .insn (.lwi rt ra i) ∨ w = .insn (.lwVlpt rt ra i) ∨ w = .zeroWord := by
  cases w with
  | none => exact iff_of_false Bool.false_ne_true (by simp)
  | zeroWord => exact iff_of_true rfl ⟨0, 0, 0, .inr (.inr rfl)⟩
  | insn i =>
    cases i
    case lwi rt ra imm => exact iff_of_true rfl ⟨rt, ra, imm, .inl rfl⟩
    case lwVlpt rt ra imm => exact iff_of_true rfl ⟨rt, ra, imm, .inr (.inl rfl)⟩
    all_goals exact iff_of_false Bool.false_ne_true (by simp)

theorem Work.store_iff (w : Work) : w.store = true ↔ ∃ rt ra i, w = .insn (.swi rt ra i) := by
  unfold Work.store
  split <;> simp_all

theorem Work.short_iff (w : Work) : w.short = true ↔ ∃ n, w = .insn (.break16 n) := by
  unfold Work.short
  split <;> simp_all

/-! ## One counter -/

/-- Completing an instruction occurs at most once in a step. -/
theorem one_completed (done : Bool) : one done ≤ 1 ∧ (one done = 1 ↔ done = true ∧ True) := by
  cases done <;> decide

/-- Completing an instruction of one kind occurs at most once in a step. -/
theorem one_completed_of_kind {done kind : Bool} {p : Prop} (h : kind = true ↔ p) :
    one (done && kind) ≤ 1 ∧ (one (done && kind) = 1 ↔ done = true ∧ p) := by
  rw [← h]
  cases done <;> cases kind <;> decide

/-- The C1 events of instructions that this machine does not have (Table 27). -/
theorem count1_absent (s : State) (w : Work) (n : StepNote) {sel : BitVec 6}
    (h : 4 ≤ sel.toNat ∧ sel.toNat ≤ 9 ∨ sel.toNat = 29) : count1 s w n sel = some 0 := by
  obtain h | h | h | h | h | h | h : sel.toNat = 4 ∨ sel.toNat = 5 ∨ sel.toNat = 6 ∨ sel.toNat = 7 ∨ sel.toNat = 8
    ∨ sel.toNat = 9 ∨ sel.toNat = 29 := by omega
  all_goals simp only [count1, h]

/-- A counter that counts advances by the number of events, and overflows where the sum passes 32 bits; one that does
not keeps its value (R256, R881). -/
theorem countStep_eq (ctl : Word) (pom : BitVec 2) (i draw : Nat) (v : Word) (n : Option Nat) :
    let k := n.getD (Config.freeNat draw i)
    countStep ctl pom i draw v n =
      (if counting ctl pom i then v + BitVec.ofNat 32 k else v,
        counting ctl pom i && decide (2 ^ 32 ≤ v.toNat + k)) := by
  unfold countStep
  cases counting ctl pom i <;> rfl

/-! ## The share of a step -/

/-- With performance monitoring, the registers after a step, whether or not some counter counts. -/
theorem account_pfm {s : State} (hpfm : s.cfg.hasPfm = true) (w : Work) (t : State) :
    let ctl := t.pfm.pfmCtl
    let r0 := countStep ctl s.pom 0 t.draws t.pfm.pfmc0 (count0 ctl t.note)
    let r1 := countStep ctl s.pom 1 t.draws t.pfm.pfmc1 (count1 s w t.note (field ctl 16 6))
    let r2 := countStep ctl s.pom 2 t.draws t.pfm.pfmc2 (count2 w t.note (field ctl 22 6))
    (account s w t).pfm = ⟨r0.1, r1.1, r2.1, ctl ||| bitAt 6 r0.2 ||| bitAt 7 r1.2 ||| bitAt 8 r2.2⟩ := by
  intro ctl r0 r1 r2
  unfold account
  dsimp only
  split
  · rfl
  · next hoff =>
    have h : counting ctl s.pom 0 = false ∧ counting ctl s.pom 1 = false ∧ counting ctl s.pom 2 = false := by
      simpa [hpfm, and_assoc] using hoff
    obtain ⟨h0, h1, h2⟩ := h
    simp [r0, r1, r2, countStep_eq, h0, h1, h2, bitAt, ctl]

/-- The overflow bits of PFM_CTL are set where their counters wrapped, and stay set (R257, R881). -/
theorem getLsbD_overflow (ctl : Word) (o0 o1 o2 : Bool) :
    let v := ctl ||| bitAt 6 o0 ||| bitAt 7 o1 ||| bitAt 8 o2
    v.getLsbD 6 = (ctl.getLsbD 6 || o0) ∧ v.getLsbD 7 = (ctl.getLsbD 7 || o1)
      ∧ v.getLsbD 8 = (ctl.getLsbD 8 || o2) ∧ ∀ i, i < 6 ∨ 9 ≤ i → v.getLsbD i = ctl.getLsbD i := by
  simp only [BitVec.getLsbD_or, getLsbD_bitAt]
  refine ⟨by simp, by simp, by simp, fun i hi => ?_⟩
  have h6 : 6 ≠ i := by omega
  have h7 : 7 ≠ i := by omega
  have h8 : 8 ≠ i := by omega
  simp [h6, h7, h8]

/-- Settles O53: each counter advances by what its event counted, a free number where the model leaves it open
(`account_pfm`, `countStep_eq`); the events that follow from the instructions count as their selections say. -/
theorem counterZeroCountsInstructions : Obligations.CounterZeroCountsInstructions := by
  intro s t w hpfm ctl u pom on counted done once
  have hu : u.pfm = _ := account_pfm hpfm w t
  simp only [countStep_eq] at hu
  obtain ⟨h6, h7, h8, hrest⟩ := getLsbD_overflow ctl _ _ _
  refine ⟨(count0 ctl t.note).getD (Config.freeNat t.draws 0),
    (count1 s w t.note (field ctl 16 6)).getD (Config.freeNat t.draws 1),
    (count2 w t.note (field ctl 22 6)).getD (Config.freeNat t.draws 2), ?_, ?_, ?_, ?_, ?_, ?_, ?_, ?_⟩
  · simp only [counted, hu]
    exact ⟨rfl, h6⟩
  · simp only [counted, hu]
    exact ⟨rfl, h7⟩
  · simp only [counted, hu]
    exact ⟨rfl, h8⟩
  · intro hsel
    have hcount : count0 ctl t.note = some (one t.note.completed) := if_pos hsel
    rw [hcount]
    exact one_completed _
  · intro sel
    have hat : ∀ k : BitVec 6, sel = k.toNat → field ctl 16 6 = k := fun k h => BitVec.eq_of_toNat_eq h
    refine ⟨?completed, ?condBranch, ?takenBranch, ?barrier, ?cctl, ?interrupts, ?load, ?ilm, ?absent⟩
    case completed => exact fun h => hat 1#6 h ▸ one_completed _
    case condBranch => exact fun h => hat 2#6 h ▸ one_completed_of_kind w.condBranch_iff
    case takenBranch => exact fun h => hat 3#6 h ▸ one_completed_of_kind (w.takenBranch_iff s)
    case barrier => exact fun h => hat 10#6 h ▸ one_completed_of_kind w.barrier_iff
    case cctl => exact fun h => hat 11#6 h ▸ one_completed_of_kind w.cctl_iff
    case interrupts => exact fun h => hat 12#6 h ▸ rfl
    case load => exact fun h => hat 13#6 h ▸ one_completed_of_kind w.load_iff
    case ilm => exact fun h => hat 24#6 h ▸ rfl
    case absent =>
      intro h
      rw [count1_absent s w t.note (sel := field ctl 16 6) h]
      rfl
  · intro sel
    have hat : ∀ k : BitVec 6, sel = k.toNat → field ctl 22 6 = k := fun k h => BitVec.eq_of_toNat_eq h
    refine ⟨?jump, ?absent, ?short, ?exceptions, ?store, ?dlm⟩
    case jump => exact fun h => hat 6#6 h ▸ one_completed_of_kind w.jump_iff
    case absent => exact fun h => hat 7#6 h ▸ rfl
    case short => exact fun h => hat 8#6 h ▸ one_completed_of_kind w.short_iff
    case exceptions => exact fun h => hat 12#6 h ▸ rfl
    case store => exact fun h => hat 13#6 h ▸ one_completed_of_kind w.store_iff
    case dlm => exact fun h => hat 24#6 h ▸ rfl
  · simp only [hu]
    exact hrest
  · exact account_frame s w t

end Sys2Proof.Machine
end

section
/-! PROOFS. Statement O52: the disabled DMA engine. -/

namespace Sys2Proof.Machine

/-- Disabling the engine clears both channels and leaves its other registers (R272, R701). -/
theorem dmaEnable_false_chan (s : State) (i : Bool) : (dmaEnable s false).chan i = (s.chan i).cleared := by
  cases i <;> rfl

/-- Settles O52: both MTSR complete where the access is allowed (`mtsr_ok`); to a disabled engine a command is nothing,
and EN = 0 clears both channels. -/
theorem dmaDisabled : Obligations.DmaDisabled := by
  intro s ra hdma next
  constructor
  · intro hallowed hoff
    have hcommand : writeSr s .dmaAct (s.x ra) = .ok () s := by
      show dmaCommand s _ = _
      rw [dmaCommand, if_pos hoff]
    exact mtsr_ok hallowed rfl hdma hcommand
  · intro hallowed hen
    have hdisable : writeSr s .dmaGcsw (s.x ra) = .ok () (dmaEnable s false) :=
      congrArg (fun en => Res.ok () (dmaEnable s en)) hen
    exact ⟨_, mtsr_ok hallowed rfl hdma hdisable, rfl, dmaEnable_false_chan s, rfl, rfl, rfl⟩

end Sys2Proof.Machine
end

section
/-! PROOFS. What the accesses of statements O4, O6 and O10 share: which accesses are translated, aligned words on the
bus, and the data byte order. -/

namespace Sys2Proof.Machine

/-! ## Translation -/

/-- An access that is not translated (R356); a fetch must be aligned first. -/
theorem translate_untranslated {s : State} {va : Word} {acc : Acc} {vlpt : Bool}
    (h : transEnabled s acc vlpt = false) (hf : acc = .fetch → (s.cfg.addr va).getLsbD 0 = false) :
    translate s va acc vlpt = .ok (nonTranslated s (s.cfg.addr va)) s := by
  have heven : ¬(acc = .fetch ∧ bit (s.cfg.addr va) 0 = true) := fun ⟨hacc, hodd⟩ => by
    rw [bit_eq, hf hacc] at hodd
    exact Bool.false_ne_true hodd
  rw [translate, if_neg heven, if_pos h]

/-- Translating changes neither the parameters nor the registers nor the memories. -/
theorem translate_eq {s t : State} {va : Word} {acc : Acc} {vlpt : Bool} {x : Xlat}
    (h : translate s va acc vlpt = .ok x t) :
    t = { s with tlb := t.tlb, itlb := t.itlb, devLog := t.devLog, draws := t.draws } :=
  ((translate_frame s va acc vlpt).ok h).1

/-- The word at the translated address of an aligned access does not reach over the end of the address space. -/
theorem translate_word_low {s t : State} {va : Word} {acc : Acc} {vlpt : Bool} {x : Xlat}
    (h : translate s va acc vlpt = .ok x t) (ha : va.toNat % 4 = 0) : x.pa.toNat + 4 ≤ 4294967296 := by
  have h4 := translate_aligned h ha
  have hlt := x.pa.isLt
  omega

/-! ## The data byte order (R364, R790) -/

theorem effBe_eq (s : State) :
    s.effBe = if decide ((if s.cfg.intlc then 2 else 3) ≤ (s.ir.psw.extractLsb' 1 2).toNat)
      then s.cfg.mmuCfg.getLsbD 26 else s.ir.psw.getLsbD 5 := rfl

theorem effDrbe_eq (s : State) :
    s.effDrbe = if decide ((if s.cfg.intlc then 2 else 3) ≤ (s.ir.psw.extractLsb' 1 2).toNat)
      then s.cfg.mmuCfg.getLsbD 31 else s.ir.psw.getLsbD 12 := rfl

/-- Translating does not change the data byte order. -/
theorem dataBigEndian_translate {s t : State} {va : Word} {acc : Acc} {vlpt : Bool} {x : Xlat}
    (h : translate s va acc vlpt = .ok x t) (cls : MemClass) : dataBigEndian t cls = dataBigEndian s cls := by
  rw [translate_eq h]
  rfl

/-- Four bytes assembled are the word of the byte order. -/
theorem assemble_eq_wordOf (big : Bool) (b0 b1 b2 b3 : Byte) :
    assemble big [b0, b1, b2, b3] = wordOf big b0 b1 b2 b3 := by
  cases big
  · exact assemble_little b0 b1 b2 b3
  · exact assemble_big b0 b1 b2 b3

theorem disassemble_eq_byteOf (big : Bool) (v : Word) :
    disassemble big v = [byteOf big v 0, byteOf big v 1, byteOf big v 2, byteOf big v 3] := by
  cases big <;> rfl

/-! ## Bytes on the bus that do not reach over the end of the address space -/

theorem busAddr_of_lt {a : Nat} (h : a < 4294967296) : busAddr a = a := Nat.mod_eq_of_lt h

/-- Some byte of a span is served by a kind of region. -/
theorem span_any_iff {c : Config} {pa n : Nat} (hp : pa + n ≤ 4294967296) (k : RegionKind) :
    (span pa n).any (fun a => c.regionOf a == k) = true ↔ ∃ i < n, c.regionOf (pa + i) = k := by
  simp only [span, List.any_map, List.any_eq_true, List.mem_range, Function.comp_apply, beq_iff_eq]
  refine exists_congr fun i => and_congr_right fun hi => ?_
  rw [busAddr_of_lt (by omega)]

theorem span_any_eq_false {c : Config} {pa n : Nat} (hp : pa + n ≤ 4294967296) {k : RegionKind}
    (h : ∀ i < n, c.regionOf (pa + i) ≠ k) : (span pa n).any (fun a => c.regionOf a == k) = false := by
  rw [Bool.eq_false_iff, Ne, span_any_iff hp]
  rintro ⟨i, hi, hk⟩
  exact h i hi hk

/-- A byte that memory serves is memory's. -/
theorem busByte_ram {s : State} {pa i : Nat} (hp : pa + i < 4294967296) (h : s.cfg.regionOf (pa + i) = .ram) :
    s.busByte pa i = s.mem.read (pa + i) := by
  rw [State.busByte, busAddr_of_lt hp, h]

/-- A read reaching an address that nothing serves is a bus error (R835). -/
theorem busRead_unserved {s : State} {pa n : Nat} (hp : pa + n ≤ 4294967296)
    (h : ∃ i < n, s.cfg.regionOf (pa + i) = .unserved) : s.busRead pa n = none := by
  rw [State.busRead, if_pos ((span_any_iff hp _).2 h)]

/-- A read of served bytes; a draw and a record of the access where a device answers some. -/
theorem busRead_served {s : State} {pa n : Nat} (hn : 0 < n) (hp : pa + n ≤ 4294967296)
    (h : ∀ i < n, s.cfg.regionOf (pa + i) ≠ .unserved) :
    ∃ t, s.busRead pa n = some ((List.range n).map (s.busByte pa), t)
      ∧ (¬(∃ i < n, s.cfg.regionOf (pa + i) = .device) → t = s)
      ∧ ((∃ i < n, s.cfg.regionOf (pa + i) = .device) →
        t = { s with draws := s.draws + 1, devLog := s.devLog ++ [.read pa n] }) := by
  rw [State.busRead, span_any_eq_false hp h, if_neg Bool.false_ne_true, busAddr_of_lt (by omega)]
  simp only [span_any_iff hp]
  exact ⟨_, rfl, fun hdev => if_neg hdev, fun hdev => if_pos hdev⟩

/-- A write reaching an address that nothing serves is a bus error (R835). -/
theorem busWrite_unserved {s : State} {pa : Nat} {bytes : List Byte} (hp : pa + bytes.length ≤ 4294967296)
    (h : ∃ i < bytes.length, s.cfg.regionOf (pa + i) = .unserved) : s.busWrite pa bytes = none := by
  rw [State.busWrite, if_pos ((span_any_iff hp _).2 h)]

/-- A write to served bytes; the access is recorded where a device takes some. -/
theorem busWrite_served {s : State} {pa : Nat} {bytes : List Byte} (hn : 0 < bytes.length)
    (hp : pa + bytes.length ≤ 4294967296) (h : ∀ i < bytes.length, s.cfg.regionOf (pa + i) ≠ .unserved) :
    ∃ log, s.busWrite pa bytes = some { s with mem := writeBytes s.cfg s.mem pa bytes, devLog := log }
      ∧ (¬(∃ i < bytes.length, s.cfg.regionOf (pa + i) = .device) → log = s.devLog)
      ∧ ((∃ i < bytes.length, s.cfg.regionOf (pa + i) = .device) → log = s.devLog ++ [.write pa bytes]) := by
  rw [State.busWrite, span_any_eq_false hp h, if_neg Bool.false_ne_true, busAddr_of_lt (by omega)]
  simp only [span_any_iff hp]
  exact ⟨_, rfl, fun hdev => if_neg hdev, fun hdev => if_pos hdev⟩

/-! ## Aligned loads and stores -/

theorem field_eq_zero_of_aligned {va : Word} (ha : va.toNat % 4 = 0) : field va 0 2 = 0#2 := by
  obtain ⟨h0, h1⟩ := (mod4_iff va).1 ha
  refine BitVec.eq_of_getLsbD_eq fun i hi => ?_
  obtain rfl | rfl : i = 0 ∨ i = 1 := by omega
  · simpa using h0
  · simpa using h1

/-- An aligned load: translation, routing, reading. -/
theorem loadWord_aligned (s : State) {va : Word} (vlpt : Bool) (ha : va.toNat % 4 = 0) :
    loadWord s va vlpt = (translate s va .load vlpt).bind fun x t => (route t x.pa .load).bind fun p u =>
      (readPlace u p 4 (s.cfg.addr va) .load).bind fun bytes v =>
        .ok (assemble (dataBigEndian t x.cls) bytes) v := by
  rw [loadWord, if_neg fun h => h (field_eq_zero_of_aligned ha)]

/-- An aligned load that is translated: routing, reading. -/
theorem loadWord_translated {s t : State} {va : Word} {vlpt : Bool} {x : Xlat} (ha : va.toNat % 4 = 0)
    (hx : translate s va .load vlpt = .ok x t) :
    loadWord s va vlpt = (route t x.pa .load).bind fun p u =>
      (readPlace u p 4 (s.cfg.addr va) .load).bind fun bytes v =>
        .ok (assemble (dataBigEndian s x.cls) bytes) v := by
  rw [loadWord_aligned s vlpt ha, hx, Res.bind_ok, dataBigEndian_translate hx]

/-- An aligned store: translation, routing, writing. -/
theorem storeWord_aligned (s : State) {va : Word} (data : Word) (ha : va.toNat % 4 = 0) :
    storeWord s va data = (translate s va .store false).bind fun x t => (route t x.pa .store).bind fun p u =>
      writePlace u p (disassemble (dataBigEndian t x.cls) data) (s.cfg.addr va) := by
  rw [storeWord, if_neg fun h => h (field_eq_zero_of_aligned ha)]

/-- An aligned store that is translated: routing, writing. -/
theorem storeWord_translated {s t : State} {va : Word} {x : Xlat} (data : Word) (ha : va.toNat % 4 = 0)
    (hx : translate s va .store false = .ok x t) :
    storeWord s va data = (route t x.pa .store).bind fun p u =>
      writePlace u p (disassemble (dataBigEndian s x.cls) data) (s.cfg.addr va) := by
  rw [storeWord_aligned s data ha, hx, Res.bind_ok, dataBigEndian_translate hx]

/-! ## LWI and SWI by what the load or store answers -/

section
variable {s u : State} {rt ra : Reg} {imm : BitVec 15}

theorem exec_lwi (s : State) (rt ra : Reg) (imm : BitVec 15) :
    exec (.lwi rt ra imm) s = complete s (finishLoad s rt (loadWord s (effectiveAddress s ra imm) false)) := rfl

theorem exec_lwi_of_ok {v : Word} (h : loadWord s (effectiveAddress s ra imm) false = .ok v u) :
    exec (.lwi rt ra imm) s = .next ((u.setX rt v).retire s.pc (s.cfg.addr (s.pc + 4#32))) := by
  rw [exec_lwi, h]
  rfl

theorem exec_lwi_of_raise {c : Cause} (h : loadWord s (effectiveAddress s ra imm) false = .raise c u) :
    exec (.lwi rt ra imm) s = .next (enter c s.pc u) := by
  rw [exec_lwi, h]
  rfl

theorem exec_lwi_of_stop {f : Fault} (h : loadWord s (effectiveAddress s ra imm) false = .stop f) :
    exec (.lwi rt ra imm) s = .fault f := by
  rw [exec_lwi, h]
  rfl

theorem exec_swi (s : State) (rt ra : Reg) (imm : BitVec 15) :
    exec (.swi rt ra imm) s =
      complete s ((storeWord s (effectiveAddress s ra imm) (s.x rt)).bind fun _ t => .ok s.next4 t) := rfl

theorem exec_swi_of_ok (h : storeWord s (effectiveAddress s ra imm) (s.x rt) = .ok () u) :
    exec (.swi rt ra imm) s = .next (u.retire s.pc (s.cfg.addr (s.pc + 4#32))) := by
  rw [exec_swi, h]
  rfl

theorem exec_swi_of_raise {c : Cause} (h : storeWord s (effectiveAddress s ra imm) (s.x rt) = .raise c u) :
    exec (.swi rt ra imm) s = .next (enter c s.pc u) := by
  rw [exec_swi, h]
  rfl

theorem exec_swi_of_stop {f : Fault} (h : storeWord s (effectiveAddress s ra imm) (s.x rt) = .stop f) :
    exec (.swi rt ra imm) s = .fault f := by
  rw [exec_swi, h]
  rfl

end

end Sys2Proof.Machine
end

section
/-! PROOFS. Statement O4: LWI on the bus. -/

namespace Sys2Proof.Machine

section
variable {s t : State} {va : Word} {vlpt : Bool} {x : Xlat}

/-- A load routed to the bus gives the four bytes there, in the data byte order. -/
theorem loadWord_bus_served (ha : va.toNat % 4 = 0) (hx : translate s va .load vlpt = .ok x t)
    (hbus : route t x.pa .load = .ok (.bus x.pa.toNat) t)
    (hserved : ∀ i < 4, s.cfg.regionOf (x.pa.toNat + i) ≠ .unserved) :
    ∃ (b : Nat → Byte) (u : State),
      (∀ i < 4, s.cfg.regionOf (x.pa.toNat + i) = .ram → b i = s.mem.read (x.pa.toNat + i))
        ∧ (¬(∃ i < 4, s.cfg.regionOf (x.pa.toNat + i) = .device) → u = t)
        ∧ ((∃ i < 4, s.cfg.regionOf (x.pa.toNat + i) = .device) →
          u = { t with draws := t.draws + 1, devLog := t.devLog ++ [.read x.pa.toNat 4] })
        ∧ loadWord s va vlpt = .ok (wordOf (dataBigEndian s x.cls) (b 0) (b 1) (b 2) (b 3)) u := by
  have hlow := translate_word_low hx ha
  have hcfg : t.cfg = s.cfg := by rw [translate_eq hx]
  have hmem : t.mem = s.mem := by rw [translate_eq hx]
  rw [← hcfg] at hserved ⊢
  obtain ⟨u, hread, hram, hdev⟩ := busRead_served (by decide) hlow hserved
  refine ⟨t.busByte x.pa.toNat, u, fun i hi h => ?_, hram, hdev, ?_⟩
  · rw [busByte_ram (by omega) h, hmem]
  · rw [loadWord_translated ha hx, hbus, Res.bind_ok, readPlace, hread, Res.bind_ok, ← assemble_eq_wordOf]
    rfl

/-- A load routed to the bus where nothing serves some byte takes the precise bus error (R835). -/
theorem loadWord_bus_unserved (ha : va.toNat % 4 = 0) (hx : translate s va .load vlpt = .ok x t)
    (hbus : route t x.pa .load = .ok (.bus x.pa.toNat) t)
    (hunserved : ∃ i < 4, s.cfg.regionOf (x.pa.toNat + i) = .unserved) :
    loadWord s va vlpt = .raise (.preciseBusError .load (s.cfg.addr va)) t := by
  have hcfg : t.cfg = s.cfg := by rw [translate_eq hx]
  rw [← hcfg] at hunserved
  have hread := busRead_unserved (translate_word_low hx ha) hunserved
  rw [loadWord_translated ha hx, hbus, Res.bind_ok, readPlace, hread, Res.bind_raise]

end

/-- A bus error of a load sets MERR.BUSERR where MERR exists (R133, R835). -/
theorem enter_loadBusError_merr (va pc : Word) (s : State) :
    (enter (.preciseBusError .load va) pc s).ir.merr =
      if s.cfg.merrExists then s.ir.merr ||| 0x80000000#32 else s.ir.merr := rfl

/-- Settles O4: LWI ends as `loadWord` answers (`exec_lwi_of_ok`, `_raise`, `_stop`), which follows translation, routing
and the bus. -/
theorem lwiLoadsFromMemory : Obligations.LwiLoadsFromMemory := by
  intro s rt ra imm ea run atTop
  refine ⟨effBe_eq s, effDrbe_eq s, rfl, fun ha => ⟨fun h => translate_untranslated h nofun, fun c t h => ?_,
    fun f h => ?_, fun x t hx => ⟨translate_eq hx, fun c u h => ?_, fun f h => ?_, fun hbus hserved => ?_,
      fun hbus hunserved => ⟨?_, ?_⟩⟩⟩⟩
  · exact exec_lwi_of_raise (by rw [loadWord_aligned s false ha, h, Res.bind_raise])
  · exact exec_lwi_of_stop (by rw [loadWord_aligned s false ha, h, Res.bind_stop])
  · exact exec_lwi_of_raise (by rw [loadWord_translated ha hx, h, Res.bind_raise])
  · exact exec_lwi_of_stop (by rw [loadWord_translated ha hx, h, Res.bind_stop])
  · obtain ⟨b, u, hram, hnodev, hdev, hload⟩ := loadWord_bus_served ha hx hbus hserved
    exact ⟨b, u, hram, hnodev, hdev, exec_lwi_of_ok hload⟩
  · exact exec_lwi_of_raise (loadWord_bus_unserved ha hx hbus hunserved)
  · rw [enter_loadBusError_merr, translate_eq hx]

end Sys2Proof.Machine
end

section
/-! PROOFS. Statement O6: SWI on the bus. -/

namespace Sys2Proof.Machine

section
variable {s t : State} {va data : Word} {x : Xlat}

/-- A store routed to the bus writes the four bytes of the data byte order where no device lies. -/
theorem storeWord_bus_served (ha : va.toNat % 4 = 0) (hx : translate s va .store false = .ok x t)
    (hbus : route t x.pa .store = .ok (.bus x.pa.toNat) t)
    (hserved : ∀ i < 4, s.cfg.regionOf (x.pa.toNat + i) ≠ .unserved) :
    let bytes := disassemble (dataBigEndian s x.cls) data
    ∃ log, storeWord s va data = .ok () { t with mem := writeBytes s.cfg s.mem x.pa.toNat bytes, devLog := log }
      ∧ (¬(∃ i < 4, s.cfg.regionOf (x.pa.toNat + i) = .device) → log = t.devLog)
      ∧ ((∃ i < 4, s.cfg.regionOf (x.pa.toNat + i) = .device) → log = t.devLog ++ [.write x.pa.toNat bytes]) := by
  intro bytes
  have hcfg : t.cfg = s.cfg := by rw [translate_eq hx]
  have hmem : t.mem = s.mem := by rw [translate_eq hx]
  have hlen : bytes.length = 4 := disassemble_length _ _
  rw [← hcfg] at hserved ⊢
  rw [← hlen] at hserved ⊢
  obtain ⟨log, hwrite, hrest⟩ := busWrite_served (by omega) (hlen ▸ translate_word_low hx ha) hserved
  refine ⟨log, ?_, hrest⟩
  rw [storeWord_translated data ha hx, hbus, Res.bind_ok, writePlace, hwrite, hmem]

/-- A store routed to the bus where nothing serves some byte takes the precise bus error (R835). -/
theorem storeWord_bus_unserved (ha : va.toNat % 4 = 0) (hx : translate s va .store false = .ok x t)
    (hbus : route t x.pa .store = .ok (.bus x.pa.toNat) t)
    (hunserved : ∃ i < 4, s.cfg.regionOf (x.pa.toNat + i) = .unserved) :
    storeWord s va data = .raise (.preciseBusError .store (s.cfg.addr va)) t := by
  have hcfg : t.cfg = s.cfg := by rw [translate_eq hx]
  have hlen : (disassemble (dataBigEndian s x.cls) data).length = 4 := disassemble_length _ _
  rw [← hcfg, ← hlen] at hunserved
  have hwrite := busWrite_unserved (hlen ▸ translate_word_low hx ha) hunserved
  rw [storeWord_translated data ha hx, hbus, Res.bind_ok, writePlace, hwrite]

end

/-- What memory reads after a word was stored at served bytes. -/
theorem read_writeBytes_word {c : Config} {m : Memory} (hm : m.wf = true) {pa : Nat} (hp : pa + 4 ≤ 4294967296)
    (hserved : ∀ i < 4, c.regionOf (pa + i) ≠ .unserved) (big : Bool) (v : Word) (k : Nat) :
    (writeBytes c m pa (disassemble big v)).read k =
      if pa ≤ k ∧ k < pa + 4 ∧ c.regionOf k = .ram then byteOf big v (k - pa) else m.read k := by
  have hkind : (pa ≤ k ∧ k < pa + 4 ∧ c.regionOf k ≠ .device) ↔
      pa ≤ k ∧ k < pa + 4 ∧ c.regionOf k = .ram := by
    refine and_congr_right fun h1 => and_congr_right fun h2 => ?_
    have h := hserved (k - pa) (by omega)
    rw [Nat.add_sub_cancel' h1] at h
    cases hk : c.regionOf k
    case unserved => exact absurd hk h
    all_goals decide
  rw [read_writeBytes_low c hm pa _ (by rw [disassemble_length]; exact hp), disassemble_length]
  simp only [hkind]
  split
  · next hin => exact getD_disassemble big v (by omega)
  · rfl

/-- Settles O6: SWI ends as `storeWord` answers (`exec_swi_of_ok`, `_raise`, `_stop`), which follows translation,
routing and the bus. -/
theorem swiStoresToMemory : Obligations.SwiStoresToMemory := by
  intro s rt ra imm ea run atTop
  refine ⟨effBe_eq s, effDrbe_eq s, rfl, fun hmem ha => ⟨fun h => translate_untranslated h nofun, fun c t h => ?_,
    fun f h => ?_, fun x t hx => ⟨translate_eq hx, fun c u h => ?_, fun f h => ?_, fun hbus hserved => ?_,
      fun hbus hunserved => ⟨?_, ?_⟩⟩⟩⟩
  · exact exec_swi_of_raise (by rw [storeWord_aligned s _ ha, h, Res.bind_raise])
  · exact exec_swi_of_stop (by rw [storeWord_aligned s _ ha, h, Res.bind_stop])
  · exact exec_swi_of_raise (by rw [storeWord_translated _ ha hx, h, Res.bind_raise])
  · exact exec_swi_of_stop (by rw [storeWord_translated _ ha hx, h, Res.bind_stop])
  · obtain ⟨log, hstore, hnodev, hdev⟩ := storeWord_bus_served (data := s.x rt) ha hx hbus hserved
    obtain ⟨hwf, -, -⟩ := hmem
    refine ⟨_, exec_swi_of_ok hstore, fun k => ?_, hnodev, fun h => ?_, ?_⟩
    · exact read_writeBytes_word hwf (translate_word_low hx ha) hserved _ _ k
    · rw [← disassemble_eq_byteOf]
      exact hdev h
    · rw [translate_eq hx]
      rfl
  · exact exec_swi_of_raise (storeWord_bus_unserved ha hx hbus hunserved)
  · rw [enter_mem, enter_ilm, enter_dlm, translate_eq hx]
    exact ⟨rfl, rfl, rfl⟩

end Sys2Proof.Machine
end

section
/-! PROOFS. Statement O10: which accesses are translated, and the address and class of one that is not. -/

namespace Sys2Proof.Machine

/-- The top field of a word replaced: the field above the other bits. -/
theorem setField_top (v : Word) {n lo : Nat} (x : BitVec n) (h : n + lo = 32) :
    setField v lo x = (x ++ v.extractLsb' 0 lo).cast h := by
  refine BitVec.eq_of_getLsbD_eq fun i hi => ?_
  rw [getLsbD_setField, BitVec.getLsbD_cast, BitVec.getLsbD_append]
  by_cases hlo : i < lo
  · simp [hlo, show ¬ lo ≤ i by omega]
  · simp [hlo, show lo ≤ i ∧ i < lo + n ∧ i < 32 by omega]

/-- An untranslated access with 32-bit addresses (R356): its class is that of the partition of the top address bits. -/
theorem nonTranslated_cls {s : State} (va : Word) (h : s.cfg.adr24 = false) :
    (nonTranslated s va).cls =
      ntcClass (s.ntc (if s.cfg.ntpt then va.extractLsb' 30 2 else 0#1 ++ va.extractLsb' 31 1)) := by
  simp only [nonTranslated, partition, h]
  rfl

/-- Without NTME an untranslated address is the virtual address. -/
theorem nonTranslated_pa_of_not_ntme {s : State} (va : Word) (h : s.cfg.ntme = false) :
    (nonTranslated s va).pa = va := if_pos h

/-- With NTME and four partitions the NTM field replaces bits 31:30. -/
theorem nonTranslated_pa_of_ntpt {s : State} (va : Word) (h : s.cfg.adr24 = false) (hntme : s.cfg.ntme = true)
    (hntpt : s.cfg.ntpt = true) :
    (nonTranslated s va).pa = s.ntm (va.extractLsb' 30 2) ++ va.extractLsb' 0 30 := by
  simp only [nonTranslated, partition, h, hntme, hntpt]
  exact setField_top va _ rfl

/-- With NTME and two partitions the low bit of the NTM field replaces bit 31 (D21). -/
theorem nonTranslated_pa_of_not_ntpt {s : State} (va : Word) (h : s.cfg.adr24 = false) (hntme : s.cfg.ntme = true)
    (hntpt : s.cfg.ntpt = false) :
    (nonTranslated s va).pa = (s.ntm (0#1 ++ va.extractLsb' 31 1)).extractLsb' 0 1 ++ va.extractLsb' 0 31 := by
  simp only [nonTranslated, partition, h, hntme, hntpt]
  exact setField_top va _ rfl

/-- The PSW bit that switches on the translation of an access, below the overflow level (R355, R790). -/
theorem transEnabled_iff (s : State) (acc : Acc) (vlpt : Bool) :
    transEnabled s acc vlpt = true ↔ s.cfg.mmps ≠ 0#2
      ∧ (vlpt = true ∨ (s.atOverflow = false ∧ s.ir.psw.getLsbD (if acc = .fetch then 6 else 7) = true)) := by
  unfold transEnabled
  by_cases hmmps : s.cfg.mmps = 0#2
  · simp [hmmps]
  · cases vlpt
    case true => simp [hmmps]
    case false => cases acc <;> simp [hmmps, State.effIt, State.effDt, bit_eq]

/-- Settles O10: the untranslated address by its partition's fields, the two tables of classes, and
`transEnabled_iff`. -/
theorem untranslatedAddress : Obligations.UntranslatedAddress := by
  refine ⟨?address, by decide, by decide, transEnabled_iff⟩
  intro s va acc h24 hoff hfetch p
  have haddr : s.cfg.addr va = va := if_neg (by rw [h24]; exact Bool.false_ne_true)
  have hx : translate s va acc false = .ok (nonTranslated s va) s := by
    rw [translate_untranslated hoff (haddr.symm ▸ hfetch), haddr]
  refine ⟨_, hx, nonTranslated_cls va h24, rfl, rfl, nonTranslated_pa_of_not_ntme va, fun hntme hntpt => ?_,
    fun hntme hntpt => ?_⟩
  · have hp : p = va.extractLsb' 30 2 := if_pos hntpt
    rw [hp, nonTranslated_pa_of_ntpt va h24 hntme hntpt]
  · have hp : p = 0#1 ++ va.extractLsb' 31 1 := if_neg (by rw [hntpt]; exact Bool.false_ne_true)
    rw [hp, nonTranslated_pa_of_not_ntpt va h24 hntme hntpt]

end Sys2Proof.Machine
end

section
/-! PROOFS. Statement O12: reserved values of C and M, the rights an entry gives, and the order of its exceptions. -/

namespace Sys2Proof.Machine

/-! ## Table of M and X (R435) -/

section
variable (v2 super x : Bool) (m : BitVec 3)

/-- The M values that are reserved (R435). -/
theorem permOf_isNone_iff :
    (permOf v2 super m x).isNone = true ↔ m = 4#3 ∨ m = 6#3 ∨ (m = 0#3 ∧ ¬(v2 = true ∧ x = true ∧ m = 0#3)) := by
  revert v2 super x m
  decide

/-- Which pages may be read (R435). -/
theorem permOf_read_iff :
    ((permOf v2 super m x).getD (false, false)).1 = true ↔
      m = 1#3 ∨ m = 2#3 ∨ m = 3#3
        ∨ (super = true ∧ (m = 5#3 ∨ m = 7#3 ∨ (v2 = true ∧ x = true ∧ m = 0#3))) := by
  revert v2 super x m
  decide

/-- Which pages may be written (R435). -/
theorem permOf_write_iff :
    ((permOf v2 super m x).getD (false, false)).2 = true ↔
      m = 3#3 ∨ (super = true ∧ (m = 2#3 ∨ m = 7#3 ∨ (v2 = true ∧ x = true ∧ m = 0#3))) := by
  revert v2 super x m
  decide

end

/-! ## The checks of an entry (R436) -/

section
variable (v2 super : Bool) (e : TlbEntry) (va : Word) (acc : Acc)

/-- Which pages may be executed (R436). -/
theorem mayExecute_iff :
    mayExecute v2 super e = true ↔ e.x = true ∧ ¬(v2 = true ∧ super = false ∧ (e.m = 5#3 ∨ e.m = 7#3)) := by
  simp only [mayExecute, Bool.if_false_left, Bool.and_eq_true, Bool.not_eq_true', Bool.or_eq_true, beq_iff_eq,
    decide_eq_false_iff_not, and_assoc, and_comm]

/-- Which entries report a reserved value: a reserved C for every access, a reserved M for all but a fetch under
version 1 (R436, R456). -/
theorem reservedAttribute_iff :
    reservedAttribute v2 super e acc = true ↔
      e.c = 3#3 ∨ ((permOf v2 super e.m e.x).isNone = true ∧ (acc = .fetch → v2 = true)) := by
  simp only [reservedAttribute, Bool.or_eq_true, beq_iff_eq, Bool.and_eq_true, bne_iff_ne, imp_iff_not_or]

theorem permissionCause_load :
    permissionCause v2 super e va .load =
      if ((permOf v2 super e.m e.x).getD (false, false)).1 = false then some (.readProtection va)
      else if e.a then some (.accessBit false va) else none := by
  simp [permissionCause, show (Acc.load == .fetch) = false from rfl]

theorem permissionCause_store :
    permissionCause v2 super e va .store =
      if ((permOf v2 super e.m e.x).getD (false, false)).2 = false then some (.writeProtection va)
      else if e.d = false then some (.pageModified va)
      else if e.a then some (.accessBit false va) else none := by
  simp [permissionCause, show (Acc.store == .fetch) = false from rfl]

theorem permissionCause_fetch :
    permissionCause v2 super e va .fetch =
      if mayExecute v2 super e = false then some (.nonExecutable va)
      else if e.a then some (.accessBit true va) else none := by
  simp [permissionCause]

end

/-- Settles O12: the checks by access, with the rights of the table of M and X. -/
theorem tlbPermissionOrder : Obligations.TlbPermissionOrder := by
  intro v2 super e va acc open0 readable writable executable reservedM
  have denied {b : Bool} {right : Prop} (h : b = true ↔ right) : b = false ↔ ¬right := by
    rw [← h, Bool.not_eq_true]
  refine ⟨?_, ?_, ?_, ?_⟩
  · rw [reservedAttribute_iff, permOf_isNone_iff]
  · exact (permissionCause_load v2 super e va).trans (if_congr (denied (permOf_read_iff ..)) rfl rfl)
  · exact (permissionCause_store v2 super e va).trans (if_congr (denied (permOf_write_iff ..)) rfl rfl)
  · exact (permissionCause_fetch v2 super e va).trans (if_congr (denied (mayExecute_iff ..)) rfl rfl)

end Sys2Proof.Machine
end

section
/-! PROOFS. Statement O41: TLBOP PB. -/

namespace Sys2Proof.Machine

/-- PB under the MMU in superuser mode completes (R600, R607). -/
theorem exec_tlbopPb {s : State} (rt ra : Reg) (hmmu : s.cfg.hasMmu = true) (hsuper : s.superuser = true) :
    exec (.tlbopPb rt ra) s = .next ((probe s rt (s.x ra)).retire s.pc (s.cfg.addr (s.pc + 4#32))) := by
  show complete s (mmuOnly s (.ok s.next4 (probe s rt (s.x ra)))) = _
  rw [mmuOnly, if_pos hmmu, privileged, if_pos hsuper, complete_ok]
  rfl

section
variable {s : State} {va : Word} (rt : Reg)

/-- PB without a match: NF is set (R607). -/
theorem probe_of_miss (hv : probeVisible s va = []) (hi : probeInvisible s va = []) :
    probe s rt va = s.drawn.setX rt 0x80000000#32 := by
  rw [probe, hv, hi]
  rfl

/-- PB with one visible match: SW is set, with the entry number (R607). -/
theorem probe_of_visible {k : Nat} {e : TlbEntry} (hv : probeVisible s va = [(k, e)]) (hi : probeInvisible s va = []) :
    probe s rt va = s.drawn.setX rt (0x20000000#32 ||| BitVec.ofNat 32 k) := by
  rw [probe, hv, hi]
  rfl

/-- PB with one invisible match: HW is set (R607). -/
theorem probe_of_invisible {e : TlbEntry} (hv : probeVisible s va = []) (hi : probeInvisible s va = [e]) :
    probe s rt va = s.drawn.setX rt 0x40000000#32 := by
  rw [probe, hv, hi]
  rfl

/-- PB with several matches: a pending Machine Error and a free Rt (R607). -/
theorem probe_of_multiple (h : 2 ≤ (probeVisible s va).length + (probeInvisible s va).length) :
    probe s rt va = (s.drawn.setX rt (Config.freeWord s.draws 0)).pend (.tlbMultipleHit false none) := by
  rw [probe]
  split
  · next hv hi => simp [hv, hi] at h
  · next hv hi => simp [hv, hi] at h
  · next hv hi => simp [hv, hi] at h
  · rfl

end

/-- A listed entry is found by PB when it matches, in its own set for certain (R607). -/
theorem mem_probeVisible_iff (s : State) (va : Word) (k : Nat) (e : TlbEntry) :
    (k, e) ∈ probeVisible s va ↔ (k, e) ∈ s.tlbListed ∧ s.tlbMatches e va = true
      ∧ (setIndex s.cfg (e.vpn ++ 0#12) (pageShift e.psz) = k % s.cfg.tlbSets ∨ Config.freeBit s.draws k = true) := by
  simp only [probeVisible, List.mem_filter, Bool.and_eq_true, Bool.or_eq_true, beq_iff_eq]

theorem mem_probeInvisible_iff (s : State) (va : Word) (e : TlbEntry) :
    e ∈ probeInvisible s va ↔ e ∈ s.itlb ∧ s.tlbMatches e va = true := by
  simp only [probeInvisible, List.mem_filter]

/-- Settles O41: the result word by the entries found, which are those that match (`State.tlbMatches_iff`). -/
theorem tlbProbe : Obligations.TlbProbe := by
  intro s rt ra hmmu hsuper va done
  rw [exec_tlbopPb rt ra hmmu hsuper]
  refine ⟨fun hv hi => ?_, fun k e hv hi => ?_, fun e hv hi => ?_, fun h => ⟨Config.freeWord s.draws 0, ?_⟩,
    fun k e hlisted hset => ?_, fun k e h => ?_, fun e => ?_⟩
  · rw [probe_of_miss rt hv hi]
  · rw [probe_of_visible rt hv hi]
  · rw [probe_of_invisible rt hv hi]
  · rw [probe_of_multiple rt h]
  · refine Iff.trans ?_ (s.tlbMatches_iff e va)
    rw [mem_probeVisible_iff]
    exact ⟨fun ⟨_, hmatch, _⟩ => hmatch, fun hmatch => ⟨hlisted, hmatch, .inl hset⟩⟩
  · obtain ⟨hlisted, hmatch, -⟩ := (mem_probeVisible_iff s va k e).1 h
    exact ⟨hlisted, (s.tlbMatches_iff e va).1 hmatch⟩
  · rw [mem_probeInvisible_iff, State.tlbMatches_iff]

end Sys2Proof.Machine
end

section
/-! PROOFS. What the translations of statements O9, O11 and O13 share: which entry serves an access, what its check
answers, and the entries a lookup finds. -/

namespace Sys2Proof.Machine

/-! ## The checks of an entry before an exception (R436, R456) -/

section
variable {α : Type} (s : State) (e : TlbEntry) (va : Word) (acc : Acc) (c : Cause)

/-- An exception behind the test for reserved C and M values. -/
theorem checkAttribute_bind_raise :
    ((checkAttribute s e va acc).bind fun _ t => (.raise c t : Res α)) =
      if reservedAttribute s.cfg.mmuVersion2 s.superuser e acc then
        if s.cfg.hardCore then .stop .unpredictablePte else .raise (.reservedPte (acc == .fetch) va) s
      else .raise c s := by
  rw [checkAttribute]
  split
  · split <;> rfl
  · rfl

/-- An exception behind the whole check: the entry's own exceptions come first. -/
theorem checkEntry_bind_raise :
    ((checkEntry s e va acc).bind fun _ t => (.raise c t : Res α)) =
      if reservedAttribute s.cfg.mmuVersion2 s.superuser e acc then
        if s.cfg.hardCore then .stop .unpredictablePte else .raise (.reservedPte (acc == .fetch) va) s
      else .raise ((permissionCause s.cfg.mmuVersion2 s.superuser e va acc).getD c) s := by
  rw [checkEntry, checkAttribute]
  split
  · split <;> rfl
  · rw [Res.bind_ok]
    cases permissionCause s.cfg.mmuVersion2 s.superuser e va acc <;> rfl

end

/-! ## An access served by an entry (R421, R436) -/

/-- How an entry serves an access: its check, then its address and class. -/
def serveEntry (s : State) (e : TlbEntry) (va : Word) (acc : Acc) : Res Xlat :=
  (checkEntry s e va acc).bind fun _ t => .ok ⟨entryPa e va, cClass e.c⟩ t

theorem mmuTranslate_eq (s : State) (va : Word) (acc : Acc) (vlpt : Bool) :
    mmuTranslate s va acc vlpt = (findEntry s va acc vlpt).bind fun e t => serveEntry t e va acc := rfl

section
variable {s : State} {e : TlbEntry} {va : Word} {acc : Acc}

theorem serveEntry_of_reserved (h : reservedAttribute s.cfg.mmuVersion2 s.superuser e acc = true) :
    serveEntry s e va acc =
      if s.cfg.hardCore then .stop .unpredictablePte else .raise (.reservedPte (acc == .fetch) va) s := by
  rw [serveEntry, checkEntry, checkAttribute, if_pos h]
  split <;> rfl

theorem serveEntry_of_refused {c : Cause} (h : reservedAttribute s.cfg.mmuVersion2 s.superuser e acc = false)
    (hc : permissionCause s.cfg.mmuVersion2 s.superuser e va acc = some c) : serveEntry s e va acc = .raise c s := by
  rw [serveEntry, checkEntry, checkAttribute, if_neg (Bool.eq_false_iff.1 h), Res.bind_ok, hc, Res.bind_raise]

theorem serveEntry_of_granted (h : reservedAttribute s.cfg.mmuVersion2 s.superuser e acc = false)
    (hc : permissionCause s.cfg.mmuVersion2 s.superuser e va acc = none) :
    serveEntry s e va acc = .ok ⟨entryPa e va, cClass e.c⟩ s := by
  rw [serveEntry, checkEntry, checkAttribute, if_neg (Bool.eq_false_iff.1 h), Res.bind_ok, hc, Res.bind_ok]

end

/-! ## The entry of an access (R430) -/

section
variable {s : State} {va : Word} {acc : Acc} {vlpt : Bool}

theorem findEntry_of_hit {e : TlbEntry} (h : (s.visibleHits va).map Prod.snd ++ s.invisibleHits va = [e]) :
    findEntry s va acc vlpt = .ok e s.drawn := by
  rw [findEntry, h]

/-- Nothing is hit: the VLPT miss, the walk, or TLB fill. -/
theorem findEntry_of_miss (hv : s.visibleHits va = []) (hi : s.invisibleHits va = []) :
    findEntry s va acc vlpt =
      if vlpt then .raise (.vlptMiss va) s.drawn
      else if s.walkerEnabled then walk s.drawn va acc
      else .raise (.tlbFill (acc == .fetch) va) s.drawn := by
  rw [findEntry, hv, hi]
  rfl

theorem findEntry_of_multiple (h : 2 ≤ (s.visibleHits va).length + (s.invisibleHits va).length) :
    findEntry s va acc vlpt = .raise (.tlbMultipleHit (acc == .fetch) (some va)) s.drawn := by
  have hlen : 2 ≤ ((s.visibleHits va).map Prod.snd ++ s.invisibleHits va).length := by simpa using h
  rw [findEntry]
  split
  · next hnone => simp [hnone] at hlen
  · next e hone => simp [hone] at hlen
  · rfl

end

/-! ## Translating under the MMU -/

/-- A translated access under the MMU goes through the TLB (R357); a fetch must be aligned first. -/
theorem translate_mmu {s : State} {a : Word} {acc : Acc} {vlpt : Bool} (hmmu : s.cfg.hasMmu = true)
    (hon : transEnabled s acc vlpt = true) (hf : acc = .fetch → (s.cfg.addr a).getLsbD 0 = false) :
    translate s a acc vlpt =
      (findEntry s (s.cfg.addr a) acc vlpt).bind fun e t => serveEntry t e (s.cfg.addr a) acc := by
  have heven : ¬(acc = .fetch ∧ bit (s.cfg.addr a) 0 = true) := fun ⟨hacc, hodd⟩ =>
    Bool.false_ne_true ((hf hacc).symm.trans hodd)
  have hmpu : ¬s.cfg.hasMpu = true := fun h => by
    have hps : s.cfg.mmps = 2#2 := eq_of_beq hmmu
    rw [Config.hasMpu, hps] at h
    exact absurd h (by decide)
  rw [translate, if_neg heven, if_neg (by simp [hon]), if_neg hmpu, mmuTranslate_eq]

/-! ## Positions in the invisible TLB -/

/-- The elements of a list with their positions are its elements. -/
theorem mem_iff_exists_indexed {α : Type} {l : List α} {a : α} : a ∈ l ↔ ∃ i, (i, a) ∈ indexed l := by
  have hmap : (indexed l).map Prod.snd = l := List.map_snd_zip (by simp)
  conv_lhs => rw [← hmap]
  simp

end Sys2Proof.Machine
end

section
/-! PROOFS. Statement O11: the TLB lookup. -/

namespace Sys2Proof.Machine

/-! ## The walk before the check -/

theorem Res.Sat.bind_congr {α β : Type} {r : Res α} {f g : α → State → Res β} {P : State → Prop} (h : r.Sat P)
    (hfg : ∀ a t, P t → f a t = g a t) : r.bind f = r.bind g := by
  cases r with
  | ok a t => exact hfg a t h
  | raise c t => rfl
  | stop f => rfl
  | refuse f => rfl

/-- Translating changes neither the parameters nor the mode that an entry is checked by. -/
theorem State.translated_checks {s t : State} (h : s.translated t) : t.cfg = s.cfg ∧ t.superuser = s.superuser := by
  obtain ⟨ht, -⟩ := h
  rw [ht]
  exact ⟨rfl, rfl⟩

/-! ## The address of an entry (R421) -/

theorem entryPa_getLsbD (e : TlbEntry) (va : Word) {i : Nat} (hi : i < 32) :
    (entryPa e va).getLsbD i = if i < pageShift e.psz then va.getLsbD i else (e.ppn ++ 0#12).getLsbD i := by
  have hmask : (BitVec.allOnes 32 <<< pageShift e.psz : Word).getLsbD i = !decide (i < pageShift e.psz) := by
    rw [BitVec.getLsbD_shiftLeft, BitVec.getLsbD_allOnes]
    simp [hi, show i - pageShift e.psz < 32 by omega]
  rw [entryPa, BitVec.getLsbD_or, BitVec.getLsbD_and, BitVec.getLsbD_and, BitVec.getLsbD_not, hmask]
  by_cases h : i < pageShift e.psz <;> simp [h, hi]

/-! ## Page sizes (R51, R432) -/

/-- The page sizes an implementation has, by MMU_CTL.D, EP8MIN4 and EPSZ. -/
theorem State.sizeImplemented_iff (s : State) (z : BitVec 4) :
    s.sizeImplemented z = true ↔
      (z = 0#4 ∧ s.mr.mmuCtl.getLsbD 0 = false)
        ∨ (z = 1#4 ∧ (s.mr.mmuCtl.getLsbD 0 = true ∨ s.cfg.mmuCfg.getLsbD 15 = true))
        ∨ (2 ≤ z.toNat ∧ z.toNat ≤ 9 ∧ s.cfg.mmuCfg.getLsbD (14 + z.toNat) = true) := by
  rw [State.sizeImplemented]
  split
  · next h0 => simp [h0, State.page8k, bit_eq]
  split
  · next h1 => simp [h1, State.page8k, Config.ep8min4, bit_eq]
  next h0 h1 =>
  have h2 : 2 ≤ z.toNat := by bv_omega
  split
  · next h9 =>
    rw [Config.epsz, bit_eq, getLsbD_field, show 16 + (z.toNat - 2) = 14 + z.toNat by omega]
    simp [h0, h1, h2, h9, show z.toNat - 2 < 8 by omega]
  · next h9 => simp [h0, h1, h9]

/-- What is certainly searched: the minimum page size, every size with MPZIU. -/
theorem State.sizeSearched_iff (s : State) (e : TlbEntry) :
    s.sizeSearched e = true ↔
      e.psz = (if s.mr.mmuCtl.getLsbD 0 then 1#4 else 0#4) ∨ s.mr.mmuCtl.getLsbD 10 = true := by
  rw [State.sizeSearched, Bool.or_eq_true, beq_iff_eq]
  rfl

/-! ## The entries a lookup finds (R430, R431) -/

theorem mem_visibleHits_iff (s : State) (va : Word) (k : Nat) (e : TlbEntry) :
    (k, e) ∈ s.visibleHits va ↔ (k, e) ∈ s.tlbListed ∧ s.tlbMatches e va = true
      ∧ ((s.sizeSearched e = true ∧ setIndex s.cfg (e.vpn ++ 0#12) (pageShift e.psz) = k % s.cfg.tlbSets)
        ∨ Config.freeBit s.draws k = true) := by
  simp only [State.visibleHits, State.finds, List.mem_filter, Bool.and_eq_true, Bool.or_eq_true, beq_iff_eq]

theorem mem_invisibleHits {s : State} {va : Word} {e : TlbEntry} (h : e ∈ s.invisibleHits va) :
    e ∈ s.itlb ∧ s.tlbMatches e va = true := by
  simp only [State.invisibleHits, List.mem_map, List.mem_filter, Bool.and_eq_true] at h
  obtain ⟨⟨i, f⟩, ⟨hmem, hmatch, -⟩, rfl⟩ := h
  exact ⟨mem_iff_exists_indexed.2 ⟨i, hmem⟩, hmatch⟩

theorem mem_invisibleHits_of_searched {s : State} {va : Word} {e : TlbEntry} (hmem : e ∈ s.itlb)
    (hmatch : s.tlbMatches e va = true) (hsize : s.sizeSearched e = true) : e ∈ s.invisibleHits va := by
  obtain ⟨i, hi⟩ := mem_iff_exists_indexed.1 hmem
  exact List.mem_map.2 ⟨(i, e), List.mem_filter.2 ⟨hi, by simp [hmatch, hsize]⟩, rfl⟩

/-! ## The listed entries (R406) -/

theorem cellGet_of_mem {β : Type} {l : List (Nat × β)} (h : cellsRise l = true) {k : Nat} {b : β} (hm : (k, b) ∈ l) :
    cellGet l k = some b := by
  rw [cellsRise_iff] at h
  induction l with
  | nil => cases hm
  | cons q r ih =>
    obtain ⟨hlt, hrise⟩ := List.pairwise_cons.1 h
    rw [cellGet]
    rcases List.mem_cons.1 hm with rfl | hm
    · exact if_pos rfl
    · rw [if_neg (hlt _ hm).ne, ih hrise hm]

/-- A valid entry is listed. -/
theorem mem_tlbListed_of_valid {s : State} {k : Nat} (hk : k < Config.tlbEntries s.cfg)
    (hv : (s.tlb.read k).v = true) : (k, s.tlb.read k) ∈ s.tlbListed := by
  rw [State.tlbListed]
  cases hfill : s.tlb.fill with
  | unknown d => exact List.mem_map.2 ⟨k, List.mem_range.2 hk, rfl⟩
  | flushed d =>
    cases hcell : cellGet s.tlb.cells k with
    | none =>
      have hflushed : s.tlb.read k = flushedEntry d k := by rw [Tlb.read, hcell, hfill]; rfl
      rw [hflushed] at hv
      cases hv
    | some e =>
      have hread : s.tlb.read k = e := by rw [Tlb.read, hcell]; rfl
      rw [hread]
      exact mem_of_cellGet hcell

/-- A listed entry is the one its number names. -/
theorem eq_read_of_mem_tlbListed {s : State} (hs : s.tlbOk) {k : Nat} {e : TlbEntry} (h : (k, e) ∈ s.tlbListed) :
    k < Config.tlbEntries s.cfg ∧ e = s.tlb.read k := by
  obtain ⟨hrise, hlt⟩ := hs
  rw [State.tlbListed] at h
  split at h
  · refine ⟨hlt _ h, ?_⟩
    rw [Tlb.read, cellGet_of_mem hrise h]
    rfl
  · simp only [List.mem_map, List.mem_range, Prod.mk.injEq] at h
    obtain ⟨j, hj, rfl, rfl⟩ := h
    exact ⟨hj, rfl⟩

/-- Settles O11: translating is `findEntry` and then `serveEntry`; the entries found are those that match
(`State.tlbMatches_iff`). -/
theorem tlbLookup : Obligations.TlbLookup := by
  intro s a acc hmmu hon va served hfetch
  have hserved (e : TlbEntry) (t : State) (h : t.cfg = s.cfg ∧ t.superuser = s.superuser) :
      serveEntry t e va acc = served e t := by
    obtain ⟨hcfg, hsuper⟩ := h
    simp only [served, ← hcfg, ← hsuper]
    split
    · next hres => exact serveEntry_of_reserved hres
    · next hres =>
      rw [Bool.not_eq_true] at hres
      split
      · next c hc => exact serveEntry_of_refused hres hc
      · next hc => exact serveEntry_of_granted hres hc
  rw [translate_mmu hmmu hon hfetch]
  refine ⟨fun e h => ?_, fun hv hi hwalk => ?_, fun hv hi hwalk => ?_, fun h => ?_,
    fun e i hi => entryPa_getLsbD e va hi, ?found⟩
  · rw [findEntry_of_hit h, Res.bind_ok, hserved e s.drawn ⟨rfl, rfl⟩]
  · rw [findEntry_of_miss hv hi, if_neg Bool.false_ne_true, if_pos hwalk]
    exact (walk_frame s.drawn va acc).bind_congr fun e t ht => hserved e t (State.translated_checks ht)
  · rw [findEntry_of_miss hv hi, if_neg Bool.false_ne_true, if_neg (Bool.eq_false_iff.1 hwalk), Res.bind_raise]
  · rw [findEntry_of_multiple h, Res.bind_raise]
  intro page8k found implemented searched ownSet
  have hfound (e : TlbEntry) : s.tlbMatches e va = true ↔ found e := s.tlbMatches_iff e va
  have hsearched {e : TlbEntry} (h : searched e) : s.sizeSearched e = true :=
    (s.sizeSearched_iff e).2 (h.imp_right And.left)
  refine ⟨fun k e hlisted hsize hset => ?_, ?_, s.sizeImplemented_iff, fun e he hsize => ?_, fun k e h => ?_,
    fun e h => ?_, fun k => mem_tlbListed_of_valid, fun hs k e => eq_read_of_mem_tlbListed hs, by decide⟩
  · rw [mem_visibleHits_iff, ← hfound]
    exact ⟨fun ⟨_, hmatch, _⟩ => hmatch, fun hmatch => ⟨hlisted, hmatch, .inl ⟨hsearched hsize, hset⟩⟩⟩
  · simp [State.walkerEnabled, Config.hptwk, bit_eq]
  · rw [← hfound]
    refine ⟨fun h => ?_, fun hmatch => mem_invisibleHits_of_searched he hmatch (hsearched hsize)⟩
    exact (mem_invisibleHits h).2
  · obtain ⟨hlisted, hmatch, -⟩ := (mem_visibleHits_iff s va k e).1 h
    exact ⟨hlisted, (hfound e).1 hmatch⟩
  · obtain ⟨hmem, hmatch⟩ := mem_invisibleHits h
    exact ⟨hmem, (hfound e).1 hmatch⟩

end Sys2Proof.Machine
end

section
/-! PROOFS. Statement O9: LW_VLPT. -/

namespace Sys2Proof.Machine

/-! ## LW_VLPT by what its load answers -/

section
variable {s u : State} {rt ra : Reg} {imm : BitVec 15}

/-- LW_VLPT where it exists and may run is a load that is always translated (R630). -/
theorem exec_lwVlpt (rt ra : Reg) (imm : BitVec 15) (hvlpt : s.cfg.vlpt = true) (hsuper : s.superuser = true) :
    exec (.lwVlpt rt ra imm) s = complete s (finishLoad s rt (loadWord s (effectiveAddress s ra imm) true)) := by
  show complete s (if s.cfg.vlpt then
    privileged s (finishLoad s rt (loadWord s (effectiveAddress s ra imm) true)) else _) = _
  rw [if_pos hvlpt, privileged, if_pos hsuper]

/-- A completed load: Rt is written and pc advances. -/
theorem complete_finishLoad_of_ok {r : Res Word} {v : Word} (h : r = .ok v u) :
    complete s (finishLoad s rt r) = .next ((u.setX rt v).retire s.pc (s.cfg.addr (s.pc + 4#32))) := by
  rw [h]
  rfl

theorem complete_finishLoad_of_raise {r : Res Word} {c : Cause} (h : r = .raise c u) :
    complete s (finishLoad s rt r) = .next (enter c s.pc u) := by
  rw [h]
  rfl

theorem complete_finishLoad_of_stop {r : Res Word} {f : Fault} (h : r = .stop f) :
    complete s (finishLoad s rt r) = .fault f := by
  rw [h]
  rfl

end

/-! ## Loads from the local memories -/

section
variable {s t : State} {va : Word} {vlpt : Bool} {x : Xlat}

theorem loadWord_ilm {off : Nat} (ha : va.toNat % 4 = 0) (hx : translate s va .load vlpt = .ok x t)
    (hroute : route t x.pa .load = .ok (.ilm off) t) :
    loadWord s va vlpt = .ok (wordOf (dataBigEndian s x.cls) (t.ilm.read (off + 0)) (t.ilm.read (off + 1))
      (t.ilm.read (off + 2)) (t.ilm.read (off + 3))) t.noteIlm := by
  rw [loadWord_translated ha hx, hroute, ← assemble_eq_wordOf]
  rfl

theorem loadWord_dlm {off : Nat} (ha : va.toNat % 4 = 0) (hx : translate s va .load vlpt = .ok x t)
    (hroute : route t x.pa .load = .ok (.dlm off) t) :
    loadWord s va vlpt = .ok (wordOf (dataBigEndian s x.cls) (t.dlm.read (off + 0)) (t.dlm.read (off + 1))
      (t.dlm.read (off + 2)) (t.dlm.read (off + 3))) t.noteDlm := by
  rw [loadWord_translated ha hx, hroute, ← assemble_eq_wordOf]
  rfl

end

/-- LW_VLPT is translated whatever PSW.DT, when there is an MMU (R355, R630). -/
theorem transEnabled_vlpt {s : State} (acc : Acc) (hmmu : s.cfg.hasMmu = true) : transEnabled s acc true = true := by
  have hps : s.cfg.mmps = 2#2 := eq_of_beq hmmu
  exact (transEnabled_iff s acc true).2 ⟨by rw [hps]; decide, .inl rfl⟩

/-- Settles O9: the load of LW_VLPT is translated by the entry it hits (`translate_mmu`), and ends as routing and the
place answer. -/
theorem lwVlptLoadsOrMisses : Obligations.LwVlptLoadsOrMisses := by
  intro s rt ra imm ea va run ha hvlpt hsuper hmmu
  have hrun : run = complete s (finishLoad s rt (loadWord s ea true)) := exec_lwVlpt rt ra imm hvlpt hsuper
  have hx : translate s ea .load true = (findEntry s va .load true).bind fun e t => serveEntry t e va .load :=
    translate_mmu hmmu (transEnabled_vlpt .load hmmu) nofun
  have raises {c : Cause} {t : State} (h : translate s ea .load true = .raise c t) :
      run = .next (enter c s.pc t) := by
    rw [hrun]
    exact complete_finishLoad_of_raise (by rw [loadWord_aligned s true ha, h, Res.bind_raise])
  have stops {f : Fault} (h : translate s ea .load true = .stop f) : run = .fault f := by
    rw [hrun]
    exact complete_finishLoad_of_stop (by rw [loadWord_aligned s true ha, h, Res.bind_stop])
  refine ⟨fun e hhit => ?_, fun hv hi => raises ?_, fun h => raises ?_⟩
  · intro reserved refusal d pa a load atDevice
    rw [findEntry_of_hit hhit, Res.bind_ok] at hx
    have hmode : s.drawn.superuser = true := hsuper
    refine ⟨fun hres => ?_, fun hres c hc => raises ?_, fun hres hc => ?_⟩
    · rw [serveEntry_of_reserved (by rw [hmode]; exact hres), State.drawn_cfg] at hx
      split at hx
      · next hhard => rw [if_pos hhard]; exact stops hx
      · next hhard => rw [if_neg hhard]; exact raises hx
    · rw [hx, serveEntry_of_refused (by rw [hmode]; exact hres) (by rw [hmode]; exact hc)]
    · rw [serveEntry_of_granted (by rw [hmode]; exact hres) (by rw [hmode]; exact hc)] at hx
      simp only [hrun, load]
      refine ⟨fun off h => ?_, fun off h => ?_, fun c t h => ?_, fun f h => ?_, fun hbus => ⟨fun hunserved => ?_,
        fun hserved => ?_⟩⟩
      · exact complete_finishLoad_of_ok (loadWord_ilm ha hx h)
      · exact complete_finishLoad_of_ok (loadWord_dlm ha hx h)
      · exact complete_finishLoad_of_raise (by rw [loadWord_translated ha hx, h, Res.bind_raise])
      · exact complete_finishLoad_of_stop (by rw [loadWord_translated ha hx, h, Res.bind_stop])
      · exact complete_finishLoad_of_raise (loadWord_bus_unserved ha hx hbus hunserved)
      · obtain ⟨b, u, hram, hnodev, hdev, hload⟩ := loadWord_bus_served ha hx hbus hserved
        exact ⟨b, u, hram, hnodev, hdev, complete_finishLoad_of_ok hload⟩
  · rw [hx, findEntry_of_miss hv hi, if_pos rfl, Res.bind_raise]
  · rw [hx, findEntry_of_multiple h, Res.bind_raise]
    rfl

end Sys2Proof.Machine
end

section
/-! PROOFS. Statement O13: the page table walk. -/

namespace Sys2Proof.Machine

/-! ## The loads of the walker (R440, R441) -/

/-- The word that memory holds at an address, in the byte order MMU_CFG.DE (R363, D23). -/
def memWord (s : State) (a : Word) : Word :=
  wordOf s.cfg.de (s.mem.read a.toNat) (s.mem.read (a.toNat + 1)) (s.mem.read (a.toNat + 2)) (s.mem.read (a.toNat + 3))

/-- The address of an entry of a table of words is a multiple of 4. -/
theorem append_zero2_aligned (x : BitVec 30) : (x ++ 0#2 : Word).toNat % 4 = 0 := by
  have h : (x ++ 0#2).toNat = x.toNat * 4 :=
    (BitVec.toNat_append x 0#2).trans (by simp [Nat.shiftLeft_eq])
  exact h ▸ Nat.mul_mod_left _ _

theorem l1Address_aligned (s : State) (va : Word) : (l1Address s va).toNat % 4 = 0 := by
  rw [l1Address]
  split <;> exact append_zero2_aligned _

theorem l2Address_aligned (s : State) (l1 va : Word) : (l2Address s l1 va).toNat % 4 = 0 := by
  rw [l2Address]
  split <;> exact append_zero2_aligned _

theorem aligned_word_low {a : Word} (ha : a.toNat % 4 = 0) : a.toNat + 4 ≤ 4294967296 := by
  have hlt := a.isLt
  omega

section
variable {s : State} {a va : Word} {acc : Acc}

theorem walkerLoad_broken (h : s.hsmpBroken = true) : walkerLoad s a va acc = .stop .hsmpRangePattern := if_pos h

theorem walkerLoad_unserved (h : s.hsmpBroken = false) (ha : a.toNat % 4 = 0)
    (hun : ∃ i < 4, s.cfg.regionOf (a.toNat + i) = .unserved) :
    walkerLoad s a va acc = .raise (.preciseBusError acc va) s := by
  rw [walkerLoad, if_neg (Bool.eq_false_iff.1 h), busRead_unserved (aligned_word_low ha) hun]

theorem walkerLoad_ram (h : s.hsmpBroken = false) (ha : a.toNat % 4 = 0) (hram : s.ramAt a.toNat 4) :
    walkerLoad s a va acc = .ok (memWord s a) s := by
  rw [walkerLoad, if_neg (Bool.eq_false_iff.1 h), busRead_word (aligned_word_low ha) hram]
  exact congrArg (Res.ok · s) (assemble_eq_wordOf ..)

end

/-! ## The walk by its loads (R441, R460) -/

section
variable {s : State} {va l1 l2 : Word} {acc : Acc}

/-- An L1 PTE with NP = 1 ends the walk. -/
theorem walk_of_absent_l1 (h1 : walkerLoad s (l1Address s va) va acc = .ok l1 s) (hnp : l1.getLsbD 0 = true) :
    walk s va acc = .raise (.pteNonLeaf (acc == .fetch) va) s := by
  rw [walk, h1, Res.bind_ok]
  exact if_pos hnp

/-- The walk goes on to the L2 PTE. -/
theorem walk_of_l1 (h1 : walkerLoad s (l1Address s va) va acc = .ok l1 s) (hnp : l1.getLsbD 0 = false) :
    walk s va acc = (walkerLoad s (l2Address s l1 va) va acc).bind fun l2 s2 =>
      if bit l2 0 = false then .raise (.pteLeaf (acc == .fetch) va) s2
      else if bit l2 11 ∧ s2.mpziu = false then
        (checkAttribute s2 (walkedEntry s2 va l2) va acc).bind fun _ s3 => .raise (.mpziuControl (acc == .fetch)) s3
      else (walkerInsert s2 (walkedEntry s2 va l2) va acc).bind fun _ s3 => .ok (walkedEntry s2 va l2) s3 := by
  rw [walk, h1, Res.bind_ok]
  exact if_neg (Bool.eq_false_iff.1 hnp)

variable (h1 : walkerLoad s (l1Address s va) va acc = .ok l1 s) (hnp : l1.getLsbD 0 = false)
  (h2 : walkerLoad s (l2Address s l1 va) va acc = .ok l2 s)

include h1 hnp h2

/-- An L2 PTE without V ends the walk. -/
theorem walk_of_absent_l2 (hv : l2.getLsbD 0 = false) : walk s va acc = .raise (.pteLeaf (acc == .fetch) va) s := by
  rw [walk_of_l1 h1 hnp, h2, Res.bind_ok]
  exact if_pos hv

/-- The walk has a valid L2 PTE: MPZIU control, or the insertion. -/
theorem walk_of_l2 (hv : l2.getLsbD 0 = true) :
    walk s va acc =
      if bit l2 11 ∧ s.mpziu = false then
        (checkAttribute s (walkedEntry s va l2) va acc).bind fun _ t => .raise (.mpziuControl (acc == .fetch)) t
      else (walkerInsert s (walkedEntry s va l2) va acc).bind fun _ t => .ok (walkedEntry s va l2) t := by
  rw [walk_of_l1 h1 hnp, h2, Res.bind_ok]
  exact if_neg fun h => Bool.false_ne_true (h.symm.trans hv)

/-- A large page without MPZIU ends the walk, after the test for reserved C and M values (R460, log 57). -/
theorem walk_of_large_page (hv : l2.getLsbD 0 = true) (hlarge : l2.getLsbD 11 = true) (hz : s.mpziu = false) :
    walk s va acc =
      (checkAttribute s (walkedEntry s va l2) va acc).bind fun _ t => .raise (.mpziuControl (acc == .fetch)) t :=
  (walk_of_l2 h1 hnp h2 hv).trans (if_pos ⟨hlarge, hz⟩)

/-- Any other page is inserted (R442). -/
theorem walk_of_page (hv : l2.getLsbD 0 = true) (hsize : l2.getLsbD 11 = true → s.mpziu = true) :
    walk s va acc =
      (walkerInsert s (walkedEntry s va l2) va acc).bind fun _ t => .ok (walkedEntry s va l2) t :=
  (walk_of_l2 h1 hnp h2 hv).trans <| if_neg fun ⟨hlarge, hz⟩ => Bool.false_ne_true (hz.symm.trans (hsize hlarge))

end

/-! ## Inserting the entry (R442) -/

theorem Res.bind_assoc {α β γ : Type} (r : Res α) (f : α → State → Res β) (g : β → State → Res γ) :
    (r.bind f).bind g = r.bind fun a t => (f a t).bind g := by
  cases r <;> rfl

/-- The entry numbers a random write may take: those of unlocked ways, or with TBALCK all of a set all locked. -/
theorem mem_insertable_iff {s : State} {set k : Nat} :
    k ∈ s.insertable set ↔ k ∈ setEntries s.cfg set
      ∧ ((s.tlb.read k).l = false ∨ ((∀ j ∈ setEntries s.cfg set, (s.tlb.read j).l = true) ∧ s.tbalck = true)) := by
  rw [State.insertable]
  split
  · next hempty =>
    have hall : ∀ j ∈ setEntries s.cfg set, (s.tlb.read j).l = true := by
      simpa [List.isEmpty_iff, List.filter_eq_nil_iff] using hempty
    split
    · next htb => exact ⟨fun hk => ⟨hk, .inr ⟨hall, htb⟩⟩, And.left⟩
    · next htb =>
      refine ⟨nofun, fun ⟨hk, hway⟩ => ?_⟩
      obtain hfree | ⟨-, htb'⟩ := hway
      · rw [hall k hk] at hfree; cases hfree
      · exact absurd htb' htb
  · next hsome =>
    have hunlocked : ¬∀ j ∈ setEntries s.cfg set, (s.tlb.read j).l = true := by
      simpa [List.isEmpty_iff, List.filter_eq_nil_iff] using hsome
    simp [hunlocked]

section
variable {s : State} {e : TlbEntry} {va : Word} {acc : Acc}

theorem insertable_eq_nil {set : Nat} (hlocked : ∀ k ∈ setEntries s.cfg set, (s.tlb.read k).l = true)
    (htb : s.tbalck = false) : s.insertable set = [] := by
  refine List.eq_nil_iff_forall_not_mem.2 fun k hk => ?_
  obtain ⟨hmem, hfree | ⟨-, htb'⟩⟩ := mem_insertable_iff.1 hk
  · rw [hlocked k hmem] at hfree; cases hfree
  · rw [htb] at htb'; cases htb'

theorem insertable_ne_nil {set : Nat} (hways : 0 < s.cfg.tlbWays)
    (h : ¬((∀ k ∈ setEntries s.cfg set, (s.tlb.read k).l = true) ∧ s.tbalck = false)) : s.insertable set ≠ [] := by
  by_cases hlocked : ∀ k ∈ setEntries s.cfg set, (s.tlb.read k).l = true
  · have htb : s.tbalck = true := eq_true_of_ne_false fun htb => h ⟨hlocked, htb⟩
    have hmem : 0 * s.cfg.tlbSets + set ∈ setEntries s.cfg set := List.mem_map.2 ⟨0, List.mem_range.2 hways, rfl⟩
    exact List.ne_nil_of_mem (mem_insertable_iff.2 ⟨hmem, .inr ⟨hlocked, htb⟩⟩)
  · push Not at hlocked
    obtain ⟨k, hmem, hfree⟩ := hlocked
    exact List.ne_nil_of_mem (mem_insertable_iff.2 ⟨hmem, .inl (Bool.eq_false_iff.2 hfree)⟩)

/-- The walker's entry goes to an insertable entry number of its set. -/
theorem walkerInsert_of_room (hvis : s.cfg.hptwkInvisible = false)
    (h : s.insertable (setIndex s.cfg (e.vpn ++ 0#12) (pageShift e.psz)) ≠ []) :
    ∃ k ∈ s.insertable (setIndex s.cfg (e.vpn ++ 0#12) (pageShift e.psz)),
      walkerInsert s e va acc = .ok () { s with tlb := s.tlb.write k e, draws := s.draws + 1 } := by
  refine ⟨_, chooseOf_mem (d := s.draws) h, ?_⟩
  have hwrite : s.randomWrite e = some { s with
      tlb := s.tlb.write (chooseOf s.draws (s.insertable (setIndex s.cfg (e.vpn ++ 0#12) (pageShift e.psz)))) e
      draws := s.draws + 1 } := if_neg (by simpa using h)
  rw [walkerInsert, if_neg (Bool.eq_false_iff.1 hvis), hwrite]

/-- Without room the exceptions of the entry come before the TLB locking error (log 57). -/
theorem walkerInsert_of_full (hvis : s.cfg.hptwkInvisible = false)
    (h : s.insertable (setIndex s.cfg (e.vpn ++ 0#12) (pageShift e.psz)) = []) :
    walkerInsert s e va acc = (checkEntry s e va acc).bind fun _ t => .raise (.tlbLocking (acc == .fetch) va) t := by
  have hwrite : s.randomWrite e = none := if_pos (by rw [h]; rfl)
  rw [walkerInsert, if_neg (Bool.eq_false_iff.1 hvis), hwrite]

end

/-- The invisible TLB after an insertion holds old entries only, besides the new one. -/
theorem mem_insertInvisible_itlb {s : State} {e f : TlbEntry} (h : f ∈ (s.insertInvisible e).itlb) :
    f = e ∨ f ∈ s.itlb := by
  rw [State.insertInvisible] at h
  refine (List.mem_cons.1 h).imp_right fun h => ?_
  cases hs : s.itlb with
  | nil => simp [hs] at h
  | cons last rest =>
    simp only [hs, List.mem_cons, List.mem_map, List.mem_filter] at h
    obtain rfl | ⟨⟨i, g⟩, ⟨hmem, -⟩, rfl⟩ := h
    · exact List.mem_cons_self
    · exact List.mem_cons_of_mem _ (mem_iff_exists_indexed.2 ⟨i, hmem⟩)

/-- The entry inserted last stays (R447). -/
theorem head_mem_insertInvisible_itlb {s : State} {e f : TlbEntry} (h : s.itlb.head? = some f) :
    f ∈ (s.insertInvisible e).itlb := by
  rw [State.insertInvisible]
  cases hs : s.itlb with
  | nil => simp [hs] at h
  | cons last rest =>
    obtain rfl : last = f := by simpa [hs] using h
    simp

/-! ## The statement -/

/-- Settles O13: the walk by what its two loads answer (`walk_of_page` and the lemmas before it), then the insertion of
the entry. -/
theorem walkerInsertsThePage : Obligations.WalkerInsertsThePage := by
  intro s va acc m page8k l1a l1 l2a l2 e inSet allLocked tbalck mpziu reserved orReserved unserved
  have hal1 : (l1Address s va).toNat % 4 = 0 := l1Address_aligned s va
  have hal2 : (l2Address s l1 va).toNat % 4 = 0 := l2Address_aligned s l1 va
  refine ⟨fun h => ?_, fun h hun => ?_, fun h hram1 => ?_⟩
  · rw [walk, walkerLoad_broken h, Res.bind_stop]
  · rw [walk, walkerLoad_unserved h hal1 hun, Res.bind_raise]
  have h1 : walkerLoad s (l1Address s va) va acc = .ok l1 s := walkerLoad_ram h hal1 hram1
  refine ⟨walk_of_absent_l1 h1, fun hnp hun => ?_, fun hnp hram2 => ?_⟩
  · rw [walk_of_l1 h1 hnp, walkerLoad_unserved h hal2 hun, Res.bind_raise]
  have h2 : walkerLoad s (l2Address s l1 va) va acc = .ok l2 s := walkerLoad_ram h hal2 hram2
  have he (hv : l2.getLsbD 0 = true) : walkedEntry s va l2 = e := by
    rw [walkedEntry, entryOfPte, bit_eq l2 0, hv]
    rfl
  refine ⟨walk_of_absent_l2 h1 hnp h2, fun hv hlarge hz => ?_, fun hv hsize => ?_⟩
  · rw [walk_of_large_page h1 hnp h2 hv hlarge hz, he hv]
    exact checkAttribute_bind_raise ..
  rw [walk_of_page h1 hnp h2 hv hsize, he hv]
  have hset (k : Nat) : k ∈ setEntries s.cfg (setIndex s.cfg (e.vpn ++ 0#12) (pageShift e.psz)) ↔ inSet k :=
    mem_setEntries (setIndex_lt ..)
  have hlocked : (∀ k ∈ setEntries s.cfg (setIndex s.cfg (e.vpn ++ 0#12) (pageShift e.psz)),
      (s.tlb.read k).l = true) ↔ allLocked :=
    forall_congr' fun k => imp_congr_left (hset k)
  refine ⟨fun hvis hways hroom => ?_, fun hvis hall htb => ?_, fun hinv => ?_⟩
  · rw [← hlocked] at hroom
    obtain ⟨k, hk, hwalk⟩ := walkerInsert_of_room (va := va) (acc := acc) hvis (insertable_ne_nil hways hroom)
    obtain ⟨hmem, hway⟩ := mem_insertable_iff.1 hk
    refine ⟨k, (hset k).1 hmem, ?_, ?_⟩
    · exact hway.symm.imp_left fun hall => hlocked.1 hall.1
    · rw [hwalk, Res.bind_ok]
  · rw [walkerInsert_of_full hvis (insertable_eq_nil (hlocked.2 hall) htb), Res.bind_assoc]
    exact checkEntry_bind_raise ..
  · have hinsert : walkerInsert s e va acc = .ok () (s.insertInvisible e) := if_pos hinv
    rw [hinsert]
    exact ⟨_, rfl, rfl, fun f => mem_insertInvisible_itlb, fun f => head_mem_insertInvisible_itlb, rfl⟩

end Sys2Proof.Machine
end

section
/-! PROOFS. Statement O42: TLBOP TRD and TWR under the MPU. -/

namespace Sys2Proof.Machine

/-! ## Words from their fields -/

/-- A field of a word is 0 where no bit of the mask exists. -/
theorem extractLsb'_eq_zero_of_within {mask v : Word} {lo n : Nat} (h : within mask v)
    (hm : mask.extractLsb' lo n = 0#n) : v.extractLsb' lo n = 0#n := by
  have hv : v = v &&& mask := by
    have hbits := (within_iff mask v).1 h
    refine BitVec.eq_of_getLsbD_eq fun i hi => ?_
    rw [BitVec.getLsbD_and]
    exact (Bool.and_eq_left_iff_imp.2 (hbits i hi)).symm
  rw [hv, BitVec.extractLsb'_and, hm, BitVec.and_zero]

/-- One bit as a field. -/
theorem ofBool_getLsbD_zero (v : Word) : BitVec.ofBool (v.getLsbD 0) = v.extractLsb' 0 1 :=
  BitVec.eq_of_getLsbD_eq fun i hi => by
    obtain rfl : i = 0 := by omega
    simp

/-- TLB_VPN under the MPU is Hrange alone (R200). -/
theorem tlbVpn_of_hrange {v : Word} (h : within 0x1FFFF000#32 v) :
    0#3 ++ v.extractLsb' 12 17 ++ 0#12 = v := by
  have hhigh : v.extractLsb' 29 3 = 0#3 := extractLsb'_eq_zero_of_within h (by decide)
  have hlow : v.extractLsb' 0 12 = 0#12 := extractLsb'_eq_zero_of_within h (by decide)
  rw [← hhigh, ← hlow]
  simp (disch := rfl) only [BitVec.extractLsb'_append_extractLsb'_eq_extractLsb']
  exact BitVec.extractLsb'_eq_self

/-- TLB_DATA under the MPU is PSB, C, X, M and V alone (R205). -/
theorem tlbData_of_fields {v : Word} (h : within 0xFFFFF1FF#32 v) :
    v.extractLsb' 12 20 ++ 0#3 ++ v.extractLsb' 6 3 ++ v.extractLsb' 4 2 ++ v.extractLsb' 1 3
      ++ BitVec.ofBool (v.getLsbD 0) = v := by
  have hmid : v.extractLsb' 9 3 = 0#3 := extractLsb'_eq_zero_of_within h (by decide)
  rw [← hmid, ofBool_getLsbD_zero]
  simp (disch := rfl) only [BitVec.extractLsb'_append_extractLsb'_eq_extractLsb']
  exact BitVec.extractLsb'_eq_self

/-! ## The two operations (R488, R489) -/

/-- A TLBOP with a form for the MPU takes it in superuser mode. -/
theorem mmuOrMpu_of_hasMpu {s : State} (mmu mpu : Res Word) (hmpu : s.cfg.hasMpu = true)
    (hsuper : s.superuser = true) : mmuOrMpu s mmu mpu = mpu := by
  have hmmu : ¬ s.cfg.hasMmu = true := fun h => by simp [hasMpu_of_hasMmu h] at hmpu
  rw [mmuOrMpu, if_neg hmmu, if_pos hmpu, privileged, if_pos hsuper]

/-- TRD under the MPU in superuser mode completes. -/
theorem exec_tlbopTrd_of_hasMpu {s : State} (ra : Reg) (hmpu : s.cfg.hasMpu = true) (hsuper : s.superuser = true) :
    exec (.tlbopTrd ra) s = .next ((mpuTargetRead s (s.x ra)).retire s.pc s.next4) :=
  congrArg (complete s) (mmuOrMpu_of_hasMpu _ _ hmpu hsuper)

/-- TWR under the MPU in superuser mode completes. -/
theorem exec_tlbopTwr_of_hasMpu {s : State} (ra : Reg) (hmpu : s.cfg.hasMpu = true) (hsuper : s.superuser = true) :
    exec (.tlbopTwr ra) s = .next ((mpuTargetWrite s (s.x ra)).retire s.pc s.next4) :=
  congrArg (complete s) (mmuOrMpu_of_hasMpu _ _ hmpu hsuper)

/-- TWR writes the entry that `x` names. -/
theorem mpuTargetWrite_mpu_self (s : State) (x : Word) :
    (mpuTargetWrite s x).mpu[(x.extractLsb' 29 3).toFin] = mpuEntryOf s :=
  Vector.getElem_set_self _

/-- TWR leaves the other entries. -/
theorem mpuTargetWrite_mpu_of_ne (s : State) (x : Word) {j : Fin 8} (h : j ≠ (x.extractLsb' 29 3).toFin) :
    (mpuTargetWrite s x).mpu[j] = s.mpu[j] :=
  Vector.getElem_set_ne (Fin.isLt _) j.isLt fun he => h (Fin.ext he.symm)

/-- TRD changes nothing where the entry it reads is the one TLB_VPN and TLB_DATA describe and their reserved fields
are 0. -/
theorem mpuTargetRead_of_mpuEntryOf {s : State} {x : Word} (hmpu : s.cfg.hasMpu = true) (hs : s.mmuReservedOk)
    (he : s.mpuOf x = mpuEntryOf s) : mpuTargetRead s x = s := by
  obtain ⟨-, -, hvpn, hdata, -⟩ := hs
  rw [tlbVpnMask_of_hasMpu hmpu] at hvpn
  rw [tlbDataMask_of_hasMpu hmpu] at hdata
  have hvpn' : 0#3 ++ (mpuEntryOf s).hrange ++ 0#12 = s.mr.tlbVpn := tlbVpn_of_hrange hvpn
  have hdata' : (mpuEntryOf s).psb ++ 0#3 ++ (mpuEntryOf s).c ++ (mpuEntryOf s).x ++ (mpuEntryOf s).m
      ++ BitVec.ofBool (mpuEntryOf s).v = s.mr.tlbData := tlbData_of_fields hdata
  simp only [mpuTargetRead, he, hvpn', hdata']

/-- Settles O42: each operation completes in its own state, and TWR leaves an entry that TRD turns back into the words
it came from (`mpuTargetRead_of_mpuEntryOf`). -/
theorem mpuTargetWriteThenRead : Obligations.MpuTargetWriteThenRead := by
  intro s ra hmpu hsuper k e next
  let t := (mpuTargetWrite s (s.x ra)).retire s.pc next
  refine ⟨exec_tlbopTrd_of_hasMpu ra hmpu hsuper, t, exec_tlbopTwr_of_hasMpu ra hmpu hsuper,
    mpuTargetWrite_mpu_self s (s.x ra), fun j => mpuTargetWrite_mpu_of_ne s (s.x ra), rfl, fun hs => ?_⟩
  have hread : mpuTargetRead t (t.x ra) = t :=
    mpuTargetRead_of_mpuEntryOf hmpu hs (mpuTargetWrite_mpu_self s (s.x ra))
  rw [exec_tlbopTrd_of_hasMpu (s := t) ra hmpu hsuper, hread]
  rfl

end Sys2Proof.Machine
end

section
/-! PROOFS. Statement O15: where a physical address leads, the bases and windows of the local memories, and the
undefined HSMP ranges. -/

namespace Sys2Proof.Machine

/-! ## Routing (R520) -/

/-- A physical address in the window of the ILM while it is on. -/
abbrev State.hitsIlm (s : State) (a : Nat) : Prop :=
  s.ilmOn = true ∧ lmWindow s.cfg.ilmBsav1 s.ilmBase s.cfg.ilmSize a = true

/-- A physical address in the window of the DLM while it is on, for an access that looks there (D32). -/
abbrev State.hitsDlm (s : State) (acc : Acc) (a : Nat) : Prop :=
  s.dlmOn = true ∧ acc ≠ .fetch ∧ lmWindow s.cfg.dlmBsav1 s.dlmBase s.dlmView a = true

/-- The core's bank as an offset added (R530). -/
theorem coreBank_eq_add (s : State) (off : Nat) :
    s.coreBank off = (if s.dbm && s.dbb then s.cfg.dlmSize / 2 else 0) + off := by
  rw [State.coreBank]
  split
  · rfl
  · exact (Nat.zero_add off).symm

section
variable {s : State} {pa : Word} {acc : Acc}

/-- An address in the ILM's window leads nowhere else. -/
theorem route_of_hitsIlm (h : s.hitsIlm pa.toNat) :
    route s pa acc = if pa.toNat - s.ilmBase < s.cfg.ilmSize then .ok (.ilm (pa.toNat - s.ilmBase)) s
      else .raise (.nonexistentLocalMemory (acc == .fetch)) s :=
  if_pos (Bool.and_eq_true_iff.2 h)

/-- The DLM comes after the ILM. -/
theorem route_of_hitsDlm (hilm : ¬s.hitsIlm pa.toNat) (h : s.hitsDlm acc pa.toNat) :
    route s pa acc = if pa.toNat - s.dlmBase < s.dlmView then .ok (.dlm (s.coreBank (pa.toNat - s.dlmBase))) s
      else .raise (.nonexistentLocalMemory false) s := by
  obtain ⟨hon, hacc, hwin⟩ := h
  have hdlm : (s.dlmOn && acc != .fetch && lmWindow s.cfg.dlmBsav1 s.dlmBase s.dlmView pa.toNat) = true := by
    simp [hon, hacc, hwin]
  exact (if_neg (mt Bool.and_eq_true_iff.1 hilm)).trans (if_pos hdlm)

/-- The bus comes last. -/
theorem route_of_misses (hilm : ¬s.hitsIlm pa.toNat) (hdlm : ¬s.hitsDlm acc pa.toNat) :
    route s pa acc = if s.hsmpBroken then .stop .hsmpRangePattern else .ok (.bus pa.toNat) s := by
  have hdlm' : ¬(s.dlmOn && acc != .fetch && lmWindow s.cfg.dlmBsav1 s.dlmBase s.dlmView pa.toNat) = true := by
    simpa [and_assoc] using hdlm
  exact (if_neg (mt Bool.and_eq_true_iff.1 hilm)).trans (if_neg hdlm')

end

/-! ## Sizes, bases and windows (R216, R220, R521, R522) -/

/-- The size a code names, as a product. -/
theorem lmSizeOf_eq (z : BitVec 4) :
    lmSizeOf z =
      if z.toNat ≤ 8 then 4096 * 2 ^ z.toNat else if z = 9#4 then 1024 else if z = 10#4 then 2048 else 0 := by
  rw [lmSizeOf, Nat.shiftLeft_eq]

/-- With BSAV 0 the base is its 1MB field. -/
theorem lmBase_of_bsav0 {bsav1 : Bool} (h : bsav1 = false) (size : Nat) (reg : Word) :
    lmBase bsav1 size reg = (reg.extractLsb' 20 12).toNat * 2 ^ 20 := by
  have hfield : (reg.extractLsb' 20 12).toNat = reg.toNat / 2 ^ 20 := by
    rw [BitVec.extractLsb'_toNat, Nat.shiftRight_eq_div_pow]
    exact Nat.mod_eq_of_lt (by omega)
  rw [lmBase, if_pos h, hfield]
  norm_num

/-- With BSAV 1 the base is aligned to the size. -/
theorem lmBase_of_bsav1 {bsav1 : Bool} {size : Nat} (h : bsav1 = true) (hsize : 0 < size) (reg : Word) :
    lmBase bsav1 size reg = reg.toNat / size * size := by
  rw [lmBase, if_neg (by simp [h]), if_neg hsize.ne']

theorem lmWindow_false_iff (base view a : Nat) :
    lmWindow false base view a = true ↔ a / 2 ^ 20 = base / 2 ^ 20 := beq_iff_eq

theorem lmWindow_true_iff (base view a : Nat) :
    lmWindow true base view a = true ↔ base ≤ a ∧ a < base + view := by
  simp [lmWindow]

/-! ## The enables and double-buffer mode (R47, R48, R215, R219, R221) -/

theorem ilmBsav1_iff (c : Config) : c.ilmBsav1 = true ↔ c.icmCfg.extractLsb' 13 2 = 1#2 := beq_iff_eq

theorem dlmBsav1_iff (c : Config) : c.dlmBsav1 = true ↔ c.dcmCfg.extractLsb' 13 2 = 1#2 := beq_iff_eq

theorem ilmOn_iff (s : State) :
    s.ilmOn = true ↔ s.cfg.icmCfg.extractLsb' 10 3 ≠ 0#3 ∧ s.mr.ilmb.getLsbD 0 = true :=
  Bool.and_eq_true_iff.trans (and_congr_left' bne_iff_ne)

theorem dlmOn_iff (s : State) :
    s.dlmOn = true ↔ s.cfg.dcmCfg.extractLsb' 10 3 ≠ 0#3 ∧ s.mr.dlmb.getLsbD 0 = true :=
  Bool.and_eq_true_iff.trans (and_congr_left' bne_iff_ne)

theorem dbm_iff (s : State) :
    s.dbm = true ↔ s.cfg.dcmCfg.extractLsb' 10 3 = 2#3 ∧ s.mr.dlmb.getLsbD 5 = true :=
  Bool.and_eq_true_iff.trans (and_congr_left' beq_iff_eq)

/-! ## The undefined HSMP ranges (R230) -/

/-- The patterns of R230 as numbers. -/
theorem toNat_allOnes_shiftLeft : ∀ k < 13, (BitVec.allOnes 12 <<< k).toNat = 4096 - 2 ^ k := by decide

theorem hsmpRangeOk_iff (saddr : Word) :
    hsmpRangeOk saddr = true ↔ ∃ k < 13, (saddr.extractLsb' 1 12).toNat = 4096 - 2 ^ k := by
  have hpattern (k : Nat) (hk : k < 13) :
      field saddr 1 12 = BitVec.allOnes 12 <<< k ↔ (saddr.extractLsb' 1 12).toNat = 4096 - 2 ^ k := by
    rw [← toNat_allOnes_shiftLeft k hk, BitVec.toNat_inj, field]
  simp only [hsmpRangeOk, List.any_eq_true, List.mem_range, beq_iff_eq]
  exact exists_congr fun k => and_congr_right (hpattern k)

theorem hsmpBroken_iff (s : State) :
    s.hsmpBroken = true ↔ s.cfg.hasHsmp = true ∧ s.cfg.hsmpVersion2 = true ∧ s.mr.hsmpSaddr.getLsbD 0 = true
      ∧ ∀ k ≤ 12, (s.mr.hsmpSaddr.extractLsb' 1 12).toNat ≠ 4096 - 2 ^ k := by
  have hrange : hsmpRangeOk s.mr.hsmpSaddr = false
      ↔ ∀ k ≤ 12, (s.mr.hsmpSaddr.extractLsb' 1 12).toNat ≠ 4096 - 2 ^ k := by
    rw [← Bool.not_eq_true, hsmpRangeOk_iff]
    simp [Nat.lt_succ_iff]
  simp only [State.hsmpBroken, Bool.and_eq_true, Bool.not_eq_true', hrange, bit_eq, and_assoc]

/-- Settles O15: routing by the windows an address hits (`route_of_hitsIlm`, `route_of_hitsDlm`, `route_of_misses`),
then the conditions and places it reads, each by its own lemma. -/
theorem routingOrder : Obligations.RoutingOrder := by
  refine ⟨fun s pa acc => ⟨?ilm, ?beyondIlm, ?dlm, ?beyondDlm, ?broken, ?bus⟩, fun s => ?registers,
    fun base view a => ⟨lmWindow_false_iff base view a, lmWindow_true_iff base view a⟩,
    fun c => ⟨lmSizeOf_eq c.ilmSz, lmSizeOf_eq c.dlmSz⟩⟩
  case ilm => exact fun hilm hoff => (route_of_hitsIlm hilm).trans (if_pos hoff)
  case beyondIlm => exact fun hilm hoff => (route_of_hitsIlm hilm).trans (if_neg hoff.not_gt)
  case dlm =>
    intro hilm hdlm hoff
    rw [← coreBank_eq_add]
    exact (route_of_hitsDlm hilm hdlm).trans (if_pos hoff)
  case beyondDlm => exact fun hilm hdlm hoff => (route_of_hitsDlm hilm hdlm).trans (if_neg hoff.not_gt)
  case broken => exact fun hilm hdlm hbroken => (route_of_misses hilm hdlm).trans (if_pos hbroken)
  case bus => exact fun hilm hdlm hsound => (route_of_misses hilm hdlm).trans (if_neg (by simp [hsound]))
  case registers =>
    refine ⟨⟨fun h => lmBase_of_bsav0 h _ _, fun h hsize => lmBase_of_bsav1 h hsize _⟩,
      ⟨fun h => lmBase_of_bsav0 h _ _, fun h hsize => lmBase_of_bsav1 h hsize _⟩,
      ilmBsav1_iff s.cfg, dlmBsav1_iff s.cfg, ?_, ?_, dbm_iff s, rfl, ilmOn_iff s, dlmOn_iff s, hsmpBroken_iff s⟩
    · exact fun hdoubled => if_pos ((dbm_iff s).2 hdoubled)
    · exact fun hsingle => if_neg (mt (dbm_iff s).1 hsingle)

end Sys2Proof.Machine
end

section
/-! PROOFS. What the TLB instructions of statements O36 to O39 share: they complete under the MMU in superuser mode, and
what a TLB entry reads as after a write. -/

namespace Sys2Proof.Machine

/-- A TLBOP of the MMU runs in superuser mode (R600, D33). -/
theorem mmuOnly_of_hasMmu {s : State} (r : Res Word) (hmmu : s.cfg.hasMmu = true) (hsuper : s.superuser = true) :
    mmuOnly s r = r := by
  rw [mmuOnly, if_pos hmmu, privileged, if_pos hsuper]

/-- A TLBOP with a form for the MMU takes it in superuser mode. -/
theorem mmuOrMpu_of_hasMmu {s : State} (mmu mpu : Res Word) (hmmu : s.cfg.hasMmu = true)
    (hsuper : s.superuser = true) : mmuOrMpu s mmu mpu = mmu := by
  rw [mmuOrMpu, if_pos hmmu, privileged, if_pos hsuper]

/-- Reading a TLB entry after a write of an entry. -/
theorem Tlb.read_write (t : Tlb) (k : Nat) (e : TlbEntry) (j : Nat) :
    (t.write k e).read j = if j = k then e else t.read j := by
  rw [Tlb.read, Tlb.write, cellGet_cellPut]
  split <;> rfl

@[simp] theorem Tlb.read_write_self (t : Tlb) (k : Nat) (e : TlbEntry) : (t.write k e).read k = e := by
  rw [Tlb.read_write, if_pos rfl]

theorem Tlb.read_write_of_ne (t : Tlb) {k j : Nat} (e : TlbEntry) (h : j ≠ k) : (t.write k e).read j = t.read j := by
  rw [Tlb.read_write, if_neg h]

end Sys2Proof.Machine
end

section
/-! PROOFS. Statement O36: TLBOP TRD and TWR under the MMU. -/

namespace Sys2Proof.Machine

/-! ## The two operations (R601, R602) -/

/-- TRD under the MMU in superuser mode completes. -/
theorem exec_tlbopTrd_of_hasMmu {s : State} (ra : Reg) (hmmu : s.cfg.hasMmu = true) (hsuper : s.superuser = true) :
    exec (.tlbopTrd ra) s = .next ((tlbTargetRead s (s.x ra)).retire s.pc s.next4) :=
  congrArg (complete s) (mmuOrMpu_of_hasMmu _ _ hmmu hsuper)

/-- TWR under the MMU in superuser mode completes. -/
theorem exec_tlbopTwr_of_hasMmu {s : State} (ra : Reg) (hmmu : s.cfg.hasMmu = true) (hsuper : s.superuser = true) :
    exec (.tlbopTwr ra) s = .next ((tlbTargetWrite s (s.x ra)).retire s.pc s.next4) :=
  congrArg (complete s) (mmuOrMpu_of_hasMmu _ _ hmmu hsuper)

/-- TLB_MISC from a context and a page size (R601). -/
theorem zext_cid_psz (cid : BitVec 9) (psz : BitVec 4) : zext (cid ++ psz) = 0#19 ++ cid ++ psz := by
  refine BitVec.eq_of_getLsbD_eq fun i hi => ?_
  simp only [zext, BitVec.getLsbD_setWidth, BitVec.getLsbD_append, BitVec.getLsbD_zero]
  grind

/-- TRD of a way that exists (R601). -/
theorem tlbTargetRead_of_way {s : State} {x : Word} (h : entryWay s.cfg x < s.cfg.tlbWays) :
    tlbTargetRead s x = { s with mr := { s.mr with
      tlbVpn := (s.tlb.read (entryNumber s.cfg x)).vpn ++ 0#12
      tlbData := (s.tlb.read (entryNumber s.cfg x)).pte
      tlbMisc := 0#19 ++ (s.tlb.read (entryNumber s.cfg x)).cid ++ (s.tlb.read (entryNumber s.cfg x)).psz } } := by
  rw [← zext_cid_psz, tlbTargetRead, if_pos h]

/-- TWR of a way that exists (R602). -/
theorem tlbTargetWrite_of_way {s : State} {x : Word} (h : entryWay s.cfg x < s.cfg.tlbWays) :
    tlbTargetWrite s x = { s with
      tlb := s.tlb.write (entryNumber s.cfg x) (entryOfPte s.accVpn s.cid s.accPsz s.mr.tlbData false) } :=
  if_pos h

/-- One bit as a field. -/
theorem ofBool_getLsbD (v : Word) (i : Nat) : BitVec.ofBool (v.getLsbD i) = v.extractLsb' i 1 :=
  BitVec.eq_of_getLsbD_eq fun j hj => by
    obtain rfl : j = 0 := by omega
    simp

/-- An entry made from a PTE word with 0 in the Reserved bit 11 gives the word back (R202). -/
theorem pte_entryOfPte (vpn : BitVec 20) (cid : BitVec 9) (psz : BitVec 4) {pte : Word} (lock : Bool)
    (h : within 0xFFFFF7FF#32 pte) : (entryOfPte vpn cid psz pte lock).pte = pte := by
  have h11 : pte.extractLsb' 11 1 = 0#1 := extractLsb'_eq_zero_of_within h (by decide)
  simp only [TlbEntry.pte, entryOfPte, field, bit_eq, ofBool_getLsbD, ← h11]
  simp (disch := rfl) only [BitVec.extractLsb'_append_extractLsb'_eq_extractLsb']
  exact BitVec.extractLsb'_eq_self

/-! ## The geometry (R50, R406, R612) -/

/-- Sets and ways without FATB. -/
theorem tlbGeometry_of_not_fatb {c : Config} (h : c.mmuCfg.getLsbD 7 = false) :
    c.tlbSets = 4 * 2 ^ (c.mmuCfg.extractLsb' 11 3).toNat ∧ c.tlbWays = (c.mmuCfg.extractLsb' 8 3).toNat + 1 := by
  have hfatb : ¬ c.fatb = true := Bool.eq_false_iff.1 h
  constructor
  · rw [Config.tlbSets, Config.log2Sets, if_neg hfatb, Nat.pow_add]
    rfl
  · exact if_neg hfatb

/-- Sets and ways with FATB. -/
theorem tlbGeometry_of_fatb {c : Config} (h : c.mmuCfg.getLsbD 7 = true) :
    c.tlbSets = 1 ∧ c.tlbWays = (c.mmuCfg.extractLsb' 8 7).toNat := by
  have hfatb : c.fatb = true := h
  constructor
  · rw [Config.tlbSets, Config.log2Sets, if_pos hfatb, Nat.pow_zero]
  · exact if_pos hfatb

theorem tlbWays_lt (c : Config) : c.tlbWays < 2 ^ 7 := by
  rw [Config.tlbWays]
  split
  · exact (field c.mmuCfg 8 7).isLt
  · have := (field c.mmuCfg 8 3).isLt
    omega

/-- The width of a way number is ceil(log2(K)): the least that holds all ways (R406). -/
theorem wayBits_spec (c : Config) : c.tlbWays ≤ 2 ^ c.wayBits ∧ ∀ b < c.wayBits, 2 ^ b < c.tlbWays := by
  rw [Config.wayBits]
  cases hfind : (List.range 8).find? (fun b => decide (c.tlbWays ≤ 2 ^ b)) with
  | none =>
    have hnone := List.find?_eq_none.1 hfind 7 (by decide)
    exact absurd (decide_eq_true (tlbWays_lt c).le) hnone
  | some b =>
    obtain ⟨hb, -, hleast⟩ := List.find?_range_eq_some.1 hfind
    exact ⟨of_decide_eq_true hb, fun b' hb' => by simpa using hleast b' hb'⟩

/-- Settles O36: TRD and TWR of a way that exists by `tlbTargetRead_of_way` and `tlbTargetWrite_of_way`; of another way
by the model's free words; and the geometry of MMU_CFG. -/
theorem tlbTargetReadAndWrite : Obligations.TlbTargetReadAndWrite := by
  refine ⟨fun s ra hmmu hsuper => ?_, fun c => ⟨tlbGeometry_of_not_fatb, tlbGeometry_of_fatb, rfl, c.wayBits, ?_⟩⟩
  · rw [exec_tlbopTrd_of_hasMmu ra hmmu hsuper, exec_tlbopTwr_of_hasMmu ra hmmu hsuper]
    refine ⟨fun habsent => ?_, fun hway => ?_⟩
    · rw [tlbTargetRead, if_neg habsent.not_gt, tlbTargetWrite, if_neg habsent.not_gt]
      exact ⟨⟨_, _, _, rfl, within_and _ _, within_and _ _, within_and _ _⟩, rfl⟩
    · rw [tlbTargetRead_of_way hway, tlbTargetWrite_of_way hway]
      refine ⟨rfl, _, rfl, fun hs => ?_, ?_⟩
      · obtain ⟨-, -, -, hdata, -⟩ := hs
        rw [tlbDataMask_of_hasMmu hmmu] at hdata
        simp only [State.retire_tlb, Tlb.read_write_self, pte_entryOfPte _ _ _ _ hdata]
      · simp only [State.retire_tlb, Tlb.read_write_self]
        exact ⟨rfl, rfl, rfl, rfl, fun j hj => Tlb.read_write_of_ne _ _ hj, rfl⟩
  · obtain ⟨hwide, hleast⟩ := wayBits_spec c
    exact ⟨hwide, hleast, fun x => ⟨rfl, rfl⟩⟩

end Sys2Proof.Machine
end

section
/-! PROOFS. Statement O37: TLBOP RWR and RWLK. -/

namespace Sys2Proof.Machine

/-- RWR, and RWLK where it exists, complete under the MMU in superuser mode (R603, R604). -/
theorem exec_randomWrite {s : State} (ra : Reg) {lock : Bool} (hmmu : s.cfg.hasMmu = true)
    (hsuper : s.superuser = true) (hlock : lock = true → s.cfg.tblck = true) :
    exec (if lock then .tlbopRwlk ra else .tlbopRwr ra) s
      = .next ((randomWriteOp s (s.x ra) lock).retire s.pc s.next4) := by
  cases lock with
  | false => exact congrArg (complete s) (mmuOnly_of_hasMmu _ hmmu hsuper)
  | true => exact congrArg (complete s) ((if_pos (hlock rfl)).trans (mmuOnly_of_hasMmu _ hmmu hsuper))

/-- The set a random write goes to (R407, D29). -/
abbrev State.randomWriteSet (s : State) : Nat := setIndex s.cfg (s.accVpn ++ 0#12) (pageShift s.accPsz)

section
variable {s : State} {pte : Word} {lock : Bool}

/-- A random write with room goes to one insertable entry number of its set. -/
theorem randomWriteOp_of_room (h : s.insertable s.randomWriteSet ≠ []) :
    ∃ k ∈ s.insertable s.randomWriteSet, randomWriteOp s pte lock = { s with
      tlb := s.tlb.write k (entryOfPte s.accVpn s.cid s.accPsz pte lock), draws := s.draws + 1 } := by
  have hsome : s.randomWrite (entryOfPte s.accVpn s.cid s.accPsz pte lock) = some { s with
      tlb := s.tlb.write (chooseOf s.draws (s.insertable s.randomWriteSet))
        (entryOfPte s.accVpn s.cid s.accPsz pte lock)
      draws := s.draws + 1 } := if_neg (mt List.isEmpty_iff.1 h)
  exact ⟨_, chooseOf_mem h, by rw [randomWriteOp, hsome]⟩

/-- Without room it writes no entry, and the locking error is pending. -/
theorem randomWriteOp_of_full (h : s.insertable s.randomWriteSet = []) :
    randomWriteOp s pte lock = s.pend (.tlbLocking false (pageOf s.mr.tlbVpn)) := by
  have hnone : s.randomWrite (entryOfPte s.accVpn s.cid s.accPsz pte lock) = none :=
    if_pos (List.isEmpty_iff.2 h)
  rw [randomWriteOp, hnone]

end

/-- The page of an address, from its page number. -/
theorem pageOf_eq_append (va : Word) : pageOf va = va.extractLsb' 12 20 ++ 0#12 := by
  have hva : va = va.extractLsb' 12 20 ++ va.extractLsb' 0 12 := by
    simp (disch := rfl) only [BitVec.extractLsb'_append_extractLsb'_eq_extractLsb']
    exact BitVec.extractLsb'_eq_self.symm
  have hmask : 0xFFFFF000#32 = BitVec.allOnes 20 ++ 0#12 := by decide
  calc va &&& 0xFFFFF000#32
      = (va.extractLsb' 12 20 ++ va.extractLsb' 0 12) &&& (BitVec.allOnes 20 ++ 0#12) := by rw [← hva, ← hmask]
    _ = va.extractLsb' 12 20 ++ 0#12 := by rw [BitVec.and_append, BitVec.and_allOnes, BitVec.and_zero]

/-- Settles O37: the entry numbers a random write may take (`mem_insertable_iff`) are those of the statement. -/
theorem tlbRandomWrite : Obligations.TlbRandomWrite := by
  intro s ra lock hmmu hsuper hways hlock i psz vpn pte e inSet allLocked tbalck next
  have hset (k : Nat) : k ∈ setEntries s.cfg s.randomWriteSet ↔ inSet k := mem_setEntries (setIndex_lt ..)
  have hlocked : (∀ k ∈ setEntries s.cfg s.randomWriteSet, (s.tlb.read k).l = true) ↔ allLocked :=
    forall_congr' fun k => imp_congr_left (hset k)
  have hexec : exec i s = .next ((randomWriteOp s pte lock).retire s.pc next) :=
    exec_randomWrite ra hmmu hsuper hlock
  rw [hexec, ← hlocked]
  refine ⟨fun hroom => ?_, fun hall htb => ?_⟩
  · obtain ⟨k, hk, hwrite⟩ := randomWriteOp_of_room (pte := pte) (lock := lock) (insertable_ne_nil hways hroom)
    obtain ⟨hmem, hway⟩ := mem_insertable_iff.1 hk
    exact ⟨k, (hset k).1 hmem, hway.symm.imp_left And.left, by rw [hwrite]; rfl⟩
  · rw [randomWriteOp_of_full (insertable_eq_nil hall htb), pageOf_eq_append]
    rfl

end Sys2Proof.Machine
end

section
/-! PROOFS. Statement O38: TLBOP UNLK. -/

namespace Sys2Proof.Machine

/-- UNLK under the MMU in superuser mode completes (R606). -/
theorem exec_tlbopUnlk {s : State} (ra : Reg) (hmmu : s.cfg.hasMmu = true) (hsuper : s.superuser = true) :
    exec (.tlbopUnlk ra) s = .next ((unlock s (s.x ra)).retire s.pc s.next4) :=
  congrArg (complete s) (mmuOnly_of_hasMmu _ hmmu hsuper)

/-- What UNLK makes of an entry of its set. -/
def unlockedEntry (s : State) (va : Word) (e : TlbEntry) : TlbEntry :=
  if s.tlbMatches e va && e.psz == s.accPsz then { e with l := false } else e

theorem unlockedEntry_idem (s : State) (va : Word) (e : TlbEntry) :
    unlockedEntry s va (unlockedEntry s va e) = unlockedEntry s va e := by
  by_cases h : (s.tlbMatches e va && e.psz == s.accPsz) = true
  · have hunlocked : unlockedEntry s va e = { e with l := false } := if_pos h
    rw [hunlocked]
    exact ite_self _
  · have hkept : unlockedEntry s va e = e := if_neg h
    rw [hkept, hkept]

/-- One way of UNLK. -/
theorem unlockWay_read (s : State) (va : Word) (t : Tlb) (j k : Nat) :
    (unlockWay s va t j).read k = if k = j then unlockedEntry s va (t.read k) else t.read k := by
  rw [unlockWay, unlockedEntry]
  split
  · next h =>
    rw [Tlb.read_write]
    split
    · next hk => rw [hk, if_pos h]
    · rfl
  · next h =>
    split
    · next hk => rw [hk, if_neg h]
    · rfl

/-- UNLK of the ways of a list. -/
theorem foldl_unlockWay_read (s : State) (va : Word) (l : List Nat) (t : Tlb) (k : Nat) :
    (l.foldl (unlockWay s va) t).read k = if k ∈ l then unlockedEntry s va (t.read k) else t.read k := by
  induction l generalizing t with
  | nil => rfl
  | cons j l ih =>
    rw [List.foldl_cons, ih, unlockWay_read]
    by_cases hj : k = j
    · subst hj
      simp [unlockedEntry_idem]
    · simp [hj]

/-- UNLK by entry: those of the set of the address (R606, D29). -/
theorem unlock_read (s : State) (va : Word) (k : Nat) :
    (unlock s va).tlb.read k = if k ∈ setEntries s.cfg (setIndex s.cfg va (pageShift s.accPsz))
      then unlockedEntry s va (s.tlb.read k) else s.tlb.read k :=
  foldl_unlockWay_read s va _ s.tlb k

/-- Settles O38: UNLK makes `unlockedEntry` of every entry of the set (`unlock_read`). -/
theorem tlbUnlock : Obligations.TlbUnlock := by
  intro s ra hmmu hsuper va psz inSet found
  refine ⟨_, exec_tlbopUnlk ra hmmu hsuper, fun k => ?_, rfl⟩
  have hset : k ∈ setEntries s.cfg (setIndex s.cfg va (pageShift s.accPsz)) ↔ inSet k :=
    mem_setEntries (setIndex_lt ..)
  have hfound : (s.tlbMatches (s.tlb.read k) va && (s.tlb.read k).psz == s.accPsz) = true
      ↔ found (s.tlb.read k) ∧ (s.tlb.read k).psz = psz := by
    rw [Bool.and_eq_true, State.tlbMatches_iff, beq_iff_eq]
    rfl
  rw [State.retire_tlb, unlock_read]
  refine ⟨fun hin hf hpsz => ?_, fun hnot => ?_⟩
  · rw [if_pos (hset.2 hin)]
    exact if_pos (hfound.2 ⟨hf, hpsz⟩)
  · split
    · next hin => exact if_neg fun h => hnot ⟨hset.1 hin, hfound.1 h⟩
    · rfl

end Sys2Proof.Machine
end

section
/-! PROOFS. Statement O39: TLBOP INV. -/

namespace Sys2Proof.Machine

/-- INV under the MMU in superuser mode completes (R609). -/
theorem exec_tlbopInv {s : State} (ra : Reg) (hmmu : s.cfg.hasMmu = true) (hsuper : s.superuser = true) :
    exec (.tlbopInv ra) s = .next ((invalidate s (s.x ra)).retire s.pc s.next4) :=
  congrArg (complete s) (mmuOnly_of_hasMmu _ hmmu hsuper)

/-- INV flushes the entry of a number: it must, or it may and does (R609). -/
def invalidates (s : State) (va : Word) (p : Nat × TlbEntry) : Bool :=
  mustInvalidate s va p.2 || mayInvalidate s p.1 p.2

theorem invalidates_iff {s : State} {va : Word} {p : Nat × TlbEntry} :
    invalidates s va p = true ↔ mustInvalidate s va p.2 = true ∨ mayInvalidate s p.1 p.2 = true :=
  Bool.or_eq_true_iff

/-- One entry of INV. -/
theorem invalidateWay_read (s : State) (va : Word) (t : Tlb) (p : Nat × TlbEntry) (k : Nat) :
    (invalidateWay s va t p).read k
      = if p.1 = k ∧ invalidates s va p = true then flushedEntry s.draws k else t.read k := by
  have hway : invalidateWay s va t p
      = if invalidates s va p then t.write p.1 (flushedEntry s.draws p.1) else t := rfl
  rw [hway]
  cases invalidates s va p with
  | false => simp
  | true =>
    obtain rfl | hk := eq_or_ne p.1 k
    · simp
    · simp [hk, Tlb.read_write_of_ne _ _ hk.symm]

/-- INV of the entries of a list. -/
theorem foldl_invalidateWay_read (s : State) (va : Word) (l : List (Nat × TlbEntry)) (t : Tlb) (k : Nat) :
    (l.foldl (invalidateWay s va) t).read k
      = if ∃ p ∈ l, p.1 = k ∧ invalidates s va p = true then flushedEntry s.draws k else t.read k := by
  induction l generalizing t with
  | nil => simp
  | cons p l ih =>
    rw [List.foldl_cons, ih, invalidateWay_read]
    by_cases hp : p.1 = k ∧ invalidates s va p = true
    · simp only [List.exists_mem_cons_iff, hp, if_true, true_or, and_self, ite_self]
    · simp only [List.exists_mem_cons_iff, hp, if_false, false_or]

/-- An entry that INV flushes. -/
theorem invalidate_read_of_mem {s : State} {va : Word} {k : Nat} (hmem : (k, s.tlb.read k) ∈ s.tlbListed)
    (hinv : invalidates s va (k, s.tlb.read k) = true) :
    (invalidate s va).tlb.read k = flushedEntry s.draws k := by
  rw [invalidate, foldl_invalidateWay_read]
  exact if_pos ⟨_, hmem, rfl, hinv⟩

/-- An entry that INV keeps. -/
theorem invalidate_read_of_not {s : State} (hs : s.tlbOk) {va : Word} {k : Nat}
    (hinv : ¬invalidates s va (k, s.tlb.read k) = true) : (invalidate s va).tlb.read k = s.tlb.read k := by
  rw [invalidate, foldl_invalidateWay_read]
  refine if_neg ?_
  rintro ⟨⟨j, e⟩, hmem, rfl, h⟩
  obtain ⟨-, rfl⟩ := eq_read_of_mem_tlbListed hs hmem
  exact hinv h

/-- Only unlocked entries are flushed. -/
theorem unlocked_of_invalidates {s : State} {va : Word} {p : Nat × TlbEntry} (h : invalidates s va p = true) :
    p.2.l = false := by
  simp only [invalidates_iff, mustInvalidate, mayInvalidate, Bool.and_eq_true, Bool.not_eq_true', and_assoc] at h
  exact h.elim And.left And.left

theorem mustInvalidate_iff (s : State) (va : Word) (e : TlbEntry) :
    mustInvalidate s va e = true ↔ e.l = false ∧ s.tlbMatches e va = true ∧ e.psz = s.accPsz := by
  simp only [mustInvalidate, Bool.and_eq_true, Bool.not_eq_true', beq_iff_eq, and_assoc]

/-- The invisible entries that INV leaves are old ones it need not flush. -/
theorem mem_invalidate_itlb {s : State} {va : Word} {e : TlbEntry} (h : e ∈ (invalidate s va).itlb) :
    e ∈ s.itlb ∧ mustInvalidate s va e = false := by
  simp only [invalidate, List.mem_map, List.mem_filter, Bool.not_eq_true', Bool.or_eq_false_iff] at h
  obtain ⟨⟨i, f⟩, ⟨hmem, hkept, -⟩, rfl⟩ := h
  exact ⟨mem_iff_exists_indexed.2 ⟨i, hmem⟩, hkept⟩

/-- Settles O39: what INV must flush (`mustInvalidate_iff`) is listed, being valid, and is flushed
(`invalidate_read_of_mem`); nothing else is without the over-flush (`invalidate_read_of_not`). -/
theorem tlbInvalidate : Obligations.TlbInvalidate := by
  intro s ra hmmu hsuper hs va found must
  have hmust (e : TlbEntry) : mustInvalidate s va e = true ↔ must e := by
    rw [mustInvalidate_iff, State.tlbMatches_iff]
    rfl
  refine ⟨_, exec_tlbopInv ra hmmu hsuper, fun k hk => ⟨fun h => ?_, fun hl => ?_, fun hnot hmore => ?_⟩,
    fun e he => ?_, rfl⟩
  · have hinv : invalidates s va (k, s.tlb.read k) = true := invalidates_iff.2 (.inl ((hmust _).2 h))
    obtain ⟨-, ⟨hv, -⟩, -⟩ := h
    rw [State.retire_tlb, invalidate_read_of_mem (mem_tlbListed_of_valid hk hv) hinv]
    rfl
  · refine invalidate_read_of_not hs fun h => ?_
    rw [unlocked_of_invalidates h] at hl
    cases hl
  · refine invalidate_read_of_not hs fun h => ?_
    obtain h | h := invalidates_iff.1 h
    · exact hnot ((hmust _).1 h)
    · simp [mayInvalidate, hmore] at h
  · obtain ⟨hmem, hkept⟩ := mem_invalidate_itlb he
    exact ⟨hmem, fun h => Bool.eq_false_iff.1 hkept ((hmust e).2 h)⟩

end Sys2Proof.Machine
end

section
/-! PROOFS. Statement O22: the instructions that raise an exception by design. -/

namespace Sys2Proof.Machine

/-- BREAK16 with the 16-bit extension (R661). -/
theorem exec_break16 {s : State} (m : BitVec 9) (h : s.cfg.ext16 = true) :
    exec (.break16 m) s = complete s (.raise (.break16 (m.zeroExtend 15)) s) := by
  show complete s (.raise (if s.cfg.ext16 then .break16 (m.setWidth 15) else .reservedInstruction) s) = _
  rw [if_pos h]

/-- Settles O22: each of them ends by raising its cause, which enters the exception with the pc it started at
(`complete_raise`); only BREAK16 looks at the state first. -/
theorem trapInstructionsEnter : Obligations.TrapInstructionsEnter := by
  intro s n m
  exact ⟨complete_raise s (.brk n) s, complete_raise s (.systemCall n) s, complete_raise s (.trap n) s,
    fun h16 => (exec_break16 m h16).trans (complete_raise s _ s)⟩

end Sys2Proof.Machine
end

section
/-! PROOFS. What statement O16 reads off the configuration registers: the bits behind the parameters of the model, and
which registers exist. -/

namespace Sys2Proof.Machine

/-! ## The parameters (R46 to R54, R270) -/

theorem hasMmu_iff (c : Config) : c.hasMmu = true ↔ c.mmuCfg.extractLsb' 0 2 = 2#2 := beq_iff_eq

theorem hasMpu_iff (c : Config) : c.hasMpu = true ↔ c.mmuCfg.extractLsb' 0 2 = 1#2 := beq_iff_eq

theorem mmuVersion2_iff (c : Config) : c.mmuVersion2 = true ↔ 2 ≤ (c.mmuCfg.extractLsb' 2 5).toNat :=
  decide_eq_true_iff

theorem hasAudio_iff (c : Config) : c.hasAudio = true ↔ c.mscCfg.extractLsb' 7 2 ≠ 0#2 := bne_iff_ne

theorem baseV2_iff (c : Config) : c.baseV2 = true ↔ c.mscCfg.extractLsb' 13 3 ≠ 0#3 := bne_iff_ne

theorem hardCore_iff (c : Config) :
    c.hardCore = true ↔ c.cpuVer.extractLsb' 24 8 = 0x0C#8 ∧ c.cpuVer.extractLsb' 18 6 = 0#6 :=
  Bool.and_eq_true_iff.trans (and_congr beq_iff_eq beq_iff_eq)

theorem idrFamily_iff (c : Config) :
    Config.idrFamily c = true ↔ c.cpuVer.extractLsb' 24 8 = 0x0C#8 ∨ c.cpuVer.extractLsb' 24 8 = 0x0A#8
      ∨ c.cpuVer.extractLsb' 24 8 = 0x09#8 := by
  simp only [Config.idrFamily, Config.cpuid, field, Bool.or_eq_true, beq_iff_eq, or_assoc]

theorem ilmExists_iff (c : Config) : c.ilmExists = true ↔ c.icmCfg.extractLsb' 10 3 ≠ 0#3 := bne_iff_ne

theorem dlmExists_iff (c : Config) : c.dlmExists = true ↔ c.dcmCfg.extractLsb' 10 3 ≠ 0#3 := bne_iff_ne

theorem doubleBuffer_iff (c : Config) : c.doubleBuffer = true ↔ c.dcmCfg.extractLsb' 10 3 = 2#3 := beq_iff_eq

theorem cacheCtlExists_iff (c : Config) :
    c.cacheCtlExists = true ↔ c.icmCfg.extractLsb' 6 3 ≠ 0#3 ∧ c.dcmCfg.extractLsb' 6 3 ≠ 0#3 :=
  Bool.and_eq_true_iff.trans (and_congr bne_iff_ne bne_iff_ne)

theorem dmaTwoChannels_iff (c : Config) : c.dmaTwoChannels = true ↔ c.dmaCfg.extractLsb' 0 2 ≠ 0#2 := bne_iff_ne

/-! ## Registers that exist together (R58) -/

/-- Registers whose existence is one Boolean exist by what that Boolean means. -/
theorem srExists_iff_of_mem {c : Config} {l : List Sr} {b : Bool} {p : Prop} (hl : ∀ r ∈ l, srExists c r = b)
    (hb : b = true ↔ p) : ∀ r ∈ l, srExists c r = true ↔ p := fun r hr => by
  rw [hl r hr, hb]

theorem srExists_edm_iff (c : Config) (n : Fin 48) :
    srExists c (.edm n) = true ↔ c.mscCfg.getLsbD 0 = true ∧ (40 ≤ n.val ∨ n.val / 5 < c.edmBc) := by
  simp only [srExists, Config.hasEdm, bit_eq, Bool.and_eq_true, Bool.or_eq_true, decide_eq_true_eq]

/-! ## The index table (R56) -/

/-- Majors 0 and 1: the configuration and the interruption registers. -/
def srTableInterruption : List (Nat × Sr) :=
  [(0x000, .cpuVer), (0x008, .icmCfg), (0x010, .dcmCfg), (0x018, .mmuCfg), (0x020, .mscCfg), (0x001, .coreId),
    (0x028, .fucopExist), (0x080, .psw), (0x081, .ipsw), (0x082, .pIpsw), (0x089, .ivb), (0x091, .eva),
    (0x092, .pEva), (0x099, .itype), (0x09A, .pItype), (0x0A1, .merr), (0x0A9, .ipc), (0x0AA, .pIpc),
    (0x0AB, .oipc), (0x0B2, .pP0), (0x0BA, .pP1), (0x0C0, .intMask), (0x0C8, .intPend)]

/-- Major 2: memory management, local memory, HSMP and the implementation's own registers. -/
def srTableMemory : List (Nat × Sr) :=
  [(0x100, .mmuCtl), (0x108, .l1Pptb), (0x110, .tlbVpn), (0x118, .tlbData), (0x120, .tlbMisc), (0x128, .vlptIdx),
    (0x130, .ilmb), (0x138, .dlmb), (0x140, .cacheCtl), (0x148, .hsmpSaddr), (0x149, .hsmpEaddr), (0x178, .sdzCtl),
    (0x179, .miscCtl)]

/-- Major 3: the five registers of each of the eight breakpoints. -/
def srTableBreakpoints : List (Nat × Sr) :=
  (List.range 8).flatMap fun n => (List.range 5).map fun m => (0x180 + 8 * m + n, .edm (Fin.ofNat 48 (5 * n + m)))

/-- Majors 3 and 4: the other EDM registers, performance monitoring and access control. -/
def srTableControl : List (Nat × Sr) :=
  [(0x1A8, .edm 40), (0x1B0, .edm 41), (0x1B8, .edm 42), (0x1C0, .edm 43), (0x1C8, .edm 44), (0x1D0, .edm 45),
    (0x1F0, .edm 46), (0x1F1, .edm 47), (0x200, .pfmc0), (0x201, .pfmc1), (0x202, .pfmc2), (0x208, .pfmCtl),
    (0x220, .prusrAccCtl), (0x228, .fucopCtl)]

/-- Major 5: the local memory DMA. -/
def srTableDma : List (Nat × Sr) :=
  [(0x280, .dmaCfg), (0x288, .dmaGcsw), (0x290, .dmaChnsel), (0x298, .dmaAct), (0x2A0, .dmaSetup), (0x2A8, .dmaIsaddr),
    (0x2B0, .dmaEsaddr), (0x2B8, .dmaTcnt), (0x2C0, .dmaStatus), (0x2C8, .dma2dset), (0x2C9, .dma2dsctl)]

/-- The registers of R56 by index. -/
def srTable : List (Nat × Sr) :=
  srTableInterruption ++ srTableMemory ++ srTableBreakpoints ++ srTableControl ++ srTableDma

/-- Every row of the table is what its index names. -/
theorem srOf_of_mem_srTable : ∀ p ∈ srTable, srOf (BitVec.ofNat 10 p.1) = some p.2 := by decide

/-- The indexes of the table. -/
def srIndexes : List Nat := srTable.map Prod.fst

/-- An index of major 3 that names an EDM register is in the table. -/
theorem mem_srIndexes_of_edmOf : ∀ (minor : BitVec 4) (ext : BitVec 3), edmOf minor ext ≠ none →
    3 * 128 + minor.toNat * 8 + ext.toNat ∈ srIndexes := by decide

/-- An index is its major, minor and extension (R55). -/
theorem toNat_index (idx : BitVec 10) :
    idx.toNat = (field idx 7 3).toNat * 128 + (field idx 3 4).toNat * 8 + (field idx 0 3).toNat := by
  simp only [field, BitVec.extractLsb'_toNat, Nat.shiftRight_eq_div_pow]
  omega

/-- An index outside the table names no register. -/
theorem srOf_eq_none {idx : BitVec 10} (h : idx.toNat ∉ srIndexes) : srOf idx = none := by
  have hlisted : ∀ k, k ∈ srIndexes → idx.toNat ≠ k := fun k hk heq => h (heq ▸ hk)
  unfold srOf
  split
  case h_54 =>
    split
    · next hmajor =>
      by_contra hnamed
      have hidx := toNat_index idx
      rw [hmajor] at hidx
      exact hlisted _ (mem_srIndexes_of_edmOf _ _ hnamed) hidx
    · rfl
  all_goals exact absurd ‹_› (hlisted _ (by decide))

/-- The index decoder is the table. -/
theorem srOf_eq_lookup (idx : BitVec 10) : srOf idx = srTable.lookup idx.toNat := by
  cases hl : srTable.lookup idx.toNat with
  | some r =>
    obtain ⟨l₁, l₂, hsplit, -⟩ := List.lookup_eq_some_iff.1 hl
    have hmem : (idx.toNat, r) ∈ srTable := by simp [hsplit]
    simpa using srOf_of_mem_srTable _ hmem
  | none =>
    refine srOf_eq_none fun hmem => ?_
    obtain ⟨p, hp, hk⟩ := List.mem_map.1 hmem
    simpa [hk] using List.lookup_eq_none_iff.1 hl p hp

end Sys2Proof.Machine
end

section
/-! PROOFS. Statement O16: MFSR, and what every register reads. -/

namespace Sys2Proof.Machine

/-- MFSR of a register that exists completes where the access is allowed. -/
theorem mfsr_ok {s : State} {idx : BitVec 10} {r : Sr} (rt : Reg) (ha : srAccessAllowed s idx = true)
    (hn : srOf idx = some r) (he : srExists s.cfg r = true) :
    exec (.mfsr rt idx) s = .next ((s.setX rt (readSr s r)).retire s.pc s.next4) := by
  simp only [exec, execMfsr, accessSr_ok ha hn he, Res.bind_ok, complete]

/-! ## INT_PEND (R146, R841, R845, R846, R885) -/

theorem pmIntPend_iff (s : State) :
    s.pmIntPend = true ↔ s.cfg.hasPfm = true
      ∧ ∃ k < 3, s.pfm.pfmCtl.getLsbD (6 + k) = true ∧ s.pfm.pfmCtl.getLsbD (3 + k) = true := by
  have hnonzero : ∀ v : BitVec 3, v ≠ 0#3 ↔ ∃ k < 3, v.getLsbD k = true := by decide
  simp only [State.pmIntPend, Bool.and_eq_true, bne_iff_ne, hnonzero, BitVec.getLsbD_and, getLsbD_field]
  refine and_congr_right' (exists_congr fun k => and_congr_right fun hk => ?_)
  simp only [hk, decide_true, true_and]

theorem dmaIntPend_iff (s : State) :
    s.dmaIntPend = true ↔ s.cfg.hasDma = true
      ∧ (s.dma.ch0.int = true ∨ (s.cfg.dmaTwoChannels = true ∧ s.dma.ch1.int = true)) := by
  simp only [State.dmaIntPend, Bool.and_eq_true, Bool.or_eq_true]

/-- A signal shows on the line it is wired to, and on no other. -/
theorem getLsbD_wireBits (wire : Option (Fin 6)) (on : Bool) (n : Fin 6) :
    (wireBits wire on).getLsbD n = true ↔ wire = some n ∧ on = true := by
  cases wire with
  | none => simp [wireBits]
  | some m =>
    have hline : ∀ m n : Fin 6, (1#6 <<< m.val).getLsbD n = true ↔ m = n := by decide
    cases on with
    | false => simp [wireBits]
    | true => simpa only [wireBits, if_true, Option.some.injEq, and_true] using hline m n

theorem getLsbD_hwIrq (s : State) (n : Fin 6) :
    s.hwIrq.getLsbD n = true ↔ s.env.extIrq.getLsbD n = true
      ∨ (s.cfg.pmIntWire = some n ∧ s.pmIntPend = true) ∨ (s.cfg.dmaIntWire = some n ∧ s.dmaIntPend = true) := by
  simp only [State.hwIrq, BitVec.getLsbD_or, Bool.or_eq_true, getLsbD_wireBits, or_assoc]

/-- INT_PEND: the software interrupt in bit 16, the six pending bits below. -/
theorem getLsbD_intPend (s : State) (i : Nat) :
    (readSr s .intPend).getLsbD i = (s.ir.swi && decide (i = 16) || s.intPendLow.getLsbD i) := by
  show (bitAt 16 s.ir.swi ||| zext s.intPendLow : Word).getLsbD i = _
  rw [BitVec.getLsbD_or, getLsbD_bitAt, zext, BitVec.getLsbD_setWidth]
  by_cases hi : i < 32
  · simp [hi, eq_comm]
  · simp [hi, show i ≠ 16 by omega, s.intPendLow.getLsbD_of_ge i (by omega)]

theorem extractLsb'_intPend (s : State) : (readSr s .intPend).extractLsb' 0 6 = s.intPendLow := by
  refine BitVec.eq_of_getLsbD_eq fun i hi => ?_
  rw [BitVec.getLsbD_extractLsb', Nat.zero_add, getLsbD_intPend]
  simp [hi, show i ≠ 16 by omega]

/-! ## Words by their fields -/

/-- A zero-extended value is zeros above the value. -/
theorem zext_eq_append {n : Nat} (x : BitVec n) (h : n ≤ 32) :
    zext x = (0#(32 - n) ++ x).cast (Nat.sub_add_cancel h) :=
  BitVec.setWidth_eq_append h

/-- DMA_GCSW by its fields (R272, R273). -/
theorem dmaGcsw_eq (s : State) :
    dmaGcsw s = BitVec.ofBool s.dma.en ++ 0#17 ++ BitVec.ofBool (s.cfg.dmaTwoChannels && s.dma.ch1.int)
      ++ BitVec.ofBool s.dma.ch0.int ++ 0#6 ++ (if s.cfg.dmaTwoChannels then s.dma.ch1.stat.code else 0#3)
      ++ s.dma.ch0.stat.code := by
  refine BitVec.eq_of_getLsbD_eq fun i hi => ?_
  simp only [dmaGcsw, BitVec.getLsbD_or, BitVec.getLsbD_append, getLsbD_fieldAt, getLsbD_bitAt]
  cases s.cfg.dmaTwoChannels <;> interval_cases i <;> simp

/-- DMA_STATUS by its fields (R286). -/
theorem DmaChan.status_eq (c : DmaChan) :
    c.status = 0#22 ++ BitVec.ofBool c.err.esup ++ BitVec.ofBool c.err.ebus ++ BitVec.ofBool c.err.ioor
      ++ BitVec.ofBool c.err.iuna ++ BitVec.ofBool c.err.euna ++ BitVec.ofBool c.err.derr
      ++ BitVec.ofBool c.err.stuna ++ c.stat.code := by
  refine BitVec.eq_of_getLsbD_eq fun i hi => ?_
  simp only [DmaChan.status, BitVec.getLsbD_or, BitVec.getLsbD_append, getLsbD_fieldAt, getLsbD_bitAt]
  interval_cases i <;> simp

/-- CORE_ID has COREID_BITS bits (R53). -/
theorem getLsbD_coreIdMask (c : Config) {i : Nat} (hi : i < 32) :
    (coreIdMask c).getLsbD i = decide (i < c.coreIdBits) := by
  by_cases hbits : c.coreIdBits < 32
  · have hmask : (coreIdMask c).toNat = 2 ^ c.coreIdBits - 1 := by
      rw [coreIdMask, ← BitVec.twoPow_eq, BitVec.toNat_sub_of_le, BitVec.toNat_twoPow_of_lt hbits]
      · rfl
      · rw [BitVec.le_def, BitVec.toNat_twoPow_of_lt hbits]
        exact Nat.one_le_two_pow
    rw [BitVec.getLsbD, hmask, Nat.testBit_two_pow_sub_one]
  · have hmask : coreIdMask c = BitVec.allOnes 32 := by
      rw [coreIdMask, BitVec.shiftLeft_eq_zero (by omega)]
      rfl
    rw [hmask, BitVec.getLsbD_allOnes]
    simp [hi, show i < c.coreIdBits by omega]

theorem getLsbD_coreId (s : State) (i : Nat) :
    (readSr s .coreId).getLsbD i = (s.cfg.coreId.getLsbD i && decide (i < s.cfg.coreIdBits)) := by
  show (s.cfg.coreId &&& coreIdMask s.cfg).getLsbD i = _
  by_cases hi : i < 32
  · rw [BitVec.getLsbD_and, getLsbD_coreIdMask _ hi]
  · simp [s.cfg.coreId.getLsbD_of_ge i (by omega)]

/-! ## ILMB and DLMB: the stored bits and the size code (R215, R216, R219, R220) -/

theorem lmb_getLsbD_zero (reg mask : Word) (size : BitVec 4) :
    (reg &&& mask ||| fieldAt 1 size).getLsbD 0 = (reg.getLsbD 0 && mask.getLsbD 0) := by
  simp

theorem lmb_size {mask : Word} (h : mask.extractLsb' 1 4 = 0#4) (reg : Word) (size : BitVec 4) :
    (reg &&& mask ||| fieldAt 1 size).extractLsb' 1 4 = size := by
  have hsize : (fieldAt 1 size).extractLsb' 1 4 = size := BitVec.eq_of_getLsbD_eq fun i hi => by
    rw [BitVec.getLsbD_extractLsb', getLsbD_fieldAt]
    simp [hi, show 1 + i < 32 by omega]
  rw [BitVec.extractLsb'_or, BitVec.extractLsb'_and, h, hsize, BitVec.and_zero, BitVec.zero_or]

theorem lmb_above_size {lo : Nat} (h : 5 ≤ lo) (n : Nat) (reg mask : Word) (size : BitVec 4) :
    (reg &&& mask ||| fieldAt 1 size).extractLsb' lo n = reg.extractLsb' lo n &&& mask.extractLsb' lo n := by
  have hsize : (fieldAt 1 size).extractLsb' lo n = 0#n := BitVec.eq_of_getLsbD_eq fun i hi => by
    rw [BitVec.getLsbD_extractLsb', getLsbD_fieldAt, size.getLsbD_of_ge _ (by omega)]
    simp
  rw [BitVec.extractLsb'_or, BitVec.extractLsb'_and, hsize, BitVec.or_zero]

/-- The stored fields of ILMB. -/
theorem ilmbMask_fields (c : Config) :
    (ilmbMask c).getLsbD 0 = true ∧ (ilmbMask c).extractLsb' 1 4 = 0#4 ∧ (ilmbMask c).extractLsb' 5 5 = 0#5
      ∧ (ilmbMask c).extractLsb' 10 10 = (if c.ilmBsav1 then BitVec.allOnes 10 else 0#10)
      ∧ (ilmbMask c).extractLsb' 20 12 = BitVec.allOnes 12 := by
  unfold ilmbMask
  cases c.ilmBsav1 <;> decide

/-- The stored fields of DLMB. -/
theorem dlmbMask_fields (c : Config) :
    (dlmbMask c).getLsbD 0 = true ∧ (dlmbMask c).extractLsb' 1 4 = 0#4
      ∧ (dlmbMask c).extractLsb' 5 2 = (if c.doubleBuffer then BitVec.allOnes 2 else 0#2)
      ∧ (dlmbMask c).extractLsb' 7 3 = 0#3
      ∧ (dlmbMask c).extractLsb' 10 10 = (if c.dlmBsav1 then BitVec.allOnes 10 else 0#10)
      ∧ (dlmbMask c).extractLsb' 20 12 = BitVec.allOnes 12 := by
  unfold dlmbMask
  cases c.dlmBsav1 <;> cases c.doubleBuffer <;> decide

/-- A field that is stored only where a feature exists. -/
theorem and_ite_allOnes {n : Nat} (b : Bool) (v : BitVec n) :
    v &&& (if b then BitVec.allOnes n else 0#n) = if b then v else 0#n := by
  cases b <;> simp

/-- Settles O16: MFSR completes with what `readSr` gives (`mfsr_ok`); plain registers read by definition, the others by
their fields; the indexes are the table (`srOf_eq_lookup`), and existence and parameters are bits of the configuration
registers. -/
theorem mfsrReadsTheRegister : Obligations.MfsrReadsTheRegister := by
  refine ⟨fun s rt idx r => mfsr_ok rt, fun s => ?interruption, fun s => ?stored, fun s => ?intPend, fun s => ?dma,
    fun s => ?configuration, srOf_eq_lookup, fun c => ?existence, fun c => ?parameters⟩
  case interruption => exact ⟨rfl, rfl, rfl, rfl, rfl, rfl, rfl, rfl, rfl, rfl, rfl, rfl, rfl, rfl, rfl⟩
  case stored =>
    exact ⟨rfl, rfl, rfl, rfl, rfl, rfl, rfl, rfl, rfl, congrArg (s.misc.sdzCtl &&& ·) (sdzMask_eq s.cfg),
      congrArg (s.misc.miscCtl &&& ·) (miscMask_eq s.cfg), rfl, rfl, fun n hn => if_neg hn, rfl, rfl, rfl, rfl,
      zext_eq_append _ (by decide), beq_iff_eq, rfl, rfl, zext_eq_append _ (by decide), rfl,
      zext_eq_append _ (by decide), rfl, zext_eq_append _ (by decide)⟩
  case intPend =>
    refine ⟨?_, fun n hivic => ?_, fun hevic => ?_, fun i hi h16 => ?_⟩
    · rw [getLsbD_intPend]
      simp
    · have hlow : s.intPendLow = s.hwIrq := if_neg (Bool.eq_false_iff.1 hivic)
      have hn : n.val ≠ 16 := by omega
      rw [getLsbD_intPend, hlow, decide_eq_false hn, Bool.and_false, Bool.false_or, getLsbD_hwIrq, pmIntPend_iff,
        dmaIntPend_iff]
    · rw [extractLsb'_intPend, State.intPendLow, State.evic, bit_eq, if_pos hevic]
      cases s.env.evicReq <;> rfl
    · rw [getLsbD_intPend, s.intPendLow.getLsbD_of_ge i hi]
      simp [h16]
  case dma =>
    intro code two c b
    have hcode : code = DmaStat.code := funext fun d => by cases d <;> rfl
    rw [hcode]
    exact ⟨dmaGcsw_eq s, DmaChan.status_eq _, rfl⟩
  case configuration =>
    obtain ⟨hien, hilmsz, hires, hilow, hihigh⟩ := ilmbMask_fields s.cfg
    obtain ⟨hden, hdlmsz, hdbuf, hdres, hdlow, hdhigh⟩ := dlmbMask_fields s.cfg
    refine ⟨rfl, rfl, rfl, rfl, rfl, rfl, getLsbD_coreId s, rfl, rfl, ?_⟩
    simp only [readSr, lmb_getLsbD_zero, lmb_size hilmsz, lmb_size hdlmsz, lmb_above_size (show 5 ≤ 5 by decide),
      lmb_above_size (show 5 ≤ 7 by decide), lmb_above_size (show 5 ≤ 10 by decide),
      lmb_above_size (show 5 ≤ 20 by decide), hien, hires, hilow, hihigh, hden, hdbuf, hdres, hdlow, hdhigh,
      and_ite_allOnes, BitVec.and_allOnes, BitVec.and_zero, Bool.and_true, and_self]
  case existence =>
    have hsoft : (!c.hardCore) = true ↔ _ := Bool.not_iff_not.trans (not_congr (hardCore_iff c))
    exact ⟨by simp [srExists], hsoft, Iff.rfl,
      srExists_iff_of_mem (b := !c.intlc) (by simp [srExists]) Bool.not_iff_not, Iff.rfl,
      srExists_iff_of_mem (by simp [srExists]) (hasMmu_iff c),
      srExists_iff_of_mem (b := c.mmps != 0#2) (by simp [srExists]) bne_iff_ne,
      Bool.and_eq_true_iff.trans (and_congr_left' (hasMmu_iff c)), ilmExists_iff c, dlmExists_iff c,
      cacheCtlExists_iff c, Iff.rfl, hardCore_iff c,
      srExists_iff_of_mem (by simp [srExists]) (Bool.and_eq_true_iff.trans (and_congr_right' (idrFamily_iff c))),
      srExists_edm_iff c, srExists_iff_of_mem (b := c.hasPfm) (by simp [srExists]) Iff.rfl,
      Bool.and_eq_true_iff.trans (and_congr Bool.or_eq_true_iff hsoft),
      Bool.or_eq_true_iff.trans (or_congr_right (hasAudio_iff c)),
      srExists_iff_of_mem (b := c.hasDma) (by simp [srExists]) Iff.rfl,
      srExists_iff_of_mem (b := c.hasDma && c.dma2det) (by simp [srExists]) Bool.and_eq_true_iff⟩
  case parameters =>
    exact ⟨rfl, rfl, rfl, rfl, rfl, rfl, rfl, fun a => rfl, rfl, rfl, rfl, rfl, hasAudio_iff c, baseV2_iff c,
      hasMmu_iff c, hasMpu_iff c, hardCore_iff c, mmuVersion2_iff c, rfl, rfl, rfl, rfl, rfl, rfl, rfl, ilmBsav1_iff c,
      dlmBsav1_iff c, ilmExists_iff c, dlmExists_iff c, doubleBuffer_iff c, rfl, dmaTwoChannels_iff c, rfl, rfl⟩

end Sys2Proof.Machine
end

section
/-! PROOFS. What statements O50 and O51 share: what entering and leaving Run read from the machine, and a
channel replaced. -/

namespace Sys2Proof.Machine

/-- A transfer is 2-D where the feature is configured and the channel selects it (R730). -/
theorem twoD_iff (s : State) (c : DmaChan) :
    twoD s c = true ↔ s.cfg.dma2det = true ∧ c.setup.getLsbD 20 = true := Bool.and_eq_true_iff

/-- `w` on entry to Run, by R720 and R730 in one condition. -/
theorem startRow_eq (s : State) (c : DmaChan) :
    startRow s c = if twoD s c && s.cfg.dmaWecntMinus1 then c.stwecnt.toNat + 1 else c.stwecnt.toNat := by
  unfold startRow rowCount
  cases twoD s c <;> simp

/-- A channel that enters Run takes its working values from its registers (R720, R730). -/
theorem enteredRun_eq (s : State) (c : DmaChan) :
    enteredRun s c = { c with
      stat := .run
      wIntOff := c.isaddr.toNat % dmaLimit s c
      wExtAddr := c.esaddr
      wCount := c.tcnt.toNat
      wRow := if twoD s c && s.cfg.dmaWecntMinus1 then c.stwecnt.toNat + 1 else c.stwecnt.toNat } := by
  rw [enteredRun, startRow_eq]

/-- What the engine moves changes neither the working values of a channel that enters Run nor the row a channel leaves
Run with. -/
theorem dmaMoved_reads {s t : State} (h : s.dmaMoved t) (c : DmaChan) :
    enteredRun t c = enteredRun s c ∧ restartRow t c = restartRow s c := by
  rw [State.eq_of_sansDma h.1]
  exact ⟨rfl, rfl⟩

@[simp] theorem DmaEngine.put_put (e : DmaEngine) (i : Bool) (c d : DmaChan) : (e.put i c).put i d = e.put i d := by
  cases i <;> rfl

@[simp] theorem State.setChan_setChan (s : State) (i : Bool) (c d : DmaChan) :
    (s.setChan i c).setChan i d = s.setChan i d := by
  simp [State.setChan]

/-- Channel `i` is replaced and every other part but the order of the starts is as before. -/
def State.chanReplaced (s t : State) (i : Bool) (c : DmaChan) : Prop :=
  t.chan i = c ∧ t.chan (!i) = s.chan (!i) ∧ t.dma.en = s.dma.en ∧ t.dma.chan = s.dma.chan
    ∧ t = { s with dma := t.dma }

theorem setChan_chanReplaced (s : State) (i : Bool) (c : DmaChan) : s.chanReplaced (s.setChan i c) i c := by
  cases i <;> exact ⟨rfl, rfl, rfl, rfl, rfl⟩

end Sys2Proof.Machine
end

section
/-! PROOFS. Statement O50: the commands of DMA_ACT. -/

namespace Sys2Proof.Machine

/-! ## MTSR to DMA_ACT (R704) -/

section
variable {s : State} {ra : Reg}

/-- A command that is carried out, however the MTSR then ends. -/
theorem exec_dmaAct (hallowed : srAccessAllowed s 0x298#10 = true) (hdma : s.cfg.hasDma = true) :
    exec (.mtsr ra 0x298#10) s =
      complete s ((dmaCommand s ((s.x ra).extractLsb' 0 2)).bind fun _ t => .ok s.next4 t) := by
  show complete s ((accessSr s _).bind _) = _
  rw [accessSr_ok hallowed (sr := .dmaAct) rfl hdma]
  rfl

end

theorem dmaCommand_none (s : State) : dmaCommand s 0#2 = .ok () s := by
  simp [dmaCommand]

section
variable {s : State} (hen : s.dma.en = true)
include hen

theorem dmaCommand_start : dmaCommand s 1#2 = dmaStart s s.selected := by
  simp [dmaCommand, hen]

theorem dmaCommand_stop :
    dmaCommand s 2#2 = if stopBlocked s s.selected then .stop .hsmpRangePattern else .ok () (dmaStop s s.selected) := by
  simp [dmaCommand, hen]

theorem dmaCommand_reset : dmaCommand s 3#2 = .ok () (dmaReset s s.selected) := by
  simp [dmaCommand, hen]

end

/-! ## The checks of Start (R705, R708) -/

theorem DmaErr.onlyDerr_iff (e : DmaErr) :
    e.onlyDerr = true ↔ e.stuna = false ∧ e.euna = false ∧ e.iuna = false ∧ e.ioor = false ∧ e.ebus = false
      ∧ e.esup = false := by
  simp [DmaErr.onlyDerr, and_assoc]

theorem uea_iff (s : State) (c : DmaChan) :
    uea s c = true ↔ s.cfg.dmaUnea = true ∧ c.setup.getLsbD 19 = true := Bool.and_eq_true_iff

/-- STUNA: a stride of the transfer is no multiple of the element size (R708). -/
theorem startChecks_stuna (s : State) (c : DmaChan) :
    (startChecks s c).stuna = true ↔
      ¬uea s c = true ∧ (c.stride % c.elemSize ≠ 0 ∨ twoD s c = true ∧ c.htstr.toNat % c.elemSize ≠ 0) := by
  simp [startChecks, and_comm]

/-- EUNA: the external address is no multiple of the element size (R708). -/
theorem startChecks_euna (s : State) (c : DmaChan) :
    (startChecks s c).euna = true ↔ ¬uea s c = true ∧ c.esaddr.toNat % c.elemSize ≠ 0 := by
  simp [startChecks, and_comm]

/-- IUNA: the internal address is no multiple of the element size (R708). -/
theorem startChecks_iuna (s : State) (c : DmaChan) :
    (startChecks s c).iuna = true ↔ c.isaddr.toNat % c.elemSize ≠ 0 := by
  simp [startChecks]

/-- ESUP: a 2-D transfer has a row count of 0 (R708). -/
theorem startChecks_esup (s : State) (c : DmaChan) :
    (startChecks s c).esup = true ↔ twoD s c = true ∧ (c.wecnt = 0#16 ∨ c.stwecnt = 0#16) := by
  simp [startChecks]

/-- A check fails when one of the four flags is set (R708). -/
theorem startChecks_any (s : State) (c : DmaChan) :
    (startChecks s c).any = true ↔ (startChecks s c).stuna = true ∨ (startChecks s c).euna = true
      ∨ (startChecks s c).iuna = true ∨ (startChecks s c).esup = true := by
  have hrest : (startChecks s c).derr = false ∧ (startChecks s c).ioor = false ∧ (startChecks s c).ebus = false :=
    ⟨rfl, rfl, rfl⟩
  simp [DmaErr.any, DmaErr.onlyDerr, hrest, or_assoc]

/-! ## Start (R705) -/

/-- A channel that Start finds Idle, or in Stop/Error with DERR alone. -/
def DmaChan.startable (c : DmaChan) : Prop := c.stat = .idle ∨ (c.stat = .stopError ∧ c.err.onlyDerr = true)

/-- A channel whose Start passed every check: DERR and the interrupt status are cleared (R705). -/
def DmaChan.accepted (c : DmaChan) : DmaChan := { c with err := { c.err with derr := false }, int := false }

/-- So it is when the channel is given its place in the order of starts. -/
theorem numbered_chanReplaced (s : State) (i : Bool) (c : DmaChan) (n : Nat) :
    s.chanReplaced { s with dma := { s.dma.put i c with nextSeq := n } } i c := by
  cases i <;> exact ⟨rfl, rfl, rfl, rfl, rfl⟩

section
variable {s : State} {i : Bool}

/-- In any other state Start has no effect. -/
theorem dmaStart_ignored (h : ¬(s.chan i).startable) : dmaStart s i = .ok () s := if_neg h

variable (h : (s.chan i).startable)
include h

theorem dmaStart_failed (hbad : (startChecks s (s.chan i)).any = true) :
    dmaStart s i = .ok () (s.setChan i { s.chan i with
      err := startChecks s (s.chan i), stat := .stopError, int := (s.chan i).eie }) :=
  (if_pos h).trans (if_pos hbad)

variable (hgood : ¬(startChecks s (s.chan i)).any = true)
include hgood

/-- A count of 0 completes at once (D10). -/
theorem dmaStart_empty (h0 : (s.chan i).tcnt = 0#18) :
    dmaStart s i = .ok () (s.setChan i { (s.chan i).accepted with stat := .complete, int := (s.chan i).cie }) :=
  (if_pos h).trans ((if_neg hgood).trans (if_pos h0))

variable (hcount : (s.chan i).tcnt ≠ 0#18)
include hcount

/-- The local memory that the channel names is absent (U24). -/
theorem dmaStart_absent (hlm : dmaLmPresent s (s.chan i) = false) :
    dmaStart s i = .refuse .dmaAbsentLocalMemory :=
  (if_pos h).trans ((if_neg hgood).trans ((if_neg hcount).trans (if_pos hlm)))

variable (hlm : dmaLmPresent s (s.chan i) = true)
include hlm

/-- Beside a channel in Run the started one waits. -/
theorem dmaStart_pends (hother : (s.chan !i).stat = .run) :
    ∃ t, dmaStart s i = .ok () t
      ∧ s.chanReplaced t i { (s.chan i).accepted with stat := .pended, seq := s.dma.nextSeq } :=
  have hpends := (if_neg hcount).trans ((if_neg (by simp [hlm])).trans (if_pos hother))
  ⟨_, (if_pos h).trans ((if_neg hgood).trans hpends), numbered_chanReplaced s i _ _⟩

theorem dmaStart_runs (hother : (s.chan !i).stat ≠ .run) :
    ∃ t, dmaStart s i = .ok () t ∧ s.chanReplaced t i (enteredRun s (s.chan i).accepted) := by
  have hrun : dmaStart s i = .ok () (enterRun (s.setChan i (s.chan i).accepted) i) :=
    (if_pos h).trans ((if_neg hgood).trans ((if_neg hcount).trans ((if_neg (by simp [hlm])).trans (if_neg hother))))
  rw [enterRun, State.setChan_setChan, State.chan_setChan, if_pos rfl] at hrun
  exact ⟨_, hrun, setChan_chanReplaced s i _⟩

end

/-! ## Stop (R706) -/

/-- Only a Stop of a channel in Run, over a bus with an undefined HSMP range, stops the machine (U29). -/
theorem stopBlocked_iff (s : State) (i : Bool) :
    stopBlocked s i = true ↔ (s.chan i).stat = .run ∧ s.hsmpBroken = true ∧ stopCount s i ≠ 0 := by
  simp [stopBlocked, and_assoc]

theorem dmaStop_pended {s : State} {i : Bool} (h : (s.chan i).stat = .pended) :
    dmaStop s i = s.setChan i { s.chan i with stat := .stopError, int := (s.chan i).int || (s.chan i).sie } := by
  simp [dmaStop, h]

theorem dmaStop_ignored {s : State} {i : Bool} (hrun : (s.chan i).stat ≠ .run)
    (hpended : (s.chan i).stat ≠ .pended) : dmaStop s i = s := by
  simp [dmaStop, hrun, hpended]

/-- A Stop keeps DMA_GCSW.EN and DMA_CHNSEL. -/
theorem dmaStop_control (s : State) (i : Bool) :
    (dmaStop s i).dma.en = s.dma.en ∧ (dmaStop s i).dma.chan = s.dma.chan := by
  obtain ⟨hen, hchan, -⟩ := drain_control i (stopCount s i) s.drawn
  unfold dmaStop
  dsimp only
  split
  · split
    · obtain ⟨hen', hchan', -⟩ := finish_control (drain i (stopCount s i) s.drawn) i .stopError
        ((drain i (stopCount s i) s.drawn).chan i).err ((drain i (stopCount s i) s.drawn).chan i).sie
      exact ⟨hen'.trans hen, hchan'.trans hchan⟩
    · exact ⟨hen, hchan⟩
  · split
    · exact ⟨DmaEngine.put_en _ _ _, DmaEngine.put_chan _ _ _⟩
    · exact ⟨rfl, rfl⟩

/-- A Stop of a channel in Run leaves it in Stop/Error, or in Complete after its last element. -/
theorem dmaStop_ends {s : State} {i : Bool} (hr : (s.chan i).stat = .run) :
    ((dmaStop s i).chan i).stat = .stopError ∨ ((dmaStop s i).chan i).stat = .complete := by
  have hends := drain_ends i (stopCount s i) (s := s.drawn) (.inl hr)
  rw [dmaStop, if_pos hr]
  dsimp only
  split
  · exact .inl (finish_spec ..).1
  · next hleft => exact hends.resolve_left hleft

/-! ## Reset (R707) -/

/-- Reset puts the channel in Idle; a pended other one enters Run where it was in Run. -/
theorem dmaReset_chan (s : State) (i : Bool) :
    (dmaReset s i).chan i = (s.chan i).cleared
      ∧ ((s.chan i).stat = .run → (s.chan !i).stat = .pended →
        (dmaReset s i).chan (!i) = enteredRun s (s.chan !i))
      ∧ (¬((s.chan i).stat = .run ∧ (s.chan !i).stat = .pended) → (dmaReset s i).chan (!i) = s.chan (!i))
      ∧ (dmaReset s i).dma.en = s.dma.en ∧ (dmaReset s i).dma.chan = s.dma.chan
      ∧ dmaReset s i = { s with dma := (dmaReset s i).dma } := by
  obtain ⟨-, hother, -⟩ := setChan_chanReplaced s i (s.chan i).cleared
  by_cases h : (s.chan i).stat = .run ∧ (s.chan !i).stat = .pended
  · have hreset : dmaReset s i = (s.setChan i (s.chan i).cleared).setChan (!i) (enteredRun s (s.chan !i)) := by
      simp only [dmaReset, startPended, enterRun, h.1, h.2, hother, if_true]
      rfl
    rw [hreset]
    refine ⟨?_, fun _ _ => ?_, fun hn => absurd h hn, ?_, ?_, rfl⟩
    all_goals simp [State.setChan, State.chan]
  · have hreset : dmaReset s i = s.setChan i (s.chan i).cleared := by
      simp only [dmaReset, startPended, hother]
      split
      · next hr => rw [if_neg fun hp => h ⟨hr, hp⟩]
      · rfl
    rw [hreset]
    refine ⟨?_, fun hr hp => absurd ⟨hr, hp⟩ h, fun _ => hother, ?_, ?_, rfl⟩
    all_goals simp [State.setChan, State.chan]

/-! ## The statement -/

/-- Settles O50: the MTSR ends as its command answers (`exec_dmaAct`), and each command is split by the state of the
channel. The theorem is not called `dmaStart`, which is the model's function. -/
theorem dmaStartCommands : Obligations.DmaStart := by
  refine ⟨?commands, fun s c => ⟨rfl, ?present⟩⟩
  case present =>
    simp only [dmaLmPresent, Bool.and_eq_true, bne_iff_ne]
    rfl
  intro s ra hallowed hdma hen i c acmd run goes size two twoOf uea' stuna euna iuna esup bad startable
  have hgoes : ∀ {t : State}, dmaCommand s acmd = .ok () t → goes t := mtsr_ok hallowed rfl hdma
  have hsize : c.elemSize = size := (elemSize_cases c).1
  have hstuna : (startChecks s c).stuna = true ↔ stuna := by
    rw [startChecks_stuna, uea_iff, twoD_iff, hsize]; rfl
  have heuna : (startChecks s c).euna = true ↔ euna := by rw [startChecks_euna, uea_iff, hsize]
  have hiuna : (startChecks s c).iuna = true ↔ iuna := by rw [startChecks_iuna, hsize]
  have hesup : (startChecks s c).esup = true ↔ esup := by rw [startChecks_esup, twoD_iff]
  have hbad : (startChecks s c).any = true ↔ bad := by
    rw [startChecks_any, hstuna, heuna, hiuna, hesup]
  have hstartable : c.startable ↔ startable := or_congr_right (and_congr_right' c.err.onlyDerr_iff)
  have hrun : run = complete s ((dmaCommand s acmd).bind fun _ t => .ok s.next4 t) := exec_dmaAct hallowed hdma
  have hunblocked : c.stat ≠ .run → ¬stopBlocked s i = true := fun hnot hb => hnot ((stopBlocked_iff s i).1 hb).1
  rw [← hbad, ← hstartable]
  refine ⟨?none, ?failed, ?empty, ?starts, ?absent, ?ignored, ?stopPended, ?stopRun, ?stopIgnored, ?reset⟩
  case none => exact fun h => hgoes (h ▸ dmaCommand_none s)
  case failed =>
    intro h hstart hfails
    exact ⟨startChecks s c, hgoes (by rw [h, dmaCommand_start hen, dmaStart_failed hstart hfails]; rfl), hstuna,
      heuna, hiuna, hesup, rfl, rfl, rfl⟩
  case empty =>
    intro h hstart hgood h0
    exact hgoes (by rw [h, dmaCommand_start hen, dmaStart_empty hstart hgood h0]; rfl)
  case starts =>
    intro h hstart hgood hcount hlm
    rw [h, dmaCommand_start hen] at hgoes
    by_cases hother : (s.chan !i).stat = .run
    · obtain ⟨t, ht, hself, hkept, hen', hchan, hframe⟩ := dmaStart_pends hstart hgood hcount hlm hother
      refine ⟨t, hgoes ht, ?_⟩
      rw [hself, if_pos hother]
      exact ⟨rfl, rfl, rfl, rfl, rfl, rfl, rfl, rfl, rfl, rfl, absurd hother, hen'.trans hen, hchan, hkept, hframe⟩
    · obtain ⟨t, ht, hself, hkept, hen', hchan, hframe⟩ := dmaStart_runs hstart hgood hcount hlm hother
      refine ⟨t, hgoes ht, ?_⟩
      rw [hself, if_neg hother]
      exact ⟨rfl, rfl, rfl, rfl, rfl, rfl, rfl, rfl, rfl, rfl, fun _ => ⟨rfl, rfl, rfl, startRow_eq s _⟩,
        hen'.trans hen, hchan, hkept, hframe⟩
  case absent =>
    intro h hstart hgood hcount hlm
    rw [hrun, h, dmaCommand_start hen, dmaStart_absent hstart hgood hcount hlm]
    rfl
  case ignored => exact fun h hstart => hgoes (by rw [h, dmaCommand_start hen, dmaStart_ignored hstart])
  case stopPended =>
    intro h hpended
    have hnot : c.stat ≠ .run := by simp [hpended]
    exact hgoes (by rw [h, dmaCommand_stop hen, if_neg (hunblocked hnot), dmaStop_pended hpended]; rfl)
  case stopRun =>
    intro h hr
    by_cases hblocked : stopBlocked s i = true
    · obtain ⟨-, hbroken, -⟩ := (stopBlocked_iff s i).1 hblocked
      refine .inl ⟨hbroken, ?_⟩
      rw [hrun, h, dmaCommand_stop hen, if_pos hblocked]
      rfl
    · obtain ⟨n, f, h0, hn, hcfg, htrace, hstop⟩ := dmaStop_run hr
      obtain ⟨hen', hchan⟩ := dmaStop_control s i
      refine .inr ⟨n, f, dmaStop s i, hgoes (by rw [h, dmaCommand_stop hen, if_neg hblocked]), h0, hn, htrace,
        ⟨fun hleft => hstop.trans (if_neg hleft), fun hmoving => ?_⟩, dmaStop_ends hr, hen'.trans hen, hchan,
        State.eq_of_sansDma (dmaStop_moved s i).1⟩
      obtain ⟨hself, hpended, hkept, hframe⟩ :=
        finish_restart (f n) i (new := .stopError) ((f n).chan i).err ((f n).chan i).sie nofun
      rw [hstop, if_pos hmoving]
      refine ⟨?_, fun hp => ?_, hkept, hframe⟩
      · rw [hself, restartRow, twoD, hcfg]
        rfl
      · rw [hpended hp, enteredRun_eq, twoD, hcfg]
        rfl
  case stopIgnored =>
    intro h hnot hpended
    exact hgoes (by rw [h, dmaCommand_stop hen, if_neg (hunblocked hnot), dmaStop_ignored hnot hpended])
  case reset =>
    intro h
    obtain ⟨hself, hpended, hother, hen', hchan, hframe⟩ := dmaReset_chan s i
    refine ⟨_, hgoes (h ▸ dmaCommand_reset hen), hself, fun hrun hp => ?_, hother, hen'.trans hen, hchan, hframe⟩
    rw [hpended hrun hp, enteredRun_eq]
    rfl

end Sys2Proof.Machine
end

section
/-! PROOFS. Statement O51: one element, the engine's share of a step, and writes to a channel's set-up registers. -/

namespace Sys2Proof.Machine

/-! ## Elements that the bus refuses (R723, D25) -/

/-- Some byte of a span, which may go round at 2^32, is served by a kind of region. -/
theorem span_any_busAddr_iff (c : Config) (pa n : Nat) (k : RegionKind) :
    (span pa n).any (fun a => c.regionOf a == k) = true ↔ ∃ j < n, c.regionOf (busAddr (pa + j)) = k := by
  simp [span]

/-- A bus access with a byte that nothing serves is refused, in either direction. -/
theorem copyChunk_refused {s : State} {pa n : Nat} (c : DmaChan) (off : Nat)
    (h : ∃ j < n, s.cfg.regionOf (busAddr (pa + j)) = .unserved) : copyChunk s c off pa n = none := by
  have hspan := (span_any_busAddr_iff s.cfg pa n .unserved).2 h
  unfold copyChunk
  split
  · rw [State.busWrite, List.length_map, List.length_range, if_pos hspan]
  · rw [State.busRead, if_pos hspan]

/-- An element with a byte that nothing serves is refused, by its first bus access or by its second. -/
theorem copyElement_refused {s : State} {c : DmaChan}
    (h : ∃ j < c.elemSize, s.cfg.regionOf (busAddr (c.wExtAddr.toNat + j)) = .unserved) :
    ∃ t, copyElement s c = (t, true) := by
  obtain ⟨j, hj, hunserved⟩ := h
  cases hfirst : copyChunk s c c.wIntOff c.wExtAddr.toNat (min c.elemSize 4) with
  | none => exact ⟨s, by simp only [copyElement, hfirst]⟩
  | some t =>
    have hbeyond : ¬j < min c.elemSize 4 := fun hlt => by
      rw [copyChunk_refused c c.wIntOff ⟨j, hlt, hunserved⟩] at hfirst
      cases hfirst
    have h8 : c.elemSize = 8 := by
      have := (elemSize_cases c).2
      omega
    obtain ⟨⟨hsans, -⟩, -⟩ := copyChunk_moved hfirst
    obtain ⟨hcfg, -⟩ := State.sansDma_keeps hsans
    have hsecond : copyChunk t c (c.wIntOff + 4) (c.wExtAddr.toNat + 4) 4 = none := by
      refine copyChunk_refused c _ ⟨j - 4, by omega, ?_⟩
      rw [hcfg, show c.wExtAddr.toNat + 4 + (j - 4) = c.wExtAddr.toNat + j by omega]
      exact hunserved
    exact ⟨t, by simp only [copyElement, hfirst, hsecond]; rw [if_neg (by omega)]⟩

/-- A refused element ends the transfer with EBUS (R723). -/
theorem element_refused {s t : State} {i : Bool} (h : copyElement s (s.chan i) = (t, true)) :
    element s i = finish t i .stopError { (s.chan i).err with ebus := true } (s.chan i).eie := by
  unfold element
  dsimp only
  rw [h]

/-- Moving the bytes of an element, refused or not, leaves the channels as they are. -/
theorem copyElement_keeps {s u : State} {c : DmaChan} {refused : Bool} (h : copyElement s c = (u, refused)) :
    s.dmaMoved u ∧ ∀ j, u.chan j = s.chan j := by
  obtain ⟨hmoved, hdma⟩ := copyElement_moved s c
  rw [h] at hmoved hdma
  exact ⟨hmoved, fun j => congrArg (DmaEngine.get · j) hdma⟩

/-! ## The bytes of an element that memory serves -/

/-- The engine's bank of the DLM begins at 0 or at its half (R530, R710). -/
theorem dmaBank_eq (s : State) (off : Nat) :
    s.dmaBank off = (if s.dbm && !s.dbb then s.cfg.dlmSize / 2 else 0) + off := by
  unfold State.dmaBank
  split <;> simp

/-- The place in its local memory of an offset of the channel. -/
def lmPlace (s : State) (c : DmaChan) (off : Nat) : Nat :=
  (if c.toDlm then (if s.dbm && !s.dbb then s.cfg.dlmSize / 2 else 0) else 0) + off

/-- An offset below the limit does not go round. -/
theorem lmByte_eq {s : State} {c : DmaChan} {off : Nat} (h : off < dmaLimit s c) :
    lmByte s c off = if c.toDlm then s.dlm.read (lmPlace s c off) else s.ilm.read (lmPlace s c off) := by
  simp only [lmByte, Nat.mod_eq_of_lt h, dmaBank_eq, lmPlace]
  cases c.toDlm <;> simp

theorem getD_map_range (f : Nat → Byte) {n j : Nat} (h : j < n) : ((List.range n).map f).getD j 0#8 = f j := by
  simp [h]

/-- The address at a distance above a start, round 2^32, is the address that distance was taken of. -/
theorem busAddr_add_busOffset {pa k : Nat} (hk : k < 4294967296) : busAddr (pa + busOffset pa k) = k := by
  unfold busOffset busAddr
  omega

/-- Memory after an outward element: the bytes of the local memory at the external address, going round at 2^32. -/
theorem read_outward {s : State} {c : DmaChan} (hmem : s.mem.wf = true) (hram : s.ramAt c.wExtAddr.toNat c.elemSize)
    (hlimit : c.wIntOff + c.elemSize ≤ dmaLimit s c) (k : Nat) :
    (writeBytes s.cfg s.mem c.wExtAddr.toNat
        ((List.range c.elemSize).map (fun j => lmByte s c (c.wIntOff + j)))).read k =
      if k < 4294967296 ∧ busOffset c.wExtAddr.toNat k < c.elemSize then
        (if c.toDlm then s.dlm.read (lmPlace s c c.wIntOff + busOffset c.wExtAddr.toNat k)
          else s.ilm.read (lmPlace s c c.wIntOff + busOffset c.wExtAddr.toNat k))
      else s.mem.read k := by
  have hle : c.elemSize ≤ 4294967296 := by
    have := (elemSize_cases c).2
    omega
  rw [read_writeBytes s.cfg hmem _ _ (by simpa using hle), List.length_map, List.length_range]
  by_cases hk : k < 4294967296 ∧ busOffset c.wExtAddr.toNat k < c.elemSize
  · obtain ⟨hlt, hin⟩ := hk
    have hregion : s.cfg.regionOf k ≠ .device := by
      have h := hram _ hin
      rw [busAddr_add_busOffset hlt] at h
      simp [h]
    rw [if_pos ⟨hlt, hin, hregion⟩, if_pos ⟨hlt, hin⟩, getD_map_range _ hin, lmByte_eq (by omega), lmPlace, lmPlace,
      Nat.add_assoc]
  · rw [if_neg hk, if_neg fun ⟨hlt, hin, _⟩ => hk ⟨hlt, hin⟩]

/-- A local memory after an inward element: the bytes of memory from the external address, going round at 2^32. -/
theorem read_inward {m : LocalMem} (hm : m.wf = true) (mem : Memory) (place pa n k : Nat) :
    (m.writeAll place ((List.range n).map (fun j => mem.read (busAddr (pa + j))))).read k =
      if place ≤ k ∧ k < place + n then mem.read (busAddr (pa + (k - place))) else m.read k := by
  rw [LocalMem.read_writeAll hm, List.length_map, List.length_range]
  by_cases hk : place ≤ k ∧ k < place + n
  · rw [if_pos hk, if_pos hk, getD_map_range _ (by omega)]
  · rw [if_neg hk, if_neg hk]

/-- An element that memory serves, inside the local memory, is moved, and only memories change. -/
theorem copyElement_served {s : State} {c : DmaChan} (hram : s.ramAt c.wExtAddr.toNat c.elemSize)
    (hlimit : c.wIntOff + c.elemSize ≤ dmaLimit s c) :
    ∃ u, copyElement s c = (u, false) ∧ u = { s with mem := u.mem, ilm := u.ilm, dlm := u.dlm } := by
  cases ho : c.outward with
  | true => exact ⟨_, copyElement_out ho hram, rfl⟩
  | false =>
    refine ⟨_, copyElement_in ho hram hlimit, ?_⟩
    split <;> rfl

section
variable {s u : State} {c : DmaChan} (hmem : s.memoryOk) (hram : s.ramAt c.wExtAddr.toNat c.elemSize)
  (hlimit : c.wIntOff + c.elemSize ≤ dmaLimit s c) (hcopy : copyElement s c = (u, false))
include hmem hram hlimit hcopy

theorem copyElement_outward_reads (ho : c.outward = true) :
    (∀ k, u.mem.read k =
      if k < 4294967296 ∧ busOffset c.wExtAddr.toNat k < c.elemSize then
        (if c.toDlm then s.dlm.read (lmPlace s c c.wIntOff + busOffset c.wExtAddr.toNat k)
          else s.ilm.read (lmPlace s c c.wIntOff + busOffset c.wExtAddr.toNat k))
      else s.mem.read k)
      ∧ u.ilm = s.ilm ∧ u.dlm = s.dlm := by
  obtain ⟨hwf, -, -⟩ := hmem
  rw [copyElement_out ho hram, Prod.mk.injEq] at hcopy
  obtain ⟨rfl, -⟩ := hcopy
  exact ⟨read_outward hwf hram hlimit, rfl, rfl⟩

theorem copyElement_inward_reads (ho : c.outward = false) :
    u.mem = s.mem ∧
      if c.toDlm then
        u.ilm = s.ilm ∧ ∀ k, u.dlm.read k =
          if lmPlace s c c.wIntOff ≤ k ∧ k < lmPlace s c c.wIntOff + c.elemSize then
            s.mem.read (busAddr (c.wExtAddr.toNat + (k - lmPlace s c c.wIntOff)))
          else s.dlm.read k
      else
        u.dlm = s.dlm ∧ ∀ k, u.ilm.read k =
          if lmPlace s c c.wIntOff ≤ k ∧ k < lmPlace s c c.wIntOff + c.elemSize then
            s.mem.read (busAddr (c.wExtAddr.toNat + (k - lmPlace s c c.wIntOff)))
          else s.ilm.read k := by
  obtain ⟨-, hilm, hdlm⟩ := hmem
  rw [copyElement_in ho hram hlimit, Prod.mk.injEq] at hcopy
  obtain ⟨rfl, -⟩ := hcopy
  cases hd : c.toDlm
  · have hplace : lmPlace s c c.wIntOff = c.wIntOff := by simp [lmPlace, hd]
    rw [hplace]
    exact ⟨rfl, rfl, read_inward hilm _ _ _ _⟩
  · have hplace : lmPlace s c c.wIntOff = s.dmaBank c.wIntOff := by simp [lmPlace, hd, dmaBank_eq]
    rw [hplace]
    exact ⟨rfl, rfl, read_inward hdlm _ _ _ _⟩

end

/-! ## The channel after an element (R720, R722, R730) -/

/-- The working values after one more element. -/
def DmaChan.advanced (s : State) (c : DmaChan) : DmaChan :=
  { c with
    wIntOff := c.wIntOff + c.elemSize
    wExtAddr := c.wExtAddr + BitVec.ofNat 32 (nextStride s c).1
    wCount := c.wCount - 1
    wRow := (nextStride s c).2 }

/-- The stride to the next element and the row it lies in (R730). -/
theorem nextStride_eq (s : State) (c : DmaChan) :
    let two := s.cfg.dma2det = true ∧ c.setup.getLsbD 20 = true
    nextStride s c =
      (if two ∧ c.wRow ≤ 1 then c.htstr.toNat else (c.setup.extractLsb' 4 12).toNat,
        if two then (if c.wRow ≤ 1 then rowCount s c.wecnt else c.wRow - 1) else c.wRow) := by
  have hlast : c.wRow - 1 = 0 ↔ c.wRow ≤ 1 := by omega
  simp only [nextStride, twoD_iff, hlast]
  by_cases h2 : s.cfg.dma2det = true ∧ c.setup.getLsbD 20 = true
  · simp only [eq_true h2, true_and, if_true]
    split <;> rfl
  · simp only [eq_false h2, false_and, if_false]
    rfl

/-- What is written back to STWECNT, by conditions on the registers (R722, log 42). -/
theorem restartRow_eq (s : State) (c : DmaChan) :
    restartRow s c =
      if (s.cfg.dma2det = true ∧ c.setup.getLsbD 20 = true) ∧ s.cfg.dmaWecntMinus1 = true
        ∧ s.cfg.dmaRestartMinus1 = true then c.wRow - 1 else c.wRow := by
  simp only [restartRow, Bool.and_eq_true, twoD_iff, and_assoc]

/-- Leaving Run by an error, from a state the engine has moved to: the restart values in the registers, and the other
channel in Run where it was pended (R701, R722). -/
theorem finish_stopError {s u t : State} {i : Bool} {c : DmaChan} {err : DmaErr} {irq : Bool}
    (ht : t = finish u i .stopError err irq) (hmoved : s.dmaMoved u) (hself : u.chan i = c)
    (hother : u.chan (!i) = s.chan (!i)) :
    (t.chan i).stat = .stopError ∧ (t.chan i).err = err ∧ (t.chan i).int = (c.int || irq)
      ∧ (t.chan i).esaddr = c.wExtAddr ∧ (t.chan i).isaddr = BitVec.ofNat 20 c.wIntOff
      ∧ (t.chan i).tcnt = BitVec.ofNat 18 c.wCount ∧ (t.chan i).stwecnt = BitVec.ofNat 16 (restartRow s c)
      ∧ (t.chan i).setup = c.setup ∧ (t.chan i).wecnt = c.wecnt ∧ (t.chan i).htstr = c.htstr
      ∧ ((s.chan !i).stat = .pended → t.chan (!i) = enteredRun s (s.chan !i))
      ∧ ((s.chan !i).stat ≠ .pended → t.chan (!i) = s.chan (!i)) := by
  obtain ⟨hchan, hpended, hkept, -⟩ := finish_restart u i (new := .stopError) err irq nofun
  obtain ⟨-, hrow⟩ := dmaMoved_reads hmoved c
  obtain ⟨henter, -⟩ := dmaMoved_reads hmoved (s.chan !i)
  rw [hother, henter] at hpended
  rw [hother] at hkept
  rw [ht, hchan, hself, hrow]
  exact ⟨rfl, rfl, rfl, rfl, rfl, rfl, rfl, rfl, rfl, rfl, hpended, hkept⟩

/-- Leaving Run after the last element, likewise; STWECNT is free under DMA_2DET (U25). -/
theorem finish_complete {s u t : State} {i : Bool} {c : DmaChan} {err : DmaErr} {irq : Bool}
    (ht : t = finish u i .complete err irq) (hmoved : s.dmaMoved u) (hself : u.chan i = c)
    (hother : u.chan (!i) = s.chan (!i)) :
    (t.chan i).stat = .complete ∧ (t.chan i).err = err ∧ (t.chan i).int = (c.int || irq)
      ∧ (t.chan i).tcnt = BitVec.ofNat 18 c.wCount ∧ (t.chan i).esaddr = c.wExtAddr
      ∧ (t.chan i).isaddr = BitVec.ofNat 20 c.wIntOff
      ∧ (s.cfg.dma2det = false → (t.chan i).stwecnt = BitVec.ofNat 16 (restartRow s c))
      ∧ (t.chan i).setup = c.setup ∧ (t.chan i).wecnt = c.wecnt ∧ (t.chan i).htstr = c.htstr
      ∧ (((s.chan !i).stat = .pended → t.chan (!i) = enteredRun s (s.chan !i))
        ∧ ((s.chan !i).stat ≠ .pended → t.chan (!i) = s.chan (!i)))
      ∧ t = { u with dma := t.dma, draws := t.draws } := by
  obtain ⟨hstat, herr, hint, htcnt, hesaddr, hisaddr, hsetup, hwecnt, hhtstr, hpended, hkept, hframe, -⟩ :=
    finish_spec u i .complete err irq
  have hcfg : u.cfg = s.cfg := (State.sansDma_keeps hmoved.1).1
  have hstwecnt := finish_stwecnt u i .complete err irq
  obtain ⟨-, hrow⟩ := dmaMoved_reads hmoved c
  obtain ⟨henter, -⟩ := dmaMoved_reads hmoved (s.chan !i)
  rw [hself] at hint htcnt hesaddr hisaddr hsetup hwecnt hhtstr hstwecnt
  rw [hrow, hcfg] at hstwecnt
  rw [hother, henter] at hpended
  rw [hother] at hkept
  subst ht
  exact ⟨hstat, herr, hint, htcnt, hesaddr, hisaddr, fun h => hstwecnt (.inr h), hsetup, hwecnt, hhtstr,
    ⟨hpended, hkept⟩, hframe⟩

/-- Past the end of the local memory the corrupted bytes leave the channels as they are. -/
theorem corrupted_chan {s u : State} (i : Bool) (c d : DmaChan) (hmoved : s.dmaMoved u)
    (hkept : ∀ j, u.chan j = s.chan j) :
    let v := if c.outward then u.setChan i d else corruptLm (u.setChan i d) c
    s.dmaMoved v ∧ v.chan i = d ∧ v.chan (!i) = s.chan (!i) := by
  have hset : s.dmaMoved (u.setChan i d) := State.dmaMoved_trans hmoved (setChan_dmaMoved u i d)
  obtain ⟨hself, hother, -⟩ := setChan_chanReplaced u i d
  obtain ⟨hcorrupt, hdma⟩ := corruptLm_moved (u.setChan i d) c
  have hchan : ∀ j, (corruptLm (u.setChan i d) c).chan j = (u.setChan i d).chan j := fun j =>
    congrArg (DmaEngine.get · j) hdma
  intro v
  simp only [v]
  split
  · exact ⟨hset, hself, hother.trans (hkept _)⟩
  · exact ⟨State.dmaMoved_trans hset hcorrupt, (hchan i).trans hself, (hchan _).trans (hother.trans (hkept _))⟩

/-- Leaving Run touches no memory. -/
theorem finish_memories (s : State) (i : Bool) (new : DmaStat) (err : DmaErr) (irq : Bool) :
    let t := finish s i new err irq
    t.mem = s.mem ∧ t.ilm = s.ilm ∧ t.dlm = s.dlm := by
  obtain ⟨-, -, -, -, -, -, -, -, -, -, -, hframe, -⟩ := finish_spec s i new err irq
  intro t
  rw [show t = _ from hframe]
  exact ⟨rfl, rfl, rfl⟩

section
variable {s u : State} {i : Bool} (hcopy : copyElement s (s.chan i) = (u, false))
include hcopy

theorem element_completes (hlast : (s.chan i).wCount ≤ 1) :
    element s i = finish (u.setChan i ((s.chan i).advanced s)) i .complete (s.chan i).err (s.chan i).cie :=
  (element_eq hcopy rfl).trans (if_pos (by show (s.chan i).wCount - 1 = 0; omega))

theorem element_outOfRange (hmore : 1 < (s.chan i).wCount)
    (hend : dmaLimit s (s.chan i) ≤ (s.chan i).wIntOff + (s.chan i).elemSize) :
    element s i =
      finish (if (s.chan i).outward then u.setChan i ((s.chan i).advanced s)
        else corruptLm (u.setChan i ((s.chan i).advanced s)) (s.chan i)) i .stopError
        { (s.chan i).err with ioor := true } (s.chan i).eie :=
  (element_eq hcopy rfl).trans ((if_neg (by show ¬(s.chan i).wCount - 1 = 0; omega)).trans (if_pos hend))

theorem element_goesOn (hmore : 1 < (s.chan i).wCount)
    (hin : (s.chan i).wIntOff + (s.chan i).elemSize < dmaLimit s (s.chan i)) :
    element s i = u.setChan i ((s.chan i).advanced s) :=
  (element_eq hcopy rfl).trans ((if_neg (by show ¬(s.chan i).wCount - 1 = 0; omega)).trans (if_neg (by
    show ¬_ ≤ (s.chan i).wIntOff + _; omega)))

/-- Only an inward element at the end of the local memory, with more to come, may corrupt bytes (R723, U26). -/
theorem element_memories (h : (s.chan i).outward = true ∨ (s.chan i).wCount ≤ 1
      ∨ (s.chan i).wIntOff + (s.chan i).elemSize < dmaLimit s (s.chan i)) :
    (element s i).mem = u.mem ∧ (element s i).ilm = u.ilm ∧ (element s i).dlm = u.dlm := by
  by_cases hlast : (s.chan i).wCount ≤ 1
  · rw [element_completes hcopy hlast]
    exact finish_memories _ _ _ _ _
  by_cases hin : (s.chan i).wIntOff + (s.chan i).elemSize < dmaLimit s (s.chan i)
  · rw [element_goesOn hcopy (by omega) hin]
    exact ⟨rfl, rfl, rfl⟩
  have hout : (s.chan i).outward = true := by simpa [hlast, hin] using h
  rw [element_outOfRange hcopy (by omega) (by omega), if_pos hout]
  exact finish_memories _ _ _ _ _

end

/-! ## The engine's share of a step (R720, log 41) -/

/-- Over a bus with an undefined HSMP range the engine moves nothing, or the step stops (U29, log 45). -/
theorem dmaBurst_broken {s : State} {i : Bool} (hr : s.running = some i) (hbroken : s.hsmpBroken = true)
    (hfree : dmaBlocked s = false) : dmaBurst s = s.drawn := by
  have h0 : burstCount s = 0 := by simpa [dmaBlocked, hr, hbroken] using hfree
  rw [dmaBurst, hr]
  simp only [h0, dmaRun]

/-- A step whose engine would move over such a bus stops. -/
theorem step_blocked {s : State} (hsample : (sample s).2 = none) (hblocked : dmaBlocked (sample s).1 = true) :
    step s = .fault .hsmpRangePattern := by
  have hs : sample s = ((sample s).1, none) := by rw [← hsample]
  rw [step, runStep, hs]
  simp only [hblocked, if_true]

/-! ## Writes to the set-up registers (R278, R701, D41) -/

/-- The registers that set a channel up are all written through `dmaSetupWrite`. -/
theorem writeSr_setUp {s : State} {r : Sr} {v : Word}
    (h : r = .dmaSetup ∧ (v.extractLsb' 2 2 = 3#2 → s.cfg.dmaTes8 = true) ∧ v.extractLsb' 21 3 ≠ 3#3
      ∨ r = .dmaIsaddr ∨ r = .dmaEsaddr ∨ r = .dmaTcnt ∨ r = .dma2dset ∨ r = .dma2dsctl) :
    ∃ f, writeSr s r v = .ok () (dmaSetupWrite s f) := by
  obtain ⟨rfl, htes, hca⟩ | rfl | rfl | rfl | rfl | rfl := h
  · exact ⟨_, if_neg (dmaSetupReserved_ne_true htes hca)⟩
  all_goals exact ⟨_, rfl⟩

/-- A write to a channel in Run or Pended is discarded with a disruption error. -/
theorem dmaSetupWrite_busy {s : State} (f : DmaChan → DmaChan)
    (h : (s.chan s.selected).stat = .run ∨ (s.chan s.selected).stat = .pended) :
    dmaSetupWrite s f = disrupt s s.selected := if_pos h

theorem disrupt_run {s : State} {i : Bool} (h : (s.chan i).stat = .run) :
    disrupt s i = finish s i .stopError { (s.chan i).err with derr := true } (s.chan i).eie := if_pos h

theorem disrupt_pended {s : State} {i : Bool} (h : (s.chan i).stat = .pended) :
    disrupt s i = s.setChan i { s.chan i with
      stat := .stopError, err := { (s.chan i).err with derr := true }, int := (s.chan i).int || (s.chan i).eie } :=
  if_neg (by simp [h])

/-! ## The statement -/

/-- Settles O51: an element is refused, goes on, or leaves Run (`copyElement_refused`, `element_goesOn`,
`element_outOfRange`, `element_completes`); a burst is a sequence of elements (`dmaRun_trace`); a set-up write to a busy
channel disrupts it. -/
theorem dmaElementOutward : Obligations.DmaElementOutward := by
  refine ⟨fun s i => ?element, fun s hsample => ?burst, fun s ra idx r hallowed hname hexists hr => ?setUp⟩
  case element =>
    intro c size two row stride back c' toDlm outward bank off lm ext byte t o left
    obtain ⟨hen, hchan, hseq⟩ := element_control s i
    have hsize : c.elemSize = size := (elemSize_cases c).1
    have hback : ∀ d : DmaChan, d.setup = c.setup → BitVec.ofNat 16 (restartRow s d) = back d.wRow := fun d hd => by
      rw [restartRow_eq, hd]
    refine ⟨State.eq_of_sansDma (element_moved s i).1, hen, hchan, hseq, fun hunserved => ?refused,
      fun hmem hram hlimit => ?served⟩
    case refused =>
      obtain ⟨u, hcopy⟩ := copyElement_refused (s := s) (c := c) (hsize ▸ hunserved)
      obtain ⟨hmoved, hkept⟩ := copyElement_keeps hcopy
      have h := finish_stopError (t := t) (element_refused hcopy) hmoved (hkept i) (hkept _)
      rw [hback _ rfl] at h
      exact h
    case served =>
      rw [← hsize] at hram hlimit
      obtain ⟨u, hcopy, hframe⟩ := copyElement_served hram hlimit
      obtain ⟨hmoved, hkept⟩ := copyElement_keeps hcopy
      have hadvanced : c.advanced s = c' := by
        rw [DmaChan.advanced, nextStride_eq, hsize]
        rfl
      rw [← hadvanced, ← hsize]
      refine ⟨fun hout => ?outward, fun hin hkeeps => ?inward, fun hmore hinside => ?goesOn,
        fun hmore hend => ?outOfRange, fun hlast => ?completes⟩
      case outward =>
        obtain ⟨htmem, htilm, htdlm⟩ := element_memories hcopy (.inl hout)
        obtain ⟨hreads, hilm, hdlm⟩ := copyElement_outward_reads hmem hram hlimit hcopy hout
        have hext : ∀ k, busOffset c.wExtAddr.toNat k = ext k := fun k => by
          rw [busOffset, busAddr_of_lt c.wExtAddr.isLt]
        simp only [hext] at hreads
        exact ⟨fun k => htmem ▸ hreads k, htilm.trans hilm, htdlm.trans hdlm⟩
      case inward =>
        obtain ⟨htmem, htilm, htdlm⟩ := element_memories hcopy (.inr hkeeps)
        obtain ⟨hsame, hreads⟩ := copyElement_inward_reads hmem hram hlimit hcopy hin
        rw [show t.mem = _ from htmem, show t.ilm = _ from htilm, show t.dlm = _ from htdlm]
        exact ⟨hsame, hreads⟩
      case goesOn =>
        have ht : t = u.setChan i (c.advanced s) := element_goesOn hcopy hmore hinside
        obtain ⟨hself, hother, -⟩ := setChan_chanReplaced u i (c.advanced s)
        rw [ht]
        refine ⟨hself, hother.trans (hkept _), ?_⟩
        rw [hframe]
        rfl
      case outOfRange =>
        obtain ⟨hv, hself, hother⟩ := corrupted_chan i c (c.advanced s) hmoved hkept
        have h := finish_stopError (t := t) (element_outOfRange hcopy hmore hend.ge) hv hself hother
        rw [hback (c.advanced s) rfl] at h
        exact h
      case completes =>
        obtain ⟨hself, hother, -⟩ := setChan_chanReplaced u i (c.advanced s)
        obtain ⟨hstat, herr, hint, htcnt, hesaddr, hisaddr, hstwecnt, hsetup, hwecnt, hhtstr, hleft, htframe⟩ :=
          finish_complete (t := t) (element_completes hcopy hlast.le)
            (State.dmaMoved_trans hmoved (setChan_dmaMoved u i _)) hself (hother.trans (hkept _))
        have hcount : (c.advanced s).wCount = 0 := by
          show c.wCount - 1 = 0
          rw [hlast]
        rw [hcount] at htcnt
        rw [hback (c.advanced s) rfl] at hstwecnt
        refine ⟨hstat, herr, hint, htcnt, hesaddr, hisaddr, hstwecnt, hsetup, hwecnt, hhtstr, hleft, ?_⟩
        rw [htframe, hframe]
        rfl
  case burst =>
    intro u b
    refine ⟨dmaBurst_idle, fun i hi => ⟨?_, State.eq_of_sansDma (dmaBurst_moved u).1, fun hbroken => ?_⟩⟩
    · obtain ⟨n, f, h0, hn, htrace⟩ := dmaRun_trace (burstCount u) u.drawn
      refine ⟨n, f, h0, ?_, htrace⟩
      rw [← hn]
      show dmaBurst u = _
      rw [dmaBurst, hi]
    · cases hblocked : dmaBlocked u with
      | true => exact .inl (step_blocked hsample hblocked)
      | false => exact .inr (dmaBurst_broken hi hbroken hblocked)
  case setUp =>
    intro i c o twoOf hbusy
    obtain ⟨f, hf⟩ := writeSr_setUp hr
    rw [dmaSetupWrite_busy f hbusy] at hf
    refine ⟨disrupt s i, mtsr_ok hallowed hname hexists hf, ?_⟩
    obtain hrun | hpended := hbusy
    · obtain ⟨hen, hchan, hseq⟩ := finish_control s i .stopError { c.err with derr := true } c.eie
      obtain ⟨hself, hstarts, hkept, hframe⟩ :=
        finish_restart s i (new := .stopError) { c.err with derr := true } c.eie nofun
      have hnot : c.stat ≠ .pended := by simp [hrun]
      rw [disrupt_run hrun, hself]
      refine ⟨rfl, rfl, rfl, rfl, rfl, rfl, fun _ => ⟨rfl, rfl, rfl, rfl, fun ho => ?_, hkept⟩,
        fun hp => absurd hp hnot, hen, hchan, hseq, hframe⟩
      rw [hstarts ho, enteredRun_eq]
      rfl
    · have hnot : c.stat ≠ .run := by simp [hpended]
      rw [disrupt_pended hpended]
      obtain ⟨hself, hkept, hen, hchan, hframe⟩ := setChan_chanReplaced s i { c with
        stat := .stopError, err := { c.err with derr := true }, int := c.int || c.eie }
      rw [hself]
      exact ⟨rfl, rfl, rfl, rfl, rfl, rfl, fun h => absurd h hnot, fun _ => ⟨rfl, hkept⟩, hen, hchan,
        DmaEngine.put_nextSeq _ _ _, hframe⟩

end Sys2Proof.Machine
end

section
/-! PROOFS. Statements O23 to O25: where an interruption goes, and what an entry to level 1 or 2 saves. -/

namespace Sys2Proof.Machine

/-- Settles O23: the vector's number (`toNat_vectorAddress`), whose offset stays in the block of the base. -/
theorem vectorAddresses : Obligations.VectorAddresses := fun c _ s =>
  ⟨toNat_vectorAddress s.ir.ivb c, c.entry_offset_lt _⟩

theorem two_le_maxLevel (c : Config) : 2 ≤ c.maxLevel := by
  unfold Config.maxLevel
  split <;> decide

/-- An entry from level 0 goes to level 1, which every implementation has. -/
theorem level0_below {s : State} (h : s.level = 0#2) : s.level.toNat + 1 < s.cfg.maxLevel := by
  rw [h]
  exact two_le_maxLevel s.cfg

/-- An entry from level 1 goes to level 2 where there are three levels. -/
theorem level1_below {s : State} (hc : s.cfg.intlc = false) (h : s.level = 1#2) :
    s.level.toNat + 1 < s.cfg.maxLevel := by
  rw [h, Config.maxLevel, hc]
  decide

/-- The registers after an entry from level 0 (R785): the P_ copies stay. -/
theorem entryRegs_of_level0 {s : State} (c : Cause) (pc : Word) (h : s.level = 0#2) :
    entryRegs s c pc = { s.ir with
      ipsw := s.ir.psw
      ipc := pc
      psw := entryPsw s.cfg s.ir.intMask s.ir.psw 1#2 c.ime c.dme c.dbg
      itype := itypeOf s c
      eva := c.eva.getD s.ir.eva } := by
  rw [entryRegs, h]
  rfl

/-- The registers after an entry from level 1 (R786): those of level 1 move to their P_ copies. -/
theorem entryRegs_of_level1 {s : State} (c : Cause) (pc : Word) (h : s.level = 1#2) :
    entryRegs s c pc = { s.ir with
      pIpsw := s.ir.ipsw
      pIpc := s.ir.ipc
      pItype := s.ir.itype
      pEva := s.ir.eva
      pP0 := s.x p0
      pP1 := s.x p1
      ipsw := s.ir.psw
      ipc := pc
      psw := entryPsw s.cfg s.ir.intMask s.ir.psw 2#2 c.ime c.dme c.dbg
      itype := itypeOf s c
      eva := c.eva.getD s.ir.eva } := by
  rw [entryRegs, h]
  rfl

/-- Settles O24: the entry's registers are those of `entryRegs_of_level0`, and no entry writes a general register. -/
theorem entryFromLevel0 : Obligations.EntryFromLevel0 := by
  intro c pc s h t
  have hir := (enter_level (c := c) (pc := pc) (level0_below h)).1
  rw [entryRegs_of_level0 c pc h] at hir
  rw [hir]
  exact ⟨rfl, rfl, rfl, rfl, rfl, rfl, rfl, rfl, rfl, enter_gpr c pc s⟩

/-- Settles O25: the entry's registers are those of `entryRegs_of_level1`. -/
theorem entryFromLevel1 : Obligations.EntryFromLevel1 := by
  intro c pc s hc h t
  have hir := (enter_level (c := c) (pc := pc) (level1_below hc h)).1
  rw [entryRegs_of_level1 c pc h] at hir
  rw [hir]
  exact ⟨rfl, rfl, rfl, rfl, rfl, rfl, rfl, rfl, rfl, enter_gpr c pc s⟩

end Sys2Proof.Machine
end

section
/-! PROOFS. Statements O30 to O33: IRET at each level, and the round trip of an interruption at level 1. -/

namespace Sys2Proof.Machine

/-! ## Returning by level (R647) -/

/-- IRET in superuser mode completes with the return. -/
theorem exec_iret {s : State} (h : s.superuser = true) :
    exec .iret s = .next ((returnState s).retire s.pc (returnTarget s)) := by
  show complete s (privileged s (.ok (returnTarget s) (returnState s))) = _
  rw [privileged, if_pos h, complete_ok]

section
variable {s : State}

theorem atOverflow_iff : s.atOverflow = true ↔ s.cfg.maxLevel ≤ s.level.toNat := decide_eq_true_iff

theorem atOverflow_of_below (h : s.level.toNat < s.cfg.maxLevel) : s.atOverflow = false :=
  decide_eq_false (Nat.not_le.2 h)

theorem returnTarget_of_overflow (h : s.atOverflow = true) : returnTarget s = s.ir.oipc := if_pos h

theorem returnTarget_of_below (h : s.atOverflow = false) : returnTarget s = s.ir.ipc := by
  rw [returnTarget, h]
  rfl

/-- At the overflow level only PSW.INTL changes (R803). -/
theorem returnState_of_overflow (h : s.atOverflow = true) :
    returnState s = { s with ir := { s.ir with psw := setField s.ir.psw 1 (s.level - 1#2) } } := if_pos h

/-- At level 2 below the overflow level the P_ registers come back (R802). -/
theorem returnState_of_level2 (hbelow : s.atOverflow = false) (h : s.level = 2#2) :
    returnState s = { s with
      ir := { s.ir with
        psw := s.ir.ipsw
        ipsw := s.ir.pIpsw
        ipc := s.ir.pIpc
        itype := s.ir.pItype
        eva := s.ir.pEva }
      gpr := (s.gpr.set p0 s.ir.pP0).set p1 s.ir.pP1 } := by
  rw [returnState, hbelow, if_neg Bool.false_ne_true, if_pos h]

/-- At levels 0 and 1 only PSW comes back (R801, D39). -/
theorem returnState_of_low (hbelow : s.atOverflow = false) (h : s.level ≠ 2#2) :
    returnState s = { s with ir := { s.ir with psw := s.ir.ipsw } } := by
  rw [returnState, hbelow, if_neg Bool.false_ne_true, if_neg h]

/-- IRET at level 0 or 1 restores PSW and pc (R801, D39). -/
theorem exec_iret_of_low (hs : s.superuser = true) (h : s.level = 0#2 ∨ s.level = 1#2) :
    exec .iret s = .next ({ s with ir := { s.ir with psw := s.ir.ipsw } }.retire s.pc s.ir.ipc) := by
  have hlevel : s.level.toNat < 2 ∧ s.level ≠ 2#2 := by
    obtain h | h := h <;> rw [h] <;> decide
  obtain ⟨hlt, hne⟩ := hlevel
  have hbelow := atOverflow_of_below (hlt.trans_le (two_le_maxLevel s.cfg))
  rw [exec_iret hs, returnState_of_low hbelow hne, returnTarget_of_below hbelow]

/-- IRET at level 2 where there are three levels (R802). -/
theorem exec_iret_of_level2 (hs : s.superuser = true) (hc : s.cfg.intlc = false) (h : s.level = 2#2) :
    exec .iret s = .next ({ s with
      ir := { s.ir with
        psw := s.ir.ipsw
        ipsw := s.ir.pIpsw
        ipc := s.ir.pIpc
        itype := s.ir.pItype
        eva := s.ir.pEva }
      gpr := (s.gpr.set p0 s.ir.pP0).set p1 s.ir.pP1 }.retire s.pc s.ir.ipc) := by
  have hbelow : s.atOverflow = false := atOverflow_of_below (by rw [h, Config.maxLevel, hc]; decide)
  rw [exec_iret hs, returnState_of_level2 hbelow h, returnTarget_of_below hbelow]

end

/-- Settles O30: level 1 is below every overflow level and is not level 2 (`exec_iret_of_low`). -/
theorem iretFromLevel1 : Obligations.IretFromLevel1 := fun _ hs h => exec_iret_of_low hs (.inr h)

/-- Settles O31: level 2 by `exec_iret_of_level2`, level 0 as level 1. -/
theorem iretFromLevel2 : Obligations.IretFromLevel2 := fun _ hs =>
  ⟨fun h hc => exec_iret_of_level2 hs hc h, fun h => exec_iret_of_low hs (.inl h)⟩

/-! ## The level in the PSW -/

/-- PSW.INTL written is PSW.INTL read. -/
theorem field_setField_level (psw : Word) (l : BitVec 2) : field (setField psw 1 l) 1 2 = l :=
  BitVec.eq_of_getLsbD_eq fun i hi => by
    have hin : 1 + i < 1 + 2 ∧ 1 + i < 32 := by omega
    simp [hi, hin]

/-- Settles O32: at the overflow level `returnState` writes PSW.INTL only. -/
theorem iretFromOverflowLevel : Obligations.IretFromOverflowLevel := by
  intro s hs hlevel
  have hover : s.atOverflow = true := atOverflow_iff.2 hlevel.ge
  refine ⟨_, exec_iret hs, ?_, ?_, fun i h1 h2 _ => ?_, ?_⟩
  · exact returnTarget_of_overflow hover
  · have hpos : 2 ≤ s.level.toNat := hlevel ▸ two_le_maxLevel s.cfg
    rw [returnState_of_overflow hover]
    show (field (setField s.ir.psw 1 (s.level - 1#2)) 1 2).toNat = _
    rw [field_setField_level]
    generalize s.level = l at *
    bv_omega
  · rw [returnState_of_overflow hover]
    show (setField s.ir.psw 1 (s.level - 1#2)).getLsbD i = _
    rw [getLsbD_setField, if_neg (by omega)]
  · rw [returnState_of_overflow hover]
    rfl

/-! ## The round trip -/

/-- The PSW of an entry to level 1 or 2 has its level in INTL and superuser mode in POM (R784). -/
theorem entryPsw_modes (c : Config) (intMask old : Word) (l : BitVec 2) (ime dme dbg : Bool) :
    field (entryPsw c intMask old l ime dme dbg) 1 2 = l ∧ field (entryPsw c intMask old l ime dme dbg) 3 2 = 1#2 := by
  constructor
  all_goals
    refine BitVec.eq_of_getLsbD_eq fun i hi => ?_
    interval_cases i <;> simp [entryPsw]

/-- Settles O33: the entry from level 1 leaves level 2 in superuser mode, where IRET gives back what the entry moved to
the P_ registers. -/
theorem nestedInterruptionLosesNothing : Obligations.NestedInterruptionLosesNothing := by
  intro c pc s hc h
  have hir := (enter_level (c := c) (pc := pc) (level1_below hc h)).1
  rw [entryRegs_of_level1 c pc h] at hir
  obtain ⟨hlevel, hpom⟩ := entryPsw_modes s.cfg s.ir.intMask s.ir.psw 2#2 c.ime c.dme c.dbg
  have hsuper : (enter c pc s).superuser = true := by
    rw [State.superuser, State.pom, hir, hpom]
    rfl
  have hlevel' : (enter c pc s).level = 2#2 := by rw [State.level, hir, hlevel]
  have hgpr : ((enter c pc s).gpr.set p0 (enter c pc s).ir.pP0).set p1 (enter c pc s).ir.pP1 = s.gpr := by
    simp [hir, State.x]
  exact ⟨_, exec_iret_of_level2 hsuper (by rw [enter_cfg, hc]) hlevel', congrArg IntRegs.ipc hir, hgpr,
    congrArg IntRegs.ipsw hir, congrArg IntRegs.pIpsw hir, congrArg IntRegs.pIpc hir, congrArg IntRegs.pItype hir,
    congrArg IntRegs.pEva hir⟩

end Sys2Proof.Machine
end

section
/-! PROOFS. Statement O44: words outside the table, absent general registers, and the all-zero word. -/

namespace Sys2Proof.Machine

/-! ## What the fetched halfwords are (R570, R575) -/

/-- A general register that exists (R41, R52). -/
theorem gprExists_iff (c : Config) (r : Reg) :
    c.gprExists r = true ↔ (c.rdreg = true → r ∈ c.reducedRegs.toList) := by
  rw [Config.gprExists]
  cases c.rdreg <;> simp

theorem gprExists_eq_false {c : Config} {r : Reg} (hr : c.rdreg = true) (h : r ∉ c.reducedRegs.toList) :
    c.gprExists r = false :=
  Bool.eq_false_iff.2 fun hexists => h ((gprExists_iff c r).1 hexists hr)

section
variable {c : Config} {h : Half × Option Half}

/-- Bytes that decode to an instruction all of whose registers exist are that instruction. -/
theorem classify_insn {i : Instr} {rest : List Byte} (hd : decode (fetchedBytes h) = .ok (i, rest))
    (hr : ∀ r ∈ i.regs, c.rdreg = true → r ∈ c.reducedRegs.toList) : classify c h = .insn i := by
  have hall : i.regs.all c.gprExists = true := List.all_eq_true.2 fun r hmem => (gprExists_iff c r).2 (hr r hmem)
  simp only [classify, hd, hall, if_true]

/-- An instruction that names an absent general register is Reserved. -/
theorem classify_absentReg {i : Instr} {rest : List Byte} (hd : decode (fetchedBytes h) = .ok (i, rest))
    (hr : ∃ r ∈ i.regs, c.rdreg = true ∧ r ∉ c.reducedRegs.toList) : classify c h = .reserved := by
  obtain ⟨r, hmem, hred, habsent⟩ := hr
  have hall : ¬ i.regs.all c.gprExists = true := fun hall => by
    simpa [gprExists_eq_false hred habsent] using List.all_eq_true.1 hall r hmem
  simp only [classify, hd, hall]
  rfl

/-- Bytes that do not decode are the all-zero word or Reserved. -/
theorem classify_reject {r : Reject} (hd : decode (fetchedBytes h) = .error r) :
    classify c h = if h = (0#16, some 0#16) ∧ c.gprExists 0 = true then .zeroWord else .reserved := by
  simp only [classify, hd]

end

/-! ## The all-zero word (R142) -/

/-- With INT_MASK.ALZ the all-zero word is Reserved. -/
theorem execZeroWord_alz {s : State} (h : s.alz = true) :
    execZeroWord s = .next (enter .reservedInstruction s.pc s) := by
  rw [execZeroWord, if_pos h, complete_raise]

/-- A load of one byte that is not translated and goes to the bus gives memory's byte. -/
theorem loadByte_ram {s : State} {va : Word} (hoff : transEnabled s .load false = false) (hbus : s.busOnly)
    (hram : s.ramAt (nonTranslated s (s.cfg.addr va)).pa.toNat 1) :
    loadByte s va = .ok ((s.mem.read (nonTranslated s (s.cfg.addr va)).pa.toNat).zeroExtend 32) s := by
  obtain ⟨hilm, hdlm, hsound⟩ := hbus
  have hroute (pa : Word) : route s pa .load = .ok (.bus pa.toNat) s := by
    rw [route_of_misses (fun ⟨hon, _⟩ => by simp [hilm] at hon) (fun ⟨hon, _⟩ => by simp [hdlm] at hon), hsound]
    rfl
  have hread := busRead_ram hram
  have hlow := busAddr_of_lt (nonTranslated s (s.cfg.addr va)).pa.isLt
  rw [loadByte, translate_untranslated hoff nofun, Res.bind_ok, hroute, Res.bind_ok, readPlace, hread, Res.bind_ok]
  simp [fromBytesBE, hlow]

/-- Without INT_MASK.ALZ the all-zero word loads the byte at x[0] into x[0]. -/
theorem execZeroWord_ram {s : State} (halz : s.alz = false) (hoff : transEnabled s .load false = false)
    (hbus : s.busOnly) (hram : s.ramAt (nonTranslated s (s.cfg.addr (s.x 0))).pa.toNat 1) :
    execZeroWord s = .next
      ((s.setX 0 ((s.mem.read (nonTranslated s (s.cfg.addr (s.x 0))).pa.toNat).zeroExtend 32)).retire s.pc
        (s.cfg.addr (s.pc + 4#32))) := by
  rw [execZeroWord, if_neg (by rw [halz]; exact Bool.false_ne_true)]
  exact complete_finishLoad_of_ok (loadByte_ram hoff hbus hram)

/-- Settles O44: by what `classify` makes of the halfwords; the all-zero word by INT_MASK.ALZ. -/
theorem undecodedWordsAreReserved : Obligations.UndecodedWordsAreReserved := by
  intro s h run reserved
  have hreserved : classify s.cfg h = .reserved → run = reserved := fun hc => by
    show execFetched exec (classify s.cfg h) s = _
    rw [hc]
    rfl
  have hzeroWord : classify s.cfg h = .zeroWord → run = execZeroWord s := fun hc => by
    show execFetched exec (classify s.cfg h) s = _
    rw [hc]
    rfl
  refine ⟨fun i rest hd hr => hreserved (classify_absentReg hd hr), fun r hd => ⟨?_, ?_, ?_, ?_⟩⟩
  · exact fun hne => hreserved ((classify_reject hd).trans (if_neg fun hc => hne hc.1))
  · intro _ hred habsent
    refine hreserved ((classify_reject hd).trans (if_neg fun ⟨_, hexists⟩ => ?_))
    exact habsent ((gprExists_iff _ _).1 hexists hred)
  · intro hzero hbase hmask
    have halz : s.alz = true := Bool.and_eq_true_iff.2 ⟨hbase, hmask⟩
    by_cases hexists : s.cfg.gprExists 0 = true
    · rw [hzeroWord ((classify_reject hd).trans (if_pos ⟨hzero, hexists⟩)), execZeroWord_alz halz]
    · exact hreserved ((classify_reject hd).trans (if_neg fun hc => hexists hc.2))
  · intro hzero hmask hred x hoff hbus hram
    have halz : s.alz = false := by rw [State.alz, bit_eq, hmask, Bool.and_false]
    rw [hzeroWord ((classify_reject hd).trans (if_pos ⟨hzero, (gprExists_iff _ _).2 hred⟩))]
    exact execZeroWord_ram halz hoff hbus hram

end Sys2Proof.Machine
end

section
/-! PROOFS. Statement O45: which interrupt a step takes, and when none is. -/

namespace Sys2Proof.Machine

/-! ## The requests (R842, R843) -/

/-- PSW.GIE below the overflow level, 0 at it (R790). -/
theorem effGie_iff (s : State) :
    s.effGie = true ↔ s.ir.psw.getLsbD 0 = true
      ∧ (s.ir.psw.extractLsb' 1 2).toNat < if s.cfg.intlc then 2 else 3 := by
  have hover : s.atOverflow = false ↔ (s.ir.psw.extractLsb' 1 2).toNat < if s.cfg.intlc then 2 else 3 :=
    decide_eq_false_iff_not.trans Nat.not_le
  rw [State.effGie, Bool.and_eq_true, Bool.not_eq_true', hover, bit_eq, and_comm]

/-- The requests by number: HW0 to HW5 under their masks, then SW0 under SIM. -/
theorem getLsbD_irqRequests (s : State) {n : Nat} (hn : n < 7) :
    (irqRequests s).getLsbD n =
      if n < 6 then s.hwIrq.getLsbD n && s.ir.intMask.getLsbD n else s.ir.swi && s.ir.intMask.getLsbD 16 := by
  rw [irqRequests, BitVec.getLsbD_append]
  by_cases h : n < 6
  · simp [h]
  · obtain rfl : n = 6 := by omega
    simp [bit_eq]

section
variable {req : BitVec 7}

theorem pickIrq_hardware {n : Fin 6} (hn : req.getLsbD n = true) (hlow : ∀ m < n.val, req.getLsbD m = false) :
    pickIrq req = some (.hardwareInterrupt n) := by
  have hfind : (List.finRange 6).find? (fun k => req.getLsbD k.val) = some n := by
    refine List.find?_eq_some_iff_getElem.2 ⟨hn, n.val, by simp, by simp, fun j hj => ?_⟩
    simpa using hlow j hj
  rw [pickIrq, hfind]

/-- Without a hardware interrupt the software interrupt is picked, if it is requested. -/
theorem pickIrq_of_noHardware (h : ∀ m < 6, req.getLsbD m = false) :
    pickIrq req = if req.getLsbD 6 then some .softwareInterrupt else none := by
  have hfind : (List.finRange 6).find? (fun k => req.getLsbD k.val) = none :=
    List.find?_eq_none.2 fun n _ => by simp [h n.val n.isLt]
  rw [pickIrq, hfind]
  rfl

end

/-! ## The interrupt at a boundary (R842, R845) -/

section
variable {s : State}

theorem interruptCause_disabled (h : s.effGie = false) : interruptCause s = none := if_pos h

theorem interruptCause_ivic (h : s.effGie = true) (hmode : s.evic = false) :
    interruptCause s = pickIrq (irqRequests s) := by
  simp [interruptCause, h, hmode]

theorem interruptCause_evic (h : s.effGie = true) (hmode : s.evic = true) :
    interruptCause s = s.env.evicReq.map fun r => .vectoredInterrupt r.1 := by
  simp [interruptCause, h, hmode]

/-- An interrupt is taken where no event of higher priority is; it consumes nothing (R844). -/
theorem boundary_interrupt {c : Cause} (hstep : s.stepEvt = false) (hnmi : s.env.nmi = false)
    (hc : interruptCause s = some c) : boundary s = some (c, s) := by
  simp [boundary, hstep, hnmi, hc]

end

/-- Settles O45: `interruptCause` by mode, its pick by the smallest number; the boundary takes what it gives. -/
theorem interruptsAreTakenByPriority : Obligations.InterruptsAreTakenByPriority := by
  refine ⟨effGie_iff, fun s n => ?lines, ?taken⟩
  case lines => rw [getLsbD_hwIrq, pmIntPend_iff, dmaIntPend_iff]
  intro s hgo b hstep hnmi takes req
  have htakes : ∀ c, interruptCause b = some c → takes c := fun c hc =>
    step_event hgo (boundary_interrupt hstep hnmi hc)
  refine ⟨fun hivic => ?ivic, fun hevic => ?evic⟩
  case ivic =>
    have hreq : ∀ n < 7, (irqRequests b).getLsbD n = req n := fun n hn => getLsbD_irqRequests b hn
    have hnoHardware : (∀ m < 6, req m = false) → ∀ m < 6, (irqRequests b).getLsbD m = false := fun h m hm =>
      (hreq m (by omega)).trans (h m hm)
    refine ⟨fun n hgie hn hlow => htakes _ ?_, fun hgie h6 hlow => htakes _ ?_, fun hnone => ?_⟩
    · rw [interruptCause_ivic hgie hivic]
      exact pickIrq_hardware ((hreq n (by omega)).trans hn) fun m hm => (hreq m (by omega)).trans (hlow m hm)
    · rw [interruptCause_ivic hgie hivic, pickIrq_of_noHardware (hnoHardware hlow), hreq 6 (by decide), h6]
      rfl
    · cases hgie : b.effGie with
      | false => exact interruptCause_disabled hgie
      | true =>
        have hlow := hnone.resolve_left (by simp [hgie])
        rw [interruptCause_ivic hgie hivic, pickIrq_of_noHardware (hnoHardware fun m hm => hlow m (by omega)),
          hreq 6 (by decide), hlow 6 (by decide)]
        rfl
  case evic =>
    refine ⟨fun vep cipl hgie hreq => ⟨htakes _ ?_, rfl⟩, fun hnone => ?_⟩
    · rw [interruptCause_evic hgie hevic, hreq]
      rfl
    · cases hgie : b.effGie with
      | false => exact interruptCause_disabled hgie
      | true => rw [interruptCause_evic hgie hevic, hnone.resolve_left (by simp [hgie]), Option.map_none]

end Sys2Proof.Machine
end

section
/-! PROOFS. Statement O8: data accesses at an address that is no multiple of 4. -/

namespace Sys2Proof.Machine

theorem field_ne_zero_of_misaligned {va : Word} (ha : va.toNat % 4 ≠ 0) : field va 0 2 ≠ 0#2 := fun h => by
  have hmod : (field va 0 2).toNat = va.toNat % 4 := by simp [field]
  rw [h] at hmod
  exact ha hmod.symm

/-- A misaligned load takes the Data alignment check before it is translated (R368, D24). -/
theorem loadWord_misaligned (s : State) {va : Word} (vlpt : Bool) (ha : va.toNat % 4 ≠ 0) :
    loadWord s va vlpt = .raise (.dataAlignment s.pc) s := if_pos (field_ne_zero_of_misaligned ha)

/-- A misaligned store takes the Data alignment check before it is translated (R368, D24). -/
theorem storeWord_misaligned (s : State) {va : Word} (data : Word) (ha : va.toNat % 4 ≠ 0) :
    storeWord s va data = .raise (.dataAlignment s.pc) s := if_pos (field_ne_zero_of_misaligned ha)

/-- Settles O8: each access raises the exception (`loadWord_misaligned`, `storeWord_misaligned`). -/
theorem misalignedDataAccessTraps : Obligations.MisalignedDataAccessTraps := by
  intro s rt ra imm ha
  refine ⟨exec_lwi_of_raise (loadWord_misaligned s _ ha), exec_swi_of_raise (storeWord_misaligned s _ ha),
    fun hvlpt hsuper => ?_⟩
  rw [exec_lwVlpt rt ra imm hvlpt hsuper]
  exact complete_finishLoad_of_raise (loadWord_misaligned s _ ha)

end Sys2Proof.Machine
end

section
/-! PROOFS. Statement O19: MTSR of a reserved value. -/

namespace Sys2Proof.Machine

/-- MTSR takes the exception its write raises, with its own address saved. -/
theorem mtsr_raise {s t : State} {ra : Reg} {idx : BitVec 10} {r : Sr} {c : Cause}
    (ha : srAccessAllowed s idx = true) (hn : srOf idx = some r) (he : srExists s.cfg r = true)
    (h : writeSr s r (s.x ra) = .raise c t) : exec (.mtsr ra idx) s = .next (enter c s.pc t) := by
  simp only [exec, execMtsr, accessSr_ok ha hn he, Res.bind_ok, h, Res.bind_raise, complete_raise]

section
variable {c : Config} {v : Word}

theorem pswReserved_of_modes (h : v.getLsbD 4 = true ∨ (c.intlc = true ∧ v.extractLsb' 1 2 = 3#2)) :
    pswReserved c v = true := by
  rw [pswReserved, bit_eq, field]
  obtain hpom | ⟨hc, hl⟩ := h
  · rw [hpom, Bool.true_or]
  · rw [hc, hl]
    exact Bool.or_true _

theorem chanReserved_of_absent (h : v.getLsbD 1 = true ∨ (v.getLsbD 0 = true ∧ c.dmaTwoChannels = false)) :
    chanReserved c v = true := by
  rw [chanReserved, bit_eq, bit_eq]
  obtain h1 | ⟨h0, hone⟩ := h
  · rw [h1, Bool.true_or]
  · rw [h0, hone]
    exact Bool.or_true _

theorem dmaSetupReserved_of_fields
    (h : v.extractLsb' 2 2 = 3#2 ∧ c.dmaTes8 = false ∨ v.extractLsb' 21 3 = 3#3) :
    dmaSetupReserved c v = true := by
  rw [dmaSetupReserved, field, field]
  obtain ⟨htes, h8⟩ | hca := h
  · rw [htes, h8]
    rfl
  · rw [hca]
    exact Bool.or_true _

end

/-- Settles O19: the write of a reserved value raises its exception and writes nothing. -/
theorem mtsrOfReservedValueTraps : Obligations.MtsrOfReservedValueTraps := by
  intro s ra idx r ha hn he v
  refine ⟨fun h => mtsr_raise ha hn he ?reserved, fun hr hsize => mtsr_raise ha hn he ?size⟩
  case reserved =>
    obtain ⟨hr, hv⟩ | ⟨hr, hv⟩ | ⟨hr, hv⟩ := h
    · obtain rfl | rfl | rfl := hr <;> exact if_pos (pswReserved_of_modes hv)
    · rw [hr]
      exact if_pos (chanReserved_of_absent hv)
    · rw [hr]
      exact if_pos (dmaSetupReserved_of_fields hv)
  case size =>
    rw [hr]
    exact if_neg (Bool.eq_false_iff.1 hsize)

end Sys2Proof.Machine
end

section
/-! PROOFS. Statements O20 and O21: instructions that user mode may not run, and instructions of absent features. -/

namespace Sys2Proof.Machine

/-! ## Access to the system registers (R642, R643) -/

theorem accessSr_denied {s : State} {idx : BitVec 10} (h : srAccessAllowed s idx = false) :
    accessSr s idx = .raise .privilegedInstruction s := if_neg (Bool.eq_false_iff.1 h)

/-- An index without a register, or whose register is absent, is Reserved where the access is granted. -/
theorem accessSr_absent {s : State} {idx : BitVec 10} (ha : srAccessAllowed s idx = true)
    (h : srOf idx = none ∨ ∃ r, srOf idx = some r ∧ srExists s.cfg r = false) :
    accessSr s idx = .raise .reservedInstruction s := by
  rw [accessSr, if_pos ha]
  obtain hn | ⟨r, hn, he⟩ := h
  · simp only [hn]
  · simp [hn, he]

section
variable {s : State} {idx : BitVec 10} {c : Cause}

theorem mfsr_of_accessSr_raise (rt : Reg) (h : accessSr s idx = .raise c s) :
    exec (.mfsr rt idx) s = .next (enter c s.pc s) := by
  simp only [exec, execMfsr, h, Res.bind_raise, complete_raise]

theorem mtsr_of_accessSr_raise (ra : Reg) (h : accessSr s idx = .raise c s) :
    exec (.mtsr ra idx) s = .next (enter c s.pc s) := by
  simp only [exec, execMtsr, h, Res.bind_raise, complete_raise]

end

/-! ## User mode (R643, R827) and absent units (R600, R621) -/

section
variable {s : State}

theorem privileged_user {α : Type} (r : Res α) (h : s.superuser = false) :
    privileged s r = .raise .privilegedInstruction s := if_neg (Bool.eq_false_iff.1 h)

theorem mmuOnly_user (r : Res Word) (hmmu : s.cfg.hasMmu = true) (h : s.superuser = false) :
    mmuOnly s r = .raise .privilegedInstruction s := by
  rw [mmuOnly, if_pos hmmu, privileged_user r h]

theorem mmuOnly_absent (r : Res Word) (hmmu : s.cfg.hasMmu = false) :
    mmuOnly s r = .raise .reservedInstruction s := if_neg (Bool.eq_false_iff.1 hmmu)

theorem mmuOrMpu_user (mmu mpu : Res Word) (hunit : s.cfg.hasMmu = true ∨ s.cfg.hasMpu = true)
    (h : s.superuser = false) : mmuOrMpu s mmu mpu = .raise .privilegedInstruction s := by
  rw [mmuOrMpu, privileged_user mmu h, privileged_user mpu h]
  obtain hmmu | hmpu := hunit
  · rw [if_pos hmmu]
  · rw [if_pos hmpu, ite_self]

theorem mmuOrMpu_absent (mmu mpu : Res Word) (hmmu : s.cfg.hasMmu = false) (hmpu : s.cfg.hasMpu = false) :
    mmuOrMpu s mmu mpu = .raise .reservedInstruction s :=
  (if_neg (Bool.eq_false_iff.1 hmmu)).trans (if_neg (Bool.eq_false_iff.1 hmpu))

end

/-! ## The TLBOPs that only the MMU has -/

section
variable {s : State} {rt ra : Reg} {i : Instr}
  (h : i = .tlbopRwr ra ∨ (i = .tlbopRwlk ra ∧ s.cfg.tblck = true) ∨ i = .tlbopUnlk ra ∨ i = .tlbopInv ra
    ∨ i = .tlbopPb rt ra ∨ i = .tlbopFlua)
include h

/-- Each of them is `mmuOnly` of its effect, RWLK where it exists. -/
theorem exec_eq_mmuOnly : ∃ r, exec i s = complete s (mmuOnly s r) := by
  obtain rfl | ⟨rfl, hlck⟩ | rfl | rfl | rfl | rfl := h
  case inr.inl => exact ⟨_, congrArg (complete s) (if_pos hlck)⟩
  all_goals exact ⟨_, rfl⟩

theorem exec_mmuOnly_user (hmmu : s.cfg.hasMmu = true) (huser : s.superuser = false) :
    exec i s = .next (enter .privilegedInstruction s.pc s) := by
  obtain ⟨r, hr⟩ := exec_eq_mmuOnly h
  rw [hr, mmuOnly_user r hmmu huser, complete_raise]

theorem exec_mmuOnly_absent (hmmu : s.cfg.hasMmu = false) :
    exec i s = .next (enter .reservedInstruction s.pc s) := by
  obtain ⟨r, hr⟩ := exec_eq_mmuOnly h
  rw [hr, mmuOnly_absent r hmmu, complete_raise]

end

/-! ## The TLBOPs with a form for the MMU and one for the MPU -/

section
variable {s : State} {ra : Reg} {i : Instr} (h : i = .tlbopTrd ra ∨ i = .tlbopTwr ra)
include h

theorem exec_eq_mmuOrMpu : ∃ mmu mpu, exec i s = complete s (mmuOrMpu s mmu mpu) := by
  obtain rfl | rfl := h <;> exact ⟨_, _, rfl⟩

theorem exec_mmuOrMpu_user (hunit : s.cfg.hasMmu = true ∨ s.cfg.hasMpu = true) (huser : s.superuser = false) :
    exec i s = .next (enter .privilegedInstruction s.pc s) := by
  obtain ⟨mmu, mpu, hr⟩ := exec_eq_mmuOrMpu (s := s) h
  rw [hr, mmuOrMpu_user mmu mpu hunit huser, complete_raise]

theorem exec_mmuOrMpu_absent (hmmu : s.cfg.hasMmu = false) (hmpu : s.cfg.hasMpu = false) :
    exec i s = .next (enter .reservedInstruction s.pc s) := by
  obtain ⟨mmu, mpu, hr⟩ := exec_eq_mmuOrMpu (s := s) h
  rw [hr, mmuOrMpu_absent mmu mpu hmmu hmpu, complete_raise]

end

/-! ## The other privileged instructions, and the grant of an access -/

section
variable {s : State}

theorem exec_iret_user (h : s.superuser = false) : exec .iret s = .next (enter .privilegedInstruction s.pc s) := by
  show complete s (privileged s _) = _
  rw [privileged_user _ h, complete_raise]

theorem exec_lwVlpt_user (rt ra : Reg) (imm : BitVec 15) (hvlpt : s.cfg.vlpt = true) (h : s.superuser = false) :
    exec (.lwVlpt rt ra imm) s = .next (enter .privilegedInstruction s.pc s) := by
  show complete s (if s.cfg.vlpt then privileged s _ else _) = _
  rw [if_pos hvlpt, privileged_user _ h, complete_raise]

/-- PRUSR_ACC_CTL exists with the DMA or the performance monitor, not on the two hard cores (R58, R294). -/
theorem hasPrusr_iff (c : Config) :
    c.hasPrusr = true ↔ (c.mscCfg.getLsbD 1 = true ∨ c.mscCfg.getLsbD 2 = true)
      ∧ ¬(c.cpuVer.extractLsb' 24 8 = 0x0C#8 ∧ c.cpuVer.extractLsb' 18 6 = 0#6) := by
  rw [← hardCore_iff, Config.hasPrusr, Bool.and_eq_true, Bool.or_eq_true, Bool.not_eq_true', Bool.not_eq_true]
  rfl

theorem isPfmIndex_iff (idx : BitVec 10) :
    isPfmIndex idx = true ↔ idx = 0x200#10 ∨ idx = 0x201#10 ∨ idx = 0x202#10 ∨ idx = 0x208#10 := by
  simp only [isPfmIndex, Bool.or_eq_true, beq_iff_eq, or_assoc]

theorem superuser_iff (s : State) : s.superuser = true ↔ s.ir.psw.extractLsb' 3 2 = 1#2 := beq_iff_eq

theorem isDmaIndex_iff (idx : BitVec 10) : isDmaIndex idx = true ↔ idx.extractLsb' 7 3 = 5#3 := beq_iff_eq

end

/-- Settles O20: every listed instruction raises the exception; the grant of an access, written out. -/
theorem privilegedInstructionsTrapInUserMode : Obligations.PrivilegedInstructionsTrapInUserMode := by
  refine ⟨fun s rt ra idx imm i huser hi => ?traps, ?grant⟩
  case traps =>
    obtain ⟨hdenied, rfl | rfl⟩ | rfl | ⟨hmmu, htrd | htwr | hother⟩ | ⟨hmpu, h⟩ | ⟨rfl, hvlpt⟩ := hi
    · exact mfsr_of_accessSr_raise rt (accessSr_denied hdenied)
    · exact mtsr_of_accessSr_raise ra (accessSr_denied hdenied)
    · exact exec_iret_user huser
    · exact exec_mmuOrMpu_user (.inl htrd) (.inl hmmu) huser
    · exact exec_mmuOrMpu_user (.inr htwr) (.inl hmmu) huser
    · exact exec_mmuOnly_user hother hmmu huser
    · exact exec_mmuOrMpu_user h (.inr hmpu) huser
    · exact exec_lwVlpt_user rt ra imm hvlpt huser
  case grant =>
    intro s idx present
    refine ⟨superuser_iff s, rfl, ?_⟩
    simp only [srAccessAllowed, Bool.or_eq_true, Bool.and_eq_true, isDmaIndex_iff, isPfmIndex_iff, hasPrusr_iff, bit_eq,
      or_assoc, and_assoc, present]

/-! ## The other instructions of absent features (R604, R630, R661) -/

section
variable {s : State}

theorem exec_tlbopRwlk_absent (ra : Reg) (h : s.cfg.tblck = false) :
    exec (.tlbopRwlk ra) s = .next (enter .reservedInstruction s.pc s) :=
  congrArg (complete s) (if_neg (Bool.eq_false_iff.1 h))

theorem exec_lwVlpt_absent (rt ra : Reg) (imm : BitVec 15) (h : s.cfg.vlpt = false) :
    exec (.lwVlpt rt ra imm) s = .next (enter .reservedInstruction s.pc s) :=
  congrArg (complete s) (if_neg (Bool.eq_false_iff.1 h))

theorem exec_break16_absent (n : BitVec 9) (h : s.cfg.ext16 = false) :
    exec (.break16 n) s = .next (enter .reservedInstruction s.pc s) :=
  congrArg (fun c => complete s (.raise c s)) (if_neg (Bool.eq_false_iff.1 h))

end

/-! ## DIV and DIVS by what `divide` answers (R664) -/

/-- DIV and DIVS differ in the signedness of the division. -/
theorem exec_divide (s : State) (signed dt : Bool) (ra rb : Reg) :
    exec (if signed then .divs dt ra rb else .div dt ra rb) s
      = complete s (divide s signed dt (s.x ra) (s.x rb)) := by
  cases signed <;> rfl

/-- A divide instruction is one of the two. -/
theorem eq_divide_of_or {dt : Bool} {ra rb : Reg} {i : Instr} (h : i = .div dt ra rb ∨ i = .divs dt ra rb) :
    ∃ signed : Bool, i = if signed then .divs dt ra rb else .div dt ra rb := by
  obtain rfl | rfl := h
  · exact ⟨false, rfl⟩
  · exact ⟨true, rfl⟩

theorem divide_absent {s : State} (signed dt : Bool) (a b : Word) (h : s.cfg.hasDiv = false ∨ s.cfg.nod = true) :
    divide s signed dt a b = .raise .reservedInstruction s := if_pos h

/-- Settles O21: every listed instruction raises the exception. -/
theorem absentFeaturesAreReserved : Obligations.AbsentFeaturesAreReserved := by
  intro s rt ra rb idx imm n dt i hi
  obtain ⟨rfl | rfl, hallowed, habsent⟩ | ⟨hmmu, h⟩ | ⟨hmmu, hmpu, h⟩ | ⟨hlck, rfl⟩ | ⟨hvlpt, rfl⟩ | ⟨h16, rfl⟩
    | ⟨hdiv, h⟩ := hi
  · exact mfsr_of_accessSr_raise rt (accessSr_absent hallowed habsent)
  · exact mtsr_of_accessSr_raise ra (accessSr_absent hallowed habsent)
  · obtain hrwr | rfl | hother := h
    · exact exec_mmuOnly_absent (rt := rt) (.inl hrwr) hmmu
    · cases hlck : s.cfg.tblck with
      | false => exact exec_tlbopRwlk_absent ra hlck
      | true => exact exec_mmuOnly_absent (rt := rt) (.inr (.inl ⟨rfl, hlck⟩)) hmmu
    · exact exec_mmuOnly_absent (.inr (.inr hother)) hmmu
  · exact exec_mmuOrMpu_absent h hmmu hmpu
  · exact exec_tlbopRwlk_absent ra hlck
  · exact exec_lwVlpt_absent rt ra imm hvlpt
  · exact exec_break16_absent n h16
  · obtain ⟨signed, rfl⟩ := eq_divide_of_or h
    rw [exec_divide, divide_absent _ _ _ _ hdiv, complete_raise]

end Sys2Proof.Machine
end

section
/-! PROOFS. Statement O35: a divisor of zero, and the quotient +2^31. -/

namespace Sys2Proof.Machine

section
variable {s : State} (signed dt : Bool) (a b : Word) (hdiv : s.cfg.hasDiv = true) (hnod : s.cfg.nod = false)
include hdiv hnod

/-- Where the divide instructions exist, `divide` looks at the divisor first (R664). -/
theorem divide_present :
    divide s signed dt a b =
      if b = 0#32 then
        if bit s.ir.intMask 30 then .raise (.arithmetic 1#4) s
        else .ok s.next4 (s.drawn.setD dt (Config.divByZero s.draws signed a))
      else if signed ∧ a = 0x80000000#32 ∧ b = 0xFFFFFFFF#32 then .raise (.arithmetic 2#4) s
      else .ok s.next4 (s.setD dt (quotRem signed a b)) :=
  if_neg (by simp [hdiv, hnod])

theorem divide_zero_trapped (hmask : s.ir.intMask.getLsbD 30 = true) :
    divide s signed dt a 0#32 = .raise (.arithmetic 1#4) s :=
  (divide_present signed dt a 0#32 hdiv hnod).trans ((if_pos rfl).trans (if_pos hmask))

theorem divide_zero_free (hmask : s.ir.intMask.getLsbD 30 = false) :
    divide s signed dt a 0#32 = .ok s.next4 (s.drawn.setD dt (Config.divByZero s.draws signed a)) :=
  (divide_present signed dt a 0#32 hdiv hnod).trans ((if_pos rfl).trans (if_neg (Bool.eq_false_iff.1 hmask)))

/-- The only signed quotient that 32 bits do not hold (D40). -/
theorem divide_overflow : divide s true dt 0x80000000#32 0xFFFFFFFF#32 = .raise (.arithmetic 2#4) s :=
  (divide_present true dt _ _ hdiv hnod).trans ((if_neg (by decide)).trans (if_pos ⟨rfl, rfl, rfl⟩))

end

/-- Settles O35: the instruction ends as `divide` answers. -/
theorem divideByZeroAndOverflow : Obligations.DivideByZeroAndOverflow := by
  intro s dt ra rb i hdiv hnod hi
  refine ⟨fun hb hmask => ?_, fun hb hmask => ?_, fun ha hb hsigned => ?_⟩
  · obtain ⟨signed, rfl⟩ := eq_divide_of_or hi
    rw [exec_divide, hb, divide_zero_trapped signed dt _ hdiv hnod hmask, complete_raise]
  · obtain ⟨signed, rfl⟩ := eq_divide_of_or hi
    refine ⟨Config.divByZero s.draws signed (s.x ra), ?_⟩
    rw [exec_divide, hb, divide_zero_free signed dt _ hdiv hnod hmask, complete_ok]
    rfl
  · rw [hsigned]
    refine (exec_divide s true dt ra rb).trans ?_
    rw [ha, hb, divide_overflow dt hdiv hnod, complete_raise]

end Sys2Proof.Machine
end

section
/-! PROOFS. Statement O43: the instruction a step fetches and runs. -/

namespace Sys2Proof.Machine

/-! ## Calm states (log 5, log 41) -/

theorem boundary_none {s : State} (hstep : s.stepEvt = false) (hnmi : s.env.nmi = false)
    (hirq : interruptCause s = none) (himp : s.pendImp = []) : boundary s = none := by
  simp [boundary, hstep, hnmi, hirq, himp, pickImprecise]

/-- A calm state has no input to sample, no element to move and no event to take. -/
theorem calm_boundary {s : State} (h : s.calm) :
    s.goesOn ∧ s.atBoundary = s.started ∧ boundary s.started = none := by
  obtain ⟨hinputs, hrun, hstep, hnmi, hirq, himp⟩ := h
  have hsample : sample s = (s.started, none) := sample_idle hinputs
  have hidle : s.started.running = none := hrun
  refine ⟨⟨by rw [hsample], by rw [hsample]; exact dmaBlocked_idle hidle⟩, ?_,
    boundary_none (s := s.started) hstep hnmi hirq himp⟩
  rw [State.atBoundary, hsample]
  exact dmaBurst_idle hidle

theorem atBoundary_cfg (s : State) : s.atBoundary.cfg = s.cfg := by rw [atBoundary_frame s]

/-! ## The step's note (R837) -/

@[simp] theorem noteEntry_completed (n : StepNote) (c : Cause) : (noteEntry n c).completed = n.completed := by
  unfold noteEntry
  split <;> rfl

theorem recordStep_incomplete {t : State} (h : Bool) (ht : t.note.completed = false) : recordStep h t = t :=
  if_neg (by simp [ht])

/-- No fetch completes an instruction. -/
theorem fetchInsn_completed (b : State) : (fetchInsn b).Sat fun t => t.note.completed = b.note.completed :=
  (fetchInsn_frame b).mono fun t ⟨hframe, _⟩ => by
    have hkeeps := State.sansAccess_keeps hframe
    tauto

/-! ## One instruction by what its fetch answers (R851) -/

section
variable {b t : State}

theorem runInsn_ok {h : Half × Option Half} (hf : fetchInsn b = .ok h t) :
    runInsn exec b = afterInsn b (classify b.cfg h).work (execFetched exec (classify b.cfg h) t) := by
  simp only [runInsn, hf]

theorem runInsn_stop {f : Fault} (hf : fetchInsn b = .stop f) : runInsn exec b = .fault f := by
  simp only [runInsn, hf]

/-- An exception of the fetch is taken; no instruction completed, so no single-step event is recorded. -/
theorem runInsn_raise {c : Cause} (hnew : b.note.completed = false) (hf : fetchInsn b = .raise c t) :
    runInsn exec b = .next (account b .none (enter c b.pc t)) := by
  have hnote : (enter c b.pc t).note.completed = false := by
    rw [enter_note, noteEntry_completed, (fetchInsn_completed b).raised hf, hnew]
  simp only [runInsn, hf, complete_raise, afterInsn, recordStep_incomplete _ hnote]

end

/-! ## The halfwords of an instruction (R447, R570) -/

section
variable {b t : State}

/-- A fetch at an odd address is not translated. -/
theorem translate_fetch_odd {va : Word} (vlpt : Bool) (h : va.getLsbD 0 = true) :
    translate b va .fetch vlpt = .raise (.insnAlignment b.prevPc) b :=
  if_pos ⟨rfl, (addr_low b.cfg va 0 (by decide)).trans h⟩

theorem fetchInsn_of_translate_raise {c : Cause} (h : translate b b.pc .fetch false = .raise c t) :
    fetchInsn b = .raise c t := by
  rw [fetchInsn, h, Res.bind_raise]

theorem fetchInsn_of_translate_stop {f : Fault} (h : translate b b.pc .fetch false = .stop f) :
    fetchInsn b = .stop f := by
  rw [fetchInsn, h, Res.bind_stop]

section
variable {x : Xlat} (hx : translate b b.pc .fetch false = .ok x t)
include hx

theorem fetchInsn_of_first_raise {u : State} {c : Cause} (h : fetchHalf t x.pa b.pc = .raise c u) :
    fetchInsn b = .raise c u := by
  rw [fetchInsn, hx, Res.bind_ok, h, Res.bind_raise]

theorem fetchInsn_of_first_stop {f : Fault} (h : fetchHalf t x.pa b.pc = .stop f) : fetchInsn b = .stop f := by
  rw [fetchInsn, hx, Res.bind_ok, h, Res.bind_stop]

section
variable {u : State} {h0 : Half} (h : fetchHalf t x.pa b.pc = .ok h0 u)
include h

/-- A whole instruction in the first halfword (R570). -/
theorem fetchInsn_of_short (hshort : h0.getLsbD 15 = true) : fetchInsn b = .ok (h0, none) u := by
  rw [fetchInsn, hx, Res.bind_ok, h, Res.bind_ok]
  exact if_pos hshort

/-- Unless the first halfword is the whole instruction, a second one follows it (R570). -/
theorem fetchInsn_of_long (hlong : h0.getLsbD 15 = false) :
    fetchInsn b =
      (if crossesPage b.pc then translate u (b.pc + 2#32) .fetch false else .ok { x with pa := x.pa + 2#32 } u).bind
        fun y v => (fetchHalf v y.pa (b.pc + 2#32)).bind fun h1 w => .ok (h0, some h1) w := by
  rw [fetchInsn, hx, Res.bind_ok, h, Res.bind_ok]
  exact if_neg (Bool.eq_false_iff.1 hlong)

/-- On the page of the first halfword. -/
theorem fetchInsn_of_samePage (hlong : h0.getLsbD 15 = false) (hpage : b.pc.extractLsb' 0 12 ≠ 0xFFE#12) :
    fetchInsn b = (fetchHalf u (x.pa + 2#32) (b.pc + 2#32)).bind fun h1 w => .ok (h0, some h1) w := by
  have hsame : ¬ crossesPage b.pc = true := mt beq_iff_eq.1 hpage
  rw [fetchInsn_of_long hx h hlong, if_neg hsame, Res.bind_ok]

/-- On the next page it is translated on its own (R447). -/
theorem fetchInsn_of_nextPage (hlong : h0.getLsbD 15 = false) (hpage : b.pc.extractLsb' 0 12 = 0xFFE#12) :
    fetchInsn b =
      (translate u (b.pc + 2#32) .fetch false).bind fun y v =>
        (fetchHalf v y.pa (b.pc + 2#32)).bind fun h1 w => .ok (h0, some h1) w := by
  have hcross : crossesPage b.pc = true := beq_iff_eq.2 hpage
  rw [fetchInsn_of_long hx h hlong, if_pos hcross]

end

end

/-- An instruction that ends as the fetch of its second halfword does. -/
theorem fetchInsn_of_second {h0 : Half} {second : Res Half}
    (h : fetchInsn b = second.bind fun h1 w => .ok (h0, some h1) w) :
    (∀ h1 w, second = .ok h1 w → fetchInsn b = .ok (h0, some h1) w)
      ∧ (∀ c w, second = .raise c w → fetchInsn b = .raise c w)
      ∧ (∀ f, second = .stop f → fetchInsn b = .stop f) := by
  refine ⟨fun h1 w hs => ?_, fun c w hs => ?_, fun f hs => ?_⟩ <;> rw [h, hs] <;> rfl

end

/-! ## One halfword (R363, R520, R835) -/

theorem halfOf_pair (b0 b1 : Byte) : halfOf [b0, b1] = b0 ++ b1 := by
  refine BitVec.eq_of_getLsbD_eq fun i hi => ?_
  simp only [halfOf, fromBytesBE, List.foldl_cons, List.foldl_nil, BitVec.getLsbD_or, BitVec.getLsbD_shiftLeft,
    BitVec.getLsbD_setWidth, BitVec.getLsbD_append]
  interval_cases i <;> simp

theorem halfBytes_append (b0 b1 : Byte) : halfBytes (b0 ++ b1) = [b0, b1] := by
  have h0 : field (b0 ++ b1) 8 8 = b0 := BitVec.extractLsb'_append_eq_left
  have h1 : field (b0 ++ b1) 0 8 = b1 := BitVec.extractLsb'_append_eq_right
  rw [halfBytes, h0, h1]

/-- A halfword at an even address does not reach over the end of the address space. -/
theorem half_low {pa : Word} (h : pa.getLsbD 0 = false) : pa.toNat + 2 ≤ 4294967296 := by
  have heven : pa.toNat % 2 = 0 := by
    rw [BitVec.getLsbD, Nat.testBit_zero] at h
    simpa using h
  have hlt := pa.isLt
  omega

section
variable {t : State} {pa va : Word}

theorem fetchHalf_ilm {off : Nat} (h : route t pa .fetch = .ok (.ilm off) t) :
    fetchHalf t pa va = .ok (t.ilm.read off ++ t.ilm.read (off + 1)) t.noteIlm := by
  rw [fetchHalf, h, Res.bind_ok, ← halfOf_pair]
  rfl

theorem fetchHalf_route_raise {c : Cause} {u : State} (h : route t pa .fetch = .raise c u) :
    fetchHalf t pa va = .raise c u := by
  rw [fetchHalf, h, Res.bind_raise]

theorem fetchHalf_route_stop {f : Fault} (h : route t pa .fetch = .stop f) : fetchHalf t pa va = .stop f := by
  rw [fetchHalf, h, Res.bind_stop]

theorem fetchHalf_unserved (hlow : pa.toNat + 2 ≤ 4294967296) (h : route t pa .fetch = .ok (.bus pa.toNat) t)
    (hun : ∃ i < 2, t.cfg.regionOf (pa.toNat + i) = .unserved) :
    fetchHalf t pa va = .raise (.preciseBusError .fetch va) t := by
  rw [fetchHalf, h, Res.bind_ok, readPlace, busRead_unserved hlow hun, Res.bind_raise]

theorem fetchHalf_served (hlow : pa.toNat + 2 ≤ 4294967296) (h : route t pa .fetch = .ok (.bus pa.toNat) t)
    (hserved : ¬∃ i < 2, t.cfg.regionOf (pa.toNat + i) = .unserved) :
    ∃ u, fetchHalf t pa va = .ok (t.busByte pa.toNat 0 ++ t.busByte pa.toNat 1) u
      ∧ (¬(∃ i < 2, t.cfg.regionOf (pa.toNat + i) = .device) → u = t)
      ∧ ((∃ i < 2, t.cfg.regionOf (pa.toNat + i) = .device) →
        u = { t with draws := t.draws + 1, devLog := t.devLog ++ [.read pa.toNat 2] }) := by
  obtain ⟨u, hread, hrest⟩ := busRead_served (by decide) hlow fun i hi hk => hserved ⟨i, hi, hk⟩
  refine ⟨u, ?_, hrest⟩
  rw [fetchHalf, h, Res.bind_ok, readPlace, hread, ← halfOf_pair]
  rfl

end

/-- Settles O43: a step is one instruction by what its fetch answers (`runInsn_ok`, `_raise`, `_stop`), a fetch goes by
halfwords (`fetchInsn_of_short`, `_samePage`, `_nextPage`), a halfword by its place (`fetchHalf_ilm`, `_unserved`,
`_served`). -/
theorem stepRunsTheDecodedInstruction : Obligations.StepRunsTheDecodedInstruction := by
  refine ⟨fun s => calm_boundary, ?step, ?fetch, ?half, fun s => ⟨rfl, rfl⟩, recordStep_eq, atBoundary_completed,
    fun b t h hf => (fetchInsn_completed b).ok hf, fun s c pc next => ⟨noteEntry_completed _ _, rfl⟩,
    fun b0 b1 b2 b3 => ⟨halfBytes_append b0 b1, ?bytes⟩⟩
  case step =>
    intro s hgo hquiet b ran
    have hstep : step s = runInsn exec b := step_quiet hgo hquiet
    have hcfg : b.cfg = s.cfg := atBoundary_cfg s
    have hok : ∀ h t, fetchInsn b = .ok h t →
        step s = afterInsn b (classify s.cfg h).work (execFetched exec (classify s.cfg h) t) := fun h t hf => by
      rw [hstep, runInsn_ok hf, hcfg]
    refine ⟨fun h t i rest hf hd hr => ?_, hok, fun c t hf => ?_, fun f hf => hstep.trans (runInsn_stop hf)⟩
    · rw [hok h t hf, classify_insn hd hr]
      rfl
    · exact hstep.trans (runInsn_raise (atBoundary_completed s) hf)
  case fetch =>
    intro b onward
    refine ⟨fun hodd => fetchInsn_of_translate_raise (translate_fetch_odd false hodd), fun heven hoff =>
      translate_untranslated hoff fun _ => (addr_low b.cfg b.pc 0 (by decide)).trans heven,
      fun c t => fetchInsn_of_translate_raise, fun f => fetchInsn_of_translate_stop, fun x t hx =>
      ⟨fun c u => fetchInsn_of_first_raise hx, fun f => fetchInsn_of_first_stop hx, fun h0 u h =>
        ⟨fetchInsn_of_short hx h, fun hlong hpage => fetchInsn_of_second (fetchInsn_of_samePage hx h hlong hpage),
          fun hlong hpage => ?_⟩⟩⟩
    have hnext := fetchInsn_of_nextPage hx h hlong hpage
    refine ⟨fun c v hy => ?_, fun f hy => ?_, fun y v hy => fetchInsn_of_second ?_⟩ <;> rw [hnext, hy] <;> rfl
  case half =>
    intro t pa va heven a at2 memByte
    have hlow := half_low heven
    refine ⟨fun off => fetchHalf_ilm, fun c u => fetchHalf_route_raise, fun f => fetchHalf_route_stop, fun hbus =>
      ⟨fetchHalf_unserved hlow hbus, fun hserved => ?_⟩⟩
    obtain ⟨u, hfetch, hrest⟩ := fetchHalf_served (va := va) hlow hbus hserved
    exact ⟨_, _, u, hfetch, busByte_ram (by omega), busByte_ram (by omega), hrest⟩
  case bytes =>
    show halfBytes (b0 ++ b1) ++ halfBytes (b2 ++ b3) = _
    rw [halfBytes_append, halfBytes_append]
    rfl

end Sys2Proof.Machine
end

section
/-! PROOFS. Statement O46: what the inputs of a step put into the state; the single-step event and NMI. -/

namespace Sys2Proof.Machine

/-- A bus report joins the pending exceptions at the current level (R815, R835). -/
theorem withBusReport_eq (s : State) (report : Option Bool) :
    withBusReport s report = { s with
      pendImp := s.pendImp ++ (match report with
        | some fetch => [⟨.impreciseBusError fetch, s.level⟩]
        | none => []) } := by
  cases report with
  | none => simp [withBusReport]
  | some fetch => rfl

/-- A step with an input left samples it (R898). -/
theorem sample_input {s : State} {i : EnvInput} {rest : List EnvInput} (h : s.env.inputs = i :: rest) :
    sample s = (withBusReport
      { s with note := .empty, env := ⟨i.extIrq, i.evicReq, s.env.nmi || i.nmi, rest⟩ } i.impBus, i.reset) := by
  simp only [sample, h]

/-- The single-step event is the first of the boundary (R850). -/
theorem boundary_singleStep {s : State} (h : s.stepEvt = true) :
    boundary s = some (.singleStep, { s with stepEvt := false }) := if_pos h

/-- NMI comes next, whatever the level and the masks (R821, R850). -/
theorem boundary_nmi {s : State} (hstep : s.stepEvt = false) (h : s.env.nmi = true) :
    boundary s = some (.nmi, { s with env := { s.env with nmi := false } }) :=
  (if_neg (Bool.eq_false_iff.1 hstep)).trans (if_pos h)

/-- Settles O46: `sample` by its input, and the first two events of the boundary, which the step enters. -/
theorem singleStepAndNmiComeFirst : Obligations.SingleStepAndNmiComeFirst := by
  refine ⟨fun s => ⟨sample_idle, fun i rest h => ?_⟩, fun s hgo => ⟨fun hstep => ?_, fun hstep hnmi => ?_⟩⟩
  · rw [sample_input h, withBusReport_eq]
    rfl
  · exact step_event hgo (boundary_singleStep hstep)
  · exact step_event hgo (boundary_nmi hstep hnmi)

end Sys2Proof.Machine
end

section
/-! PROOFS. Statement O58: every step keeps the memories and the TLB in their stored forms, and the parameters. -/

namespace Sys2Proof.Machine

/-- A property of the registers, the TLB, the DMA engine and the memories is kept by every step if every named
operation keeps it: `step_keeps` with its instructions and the all-zero word taken apart. -/
theorem step_keeps_operations {P : State → Prop} (hsame : ∀ s t, s.sameCore t → P s → P t)
    (hent : ∀ c pc s, P s → P (enter c pc s)) (hreset : ∀ s kind, P s → P (resetState s kind))
    (hburst : ∀ s, P s → P (dmaBurst s)) (hsto : ∀ s t, s.stored t → P s → P t)
    (hsr : ∀ s sr v, P s → (writeSr s sr v).Sat P) (hbe : ∀ s b, P s → P (s.setBe b))
    (hret : ∀ s, P s → P (returnState s)) (htrd : ∀ s x, P s → P (tlbTargetRead s x))
    (hmpu : ∀ s x, P s → P (mpuTargetRead s x)) (htwr : ∀ s x, P s → P (tlbTargetWrite s x))
    (hrwr : ∀ s x b, P s → P (randomWriteOp s x b)) (hunlk : ∀ s x, P s → P (unlock s x))
    (hinv : ∀ s x, P s → P (invalidate s x)) (hflua : ∀ s, P s → P (flushAll s)) {s u : State}
    (h : step s = .next u) (hs : P s) : P u := by
  have hacc : ∀ s t, s.accessed t → P s → P t := fun s t h => hsto s t (State.stored_of_accessed h)
  exact step_keeps hsame hent hreset hburst hacc (fun _ _ => zeroWord_keeps hsame hent hacc)
    (fun _ _ _ => exec_keeps hsame hent hsto hsr hbe hret (fun s x _ => htrd s x) (fun s x _ => hmpu s x) htwr hrwr
      hunlk hinv hflua) h hs

/-! ## The memories (log 4) -/

theorem memoryOk_of_eq {s t : State} (hmem : t.mem = s.mem) (hilm : t.ilm = s.ilm) (hdlm : t.dlm = s.dlm)
    (hs : s.memoryOk) : t.memoryOk := by
  rw [State.memoryOk, hmem, hilm, hdlm]
  exact hs

/-- A reset keeps memory; a local memory is kept or its content is free (R923). -/
theorem resetState_memoryOk (kind : ResetKind) {s : State} (hs : s.memoryOk) : (resetState s kind).memoryOk := by
  obtain ⟨hmem, hilm, hdlm⟩ := hs
  refine ⟨hmem, ?ilm, ?dlm⟩
  case ilm =>
    show (if _ then _ else _ : LocalMem).wf = true
    split
    · exact hilm
    · exact LocalMem.lost_wf _
  case dlm =>
    show (if _ then _ else _ : LocalMem).wf = true
    split
    · exact hdlm
    · exact LocalMem.lost_wf _

/-- A random write, done or pending as an exception, changes no memory. -/
theorem randomWriteOp_memoryOk (pte : Word) (lock : Bool) {s : State} (hs : s.memoryOk) :
    (randomWriteOp s pte lock).memoryOk := by
  unfold randomWriteOp
  split
  · next ht =>
    obtain ⟨k, -, rfl⟩ := randomWrite_spec ht
    exact hs
  · exact hs

theorem step_memoryOk {s t : State} (h : step s = .next t) (hs : s.memoryOk) : t.memoryOk := by
  refine step_keeps_operations (P := State.memoryOk) (fun s t ⟨_, _, _, _, _, hmem, hilm, hdlm⟩ => ?same)
    (fun c pc s => memoryOk_of_eq (enter_mem c pc s) (enter_ilm c pc s) (enter_dlm c pc s))
    (fun _ kind => resetState_memoryOk kind) (fun s => (dmaBurst_moved s).2) (fun s t h => h.2.2)
    (fun s sr v hs => (writeSr_frame s sr v).mono fun t h => h.2.2 hs) (fun _ _ => id) (fun s hs => ?ret)
    (fun s x hs => ?trd) (fun _ _ => id) (fun s x hs => ?twr) (fun _ x b => randomWriteOp_memoryOk x b)
    (fun _ _ => id) (fun _ _ => id) (fun _ => id) h hs
  case same => exact memoryOk_of_eq hmem hilm hdlm
  case ret => rw [returnState_frame]; exact hs
  case trd => unfold tlbTargetRead; split <;> exact hs
  case twr => unfold tlbTargetWrite; split <;> exact hs

/-! ## The TLB (R50, R406) -/

/-- What `State.tlbOk` asks of the TLB alone: rising numbers of entries that exist. -/
def Tlb.listsEntries (c : Config) (t : Tlb) : Prop :=
  cellsRise t.cells = true ∧ ∀ p ∈ t.cells, p.1 < Config.tlbEntries c

theorem tlbOk_iff (s : State) : s.tlbOk ↔ s.tlb.listsEntries s.cfg := Iff.rfl

theorem tlbOk_of_eq {s t : State} (hcfg : t.cfg = s.cfg) (htlb : t.tlb = s.tlb) (hs : s.tlbOk) : t.tlbOk := by
  rw [State.tlbOk, hcfg, htlb]
  exact hs

/-- Entries written one after another leave the TLB in its form if each of them does. -/
theorem foldl_listsEntries {α : Type} {c : Config} {f : Tlb → α → Tlb} {l : List α}
    (hf : ∀ t, ∀ a ∈ l, t.listsEntries c → (f t a).listsEntries c) {t : Tlb} (ht : t.listsEntries c) :
    (l.foldl f t).listsEntries c := by
  induction l generalizing t with
  | nil => exact ht
  | cons a l ih =>
    exact ih (fun t b hb => hf t b (List.mem_cons_of_mem a hb)) (hf t a List.mem_cons_self ht)

/-- The listed entries have numbers of entries that exist, whatever the others hold. -/
theorem tlbListed_lt {s : State} (hs : s.tlbOk) {p : Nat × TlbEntry} (hp : p ∈ s.tlbListed) :
    p.1 < Config.tlbEntries s.cfg := by
  unfold State.tlbListed at hp
  split at hp
  · exact hs.2 p hp
  · obtain ⟨k, hk, rfl⟩ := List.mem_map.1 hp
    exact List.mem_range.1 hk

theorem tlbTargetWrite_tlbOk (x : Word) {s : State} (hs : s.tlbOk) : (tlbTargetWrite s x).tlbOk := by
  unfold tlbTargetWrite
  split
  · next hway => exact tlbWrite_ok (c := s.cfg) _ (entry_lt hway (Nat.mod_lt _ (tlbSets_pos _))) hs
  · exact hs

theorem randomWriteOp_tlbOk (pte : Word) (lock : Bool) {s : State} (hs : s.tlbOk) :
    (randomWriteOp s pte lock).tlbOk := by
  unfold randomWriteOp
  split
  · next ht => exact randomWrite_tlbOk hs ht
  · exact hs

theorem unlock_tlbOk (va : Word) {s : State} (hs : s.tlbOk) : (unlock s va).tlbOk := by
  refine (tlbOk_iff _).2 (foldl_listsEntries (fun t k hk ht => ?_) hs)
  unfold unlockWay
  split
  · exact tlbWrite_ok _ (mem_setEntries_lt (setIndex_lt _ _ _) hk) ht
  · exact ht

theorem invalidate_tlbOk (va : Word) {s : State} (hs : s.tlbOk) : (invalidate s va).tlbOk := by
  refine (tlbOk_iff _).2 (foldl_listsEntries (fun t p hp ht => ?_) hs)
  unfold invalidateWay
  split
  · exact tlbWrite_ok _ (tlbListed_lt hs hp) ht
  · exact ht

theorem flushAll_tlbOk {s : State} (hs : s.tlbOk) : (flushAll s).tlbOk :=
  ⟨cellsRise_filter _ hs.1, fun p hp => hs.2 p (List.mem_of_mem_filter hp)⟩

theorem dmaBurst_tlbOk {s : State} (hs : s.tlbOk) : (dmaBurst s).tlbOk := by
  obtain ⟨hcfg, -, -, -, -, -, -, -, -, -, -, htlb, -⟩ := State.sansDma_keeps (dmaBurst_moved s).1
  exact tlbOk_of_eq hcfg htlb hs

theorem step_tlbOk {s t : State} (h : step s = .next t) (hs : s.tlbOk) : t.tlbOk := by
  refine step_keeps_operations (P := State.tlbOk) (fun s t ⟨hcfg, _, _, htlb, _⟩ => tlbOk_of_eq hcfg htlb)
    (fun c pc s => tlbOk_of_eq (enter_cfg c pc s) (enter_tlb c pc s)) (fun _ _ _ => ⟨rfl, nofun⟩)
    (fun _ => dmaBurst_tlbOk) (fun s t h => h.2.1)
    (fun s sr v hs => (writeSr_frame s sr v).mono fun t h => h.2.1 hs) (fun _ _ => id) (fun s hs => ?ret)
    (fun s x hs => ?trd) (fun _ _ => id) (fun _ x => tlbTargetWrite_tlbOk x) (fun _ x b => randomWriteOp_tlbOk x b)
    (fun _ x => unlock_tlbOk x) (fun _ x => invalidate_tlbOk x) (fun _ => flushAll_tlbOk) h hs
  case ret => rw [returnState_frame]; exact hs
  case trd => unfold tlbTargetRead; split <;> exact hs

/-! ## The parameters -/

/-- No step changes a configuration register (R46 to R54). -/
theorem step_cfg {s t : State} (h : step s = .next t) : t.cfg = s.cfg := by
  refine step_keeps_regs (P := fun u => u.cfg = s.cfg) (fun u v h hu => h.1.trans hu)
    (fun c pc u hu => (enter_cfg c pc u).trans hu) (fun u hu => ?ret) (fun _ _ => id)
    (fun u sr v hu => (writeSr_sameOtherRegs u sr v).mono fun _ h => h.1.trans hu) (fun _ _ => id)
    (fun u x _ hu => ?trd) (fun _ _ _ => id) h rfl
  case ret => rw [returnState_frame]; exact hu
  case trd => unfold tlbTargetRead; split <;> exact hu

/-- Settles O58: each of the three is kept by every operation of a step that changes a memory, the TLB or the
parameters. -/
theorem stepKeepsStoredForms : Obligations.StepKeepsStoredForms := fun _ _ h =>
  ⟨step_memoryOk h, step_tlbOk h, step_cfg h⟩

end Sys2Proof.Machine
end

section
/-! PROOFS. What statements O54 and O55 share: the fields of the instruction words, and how an instruction's bytes are
read as one halfword or one word. -/

namespace Sys2Proof

open Machine

/-! ## Fields of a word put together from fields (R14) -/

theorem field_append_of_le {n m lo k : Nat} (x : BitVec n) (y : BitVec m) (h : lo + k ≤ m) :
    field (x ++ y) lo k = field y lo k := BitVec.extractLsb'_append_eq_of_add_le h

theorem field_append_of_ge {n m lo k : Nat} (x : BitVec n) (y : BitVec m) (h : m ≤ lo) :
    field (x ++ y) lo k = field x (lo - m) k := BitVec.extractLsb'_append_eq_of_le h

@[simp] theorem field_all {n : Nat} (v : BitVec n) : field v 0 n = v := BitVec.extractLsb'_eq_self

theorem field_append_left {n m : Nat} (x : BitVec n) (y : BitVec m) : field (x ++ y) m n = x :=
  BitVec.extractLsb'_append_eq_left

theorem field_append_right {n m : Nat} (x : BitVec n) (y : BitVec m) : field (x ++ y) 0 m = y :=
  BitVec.extractLsb'_append_eq_right

/-- A field from its upper and its lower part. -/
theorem append_eq_field {w n m lo hi : Nat} {v : BitVec w} {x : BitVec n} {y : BitVec m} (hx : field v hi n = x)
    (hy : field v lo m = y) (h : hi = lo + m) : x ++ y = field v lo (n + m) := by
  rw [← hx, ← hy]
  exact BitVec.extractLsb'_append_extractLsb'_eq_extractLsb' h

/-- A word from its upper and its lower part. -/
theorem append_eq_self {n m : Nat} {v : BitVec (n + m)} {x : BitVec n} {y : BitVec m} (hx : field v m n = x)
    (hy : field v 0 m = y) : x ++ y = v :=
  (append_eq_field hx hy (Nat.zero_add m).symm).trans (field_all v)

/-- One bit as a field. -/
theorem field_one (v : Word) (i : Nat) : field v i 1 = BitVec.ofBool (bit v i) := (ofBool_getLsbD v i).symm

theorem bit_eq_field (v : Word) (i : Nat) : bit v i = (field v i 1).getLsbD 0 := by
  rw [field_one]
  simp

@[simp] theorem regOf_regBits (r : Reg) : regOf (regBits r) = r := rfl

@[simp] theorem regBits_regOf (v : BitVec 5) : regBits (regOf v) = v := rfl

/-! ## Bytes of a halfword and of a word (R570) -/

/-- The bytes of a halfword, put together again. -/
theorem halfBytes_append (b0 b1 : Byte) : halfBytes (b0 ++ b1) = [b0, b1] :=
  congrArg₂ (fun x y => [x, y]) (field_append_left b0 b1) (field_append_right b0 b1)

theorem append_halfBytes (h : Half) : field h 8 8 ++ field h 0 8 = h := append_eq_self rfl rfl

/-- The bytes of a word, put together again. -/
theorem append_wordBytes (w : Word) : field w 24 8 ++ field w 16 8 ++ field w 8 8 ++ field w 0 8 = w :=
  append_eq_self (append_eq_field (append_eq_field rfl rfl rfl).symm rfl rfl).symm rfl

/-- The bytes of a word, from the word put together. -/
theorem wordBytes_append (b0 b1 b2 b3 : Byte) : wordBytes (b0 ++ b1 ++ b2 ++ b3) = [b0, b1, b2, b3] := by
  simp (disch := decide) only [wordBytes, Nat.reduceSub, field_append_of_le, field_append_of_ge, field_all]

/-- A 16-bit instruction has its top bit set, a 32-bit one has not (R570). -/
theorem isShort_eq_msb (h : Half) : isShort h = h.msb := (BitVec.msb_eq_getLsbD_last h).symm

/-- The top bits of the words of the table are those of their opcodes (R580, R586), all 0. -/
theorem decode32?_of_msb {w : Word} (h : w.msb = true) : decode32? w = none := by
  have htop : (field w 25 7).msb = w.msb := by
    rw [BitVec.msb_eq_getLsbD_last, BitVec.msb_eq_getLsbD_last, getLsbD_field]
    rfl
  have hop (op : BitVec 7) (hlow : op.msb = false) : field w 25 7 ≠ op := by
    rintro rfl
    simp [htop, h] at hlow
  simp (disch := decide) only [decode32?, decodeImm, decodeBranch, hop, if_false, if_true, ne_eq, not_false_eq_true]

theorem decode_halfBytes {h : Half} {i : Instr} (hi : decode16 h = .ok i) (hs : h.msb = true) (rest : List Byte) :
    decode (halfBytes h ++ rest) = .ok (i, rest) := by
  show decode (field h 8 8 :: field h 0 8 :: rest) = _
  simp only [decode, append_halfBytes, isShort_eq_msb, hs, if_true, hi]

theorem decode_wordBytes {w : Word} {i : Instr} (hi : decode32? w = some i) (rest : List Byte) :
    decode (wordBytes w ++ rest) = .ok (i, rest) := by
  have hlong : ¬ isShort (field w 24 8 ++ field w 16 8) = true := fun h => by
    have hmsb : w.msb = true := by
      rw [isShort_eq_msb, msb_append_left _ _ (by decide)] at h
      exact (msb_wordBytes w).symm.trans h
    rw [decode32?_of_msb hmsb] at hi
    cases hi
  show decode (field w 24 8 :: field w 16 8 :: field w 8 8 :: field w 0 8 :: rest) = _
  simp only [decode, if_neg hlong, append_wordBytes, decode32, hi]

/-- The two ways bytes decode: a halfword that `decode16` knows, or a word that `decode32?` knows. -/
theorem decode_cases {bytes rest : List Byte} {i : Instr} (h : decode bytes = .ok (i, rest)) :
    (∃ x : Half, decode16 x = .ok i ∧ bytes = halfBytes x ++ rest)
      ∨ (∃ w : Word, decode32? w = some i ∧ bytes = wordBytes w ++ rest) := by
  unfold decode at h
  split at h
  · next b0 b1 rest' =>
    split at h
    · split at h
      · next hi =>
        cases h
        exact .inl ⟨_, hi, by rw [halfBytes_append]; rfl⟩
      · cases h
    · split at h
      · next b2 b3 rest'' =>
        split at h
        · next hi =>
          cases h
          refine .inr ⟨_, ?_, by rw [wordBytes_append]; rfl⟩
          unfold decode32 at hi
          split at hi
          · next hj => cases hi; exact hj
          · cases hi
        · cases h
      · cases h
  · cases h

end Sys2Proof
end

section
/-! PROOFS. Statement O54: decoding an encoded instruction gives it back. -/

namespace Sys2Proof

open Machine

/-! ## The fields of the words of each group (R581 to R586) -/

theorem field_miscWord (rt : BitVec 5) (mid : BitVec 15) (sub : BitVec 5) :
    field (miscWord rt mid sub) 25 7 = 0x32#7 ∧ field (miscWord rt mid sub) 20 5 = rt
      ∧ field (miscWord rt mid sub) 0 5 = sub := by
  simp (disch := decide) only [miscWord, Nat.reduceSub, field_append_of_le, field_append_of_ge, field_all, and_self]

theorem field_miscWord_mid {lo n : Nat} (rt : BitVec 5) (mid : BitVec 15) (sub : BitVec 5) (h : 5 ≤ lo)
    (hn : lo + n ≤ 20) : field (miscWord rt mid sub) lo n = field mid (lo - 5) n := by
  rw [miscWord, field_append_of_ge _ _ h]
  exact field_append_of_le _ _ (by omega)

theorem field_tlbopWord (rt ra sub : BitVec 5) :
    field (tlbopWord rt ra sub) 20 5 = rt ∧ field (tlbopWord rt ra sub) 15 5 = ra
      ∧ field (tlbopWord rt ra sub) 10 5 = 0#5 ∧ field (tlbopWord rt ra sub) 5 5 = sub
      ∧ field (tlbopWord rt ra sub) 0 5 = 0x0E#5 := by
  unfold tlbopWord
  simp (disch := decide) only [field_miscWord, field_miscWord_mid, field_append_of_le, field_append_of_ge,
    Nat.reduceSub, field_all, and_self]

theorem field_immWord (op : BitVec 7) (rt ra : Reg) (imm : BitVec 15) :
    field (immWord op rt ra imm) 25 7 = op ∧ field (immWord op rt ra imm) 20 5 = regBits rt
      ∧ field (immWord op rt ra imm) 15 5 = regBits ra ∧ field (immWord op rt ra imm) 0 15 = imm := by
  simp (disch := decide) only [immWord, Nat.reduceSub, field_append_of_le, field_append_of_ge, field_all, and_self]

/-- The pattern of an instruction with Rt and a 20-bit immediate (R586). -/
def imm20Word (op : BitVec 7) (rt : Reg) (imm : BitVec 20) : Word := op ++ regBits rt ++ imm

theorem field_imm20Word (op : BitVec 7) (rt : Reg) (imm : BitVec 20) :
    field (imm20Word op rt imm) 25 7 = op ∧ field (imm20Word op rt imm) 20 5 = regBits rt
      ∧ field (imm20Word op rt imm) 0 20 = imm := by
  simp (disch := decide) only [imm20Word, Nat.reduceSub, field_append_of_le, field_append_of_ge, field_all, and_self]

/-- The pattern of BEQZ and BNEZ, which bits 19:16 tell apart (R586). -/
def branchWord (rt : Reg) (sel : BitVec 4) (imm : BitVec 16) : Word := 0x27#7 ++ regBits rt ++ sel ++ imm

theorem field_branchWord (rt : Reg) (sel : BitVec 4) (imm : BitVec 16) :
    field (branchWord rt sel imm) 25 7 = 0x27#7 ∧ field (branchWord rt sel imm) 20 5 = regBits rt
      ∧ field (branchWord rt sel imm) 16 4 = sel ∧ field (branchWord rt sel imm) 0 16 = imm := by
  simp (disch := decide) only [branchWord, Nat.reduceSub, field_append_of_le, field_append_of_ge, field_all, and_self]

/-- The pattern of J (R586). -/
def jumpWord (imm : BitVec 24) : Word := 0x24#7 ++ 0#1 ++ imm

theorem field_jumpWord (imm : BitVec 24) :
    field (jumpWord imm) 25 7 = 0x24#7 ∧ bit (jumpWord imm) 24 = false ∧ field (jumpWord imm) 0 24 = imm := by
  simp (disch := decide) only [jumpWord, bit_eq_field, Nat.reduceSub, field_append_of_le, field_append_of_ge, field_all,
    BitVec.getLsbD_zero, and_self]

/-- The pattern of DIV and DIVS, which bits 9:0 tell apart (R585). -/
def divideWord (dt : Bool) (ra rb : Reg) (sub : BitVec 10) : Word :=
  0x21#7 ++ 0#3 ++ BitVec.ofBool dt ++ 0#1 ++ regBits ra ++ regBits rb ++ sub

theorem field_divideWord (dt : Bool) (ra rb : Reg) (sub : BitVec 10) :
    field (divideWord dt ra rb sub) 25 7 = 0x21#7 ∧ field (divideWord dt ra rb sub) 22 3 = 0#3
      ∧ bit (divideWord dt ra rb sub) 21 = dt ∧ bit (divideWord dt ra rb sub) 20 = false
      ∧ field (divideWord dt ra rb sub) 15 5 = regBits ra ∧ field (divideWord dt ra rb sub) 10 5 = regBits rb
      ∧ field (divideWord dt ra rb sub) 6 4 = field sub 6 4
      ∧ field (divideWord dt ra rb sub) 0 6 = field sub 0 6 := by
  simp (disch := decide) only [divideWord, bit_eq_field, Nat.reduceSub, field_append_of_le, field_append_of_ge,
    field_all, BitVec.getLsbD_zero, true_and, and_true]
  simp

/-! ## Decoding each group -/

theorem decode32?_miscWord (rt : BitVec 5) (mid : BitVec 15) (sub : BitVec 5) :
    decode32? (miscWord rt mid sub) = decodeMisc (miscWord rt mid sub) := by
  simp [decode32?, field_miscWord]

theorem decode32?_msyncWord (sub : BitVec 3) :
    decode32? (miscWord 0#5 (0#12 ++ sub) 0x0C#5) = some (.msync sub) := by
  have hzero : field (0#12 ++ sub) 3 12 = 0#12 := field_append_left 0#12 sub
  have hsub : field (0#12 ++ sub) 0 3 = sub := field_append_right 0#12 sub
  simp [decode32?_miscWord, decodeMisc, decodeMiscOperand, field_miscWord, field_miscWord_mid, hzero, hsub]

theorem decode32?_cctlWord (ra : Reg) :
    decode32? (miscWord 0#5 (regBits ra ++ 0b01001#10) 0x01#5) = some (.cctlL1dVaWb ra) := by
  have hra : field (regBits ra ++ 0b01001#10) 10 5 = regBits ra := field_append_left _ _
  have hop : field (regBits ra ++ 0b01001#10) 0 10 = 0b01001#10 := field_append_right _ _
  simp [decode32?_miscWord, decodeMisc, decodeMiscOperand, field_miscWord, field_miscWord_mid, hra, hop]

/-- A TLBOP by its subtype: PB may name Rt, FLUA names no register (R582). -/
theorem decode32?_tlbopWord (rt ra sub : BitVec 5) :
    decode32? (tlbopWord rt ra sub) =
      if sub = 5#5 then some (.tlbopPb (regOf rt) (regOf ra))
      else if rt ≠ 0#5 then none
      else if sub = 7#5 then (if ra = 0#5 then some .tlbopFlua else none)
      else if sub = 0#5 then some (.tlbopTrd (regOf ra))
      else if sub = 1#5 then some (.tlbopTwr (regOf ra))
      else if sub = 2#5 then some (.tlbopRwr (regOf ra))
      else if sub = 3#5 then some (.tlbopRwlk (regOf ra))
      else if sub = 4#5 then some (.tlbopUnlk (regOf ra))
      else if sub = 6#5 then some (.tlbopInv (regOf ra))
      else none := by
  refine (decode32?_miscWord rt _ 0x0E#5).trans ?_
  show decodeMisc (tlbopWord rt ra sub) = _
  simp [decodeMisc, decodeTlbop, decodeTlbopRa, field_tlbopWord]

theorem decode16_break16 (n : BitVec 9) : decode16 (0b1110101#7 ++ n) = .ok (.break16 n) := by
  simp (disch := decide) only [decode16, Nat.reduceSub, field_append_of_le, field_append_of_ge, field_all, if_true]

/-! ## The statement -/

/-- Every encoding but that of BREAK16 is a word that decodes to its instruction. -/
theorem exists_word_of_hasEncoding {i : Instr} (hi : i.hasEncoding = true) (h16 : ∀ n, i ≠ .break16 n) :
    ∃ w, encode i = wordBytes w ∧ decode32? w = some i := by
  cases i
  case lwVlpt => cases hi
  case break16 n => exact absurd rfl (h16 n)
  case mfsr r sr | mtsr r sr =>
    have hsr : field (sr ++ 0#5) 5 10 = sr := field_append_left sr 0#5
    have hpad : field (sr ++ 0#5) 0 5 = 0#5 := field_append_right sr 0#5
    exact ⟨_, rfl, by
      simp [decode32?_miscWord, decodeMisc, decodeMtsr, field_miscWord, field_miscWord_mid, hsr, hpad]⟩
  case setendL | setendB | dsb | isb | iret => exact ⟨_, rfl, by decide⟩
  case brk | syscall | trap =>
    exact ⟨_, rfl, by simp [decode32?_miscWord, decodeMisc, decodeMiscOperand, field_miscWord, field_miscWord_mid]⟩
  case msync sub => exact ⟨_, rfl, decode32?_msyncWord sub⟩
  case cctlL1dVaWb ra => exact ⟨_, rfl, decode32?_cctlWord ra⟩
  case tlbopTrd | tlbopTwr | tlbopRwr | tlbopRwlk | tlbopUnlk | tlbopInv | tlbopPb | tlbopFlua =>
    exact ⟨_, rfl, decode32?_tlbopWord _ _ _⟩
  case div | divs =>
    have hdiv : field 0x02F#10 6 4 = 0#4 ∧ field 0x02F#10 0 6 = 0x2F#6 := by decide
    have hdivs : field 0x02E#10 6 4 = 0#4 ∧ field 0x02E#10 0 6 = 0x2E#6 := by decide
    exact ⟨divideWord _ _ _ _, rfl, by simp [decode32?, decodeAlu2, field_divideWord, hdiv, hdivs]⟩
  case movi | sethi => exact ⟨imm20Word _ _ _, rfl, by simp [decode32?, decodeImm, field_imm20Word]⟩
  case ori | andi | addi | lwi | swi => exact ⟨_, rfl, by simp [decode32?, decodeImm, field_immWord]⟩
  case beqz | bnez =>
    exact ⟨branchWord _ _ _, rfl, by simp [decode32?, decodeImm, decodeBranch, field_branchWord]⟩
  case j imm => exact ⟨jumpWord imm, rfl, by simp [decode32?, decodeImm, decodeBranch, field_jumpWord]⟩

/-- Settles O54: a halfword for BREAK16 (`decode_halfBytes`), a word for every other instruction
(`decode_wordBytes`). -/
theorem decodeOfEncode : Obligations.DecodeOfEncode := by
  intro i rest hi
  by_cases h16 : ∃ n, i = .break16 n
  · obtain ⟨n, rfl⟩ := h16
    exact decode_halfBytes (decode16_break16 n) (msb_append_left _ _ (by decide)) rest
  · obtain ⟨w, henc, hdec⟩ := exists_word_of_hasEncoding hi fun n h => h16 ⟨n, h⟩
    rw [henc]
    exact decode_wordBytes hdec rest

end Sys2Proof
end

section
/-! PROOFS. Statement O55: bytes that decode are exactly the encoding of their instruction. -/

namespace Sys2Proof

open Machine

/-! ## Words from their fields (R581 to R586) -/

section
variable {w : Word}

theorem miscWord_eq {rt : BitVec 5} {mid : BitVec 15} {sub : BitVec 5} (hop : field w 25 7 = 0x32#7)
    (hrt : field w 20 5 = rt) (hmid : field w 5 15 = mid) (hsub : field w 0 5 = sub) : miscWord rt mid sub = w :=
  append_eq_self (append_eq_field (append_eq_field hop hrt rfl).symm hmid rfl).symm hsub

theorem tlbopWord_eq {rt ra sub : BitVec 5} (hop : field w 25 7 = 0x32#7) (hlow : field w 0 5 = 0x0E#5)
    (hrt : field w 20 5 = rt) (hra : field w 15 5 = ra) (hpad : field w 10 5 = 0#5) (hsub : field w 5 5 = sub) :
    tlbopWord rt ra sub = w :=
  miscWord_eq hop hrt (append_eq_field (append_eq_field hra hpad rfl).symm hsub rfl).symm hlow

theorem immWord_eq {op : BitVec 7} (hop : field w 25 7 = op) :
    immWord op (regOf (field w 20 5)) (regOf (field w 15 5)) (field w 0 15) = w :=
  append_eq_self (append_eq_field (append_eq_field hop rfl rfl).symm rfl rfl).symm rfl

theorem imm20Word_eq {op : BitVec 7} (hop : field w 25 7 = op) :
    imm20Word op (regOf (field w 20 5)) (field w 0 20) = w :=
  append_eq_self (append_eq_field hop rfl rfl).symm rfl

theorem branchWord_eq {sel : BitVec 4} (hop : field w 25 7 = 0x27#7) (hsel : field w 16 4 = sel) :
    branchWord (regOf (field w 20 5)) sel (field w 0 16) = w :=
  append_eq_self (append_eq_field (append_eq_field hop rfl rfl).symm hsel rfl).symm rfl

theorem jumpWord_eq (hop : field w 25 7 = 0x24#7) (hzero : bit w 24 = false) : jumpWord (field w 0 24) = w := by
  have hone : field w 24 1 = 0#1 := by rw [field_one, hzero]; rfl
  exact append_eq_self (append_eq_field hop hone rfl).symm rfl

theorem divideWord_eq {hi : BitVec 4} {lo : BitVec 6} (hop : field w 25 7 = 0x21#7) (hpad : field w 22 3 = 0#3)
    (hzero : bit w 20 = false) (hhi : field w 6 4 = hi) (hlo : field w 0 6 = lo) :
    divideWord (bit w 21) (regOf (field w 15 5)) (regOf (field w 10 5)) (hi ++ lo) = w := by
  have hone : field w 20 1 = 0#1 := by rw [field_one, hzero]; rfl
  have hdt : field w 21 1 = BitVec.ofBool (bit w 21) := field_one w 21
  have hsub : field w 0 10 = hi ++ lo := (append_eq_field hhi hlo rfl).symm
  have hupper : 0x21#7 ++ 0#3 ++ BitVec.ofBool (bit w 21) = field w 21 (7 + 3 + 1) :=
    append_eq_field (append_eq_field hop hpad rfl).symm hdt rfl
  have hpadded := append_eq_field hupper.symm hone rfl
  have hfirst := append_eq_field hpadded.symm (rfl : field w 15 5 = _) rfl
  have hregs := append_eq_field hfirst.symm (rfl : field w 10 5 = _) rfl
  exact append_eq_self hregs.symm hsub

end

/-! ## Encoding what each group decodes to -/

section
variable {w : Word} {i : Instr}

theorem encode_of_decode16 {h : Half} (hi : decode16 h = .ok i) : encode i = halfBytes h := by
  unfold decode16 at hi
  split at hi
  · next hop =>
    cases hi
    exact congrArg halfBytes (append_eq_self hop rfl)
  · cases hi

theorem encode_of_decodeMtsr (hop : field w 25 7 = 0x32#7) (hsub : field w 0 5 = 0x03#5) (h : decodeMtsr w = some i) :
    encode i = wordBytes w := by
  simp only [decodeMtsr] at h
  split at h
  · next hpad =>
    cases h
    exact congrArg wordBytes (miscWord_eq hop rfl (append_eq_field rfl hpad rfl).symm hsub)
  · split at h
    · next hend =>
      obtain ⟨hone, hsr, hrt⟩ := hend
      cases h
      exact congrArg wordBytes (miscWord_eq hop hrt (append_eq_field hsr hone rfl).symm hsub)
    · split at h
      · next hend =>
        obtain ⟨hone, hsr, hrt⟩ := hend
        cases h
        exact congrArg wordBytes (miscWord_eq hop hrt (append_eq_field hsr hone rfl).symm hsub)
      · cases h

theorem encode_of_decodeTlbopRa (hw : ∀ {sub : BitVec 5}, field w 5 5 = sub → tlbopWord 0#5 (field w 15 5) sub = w)
    (h : decodeTlbopRa w = some i) : encode i = wordBytes w := by
  simp only [decodeTlbopRa] at h
  split_ifs at h with h0 h1 h2 h3 h4 h6 <;> cases h
  · exact congrArg wordBytes (hw h0)
  · exact congrArg wordBytes (hw h1)
  · exact congrArg wordBytes (hw h2)
  · exact congrArg wordBytes (hw h3)
  · exact congrArg wordBytes (hw h4)
  · exact congrArg wordBytes (hw h6)

theorem encode_of_decodeTlbop (hop : field w 25 7 = 0x32#7) (hlow : field w 0 5 = 0x0E#5)
    (h : decodeTlbop w = some i) : encode i = wordBytes w := by
  unfold decodeTlbop at h
  split_ifs at h with hpad hpb hrt hflua hra
  all_goals rw [ne_eq, not_not] at hpad
  · cases h
    exact congrArg wordBytes (tlbopWord_eq hop hlow rfl rfl hpad hpb)
  all_goals rw [ne_eq, not_not] at hrt
  · cases h
    exact congrArg wordBytes (tlbopWord_eq hop hlow hrt hra hpad hflua)
  · exact encode_of_decodeTlbopRa (tlbopWord_eq hop hlow hrt rfl hpad) h

theorem encode_of_decodeMiscOperand (hop : field w 25 7 = 0x32#7) (hrt : field w 20 5 = 0#5)
    (h : decodeMiscOperand w = some i) : encode i = wordBytes w := by
  simp only [decodeMiscOperand] at h
  split_ifs at h with hbrk hsyscall htrap hcctl hmsync <;> cases h
  · exact congrArg wordBytes (miscWord_eq hop hrt rfl hbrk)
  · exact congrArg wordBytes (miscWord_eq hop hrt rfl hsyscall)
  · exact congrArg wordBytes (miscWord_eq hop hrt rfl htrap)
  · obtain ⟨hsub, hl1d⟩ := hcctl
    exact congrArg wordBytes (miscWord_eq hop hrt (append_eq_field rfl hl1d rfl).symm hsub)
  · obtain ⟨hsub, hzero⟩ := hmsync
    exact congrArg wordBytes (miscWord_eq hop hrt (append_eq_field hzero (rfl : field w 5 3 = _) rfl).symm hsub)

theorem encode_of_decodeMiscBare (hop : field w 25 7 = 0x32#7) (hrt : field w 20 5 = 0#5)
    (h : decodeMiscBare w = some i) : encode i = wordBytes w := by
  unfold decodeMiscBare at h
  split_ifs at h with hmid hiret hdsb hisb <;> rw [ne_eq, not_not] at hmid <;> cases h
  · exact congrArg wordBytes (miscWord_eq hop hrt hmid hiret)
  · exact congrArg wordBytes (miscWord_eq hop hrt hmid hdsb)
  · exact congrArg wordBytes (miscWord_eq hop hrt hmid hisb)

theorem encode_of_decodeMisc (hop : field w 25 7 = 0x32#7) (h : decodeMisc w = some i) : encode i = wordBytes w := by
  unfold decodeMisc at h
  split_ifs at h with hmfsr hpad hmtsr htlbop hrt
  · cases h
    exact congrArg wordBytes (miscWord_eq hop rfl (append_eq_field rfl hpad rfl).symm hmfsr)
  · exact encode_of_decodeMtsr hop hmtsr h
  · exact encode_of_decodeTlbop hop htlbop h
  · rw [ne_eq, not_not] at hrt
    split at h
    · next j hj =>
      cases h
      exact encode_of_decodeMiscOperand hop hrt hj
    · exact encode_of_decodeMiscBare hop hrt h

theorem encode_of_decodeAlu2 (hop : field w 25 7 = 0x21#7) (h : decodeAlu2 w = some i) : encode i = wordBytes w := by
  simp only [decodeAlu2] at h
  split_ifs at h with hpad hdiv hdivs <;> cases h
  all_goals
    push Not at hpad
    obtain ⟨hzero, hbit, hhi⟩ := hpad
  · exact congrArg wordBytes (divideWord_eq hop hzero (Bool.eq_false_iff.2 hbit) hhi hdiv)
  · exact congrArg wordBytes (divideWord_eq hop hzero (Bool.eq_false_iff.2 hbit) hhi hdivs)

theorem encode_of_decodeImm (h : decodeImm w = some i) : encode i = wordBytes w := by
  simp only [decodeImm] at h
  split_ifs at h with hmovi hsethi hori handi haddi hlwi hswi <;> cases h
  · exact congrArg wordBytes (imm20Word_eq hmovi)
  · exact congrArg wordBytes (imm20Word_eq hsethi)
  · exact congrArg wordBytes (immWord_eq hori)
  · exact congrArg wordBytes (immWord_eq handi)
  · exact congrArg wordBytes (immWord_eq haddi)
  · exact congrArg wordBytes (immWord_eq hlwi)
  · exact congrArg wordBytes (immWord_eq hswi)

theorem encode_of_decodeBranch (h : decodeBranch w = some i) : encode i = wordBytes w := by
  simp only [decodeBranch] at h
  split_ifs at h with hj hzero hop hbeqz hbnez <;> cases h
  · rw [Bool.not_eq_true] at hzero
    exact congrArg wordBytes (jumpWord_eq hj hzero)
  · rw [ne_eq, not_not] at hop
    exact congrArg wordBytes (branchWord_eq hop hbeqz)
  · rw [ne_eq, not_not] at hop
    exact congrArg wordBytes (branchWord_eq hop hbnez)

theorem encode_of_decode32? (h : decode32? w = some i) : encode i = wordBytes w := by
  unfold decode32? at h
  split_ifs at h with hmisc halu2
  · exact encode_of_decodeMisc hmisc h
  · exact encode_of_decodeAlu2 halu2 h
  · split at h
    · next j hj =>
      cases h
      exact encode_of_decodeImm hj
    · exact encode_of_decodeBranch h

/-- Only LW_VLPT has no bytes (R630). -/
theorem wellFormed_of_encode_ne_nil (h : encode i ≠ []) : WellFormed i = true := by
  cases i
  case lwVlpt => exact absurd rfl h
  all_goals rfl

end

/-- Settles O55: the bytes are those of a halfword or of a word (`decode_cases`), which the instruction's encoding puts
together again from its fields. -/
theorem encodeOfDecode : Obligations.EncodeOfDecode := by
  intro bytes rest i h
  obtain ⟨x, hx, rfl⟩ | ⟨w, hw, rfl⟩ := decode_cases h
  · have henc := encode_of_decode16 hx
    exact ⟨by rw [henc], wellFormed_of_encode_ne_nil (by rw [henc]; exact List.cons_ne_nil _ _)⟩
  · have henc := encode_of_decode32? hw
    exact ⟨by rw [henc], wellFormed_of_encode_ne_nil (by rw [henc]; exact List.cons_ne_nil _ _)⟩

end Sys2Proof
end

section
/-! PROOFS. Statements O5 and O7: LWI and SWI in the windows of the local memories. -/

namespace Sys2Proof.Machine

/-! ## Routing after translation -/

section
variable {s t : State} {va : Word} {acc : Acc} {vlpt : Bool} {x : Xlat}

/-- Translating changes nothing that routing to the ILM reads. -/
theorem route_translated_ilm (hx : translate s va acc vlpt = .ok x t) (hin : s.hitsIlm x.pa.toNat)
    (hoff : x.pa.toNat - s.ilmBase < s.cfg.ilmSize) :
    route t x.pa acc = .ok (.ilm (x.pa.toNat - s.ilmBase)) t := by
  have hbase : t.ilmBase = s.ilmBase := by rw [translate_eq hx]; rfl
  have hcfg : t.cfg = s.cfg := by rw [translate_eq hx]
  have hin' : t.hitsIlm x.pa.toNat := by rw [translate_eq hx]; exact hin
  rw [route_of_hitsIlm hin', hbase, hcfg, if_pos hoff]

/-- Translating changes nothing that routing to the DLM reads. -/
theorem route_translated_dlm (hx : translate s va acc vlpt = .ok x t) (hout : ¬s.hitsIlm x.pa.toNat)
    (hin : s.hitsDlm acc x.pa.toNat) (hoff : x.pa.toNat - s.dlmBase < s.dlmView) :
    route t x.pa acc = .ok (.dlm (s.coreBank (x.pa.toNat - s.dlmBase))) t := by
  have hbase : t.dlmBase = s.dlmBase := by rw [translate_eq hx]; rfl
  have hview : t.dlmView = s.dlmView := by rw [translate_eq hx]; rfl
  have hbank (k : Nat) : t.coreBank k = s.coreBank k := by rw [translate_eq hx]; rfl
  have hout' : ¬t.hitsIlm x.pa.toNat := by rw [translate_eq hx]; exact hout
  have hin' : t.hitsDlm acc x.pa.toNat := by rw [translate_eq hx]; exact hin
  rw [route_of_hitsDlm hout' hin', hbase, hview, hbank, if_pos hoff]

end

/-- Settles O5: LWI ends as `loadWord` answers (`exec_lwi_of_ok`), which reads where the translated address is
routed. -/
theorem lwiLoadsFromLocalMemory : Obligations.LwiLoadsFromLocalMemory := by
  intro s rt ra imm ea ha
  refine ⟨fun h => translate_untranslated h nofun, fun x t hx => ?_⟩
  have hilm : t.ilm = s.ilm := by rw [translate_eq hx]
  have hdlm : t.dlm = s.dlm := by rw [translate_eq hx]
  refine ⟨fun hin hoff => ?_, fun hout hin hoff => ?_⟩
  · rw [← hilm]
    exact exec_lwi_of_ok (loadWord_ilm ha hx (route_translated_ilm hx hin hoff))
  · obtain ⟨hon, hwin⟩ := hin
    have hroute := route_translated_dlm hx hout ⟨hon, nofun, hwin⟩ hoff
    rw [coreBank_eq_add] at hroute
    rw [← hdlm]
    exact exec_lwi_of_ok (loadWord_dlm ha hx hroute)

/-! ## Stores to the local memories -/

section
variable {s t : State} {va : Word} {x : Xlat} {off : Nat}

theorem storeWord_ilm (data : Word) (ha : va.toNat % 4 = 0) (hx : translate s va .store false = .ok x t)
    (hroute : route t x.pa .store = .ok (.ilm off) t) :
    storeWord s va data =
      .ok () { t.noteIlm with ilm := t.ilm.writeAll off (disassemble (dataBigEndian s x.cls) data) } := by
  rw [storeWord_translated data ha hx, hroute, Res.bind_ok, writePlace]

theorem storeWord_dlm (data : Word) (ha : va.toNat % 4 = 0) (hx : translate s va .store false = .ok x t)
    (hroute : route t x.pa .store = .ok (.dlm off) t) :
    storeWord s va data =
      .ok () { t.noteDlm with dlm := t.dlm.writeAll off (disassemble (dataBigEndian s x.cls) data) } := by
  rw [storeWord_translated data ha hx, hroute, Res.bind_ok, writePlace]

end

/-- What a local memory reads after a word was stored. -/
theorem LocalMem.read_writeAll_disassemble {m : LocalMem} (h : m.wf = true) (off : Nat) (big : Bool) (v : Word)
    (k : Nat) :
    (m.writeAll off (disassemble big v)).read k =
      if off ≤ k ∧ k < off + 4 then byteOf big v (k - off) else m.read k := by
  rw [LocalMem.read_writeAll h, disassemble_length]
  split
  · next hin => exact getD_disassemble big v (by omega)
  · rfl

/-- Settles O7: SWI ends as `storeWord` answers (`exec_swi_of_ok`), which writes where the translated address is
routed. -/
theorem swiStoresToDlm : Obligations.SwiStoresToDlm := by
  intro s rt ra imm ea hmem ha
  obtain ⟨-, hilmWf, hdlmWf⟩ := hmem
  refine ⟨fun h => translate_untranslated h nofun, fun x t hx => ?_⟩
  have hilm : t.ilm = s.ilm := by rw [translate_eq hx]
  have hdlm : t.dlm = s.dlm := by rw [translate_eq hx]
  refine ⟨fun hin hoff => ?_, fun hout hin hoff => ?_⟩
  · have hstore := storeWord_ilm (s.x rt) ha hx (route_translated_ilm hx hin hoff)
    refine ⟨_, exec_swi_of_ok hstore, fun k => ?_, ?_⟩
    · rw [hilm]
      exact LocalMem.read_writeAll_disassemble hilmWf _ _ _ k
    · rw [translate_eq hx]
      rfl
  · obtain ⟨hon, hwin⟩ := hin
    have hroute := route_translated_dlm hx hout ⟨hon, nofun, hwin⟩ hoff
    rw [coreBank_eq_add] at hroute
    refine ⟨_, exec_swi_of_ok (storeWord_dlm (s.x rt) ha hx hroute), fun k => ?_, ?_⟩
    · rw [hdlm]
      exact LocalMem.read_writeAll_disassemble hdlmWf _ _ _ k
    · rw [translate_eq hx]
      rfl

end Sys2Proof.Machine
end

section
/-! PROOFS. Statement O14: translation under the MPU. -/

namespace Sys2Proof.Machine

/-! ## The pages of the MPU: reserved M values and rights (R435 as under version 1, R485) -/

section
variable (super : Bool) (e : MpuEntry)

theorem mpuReserved_iff :
    (permOf false super e.m true).isNone = true ↔ e.m = 0#3 ∨ e.m = 4#3 ∨ e.m = 6#3 := by
  rw [permOf_isNone_iff]
  simp only [Bool.false_eq_true, false_and, not_false_eq_true, and_true]
  tauto

theorem mpuReadable_iff :
    ((permOf false super e.m true).getD (false, false)).1 = true ↔
      e.m = 1#3 ∨ e.m = 2#3 ∨ e.m = 3#3 ∨ (super = true ∧ (e.m = 5#3 ∨ e.m = 7#3)) := by
  rw [permOf_read_iff]
  simp only [Bool.false_eq_true, false_and, or_false]

theorem mpuWritable_iff :
    ((permOf false super e.m true).getD (false, false)).2 = true ↔
      e.m = 3#3 ∨ (super = true ∧ (e.m = 2#3 ∨ e.m = 7#3)) := by
  rw [permOf_write_iff]
  simp only [Bool.false_eq_true, false_and, or_false]

theorem mpuExecutable_eq : (if super then bit e.x 1 else bit e.x 0) = e.x.getLsbD (if super then 1 else 0) := by
  cases super <;> rfl

/-- The exceptions of the MPU in their order, with the rights spelled out (R485). -/
theorem mpuCause_eq (va : Word) (acc : Acc) :
    mpuCause super e va acc =
      if e.v = false then some (.tlbFill (acc == .fetch) va)
      else if e.c = 3#3 ∨ e.m = 0#3 ∨ e.m = 4#3 ∨ e.m = 6#3 then some (.reservedPte (acc == .fetch) va)
      else if acc = .fetch ∧ (e.hrange.toNat ≤ (va.extractLsb' 12 17).toNat
          ∨ ¬e.x.getLsbD (if super then 1 else 0) = true) then some (.nonExecutable va)
      else if acc = .load ∧ (e.hrange.toNat ≤ (va.extractLsb' 12 17).toNat
          ∨ ¬(e.m = 1#3 ∨ e.m = 2#3 ∨ e.m = 3#3 ∨ (super = true ∧ (e.m = 5#3 ∨ e.m = 7#3)))) then
        some (.readProtection va)
      else if acc = .store ∧ (e.hrange.toNat ≤ (va.extractLsb' 12 17).toNat
          ∨ ¬(e.m = 3#3 ∨ (super = true ∧ (e.m = 2#3 ∨ e.m = 7#3)))) then some (.writeProtection va)
      else none := by
  simp only [← mpuReserved_iff super, ← mpuReadable_iff, ← mpuWritable_iff, ← mpuExecutable_eq,
    Bool.not_eq_true]
  rfl

end

/-- A translated access under the MPU goes through its entries (R357); a fetch must be aligned first. -/
theorem translate_mpu {s : State} {va : Word} {acc : Acc} {vlpt : Bool} (hmpu : s.cfg.hasMpu = true)
    (hon : transEnabled s acc vlpt = true) (hf : acc = .fetch → (s.cfg.addr va).getLsbD 0 = false) :
    translate s va acc vlpt = mpuTranslate s (s.cfg.addr va) acc := by
  have heven : ¬(acc = .fetch ∧ bit (s.cfg.addr va) 0 = true) := fun ⟨hacc, hodd⟩ =>
    Bool.false_ne_true ((hf hacc).symm.trans hodd)
  rw [translate, if_neg heven, if_neg (by simp [hon]), if_pos hmpu]

/-- What the MPU answers: the exception, or the translated address. -/
def mpuAnswer (s : State) (x : Xlat) (c : Option Cause) : Res Xlat := c.elim (.ok x s) (Res.raise · s)

theorem mpuTranslate_eq (s : State) (va : Word) (acc : Acc) :
    mpuTranslate s va acc =
      mpuAnswer s ⟨((s.mpuOf va).psb + (0#3 ++ va.extractLsb' 12 17)) ++ va.extractLsb' 0 12, cClass (s.mpuOf va).c⟩
        (mpuCause s.superuser (s.mpuOf va) va acc) := by
  have hpage : (field va 12 17).setWidth 20 = 0#3 ++ va.extractLsb' 12 17 := BitVec.setWidth_eq_append (by decide)
  rw [mpuTranslate, hpage]
  cases mpuCause s.superuser (s.mpuOf va) va acc <;> rfl

/-- Settles O14: the MPU answers the first of its exceptions that applies (`mpuCause_eq`), or the address. -/
theorem mpuTranslates : Obligations.MpuTranslates := by
  intro s va acc vlpt hmpu h24 hon hf e beyond super readable writable executable
  have haddr : s.cfg.addr va = va := if_neg (by rw [h24]; exact Bool.false_ne_true)
  rw [translate_mpu hmpu hon (haddr.symm ▸ hf), haddr, mpuTranslate_eq, mpuCause_eq]
  simp only [apply_ite (mpuAnswer s _)]
  rfl

end Sys2Proof.Machine
end

section
/-! PROOFS. Statement O26: the PSW after an entry to level 1 or 2, bit by bit. -/

namespace Sys2Proof.Machine

section
variable (c : Config) (intMask old : Word) (l : BitVec 2) (ime dme dbg : Bool)

/-- Bits 0 and 5 to 14 of the entry's PSW (R784). -/
theorem entryPsw_bits :
    let new := entryPsw c intMask old l ime dme dbg
    new.getLsbD 0 = false ∧ new.getLsbD 5 = c.de ∧ new.getLsbD 6 = false ∧ new.getLsbD 7 = false
      ∧ new.getLsbD 8 = (ime || old.getLsbD 8) ∧ new.getLsbD 9 = (dme || old.getLsbD 9)
      ∧ new.getLsbD 10 = (dbg || old.getLsbD 10) ∧ new.getLsbD 11 = (old.getLsbD 11 && intMask.getLsbD 31)
      ∧ new.getLsbD 12 = c.drde ∧ new.getLsbD 13 = false ∧ new.getLsbD 14 = old.getLsbD 14 := by
  simp [entryPsw, bit_eq]

/-- The entry's PSW is 0 above its bits that exist (R101). -/
theorem entryPsw_high {i : Nat} (h15 : 15 ≤ i) (h32 : i < 32) :
    (entryPsw c intMask old l ime dme dbg).getLsbD i = false := by
  interval_cases i <;> simp [entryPsw]

end

/-- Settles O26: the entry is one below the overflow level, with the PSW of `entryPsw`. -/
theorem entryPswBits : Obligations.EntryPswBits := by
  intro c pc s hlevel old new
  have hbelow : s.level.toNat + 1 < s.cfg.maxLevel := by
    obtain h | ⟨h, hc⟩ := hlevel
    · exact level0_below h
    · exact level1_below hc h
  have hnew : new = entryPsw s.cfg s.ir.intMask old (s.level + 1#2) c.ime c.dme c.dbg :=
    congrArg IntRegs.psw (enter_level hbelow).1
  obtain ⟨hintl, hpom⟩ := entryPsw_modes s.cfg s.ir.intMask old (s.level + 1#2) c.ime c.dme c.dbg
  obtain ⟨h0, h5, h6, h7, h8, h9, h10, h11, h12, h13, h14⟩ :=
    entryPsw_bits s.cfg s.ir.intMask old (s.level + 1#2) c.ime c.dme c.dbg
  rw [hnew]
  exact ⟨h0, hintl, hpom, h5, h6, h7, h8, h9, h10, h11, h12, h13, h14, fun i h15 h32 =>
    entryPsw_high _ _ _ _ _ _ _ h15 h32⟩

end Sys2Proof.Machine
end

section
/-! PROOFS. Statement O34: the quotient and the remainder of DIV and DIVS. -/

namespace Sys2Proof.Machine

/-! ## The division laws -/

/-- A truncating remainder is zero or has the sign of the dividend. -/
theorem tmod_zero_or_sign (a b : Int) : a.tmod b = 0 ∨ (0 < a.tmod b ↔ 0 < a) := by
  have hsign := Int.sign_tmod a b
  split at hsign
  · exact .inl (Int.sign_eq_zero_iff_zero.1 hsign)
  · refine .inr ?_
    rw [← Int.sign_eq_one_iff_pos, hsign, Int.sign_eq_one_iff_pos]

section
variable {a b : Word}

/-- Quotient and remainder, unsigned. -/
theorem unsignedDivision (hb : b ≠ 0#32) :
    a.toNat = (a.udiv b).toNat * b.toNat + (a.umod b).toNat ∧ (a.umod b).toNat < b.toNat := by
  have hpos : 0 < b.toNat := Nat.pos_of_ne_zero fun h => hb (BitVec.eq_of_toNat_eq h)
  have hquot : (a.udiv b).toNat = a.toNat / b.toNat := BitVec.toNat_udiv
  have hrem : (a.umod b).toNat = a.toNat % b.toNat := BitVec.toNat_umod
  rw [hquot, hrem]
  exact ⟨(Nat.div_add_mod' _ _).symm, Nat.mod_lt _ hpos⟩

/-- Quotient and remainder, signed and without overflow. -/
theorem signedDivision (hb : b ≠ 0#32) (hfits : ¬(a = 0x80000000#32 ∧ b = 0xFFFFFFFF#32)) :
    a.toInt = (a.sdiv b).toInt * b.toInt + (a.srem b).toInt
      ∧ (a.srem b).toInt.natAbs < b.toInt.natAbs
      ∧ ((a.srem b).toInt = 0 ∨ (0 < (a.srem b).toInt ↔ 0 < a.toInt)) := by
  have hne : b.toInt ≠ 0 := fun h => hb (BitVec.eq_of_toInt_eq h)
  have hquot : (a.sdiv b).toInt = a.toInt.tdiv b.toInt :=
    BitVec.toInt_sdiv_of_ne_or_ne a b (not_and_or.1 hfits)
  rw [hquot, BitVec.toInt_srem, Int.natAbs_tmod]
  exact ⟨(Int.tdiv_mul_add_tmod _ _).symm, Nat.mod_lt _ (Int.natAbs_pos.2 hne), tmod_zero_or_sign _ _⟩

end

/-! ## The instructions -/

/-- A divide instruction by a divisor that is not zero, without overflow, writes quotient and remainder (R664). -/
theorem exec_divide_result {s : State} (signed dt : Bool) {ra rb : Reg} (hdiv : s.cfg.hasDiv = true)
    (hnod : s.cfg.nod = false) (hb : s.x rb ≠ 0#32)
    (hfits : ¬(signed ∧ s.x ra = 0x80000000#32 ∧ s.x rb = 0xFFFFFFFF#32)) :
    exec (if signed then .divs dt ra rb else .div dt ra rb) s =
      .next ((s.setD dt (quotRem signed (s.x ra) (s.x rb))).retire s.pc (s.cfg.addr (s.pc + 4#32))) := by
  rw [exec_divide, divide_present signed dt _ _ hdiv hnod, if_neg hb, if_neg hfits, complete_ok]
  rfl

/-- Settles O34: the instructions write the words of `unsignedDivision` and `signedDivision`. -/
theorem divideResults : Obligations.DivideResults := by
  intro s dt ra rb hdiv hnod hb a b
  refine ⟨⟨a.umod b, a.udiv b, ?_, unsignedDivision hb⟩, fun hfits =>
    ⟨a.srem b, a.sdiv b, ?_, signedDivision hb hfits⟩⟩
  · exact exec_divide_result false dt hdiv hnod hb fun ⟨h, _⟩ => Bool.false_ne_true h
  · exact exec_divide_result true dt hdiv hnod hb fun ⟨_, h⟩ => hfits h

end Sys2Proof.Machine
end

section
/-! PROOFS. Statement O47: which pending imprecise exception is taken. -/

namespace Sys2Proof.Machine

/-! ## The pick among the pending exceptions (R816) -/

/-- What one pending exception changes about the best pick so far. -/
def pickStep (l : BitVec 2) (best : Option (Nat × PendImp)) (p : Nat × PendImp) : Option (Nat × PendImp) :=
  if p.2.level < l then best
  else
    match best with
    | none => some p
    | some b => if p.2.cause.row < b.2.cause.row then some p else best

theorem pickImprecise_nil (l : BitVec 2) : pickImprecise l [] = none := rfl

/-- The youngest pending exception is looked at last. -/
theorem pickImprecise_concat (l : BitVec 2) (ps : List PendImp) (p : PendImp) :
    pickImprecise l (ps ++ [p]) = pickStep l (pickImprecise l ps) (ps.length, p) := by
  have hzip : (List.range (ps ++ [p]).length).zip (ps ++ [p]) =
      (List.range ps.length).zip ps ++ [(ps.length, p)] := by
    rw [List.length_append, List.length_singleton, List.range_succ, List.zip_append List.length_range]
    rfl
  rw [pickImprecise, hzip, List.foldl_append]
  rfl

section
variable {l : BitVec 2} {best : Option (Nat × PendImp)} {p : Nat × PendImp}

theorem pickStep_of_low (h : p.2.level < l) : pickStep l best p = best := if_pos h

theorem pickStep_none (h : ¬p.2.level < l) : pickStep l none p = some p := if_neg h

theorem pickStep_some (h : ¬p.2.level < l) (b : Nat × PendImp) :
    pickStep l (some b) p = if p.2.cause.row < b.2.cause.row then some p else some b := if_neg h

end

/-- Position `k` holds the oldest exception of the first row among those generated at level `l` or above. -/
def FirstAt (l : BitVec 2) (ps : List PendImp) (k : Nat) (p : PendImp) : Prop :=
  ps[k]? = some p ∧ l ≤ p.level ∧ ∀ j q, ps[j]? = some q → l ≤ q.level →
    p.cause.row ≤ q.cause.row ∧ (j < k → p.cause.row < q.cause.row)

/-- The elements of a list with one more at its end. -/
theorem getElem?_concat_eq_some {α : Type} {ps : List α} {p q : α} {j : Nat} :
    (ps ++ [p])[j]? = some q ↔ ps[j]? = some q ∨ (j = ps.length ∧ p = q) := by
  obtain h | rfl | h := Nat.lt_trichotomy j ps.length
  · simp [List.getElem?_append_left h, h.ne]
  · simp
  · have hnone : ps[j]? = none := List.getElem?_eq_none h.le
    have hnone' : (ps ++ [p])[j]? = none := List.getElem?_eq_none (by simpa using h)
    simp [hnone, hnone', h.ne']

section
variable {l : BitVec 2} {ps : List PendImp} {k : Nat} {p b : PendImp}

/-- The pick stays when the new exception is of a level below, or of no earlier row. -/
theorem FirstAt.concat_old (h : FirstAt l ps k b) (hp : l ≤ p.level → b.cause.row ≤ p.cause.row) :
    FirstAt l (ps ++ [p]) k b := by
  obtain ⟨hk, hlevel, hfirst⟩ := h
  obtain ⟨hlt, -⟩ := List.getElem?_eq_some_iff.1 hk
  refine ⟨getElem?_concat_eq_some.2 (.inl hk), hlevel, fun j q hj hq => ?_⟩
  obtain hj | ⟨rfl, rfl⟩ := getElem?_concat_eq_some.1 hj
  · exact hfirst j q hj hq
  · exact ⟨hp hq, fun hjk => absurd hjk hlt.not_gt⟩

/-- The new exception is the pick when its row comes before those of the older ones that may be taken. -/
theorem FirstAt.concat_new (hp : l ≤ p.level)
    (h : ∀ (j : Nat) (q : PendImp), ps[j]? = some q → l ≤ q.level → p.cause.row < q.cause.row) :
    FirstAt l (ps ++ [p]) ps.length p := by
  refine ⟨getElem?_concat_eq_some.2 (.inr ⟨rfl, rfl⟩), hp, fun j q hj hq => ?_⟩
  obtain hj | ⟨rfl, rfl⟩ := getElem?_concat_eq_some.1 hj
  · have hrow := h j q hj hq
    exact ⟨hrow.le, fun _ => hrow⟩
  · exact ⟨le_rfl, fun hjk => absurd hjk (lt_irrefl _)⟩

end

/-- Nothing is picked where every pending exception is of a level below, else the first. -/
theorem pickImprecise_spec (l : BitVec 2) (ps : List PendImp) :
    (pickImprecise l ps = none ∧ ∀ p ∈ ps, p.level < l)
      ∨ ∃ k p, pickImprecise l ps = some (k, p) ∧ FirstAt l ps k p := by
  induction ps using List.reverseRecOn with
  | nil => exact .inl ⟨pickImprecise_nil l, nofun⟩
  | append_singleton ps p ih =>
    rw [pickImprecise_concat]
    by_cases hlow : p.level < l
    · rw [pickStep_of_low hlow]
      obtain ⟨hpick, hall⟩ | ⟨k, b, hpick, hfirst⟩ := ih
      · refine .inl ⟨hpick, fun q hq => ?_⟩
        obtain hq | hq := List.mem_append.1 hq
        · exact hall q hq
        · exact List.mem_singleton.1 hq ▸ hlow
      · exact .inr ⟨k, b, hpick, hfirst.concat_old fun h => absurd hlow (BitVec.not_lt.2 h)⟩
    · have hhigh : l ≤ p.level := BitVec.not_lt.1 hlow
      obtain ⟨hpick, hall⟩ | ⟨k, b, hpick, hfirst⟩ := ih <;> rw [hpick]
      · refine .inr ⟨ps.length, p, pickStep_none hlow, FirstAt.concat_new hhigh fun j q hj hq => ?_⟩
        exact absurd (hall q (List.mem_of_getElem? hj)) (BitVec.not_lt.2 hq)
      · rw [pickStep_some hlow]
        have ⟨_, _, hrows⟩ := hfirst
        split
        · next hrow =>
          refine .inr ⟨ps.length, p, rfl, FirstAt.concat_new hhigh fun j q hj hq => ?_⟩
          obtain ⟨hle, -⟩ := hrows j q hj hq
          exact hrow.trans_le hle
        · next hrow => exact .inr ⟨k, b, rfl, hfirst.concat_old fun _ => Nat.not_lt.1 hrow⟩

/-! ## The boundary -/

/-- With no other event the boundary takes the pick, which it removes. -/
theorem boundary_imprecise {s : State} (hstep : s.stepEvt = false) (hnmi : s.env.nmi = false)
    (hirq : interruptCause s = none) :
    boundary s = (pickImprecise s.level s.pendImp).map fun (k, p) =>
      (p.cause, { s with pendImp := s.pendImp.eraseIdx k }) := by
  rw [boundary, hstep, hnmi, hirq, if_neg Bool.false_ne_true, if_neg Bool.false_ne_true]
  cases pickImprecise s.level s.pendImp <;> rfl

/-- The rows of Table 11. -/
theorem Cause.row_eq (c : Cause) :
    (if c = .impreciseBusError true then 48 else if c = .impreciseBusError false then 47 else 43) = c.row := by
  cases c
  case impreciseBusError fetch => cases fetch <;> rfl
  all_goals rfl

/-- Settles O47: the boundary takes the pick (`boundary_imprecise`), which is the first (`pickImprecise_spec`); a step
enters what its boundary takes (`step_event`). -/
theorem impreciseExceptionsRespectTheLevel : Obligations.ImpreciseExceptionsRespectTheLevel := by
  refine ⟨?_, fun s t c hgo hb => step_event hgo hb⟩
  intro s hstep hnmi hirq row
  have hrow : row = Cause.row := funext Cause.row_eq
  rw [boundary_imprecise hstep hnmi hirq, hrow]
  obtain ⟨hpick, hall⟩ | ⟨k, p, hpick, hfirst⟩ := pickImprecise_spec s.level s.pendImp
  · rw [hpick, Option.map_none]
    exact ⟨fun c t h => absurd h.symm (Option.some_ne_none _), iff_of_true rfl hall⟩
  · obtain ⟨hk, hlevel, hrows⟩ := hfirst
    rw [hpick, Option.map_some]
    refine ⟨fun c t h => ?_, iff_of_false (Option.some_ne_none _) fun hall => ?_⟩
    · obtain ⟨rfl, rfl⟩ := Prod.mk.inj (Option.some.inj h)
      exact ⟨k, p, hk, rfl, hlevel, rfl, hrows⟩
    · exact absurd (hall p (List.mem_of_getElem? hk)) (BitVec.not_lt.2 hlevel)

end Sys2Proof.Machine
end

section
/-! PROOFS. Statements O1, O2 and O56: the instructions that write a register or pc only, and the worked encodings. -/

namespace Sys2Proof.Machine

/-! ## Register writes (R41, R586) -/

/-- A general register after a write to one. -/
theorem x_setX (s : State) (rt k : Reg) (v : Word) : (s.setX rt v).x k = if k = rt then v else s.x k := by
  by_cases h : k = rt
  · rw [if_pos h, h]
    exact Vector.getElem_set_self _
  · rw [if_neg h]
    exact Vector.getElem_set_ne rt.isLt k.isLt fun he => h (Fin.ext he.symm)

/-- Settles O1: each instruction is `writeReg` of its value; read-back is `x_setX`. -/
theorem immediateInstructions : Obligations.ImmediateInstructions := by
  intro s rt ra i20 i15 done
  exact ⟨rfl, rfl, rfl, rfl, rfl, fun k v => x_setX s rt k v⟩

/-! ## Branches and barriers (R586, R644, R645, R646, R650) -/

section
variable (s : State)

/-- A branch's displacement counts halfwords. -/
theorem branchTarget_eq {n : Nat} (imm : BitVec n) :
    branchTarget s imm = s.cfg.addr (s.pc + imm.signExtend 32 * 2#32) := by
  have hdouble : sext imm <<< 1 = imm.signExtend 32 * 2#32 := by
    rw [BitVec.shiftLeft_eq_mul_twoPow]
    rfl
  rw [branchTarget, hdouble]
  rfl

theorem exec_beqz (rt : Reg) (imm : BitVec 16) :
    exec (.beqz rt imm) s = .next (s.retire s.pc (if s.x rt = 0#32 then branchTarget s imm else s.next4)) := by
  have hcond : (if (s.x rt == 0#32) = true then branchTarget s imm else s.next4)
      = if s.x rt = 0#32 then branchTarget s imm else s.next4 := if_congr beq_iff_eq rfl rfl
  rw [← hcond]
  rfl

theorem exec_bnez (rt : Reg) (imm : BitVec 16) :
    exec (.bnez rt imm) s = .next (s.retire s.pc (if s.x rt = 0#32 then s.next4 else branchTarget s imm)) := by
  have hcond : (if (s.x rt != 0#32) = true then branchTarget s imm else s.next4)
      = if s.x rt = 0#32 then s.next4 else branchTarget s imm :=
    (if_congr bne_iff_ne rfl rfl).trans (ite_not ..)
  rw [← hcond]
  rfl

theorem exec_j (imm : BitVec 24) : exec (.j imm) s = .next (s.retire s.pc (branchTarget s imm)) := rfl

/-- Barriers and CCTL go on (R644, R645, R646, R650). -/
theorem exec_barrier {i : Instr} {sub : BitVec 3} {ra : Reg}
    (h : i = .dsb ∨ i = .isb ∨ i = .msync sub ∨ i = .cctlL1dVaWb ra) :
    exec i s = .next (s.retire s.pc s.next4) := by
  obtain rfl | rfl | rfl | rfl := h <;> rfl

end

/-- Settles O2: each instruction's own equation, with the targets of `branchTarget_eq`. -/
theorem branchesAndBarriersChangeOnlyPc : Obligations.BranchesAndBarriersChangeOnlyPc := by
  intro s rt ra i16 i24 sub next target16 target24
  have h16 : branchTarget s i16 = target16 := branchTarget_eq s i16
  have h24 : branchTarget s i24 = target24 := branchTarget_eq s i24
  rw [← h16, ← h24]
  exact ⟨exec_beqz s rt i16, exec_bnez s rt i16, exec_j s i24, fun i h => exec_barrier s h⟩

/-! ## Worked encodings (R587) -/

/-- Settles O56: the decoder run on each word. -/
theorem workedEncodings : Obligations.WorkedEncodings := by
  unfold Obligations.WorkedEncodings
  decide

end Sys2Proof.Machine
end

section
/-! PROOFS. Statements O57, O49 and O48: the reset state and the reset event. -/

namespace Sys2Proof.Machine

/-! ## The invariants of the reset state -/

section
variable (c : Config) (kind : ResetKind)

theorem resetOf_modesOk : (State.resetOf c kind).modesOk :=
  ⟨pswReserved_resetPsw c, pswReserved_zero c, pswReserved_zero c⟩

theorem resetOf_interruptionReservedOk : (State.resetOf c kind).interruptionReservedOk :=
  ⟨resetPsw_within c, within_zero _, within_zero _, resetIvb_within c, resetItype_within c kind, within_zero _,
    within_zero _, intMaskReset_within c⟩

theorem resetOf_mmuReservedOk : (State.resetOf c kind).mmuReservedOk := by
  have hl1 : within 0xFFFFF001#32 1#32 := rfl
  have hcache : within 0x3F#32 0x30#32 := rfl
  exact ⟨resetMmuCtl_within c, hl1, within_zero _, within_zero _, within_zero _, within_zero _, within_zero _,
    within_zero _, hcache, within_zero _, within_zero _⟩

/-- No entry of the TLB is listed. -/
theorem resetOf_tlbOk : (State.resetOf c kind).tlbOk := ⟨rfl, fun _ h => absurd h List.not_mem_nil⟩

/-- Both channels are Idle. -/
theorem resetOf_dmaOk : (State.resetOf c kind).dmaOk := by
  have hidle : DmaChan.reset.stat = .idle := rfl
  simp [State.dmaOk, State.resetOf, DmaEngine.reset, hidle]

end

/-- Settles O57: one lemma per invariant. -/
theorem resetHasTheInvariants : Obligations.ResetHasTheInvariants := by
  intro c kind s
  exact ⟨⟨reset_mem_wf c kind, LocalMem.lost_wf 0, LocalMem.lost_wf 1⟩, resetOf_modesOk c kind,
    resetOf_interruptionReservedOk c kind, resetOf_mmuReservedOk c kind, resetOf_tlbOk c kind, resetOf_dmaOk c kind⟩

/-- Settles O49: the reset state of CFG_EX, evaluated. -/
theorem resetValues : Obligations.ResetValues := by
  unfold Obligations.ResetValues
  decide

/-! ## Words of the reset state (R921, R922) -/

section
variable (c : Config)

theorem resetPsw_eq :
    resetPsw c = 0xA#32 ||| (if c.de then 0x20#32 else 0#32) ||| (if c.drde then 0x1000#32 else 0#32) := rfl

theorem resetIvb_eq : resetIvb c = c.ivbResetIvbase ++ 1#2 ++ BitVec.ofBool c.ivbResetEvic ++ 0#13 := by
  refine BitVec.eq_of_getLsbD_eq fun i hi => ?_
  rw [resetIvb, BitVec.getLsbD_or, getLsbD_bitAt, BitVec.getLsbD_append, BitVec.getLsbD_append, BitVec.getLsbD_append,
    BitVec.getLsbD_append]
  by_cases hhigh : 16 ≤ i
  · simp [show ¬i < 16 by omega, show ¬i < 13 by omega, show ¬i - 13 < 1 by omega, show ¬i - 13 - 1 < 2 by omega,
      show 13 ≠ i by omega, show i - 13 - 1 - 2 = i - 16 by omega]
  · interval_cases i <;> simp

/-- MMU_CTL after reset: each NTM field its own number where they exist, DREE, and 0 elsewhere. -/
theorem resetMmuCtl_fields :
    (∀ p : BitVec 2, field (resetMmuCtl c) (11 + 2 * p.toNat) 2 = if c.ntme then p else 0#2)
      ∧ (resetMmuCtl c).extractLsb' 0 11 = 0#11
      ∧ (resetMmuCtl c).extractLsb' 19 13 = 0#12 ++ BitVec.ofBool c.mmuCtlResetDree := by
  unfold resetMmuCtl Config.ntme
  cases bit c.mmuCfg 30 <;> cases c.mmuCtlResetDree <;> decide

/-- MISC_CTL after reset: BTB and RTP where they exist (R302, R304, R306). -/
theorem resetMiscCtl_eq :
    resetMiscCtl c = (if c.idrExists then
      (let cpuid := c.cpuVer.extractLsb' 24 8
      if cpuid = 0x0C#8 then 3#32
      else (if cpuid = 0x0A#8 ∧ c.n1003 = false ∧ c.idrBtb = true then 1#32 else 0#32)
        ||| (if c.idrRtp = true then 2#32 else 0#32))
    else 0#32) := by
  rw [resetMiscCtl, miscMask_eq]
  simp only [and_assoc]
  split_ifs <;> rfl

end

/-! ## What a reset leaves, whatever it keeps (R921, R923) -/

section
variable (s : State) (kind : ResetKind)

/-- The registers of ir0 to ir15 that no reset keeps. -/
theorem resetIr_fixed :
    (resetIr s kind).psw = resetPsw s.cfg ∧ (resetIr s kind).ivb = resetIvb s.cfg
      ∧ (resetIr s kind).itype = (match kind with | .cold => 0#32 | .warm => 1#32)
      ∧ (resetIr s kind).intMask = 0xC0000000#32 ∧ (resetIr s kind).swi = false
      ∧ (resetIr s kind).merr = 0#32 := by
  unfold resetIr
  split <;> exact ⟨rfl, rfl, rfl, rfl, rfl, rfl⟩

/-- A kept word loses the bits that its mask clears. -/
theorem getLsbD_kept (keep : Bool) (v mask : Word) {i : Nat} (h : mask.getLsbD i = false) :
    (if keep then v &&& mask else 0#32).getLsbD i = false := by
  cases keep
  · exact BitVec.getLsbD_zero
  · exact (BitVec.getLsbD_and).trans (by rw [h, Bool.and_false])

/-- ILMB and DLMB have their low ten bits 0, and HSMP_SADDR its enable. -/
theorem resetMr_enables :
    (∀ i < 10, (resetMr s kind).ilmb.getLsbD i = false) ∧ (∀ i < 10, (resetMr s kind).dlmb.getLsbD i = false)
      ∧ (resetMr s kind).hsmpSaddr.getLsbD 0 = false := by
  have hlow : ∀ i < 10, (0xFFFFFC00#32).getLsbD i = false := by decide
  exact ⟨fun i hi => getLsbD_kept _ _ _ (hlow i hi), fun i hi => getLsbD_kept _ _ _ (hlow i hi),
    getLsbD_kept _ _ _ rfl⟩

/-- The local memories are off, in no double-buffer mode. -/
theorem resetState_localMemories :
    (resetState s kind).ilmOn = false ∧ (resetState s kind).dlmOn = false ∧ (resetState s kind).dbm = false
      ∧ (resetState s kind).dbb = false := by
  obtain ⟨hilm, hdlm, -⟩ := resetMr_enables s kind
  have hoff {exists_ b : Bool} (h : b = false) : (exists_ && b) = false := by rw [h, Bool.and_false]
  exact ⟨hoff (hilm 0 (by decide)), hoff (hdlm 0 (by decide)), hoff (hdlm 5 (by decide)), hdlm 6 (by decide)⟩

theorem resetState_pfmCtl : (resetState s kind).pfm.pfmCtl = 0#32 := by
  show PfmRegs.pfmCtl (if _ then _ else _) = 0#32
  split <;> rfl

/-- A channel, its registers kept or not. -/
theorem resetChan_fixed (keep : Bool) (c : DmaChan) :
    (resetChan keep c).stat = .idle ∧ (resetChan keep c).err = .none ∧ (resetChan keep c).int = false
      ∧ (resetChan keep c).setup = 0#32 := by
  cases keep <;> exact ⟨rfl, rfl, rfl, rfl⟩

theorem resetState_chan (n : Bool) :
    (resetState s kind).chan n = resetChan (keeps s kind .dmaRegs) (s.chan n) := by
  cases n <;> rfl

end

/-! ## The step -/

/-- A reset input replaces the step (R920). -/
theorem step_reset {s : State} {kind : ResetKind} (h : (sample s).2 = some kind) :
    step s = .next (resetState (sample s).1 kind) := by
  rw [step, runStep]
  rcases hs : sample s with ⟨t, k⟩
  rw [hs] at h
  dsimp only at h
  rw [h]

/-- Settles O48: the step is `resetState` of the sampled state, each item by its lemma. -/
theorem resetEvent : Obligations.ResetEvent := by
  intro s i rest kind hinputs hreset
  let u := (sample s).1
  have hkind : (sample s).2 = some kind := by rw [sample_input hinputs, hreset]
  have hcfg : (sample s).1.cfg = s.cfg := by rw [sample_frame s]
  have hmem : (sample s).1.mem = s.mem := by rw [sample_frame s]
  obtain ⟨hpsw, hivb, hitype, hmask, hswi, hmerr⟩ := resetIr_fixed u kind
  obtain ⟨hntm, hlow, hhigh⟩ := resetMmuCtl_fields u.cfg
  obtain ⟨-, -, hhsmp⟩ := resetMr_enables u kind
  obtain ⟨hilmOn, hdlmOn, hdbm, hdbb⟩ := resetState_localMemories u kind
  obtain ⟨-, hilmSize, -⟩ := ilmbMask_fields u.cfg
  obtain ⟨-, hdlmSize, -⟩ := dlmbMask_fields u.cfg
  have hchan (n : Bool) := resetState_chan u kind n ▸ resetChan_fixed (keeps u kind .dmaRegs) (u.chan n)
  refine ⟨resetState u kind, step_reset hkind, ?_⟩
  rw [← hcfg, ← hmem]
  exact ⟨rfl, hpsw.trans (resetPsw_eq u.cfg), hivb.trans (resetIvb_eq u.cfg), hitype, hmask, hswi, hmerr, hntm, hlow,
    hhigh, rfl, rfl, rfl, hilmOn, hdlmOn, hdbm, hdbb, lmb_size hilmSize _ _, lmb_size hdlmSize _ _, hhsmp,
    resetState_pfmCtl u kind, rfl, rfl, rfl, resetMiscCtl_eq u.cfg, rfl, rfl, hchan, fun _ => ⟨rfl, rfl⟩, rfl, rfl,
    rfl, rfl, rfl, rfl⟩

end Sys2Proof.Machine
end
